-- ==== Sys2Proof/Word.lean ====
section
/-! DEFINITION. Word types of the YS9 (R6, R7): bit 0 is the least significant bit, memory is little-endian,
a 64-bit operand is a pair of 32-bit registers with the even register low. -/

namespace Sys2Proof

/-- A 32-bit register value (R43). -/
abbrev W32 := BitVec 32
/-- A 64-bit value: an instruction word, an address, or a register pair (R7, R22). -/
abbrev W64 := BitVec 64
/-- A register field of an instruction word. -/
abbrev Fld := BitVec 8

/-- The high:low slice of a word (R6). -/
def slice {w : Nat} (x : BitVec w) (hi lo : Nat) : BitVec (hi - lo + 1) := x.extractLsb' lo (hi - lo + 1)

/-- Bit `i` of a word. -/
def bit {w : Nat} (x : BitVec w) (i : Nat) : Bool := x.getLsbD i

/-- A register pair read as one value (R7): the even register holds bits 31:0. -/
def pair (lo hi : W32) : W64 := hi ++ lo
/-- Bits 31:0 of a 64-bit value. -/
def lo32 (x : W64) : W32 := x.setWidth 32
/-- Bits 63:32 of a 64-bit value. -/
def hi32 (x : W64) : W32 := (x >>> 32).setWidth 32

/-- One bit from a truth value. -/
def ofBool32 (b : Bool) : W32 := if b then 1 else 0

end Sys2Proof
end

