-- ==== Sys2Proof/Config.lean ====
section
/-! DEFINITION. What one device fixes (R1, R2) and the values the spec leaves open: each free value is an opaque
constant without a body, so no proof can see what it is. -/

namespace Sys2Proof.Config

/-- Compute dies of a device, clusters of a die, cores of a cluster (R1, R2). -/
def dies : Nat := 8
def clusters : Nat := 6
def coresPerCluster : Nat := 8
/-- Cores of a die and of the device (R3). -/
def coresPerDie : Nat := 48
def cores : Nat := 384
/-- Bytes of one bonded DRAM channel (R2). -/
def channelBytes : Nat := 2 ^ 30
/-- Bytes of a team-visible scratchpad of a core (R154). -/
def scratchBytes : Nat := 262144
/-- Named barriers of a core (R178). -/
def barriers : Nat := 1024
/-- Tile slots of a core and bytes of a slot (R193). -/
def tileSlots : Nat := 32
def slotBytes : Nat := 16384
/-- Accumulator bank of a core in 1 KiB granules (R201). -/
def accGranules : Nat := 256
/-- Buffer entries of a core (R165) and its copy fault records (R171). -/
def bufferEntries : Nat := 256
def copyFaultRecords : Nat := 16
/-- Poison records of a core (R228) and span-table entries (R120). -/
def poisonRecords : Nat := 64
def spanEntries : Nat := 32
/-- Live generations of a job (R326). -/
def liveGens : Nat := 15
/-- Set descriptors of a job and set-heap chunks of a die: 48 MiB in 256-byte chunks (R256, R259). -/
def setDescriptors : Nat := 2 ^ 24
def heapChunksPerDie : Nat := 196608
/-- The representation cost above which a set is sharded, kept from HASH, or resharded (R262, R268). -/
def shardLimit : Nat := 4194304

/-- The value a byte of physical memory that nothing has written reads as. DESIGN CHOICE: the spec gives DRAM no
contents at reset (log entry 2). -/
def unwritten : BitVec 8 := 0

/-- Cycles of `%clock` that pass in step `n` (R55 fixes no cycle count). Free value, log entry 7. -/
opaque cycles : Nat → Nat
/-- Whether an engine reading an operand-store byte that was written since the team's last OPRF sees the new value
(R199, R200 allow both). Free value, log entry 8; the argument is a fresh counter value. -/
opaque seesUnpublished : Nat → Bool
/-- The measurement register after a digest is extended into it (R370 names the step, not the function of the
register). Free value, log entry 9. -/
opaque measure : BitVec 256 → BitVec 256 → BitVec 256

/-- Whether the LMS signature of the image that bytes hold verifies, its SVN, and its SHA-256 digest (R370): the spec names
these functions of the image and gives neither their text nor the image's layout. Free values, log entry 61. -/
opaque imageSigned : List (BitVec 8) → Bool
opaque imageSvn : List (BitVec 8) → BitVec 16
opaque imageDigest : List (BitVec 8) → BitVec 256

/-- A byte that an engine of this device reads from memory another device owns (R380): what that memory holds is not
part of this machine. Free value, log entry 12; the argument is a fresh counter value. -/
opaque remoteByte : Nat → BitVec 8

/-- What `substat` holds after a submission whose card cannot be read at all, or whose address is not a multiple of 128:
R374 names no status for it. Free value, log entry 21; the argument is a fresh counter value. -/
opaque freeStatus : Nat → BitVec 32

/-- The byte that COPYOUT, or the read of a submitted card, gives for a byte of device memory with an uncorrectable error:
R376 names no status for it. Free value, log entry 22; the argument is a fresh counter value. -/
opaque damagedByte : Nat → BitVec 8

/-- Blocks of 4 KiB that lower tier `t` (1 host memory, 2 CXL, 3 NVMe) has room for: R328 leaves what is attached to the
device open. Free value, log entry 23. -/
opaque tierBlocks : Nat → Nat

end Sys2Proof.Config
end

