-- ==== Sys2Proof/Machine/Table.lean ====
section
/-! DEFINITION. Sparse tables held as lists of (key, value) pairs in ascending key order, and byte memories in their
canonical form: ascending addresses, no entry equal to the value an unlisted address reads as. -/

namespace Sys2Proof

/-- A sparse table: keys ascend and do not repeat. -/
abbrev AMap (α : Type) := List (Nat × α)

/-- The entry of key `k`. -/
def AMap.find {α : Type} : AMap α → Nat → Option α
  | [], _ => none
  | (j, a) :: m, k => if j = k then some a else AMap.find m k

/-- The entry of key `k`, or `d` where the table lists none. -/
def AMap.getD {α : Type} (m : AMap α) (k : Nat) (d : α) : α := (AMap.find m k).getD d

/-- The table with `a` at key `k`. -/
def AMap.put {α : Type} : AMap α → Nat → α → AMap α
  | [], k, a => [(k, a)]
  | (j, b) :: m, k, a =>
    if k < j then (k, a) :: (j, b) :: m
    else if k = j then (k, a) :: m
    else (j, b) :: AMap.put m k a

/-- The table without key `k`. -/
def AMap.del {α : Type} (m : AMap α) (k : Nat) : AMap α := m.filter (fun e => e.1 != k)

/-- The table with the entry of `k`, where there is one, replaced by its image. -/
def AMap.upd {α : Type} (m : AMap α) (k : Nat) (f : α → α) : AMap α :=
  match AMap.find m k with
  | some a => AMap.put m k (f a)
  | none => m

/-- The entries whose keys lie in [lo, hi). -/
def AMap.range {α : Type} (m : AMap α) (lo hi : Nat) : AMap α := m.filter (fun e => lo ≤ e.1 && e.1 < hi)

/-- Keys ascend strictly. -/
def AMap.sorted {α : Type} : AMap α → Bool
  | [] => true
  | [_] => true
  | (j, _) :: (k, b) :: m => decide (j < k) && AMap.sorted ((k, b) :: m)

/-- A byte memory. -/
abbrev Cells := List Host.Cell

/-- The byte at address `a`: unlisted addresses read as `Config.unwritten`. -/
def Cells.read (m : Cells) (a : Nat) : BitVec 8 := AMap.getD m a Config.unwritten

/-- The memory with byte `b` at address `a`, in canonical form. -/
def Cells.write (m : Cells) (a : Nat) (b : BitVec 8) : Cells :=
  if b = Config.unwritten then AMap.del m a else AMap.put m a b

/-- The `n` bytes from address `a`, lowest address first. -/
def Cells.readN (m : Cells) (a : Nat) : Nat → List (BitVec 8)
  | 0 => []
  | n + 1 => m.read a :: Cells.readN m (a + 1) n

/-- The memory with the bytes stored from address `a` on. -/
def Cells.writeN (m : Cells) (a : Nat) : List (BitVec 8) → Cells
  | [] => m
  | b :: bs => Cells.writeN (m.write a b) (a + 1) bs

/-- The canonical form of a byte memory. -/
def Cells.wf (m : Cells) : Bool := AMap.sorted m && m.all (fun e => e.2 != Config.unwritten)

/-- A little-endian value from bytes, lowest first (R6). -/
def leNat : List (BitVec 8) → Nat
  | [] => 0
  | b :: bs => b.toNat + 256 * leNat bs

/-- The `n` low bytes of a value, lowest first (R6). -/
def leBytes (x : Nat) : Nat → List (BitVec 8)
  | 0 => []
  | n + 1 => BitVec.ofNat 8 x :: leBytes (x / 256) n

/-- The list with element `i` replaced, unchanged where there is none. -/
def setAt {α : Type} : List α → Nat → α → List α
  | [], _, _ => []
  | _ :: l, 0, a => a :: l
  | b :: l, i + 1, a => b :: setAt l i a

/-- Insertion into a list sorted by `before`, ahead of its equals. -/
def insertBy {α : Type} (before : α → α → Bool) (a : α) : List α → List α
  | [] => [a]
  | b :: l => if before b a then b :: insertBy before a l else a :: b :: l

/-- Stable insertion sort. -/
def sortBy {α : Type} (before : α → α → Bool) : List α → List α
  | [] => []
  | a :: l => insertBy before a (sortBy before l)

end Sys2Proof
end

