-- ==== Sys2Proof/Syntax.lean ====
section
/-! DEFINITION. The instructions of the YS9 (R22 to R42, R36) and its other steps (spec/95): one constructor of
`Instr` per row of spec/opcode_table.json. Register fields keep their encoded width; operation, type, mode and class
codes are names. -/

namespace Sys2Proof

/-- The guard of a word (R23): true when the predicate differs from `neg`. -/
structure Guard where
  p : BitVec 3
  neg : Bool
  deriving DecidableEq, Repr

/-- A source field with its class (R25): lane, uniform, indexed lane, immediate. -/
inductive Src where
  | v (n : Fld)
  | g (n : BitVec 6)
  | x (k : BitVec 2) (d : BitVec 6)
  | imm (n : Fld)
  deriving DecidableEq, Repr

/-- A destination field with its class (R25): lane, uniform, indexed lane, predicate. -/
inductive Dst where
  | v (n : Fld)
  | g (n : BitVec 6)
  | x (k : BitVec 2) (d : BitVec 6)
  | p (n : BitVec 3)
  deriving DecidableEq, Repr

/-- Integer operand types of the arithmetic minors (R26, codes 000 to 011). -/
inductive ITy where | s32 | z32 | s64 | z64
  deriving DecidableEq, Repr
/-- Rounding modes (R26, R60). -/
inductive RMode where | rne | rtz | rdn | rup
  deriving DecidableEq, Repr
/-- Full type codes of CVT, PACK and UNPK (R27). -/
inductive FullTy where
  | s8 | s16 | s32 | s64 | z8 | z16 | z32 | z64 | f16 | bf16 | f32 | f64 | e4m3 | e5m2 | e2m1 | c4
  deriving DecidableEq, Repr
/-- Types of QNT and DQNT (R100). -/
inductive QTy where | e4m3 | e5m2 | e2m1 | c4
  deriving DecidableEq, Repr
/-- Compare conditions of CMP (R79). -/
inductive Cond where | eq | ne | lt | le | gt | ge
  deriving DecidableEq, Repr
/-- Compare conditions of CMPI, each with its signedness (R84). -/
inductive CondI where | eq | ne | ltS | leS | gtS | geS | ltZ | leZ | gtZ | geZ
  deriving DecidableEq, Repr
/-- Compare conditions of FCMP and DCMP (R93). -/
inductive FCond where | eq | ne | lt | le | gt | ge | ord | uno
  deriving DecidableEq, Repr
/-- Special values of MOVS (R37, R55). -/
inductive Special where
  | item | grp | team | launch | pos | quad | core | clu | die | dev | phase | gen | clock | leader | fstat
  deriving DecidableEq, Repr
/-- SHFL modes (R187). -/
inductive ShflMode where | pick | rot | mir | bcast
  deriving DecidableEq, Repr
/-- VOTE modes (R188). -/
inductive VoteMode where | mask | cnt | rank
  deriving DecidableEq, Repr
/-- REDG and SCANG operations (R36, R191): integer ones carry a type, `.fadd` a rounding mode. -/
inductive RedOp where
  | add (t : ITy) | min (t : ITy) | max (t : ITy) | and (t : ITy) | or (t : ITy) | xor (t : ITy)
  | fadd (m : RMode) | fmin | fmax
  deriving DecidableEq, Repr

/-- Access widths of format M (R30). -/
inductive Width where | b8 | b16 | b32 | b64 | b128
  deriving DecidableEq, Repr
/-- Bytes of a width. -/
def Width.bytes : Width → Nat
  | .b8 => 1 | .b16 => 2 | .b32 => 4 | .b64 => 8 | .b128 => 16
/-- Orderings of format M (R30). -/
inductive MOrd where | plain | acq | rel | ar
  deriving DecidableEq, Repr
/-- Whether an ordering acquires. -/
def MOrd.acquires : MOrd → Bool
  | .acq | .ar => true
  | .plain | .rel => false
/-- Whether an ordering releases. -/
def MOrd.releases : MOrd → Bool
  | .rel | .ar => true
  | .plain | .acq => false
/-- Scopes of format M (R30, R308), from item to system. -/
inductive Scope where | item | grp | team | core | clu | die | pkg | sys
  deriving DecidableEq, Repr
/-- Atomic operations (R31, R162). -/
inductive AOp where | add | and | or | xor | min | max | exch | cas | fadd | fmin | fmax
  deriving DecidableEq, Repr

/-- Matrix kinds (R205). -/
inductive MKind where | f32 | bf16 | f16 | fp8 | int8 | c4
  deriving DecidableEq, Repr
/-- Tile types (R201). -/
inductive TileTy where | f32 | s32 | part
  deriving DecidableEq, Repr
/-- Drain output forms (R214). -/
inductive DKind where | b32 | bf16 | f16 | s32 | s16 | z16 | s8 | z8
  deriving DecidableEq, Repr
/-- Key types of the order commands (R285). -/
inductive KTy where | z32 | s32 | f32
  deriving DecidableEq, Repr
/-- Operations SCOST predicts (R282). -/
inductive CostOp where | sins | sdel | shas | scard | senum | suni | sint | sdif | sintc
  deriving DecidableEq, Repr
/-- Queue levels of POST (R357). -/
inductive PostLvl where | own | to | clu | die | dev
  deriving DecidableEq, Repr

/-- The register fields of a format-V word (R24). -/
structure VF where
  g : Guard
  d : Dst
  a : Src
  b : Src
  c : Src
  wa : Bool
  wb : Bool
  wc : Bool
  deriving DecidableEq, Repr

/-- The fields of a format-I word (R29): `u` is the uniform-register form. -/
structure IF where
  g : Guard
  u : Bool
  d : Fld
  a : Fld
  imm : W32
  deriving DecidableEq, Repr

/-- The fields of a format-M word (R30), without the operation. `var` is bit 0 of the variant. -/
structure MF where
  g : Guard
  data : Src
  addr : Src
  off : BitVec 12
  ord : MOrd
  scope : Scope
  ev : BitVec 3
  wa : Bool
  wd : Bool
  width : Width
  var : Bool
  deriving DecidableEq, Repr

/-- The register fields of a format-E word (R33). -/
structure EF where
  g : Guard
  r : Fld
  o1 : Fld
  o2 : Fld
  o3 : Fld
  deriving DecidableEq, Repr

/-- Control field of MMA and MMAC (R206). -/
structure MmaC where
  sat : Bool
  vb : Bool
  va : Bool
  kind : MKind
  tile : BitVec 3
  deriving DecidableEq, Repr
/-- Control field of the drains (R214). -/
structure DrC where
  plane : BitVec 3
  kind : DKind
  count : BitVec 3
  band : BitVec 2
  tile : BitVec 3
  deriving DecidableEq, Repr
/-- Control field of the order commands (R285). -/
structure OrdC where
  thr : Bool
  rev : Bool
  nanlow : Bool
  ty : KTy
  deriving DecidableEq, Repr

/-- What a quad may choose to issue (R137): a bundle, named by one of its items, or a span-table entry of a core. -/
inductive IUnit where
  | bundle (item : Nat)
  | span (core entry : Nat)
  deriving DecidableEq, Repr

/-- A write through the management window: how many bytes the access has, and its low 32 bits (R368). -/
structure WinWrite where
  bytes : Nat
  val : W32
  deriving DecidableEq, Repr

/-- What a start meets that the machine does not hold (R370, R371): whether the loader's signature verifies, and its digest;
a channel that fails training, a die that fails to power; the number of the start's steps that come before an uncorrectable
error in system-die memory, where there is one; and the version store that firmware sets, in GiB (R325). -/
structure BootIn where
  loaderOk : Bool
  loaderDigest : BitVec 256
  dramBad : Option Nat
  powerBad : Option Nat
  sysMemBad : Option Nat
  poolGiB : Nat
  deriving DecidableEq, Repr

/-- An access that another device carries to this one (R381): operation kind, job, address, bytes, operands. -/
inductive RemoteOp where
  | load (n : Nat)
  | store (n : Nat) (v : BitVec 128)
  | atom (op : AOp) (n : Nat) (signed : Bool) (v e : W64)
  /-- CFLUSH or CINV of the line. -/
  | line (inval : Bool)
  deriving DecidableEq, Repr

/-- What an answer from an owning device holds (R380): the bytes, or a reason of R157, or an attribute fault; `seq` says
that the page is SEQ (R306). -/
inductive RemoteAns where
  | data (v : BitVec 128) (seq : Bool)
  | fail (reason : Nat) (seq : Bool)
  | trap (cause : Nat)
  deriving DecidableEq, Repr

/-- A unit whose errors are counted (R304, R373): class 0 core, 1 slice, 2 channel, 3 remote-data cache bank, 4 link. -/
structure UnitRef where
  cls : Nat
  idx : Nat
  deriving DecidableEq, Repr

/-- Where an uncorrectable error strikes (R157, R162, R219, R267, R328): an 8-byte word of physical memory, a scratchpad
or slot or tile part of a team, a chunk of a set's shard, or an old version. -/
inductive ErrAt where
  | none
  | mem (word : Nat)
  | scratch (team off : Nat)
  | slotByte (team slot off : Nat)
  | tileRow (team tile row : Nat)
  | setChunk (job idx shard : Nat)
  | version (job gen block : Nat)
  deriving DecidableEq, Repr

/-- The instructions and steps of the opcode table. -/
inductive Instr where
  -- major 0x00 (R36)
  | nop (g : Guard)
  | svc (g : Guard) (imm : W32)
  | eret (g : Guard)
  | srd (g : Guard) (d : Fld) (r : BitVec 16)
  | swr (g : Guard) (a : Fld) (r : BitVec 16)
  | dbgm (f : EF) (n : BitVec 3) (ring : Bool)
  | bkpt (g : Guard) (imm : W32)
  | trap (g : Guard) (imm : W32)
  | ifence (g : Guard)
  -- majors 0x01 to 0x09
  | add (f : VF) (t : ITy)
  | sub (f : VF) (t : ITy)
  | sadd (f : VF) (t : ITy)
  | ssub (f : VF) (t : ITy)
  | mul (f : VF) (t : ITy)
  | mulh (f : VF) (t : ITy)
  | mad (f : VF) (t : ITy)
  | mulw (f : VF) (signed : Bool)
  | dot4 (f : VF) (sa sb sat : Bool)
  | divq (f : VF) (t : ITy)
  | rem (f : VF) (t : ITy)
  | and (f : VF) (wide : Bool)
  | or (f : VF) (wide : Bool)
  | xor (f : VF) (wide : Bool)
  | andn (f : VF) (wide : Bool)
  | shl (f : VF) (wide : Bool)
  | shr (f : VF) (wide : Bool)
  | sha (f : VF) (wide : Bool)
  | rol (f : VF) (wide : Bool)
  | popc (f : VF) (wide : Bool)
  | clz (f : VF) (wide : Bool)
  | ctz (f : VF) (wide : Bool)
  | brev (f : VF) (wide : Bool)
  | bext (f : VF) (wide : Bool)
  | bins (f : VF) (wide : Bool)
  | permb (f : VF)
  | min (f : VF) (t : ITy)
  | max (f : VF) (t : ITy)
  | abs (f : VF) (wide : Bool)
  | neg (f : VF) (wide : Bool)
  | cmp (f : VF) (c : Cond) (t : ITy)
  | pand (g : Guard) (d a b : BitVec 3)
  | por (g : Guard) (d a b : BitVec 3)
  | pxor (g : Guard) (d a b : BitVec 3)
  | pnot (g : Guard) (d a : BitVec 3)
  | sel (f : VF) (wide : Bool) (p : BitVec 3)
  | mov (f : VF) (wide : Bool)
  | movg (f : VF)
  | movs (f : VF) (sv : Special)
  -- major 0x0A
  | addi (f : IF)
  | andi (f : IF)
  | ori (f : IF)
  | xori (f : IF)
  | shli (f : IF)
  | shri (f : IF)
  | movi (f : IF)
  | cmpi (f : IF) (c : CondI)
  -- major 0x0B
  | xset (f : VF) (k : BitVec 2)
  | xadd (f : VF) (k : BitVec 2)
  | xget (f : VF) (k : BitVec 2)
  | lea (f : VF) (sh : BitVec 4)
  -- majors 0x0C to 0x12
  | fadd (f : VF) (m : RMode)
  | fsub (f : VF) (m : RMode)
  | fmul (f : VF) (m : RMode)
  | ffma (f : VF) (m : RMode)
  | fmin (f : VF)
  | fmax (f : VF)
  | fcmp (f : VF) (c : FCond)
  | fclass (f : VF)
  | frcp (f : VF)
  | frsq (f : VF)
  | fsqrt (f : VF) (m : RMode)
  | fdiv (f : VF) (m : RMode)
  | fexp2 (f : VF)
  | flog2 (f : VF)
  | ftanh (f : VF)
  | pfadd (f : VF) (bf : Bool) (m : RMode)
  | pfmul (f : VF) (bf : Bool) (m : RMode)
  | pfma (f : VF) (bf : Bool) (m : RMode)
  | pfmin (f : VF) (bf : Bool)
  | pfmax (f : VF) (bf : Bool)
  | dadd (f : VF) (m : RMode)
  | dmul (f : VF) (m : RMode)
  | dfma (f : VF) (m : RMode)
  | dmin (f : VF)
  | dmax (f : VF)
  | dcmp (f : VF) (c : FCond)
  | cvt (f : VF) (dt st : FullTy) (m : RMode)
  | pack (f : VF) (t : FullTy)
  | unpk (f : VF) (t : FullTy) (h : Bool)
  | scac (f : VF) (m : RMode)
  | qnt (f : VF) (t : QTy) (m : RMode)
  | dqnt (f : VF) (t : QTy)
  -- majors 0x18 to 0x1C
  | bra (g : Guard) (off : W32)
  | brx (g : Guard) (t : Fld)
  | call (g : Guard) (link : Fld) (off : W32)
  | ret (g : Guard) (t : Fld)
  | exit (g : Guard)
  /-- An item whose EXIT may take effect ends (R106). -/
  | itemEnd (item : Nat)
  | yield (g : Guard)
  | waitf (f : VF) (n : BitVec 2)
  | tstp (f : VF)
  | clrp (f : VF)
  | prply (g : Guard)
  | sjoin (g : Guard)
  | matz (g : Guard)
  | regrp (g : Guard)
  | kdep (f : VF)
  | spanq (f : VF)
  -- majors 0x20 to 0x24
  | ld (f : MF)
  | lds (f : MF)
  | st (f : MF)
  | sts (f : MF)
  | atom (f : MF) (op : AOp)
  | red (f : MF) (op : AOp)
  | atoms (f : MF) (op : AOp)
  | fence (g : Guard) (ord : MOrd) (scope : Scope)
  | cflush (f : MF)
  | cinv (f : MF)
  | pref (f : MF)
  -- majors 0x25, 0x26
  | cpy (f : EF) (dsp ssp : Bool) (ev : BitVec 3)
  | cpyw (f : EF) (dsp ssp : Bool) (ev : BitVec 3)
  | cprpl (f : EF)
  | bufa (f : EF)
  | bufw (f : EF)
  | bufq (f : EF) (tgt : Bool)
  | buff (f : EF)
  | buffRearm (f : EF) (newT : Bool)
  -- majors 0x28 to 0x2A
  | barInit (f : EF) (n : Option (BitVec 10))
  | barArv (f : EF) (n : Option (BitVec 10))
  | barWait (f : EF) (n : Option (BitVec 10))
  | barSync (f : EF) (n : Option (BitVec 10))
  | cbar (f : EF) (n : Option (BitVec 4))
  | shfl (f : VF) (m : ShflMode)
  | vote (f : VF) (m : VoteMode) (p : BitVec 3)
  | elect (f : VF)
  | matchg (f : VF) (wide : Bool)
  | redg (f : VF) (op : RedOp)
  | scang (f : VF) (op : RedOp)
  -- majors 0x2C to 0x2E
  | tclm (f : EF) (n : Option (BitVec 6))
  | trel (f : EF) (n : Option (BitVec 5 × BitVec 6))
  | tld (f : EF) (ssp : Bool) (ev : BitVec 3)
  | tmov (f : EF) (n : BitVec 3)
  | oprf (g : Guard)
  | cbld (f : EF) (k : BitVec 2)
  | mma (f : EF) (c : MmaC)
  | mmac (f : EF) (c : MmaC)
  | aalc (f : EF) (k : BitVec 3) (rows : BitVec 2) (cols : BitVec 6) (t : TileTy)
  | afree (g : Guard) (k : BitVec 3)
  | azero (g : Guard) (k : BitVec 3)
  | adrn (f : EF) (c : DrC)
  | adrs (f : EF) (c : DrC)
  | ascac (f : EF) (c p : BitVec 3)
  | await (g : Guard) (k : BitVec 3)
  -- majors 0x30 to 0x33
  | snew (f : EF)
  | sfree (f : EF)
  | sbld (f : EF) (ssp : Bool) (ev : BitVec 3)
  | senum (f : EF) (dsp : Bool) (ev : BitVec 3)
  | sins (f : EF)
  | sdel (f : EF)
  | shas (f : EF)
  | scard (f : EF)
  | srep (f : EF)
  | scost (f : EF) (op : CostOp)
  | suni (f : EF)
  | sint (f : EF)
  | sdif (f : EF)
  | sintc (f : EF)
  | swait (g : Guard)
  | sortk (f : EF) (c : OrdC)
  | topk (f : EF) (c : OrdC)
  | selb (f : EF) (c : OrdC)
  | srch (f : EF) (c : OrdC)
  | mrgk (f : EF) (c : OrdC)
  -- majors 0x34 to 0x36
  | card (f : EF) (cnt cont : Bool)
  | post (f : EF) (lvl : PostLvl)
  | cntw (f : EF)
  | cntq (f : EF) (st : Bool)
  | cancel (f : EF)
  | lbar (g : Guard)
  | phbnd (g : Guard)
  | snap (f : EF)
  | snapq (f : EF)
  | gviewMap (f : EF)
  | gviewUnmap (f : EF)
  | gviewFree (f : EF)
  | attrset (f : EF)
  | rgth (f : EF) (dsp isp : Bool) (ev : BitVec 3)
  | rsct (f : EF) (dsp isp : Bool) (ev : BitVec 3) (flt : Bool)
  | rget (f : EF) (dsp : Bool) (ev : BitVec 3)
  | rput (f : EF) (ssp : Bool) (ev : BitVec 3)
  | route (f : EF)
  -- major 0x3F
  | movi64 (g : Guard) (u : Bool) (d : Fld) (imm : W64)
  | addi64 (g : Guard) (u : Bool) (d a : Fld) (imm : W64)
  -- steps at an instruction boundary (R224)
  | illegalWordIssue (w : W64)
  | fetchFault
  | pendingTrapTaken
  | brk
  | groupHalt
  -- completions of outstanding operations, named by their number
  | loadCompletion (op : Nat)
  | atomicCompletion (op : Nat)
  | lineOpCompletion (op : Nat)
  | brambleWindowExpiry (core slot : Nat)
  | copyChunkArrival (op : Nat)
  | tldLineWrite (op : Nat)
  | mmaCompletion (op : Nat)
  | mmacCompletion (op : Nat)
  | azeroCompletion (op : Nat)
  | ascacCompletion (op : Nat)
  | adrnCompletion (op : Nat)
  | adrsCompletion (op : Nat)
  | setCommandAcceptance (op : Nat)
  | setCommandCompletion (op : Nat)
  /-- Placement moves shard `shard` of set `idx` to engine `engine` of the device (R253). -/
  | setEngineChange (job idx shard engine : Nat)
  | conversionStart (job idx shard : Nat)
  | conversionSwitch (job idx shard : Nat)
  -- scheduling
  /-- Card `seq` starts `n` teams on core `core`, as a span bound to quad `quad` (R350, R122). -/
  | teamDispatch (seq core n quad : Nat)
  | cardAgeEscalation (seq : Nat)
  | issueAgeEscalation (u : IUnit) (top : Bool)
  | bundleReform (core quad : Nat)
  | materialisationResume (core entry : Nat)
  | teamRelease (team : Nat)
  | preemptTeam (team : Nat)
  | resumeTeam (team core q0 : Nat)
  | sliceEnd (jobOut : Nat) (jobIn : Option Nat)
  | launchCompletion (launch : Nat)
  | phaseBoundaryCompletion (job : Nat)
  -- version store, translation and placement
  | snapCompletion (op : Nat)
  | attrsetCompletion (op : Nat)
  | generationDrainBlock (job gen block : Nat)
  /-- The page of `job` at virtual address `va` moves to frame `frame` (a 64 KiB granule number) of die `die` (R338). -/
  | pageMigration (job va die frame : Nat)
  | pageEviction (job va : Nat)
  | pageRecall (job va die frame : Nat) (ok : Bool)
  -- the directory protocol; a line is named by its physical line number, a party by its sharer number (R296)
  | homeGets (line : Nat)
  | homeGetm (line : Nat)
  | homeFarAtomic (line : Nat)
  | homeWriteback (line : Nat)
  | forward (line party : Nat)
  | invalidation (line party : Nat)
  | invalidationAck (line party : Nat)
  | dataResponse (line party : Nat)
  | transactionComplete (line party : Nat)
  -- the fabric
  | remoteAccessRequest (dev req job : Nat) (addr : W64) (op : RemoteOp)
  | remoteResponse (op : Nat) (a : RemoteAns)
  | rgthRowArrival (op k : Nat)
  | rsctCompletion (op : Nat)
  | rgetArrival (op : Nat)
  | rputCompletion (op : Nat)
  /-- At the end of a window the experts of `job` listed may receive a replica: device, core, base (R387). -/
  | routeWindowEnd (job : Nat) (choice : Option (Nat × Nat × Nat × Nat))
  | replicaCopyComplete (job expert : Nat)
  | flitCrcFail (link : Nat)
  /-- A link is lost, and with it every path to the devices listed. -/
  | linkFail (link : Nat) (lost : List Nat)
  -- errors
  | correctedError (u : UnitRef)
  | uncorrectableError (u : UnitRef) (at_ : ErrAt)
  -- debug commands of a core's dcmd and dack (R235, R236)
  | dcmdHaltGroup (core : Nat)
  | dcmdHaltTeam (core : Nat)
  | dcmdResumeGroup (core : Nat)
  | dcmdResumeTeam (core : Nat)
  | dcmdStep (core : Nat)
  | dcmdNoOp (core : Nat)
  | dack (core : Nat)
  -- the management window (R368): `off` is a byte offset in it
  | registerWrite (off : Nat) (val : WinWrite)
  | deviceStart (b : BootIn)
  | readyReport
  | startTimeout
  | reload (val : W32) (image : Option BootIn)
  | power (val : W32)
  | doorbell (word : Nat) (val : W32)
  | submit (hi : W32)
  -- job-control commands (R376): `w` is the word written to jcmd
  | create (w : W32)
  | map (w : W32)
  | unmap (w : W32)
  | copyin (w : W32)
  | copyout (w : W32)
  | setw (w : W32)
  | count (w : W32)
  | destroy (w : W32)
  | unknownJobCommand (w : W32)
  | jobCommandFinish
  /-- Coolant outlet temperature in tenths of a degree (R378). -/
  | coolantLimit (t : Nat)
  | generationDrainStart (job gen tier : Nat)
  | replicaRemoved (job expert idx : Nat)
  | writebackAck (line party : Nat)
  | hostLinkNegotiation (cxl : Bool) (rate width : Nat)
  | coolantBelowLimit (t : Nat)
  deriving DecidableEq, Repr

end Sys2Proof
end

