-- ==== Sys2Proof/Machine/State.lean ====
section
/-! DEFINITION. The state of a YS9 device: everything the spec gives the machine, as plain data, and the state after
reset. Items, groups and teams are keyed by launch and index, so that pre-emption moves none of them (R54); where they
stand is the placement of their team. -/

namespace Sys2Proof.Machine

/-- Why the machine stops. Nothing raises one: every error of this hardware is a trap, a poison, a status or a retirement
that the spec describes, and a device without work is idle. -/
inductive Fault where
  deriving DecidableEq, Repr

/-- Why an instruction has no meaning. -/
inductive Refusal where
  /-- Raised by `exec` for a row without a meaning. No row is without one. Safe. -/
  | notModelled (mnemonic : String)
  deriving DecidableEq, Repr

/-! ## The item -/

/-- Tags of `v` and `g` registers (R52). -/
inductive Tag where | full | empty | poison
  deriving DecidableEq, Repr

/-- A tagged register (R43, R52); `claim` is the serial number of the poison record it claims (R113). -/
structure Reg where
  val : W32
  tag : Tag
  claim : Option Nat
  deriving DecidableEq, Repr

/-- An index register (R46). -/
structure XReg where
  ofs : BitVec 16
  base : BitVec 8
  last : BitVec 8
  deriving DecidableEq, Repr

/-- Item system registers of R112. -/
structure HRegs where
  cause : W32
  pc : W64
  addr : W64
  info : W32
  flag : Bool
  lpc : W64
  deriving DecidableEq, Repr

/-- Item rows of the monitor registers (R226). -/
structure MRegs where
  cause : W32
  pc : W64
  addr : W64
  info : W32
  mon : Bool
  fromh : Bool
  noh : Bool
  deriving DecidableEq, Repr

/-- A trap's values (R108): `lpc` is the load's or command's program counter. -/
structure Trap where
  cause : Nat
  info : W32
  addr : W64
  lpc : W64
  deriving DecidableEq, Repr

/-- What a partly done instruction of an item waits for; it resumes after a trap (R183, R224). -/
inductive Wait where
  /-- Arrived at named barrier `b` in generation `gen` (R182). -/
  | bar (b : Nat) (gen : BitVec 16)
  /-- Arrived at cluster barrier `b` in generation `gen` (R252). -/
  | cbar (b : Nat) (gen : BitVec 16)
  /-- Joined an open exchange of its group (R184); the exchange has completed while the item was in a handler. -/
  | joined
  | done
  /-- Its MMAC local part waits for the cluster product `tag` (R248). -/
  | mmac (tag : Nat)
  /-- Arrived at LBAR number `n` or PHBND number `n` of its launch (R361). -/
  | lbar (n : Nat)
  | phbnd (n : Nat)
  /-- Waits for the re-forming after number `n` of its quad (R141). -/
  | regrp (n : Nat)
  /-- The item has ended its program and ends when R106 allows it (KDEP, CANCELLED). -/
  | ending
  /-- Waits for the operations accepted before number `op` (SWAIT, AWAIT, AFREE, TREL). -/
  | before (op : Nat)
  /-- Waits for its ATTRSET, operation `op` (R335). -/
  | attr (op : Nat)
  /-- The exchange or product it joined has trapped it; the trap is taken when it is at its word again. -/
  | fault (t : Trap)
  /-- Waits for the answer of another device to message `id`; the answer once it has come (R380). -/
  | remote (id : Nat) (ans : Option RemoteAns)
  deriving DecidableEq, Repr

/-- Where an item begins a wait: the address of its word, and the handler level it runs it at (`Item.level`), so that a
handler that comes to the same word does not take up the wait it interrupted (R183, R224). -/
structure Spot where
  pc : W64
  lvl : Nat
  deriving DecidableEq, Repr

/-- One item of a materialised group. -/
structure Item where
  pc : W64
  /-- `v0` to `v(q-1)` (R43). -/
  v : List Reg
  /-- `p0` to `p7`, bit k for `pk`; bit 0 is 1 (R48). -/
  p : BitVec 8
  /-- `x0` to `x3` (R46). -/
  x : List XReg
  h : HRegs
  m : MRegs
  /-- Debug-skip flag (R233). -/
  skip : Bool
  /-- Bundle the item runs in between re-formings (R134). -/
  bid : Nat
  /-- Waits begun, each with its place. -/
  waits : List (Spot × Wait)
  /-- Pending asynchronous traps in the order of R224, CANCELLED apart. -/
  pend : List Trap
  /-- A cancellation waits to be taken, and has been taken (R225). -/
  cancel : Bool
  cancelled : Bool
  /-- Serials of poison records of acquire loads that were not replayed (R114). -/
  acqPoison : List Nat
  /-- Operations that found no free record: `POISON_FULL` waits to be taken, or has been taken and its handler has not
  returned (R229). -/
  full : List (Nat × Bool)
  deriving DecidableEq, Repr

/-! ## Groups -/

/-- A register a completion writes: a lane register, or a uniform register of the group. -/
inductive RegRef where
  | v (n : Nat)
  | g (n : Nat)
  deriving DecidableEq, Repr

/-- A member that has joined an exchange: what it read, whether its bundle held the leader, and where its result goes
(R184, R187). `m` is the operand that holds the mask. -/
structure Joined where
  item : Nat
  pos : Nat
  a : W64
  pa : Option W32
  b : W32
  m : W32
  pred : Bool
  leads : Bool
  dst : RegRef
  /-- The handler level at which it joined. -/
  lvl : Nat
  deriving DecidableEq, Repr

/-- An open exchange or matrix product of a group: its instruction, at the word at `pc` (R184, R207). -/
structure Exch where
  pc : W64
  ins : Instr
  mask : BitVec 16
  joined : List Joined
  passed : BitVec 16
  deriving DecidableEq, Repr

/-- What halted a group (R233 to R236). -/
inductive HaltBy where | dcmd | brk | watch | double | step
  deriving DecidableEq, Repr

/-- A materialised group (R117). -/
structure Group where
  /-- `g0` to `g63` (R49). -/
  g : List Reg
  /-- In-flight count, 6 bits (R140). -/
  inflight : Nat
  /-- `%fstat` bits 4:0: NV, DZ, OF, UF, NX (R56). -/
  fstat : BitVec 5
  exch : List Exch
  /-- Pass records: word address and position (R184). -/
  passes : List (W64 × Nat)
  halt : Option HaltBy
  /-- A halt waits for the group's next boundary (R235). -/
  haltReq : Bool
  /-- One stepped instruction may issue (R236). -/
  stepping : Bool
  /-- Stopped for pre-emption (R231). -/
  stopped : Bool
  deriving DecidableEq, Repr

/-- A destination: the items [lo, hi) of a launch and the first register of the `n` it covers. -/
structure DestR where
  reg : RegRef
  n : Nat
  deriving DecidableEq, Repr

/-- States of a buffer entry (R165). -/
inductive BufSt where | filling | full | draining
  deriving DecidableEq, Repr

/-- A buffer entry that is not free (R165); `made` is the serial of its allocation, `slices` counts the slices each group
issued (R168). -/
structure Buf where
  st : BufSt
  team : Nat
  target : Nat
  count : Nat
  gen : BitVec 16
  fault : Bool
  made : Nat
  slices : AMap Nat
  deriving DecidableEq, Repr

/-- A poison record (R228). `issued` is the number of the load's operation, in the order of issue (R116); `freed` the time
it was freed; `slot` its lane slot. -/
structure PRec where
  held : Bool
  serial : Nat
  item : Nat
  slot : Nat
  word : W64
  addr : W64
  pc : W64
  reason : Nat
  dst : DestR
  args : List W64
  acq : Bool
  issued : Nat
  freed : Nat
  deriving DecidableEq, Repr

/-! ## Teams -/

/-- A named barrier (R178). -/
structure Bar where
  expect : Nat
  arrived : Nat
  gen : BitVec 16
  deriving DecidableEq, Repr

/-- A write to operand-store bytes that may not be visible to every matrix operation yet (R199): `len` bytes from slot
address `at_` on, zeros where `bytes` ends; `zero` for the zeroing of a TCLM. `known` are those whose present point it
happens-before, and since when: items by key, and what carries order between items (`tok`). `pubs` are those whose present
point an OPRF after the write happens-before. `past` are the listed writes that happen-before this one. -/
structure SlotWrite where
  serial : Nat
  at_ : Nat
  len : Nat
  bytes : List (BitVec 8)
  zero : Bool
  known : List (Nat × Nat)
  pubs : List (Nat × Nat)
  past : List Nat
  deriving DecidableEq, Repr

/-- An accumulator tile (R201). Element (plane, row, column) stands at key (plane * 48 + row) * 640 + column; an
unlisted element is 0. -/
structure Tile where
  rows : Nat
  cols : Nat
  ty : TileTy
  elems : AMap W32
  damaged : List Nat
  /-- Rows with an element that is read with an uncorrectable error (R219). -/
  faulty : List Nat
  deriving DecidableEq, Repr

/-- A team: its placement on a core, and the resources it holds (R118). -/
structure Team where
  launch : Nat
  /-- First item index, items it holds (R344), team size, quota. -/
  base : Nat
  count : Nat
  size : Nat
  quota : Nat
  /-- The core it is resident on; none while it is saved (R231). -/
  core : Option Nat
  q0 : Nat
  /-- Group slot of each group within its quad; none once a joined group gave it up (R133). -/
  slots : List (Option Nat)
  /-- Time its allocation succeeded (R137). -/
  age : Nat
  preempt : Bool
  scrBase : Nat
  scrSize : Nat
  scratch : Cells
  /-- Damaged scratchpad bytes. -/
  scratchErr : List Nat
  barBase : Nat
  bars : List Bar
  slotBase : Nat
  slotCount : Nat
  /-- Claimed slots, bit s for slot s (R193). -/
  claimed : W32
  /-- Slot bytes at key slot * 16384 + offset. -/
  store : Cells
  storeErr : List Nat
  /-- Writes that are not visible to every operation yet, oldest first; `store` holds what stood before them (R199). -/
  unpublished : List SlotWrite
  tiles : AMap Tile
  /-- `cb0` to `cb3` (R211), and whether a CBLD has written one. -/
  cb : List (BitVec 256)
  cbWritten : Bool
  /-- A co-resident team some of whose items have joined a span: its resources stay reserved until its launch completes
  (R133). -/
  reserved : Bool
  /-- Buffer entries and poison records, by their numbers, while the team is saved (R231). -/
  savedBufs : AMap Buf
  savedRecs : AMap PRec
  deriving DecidableEq, Repr

/-! ## Spans -/

/-- Forms of a span's lane registers (R121). -/
inductive Form where
  | u (c : W32)
  | a (b s : W32)
  deriving DecidableEq, Repr

/-- Forms of a span's predicates (R121): item indexes from `first` to before `last`. -/
inductive PForm where
  | u (b : Bool)
  | i (first last : Nat)
  deriving DecidableEq, Repr

/-- A lane register of a span: its form and tag (R120). -/
structure SReg where
  form : Form
  tag : Tag
  claim : Option Nat
  deriving DecidableEq, Repr

/-- A span-table entry (R120). -/
structure Span where
  launch : Nat
  lo : Nat
  hi : Nat
  quad : Nat
  pc : W64
  v : List SReg
  p : List PForm
  x : List XReg
  g : List Reg
  h : HRegs
  fstat : BitVec 5
  /-- Time the entry was written (R137). -/
  age : Nat
  /-- It waits for team resources to continue a materialisation (R127). -/
  waiting : Bool
  waits : List (Spot × Wait)
  cancel : Bool
  deriving DecidableEq, Repr

/-! ## Outstanding operations -/

/-- A load, or an atomic with a result, on its way (R160, R162). -/
structure LoadOp where
  dst : DestR
  /-- Bytes of the access, sign extension, and the value that arrives. -/
  bytes : Nat
  sext : Bool
  val : BitVec 128
  /-- Reason of R157 where the load faults. -/
  fail : Option Nat
  addr : W64
  acq : Bool
  word : W64
  /-- The address and the operand values an atomic read at issue (R162). -/
  args : List W64
  /-- The line whose data the load awaits (R298); a far atomic that its home has not executed (R303). -/
  want : Option Nat
  pend : Bool
  deriving DecidableEq, Repr

/-- A far atomic as it travels to its home (R303): the core and item that issued it, the operation that awaits the old
value (none for a RED), the bytes at physical address `pa`, the place of `va`, the operation, operands (`atomNew`) and
ordering, the address and the eviction priority. -/
structure FarReq where
  core : Nat
  item : Nat
  op : Option Nat
  pa : Nat
  va : Nat
  bytes : Nat
  aop : AOp
  signed : Bool
  v : Nat
  e : Nat
  ord : MOrd
  addr : W64
  prio : BitVec 3
  deriving DecidableEq, Repr

/-- The shape of a bulk transfer (R168, R198, R384). -/
inductive CopyKind where
  | cpy | tld (slot first : Nat) | rgth | rget
  deriving DecidableEq, Repr

/-- A side of a transfer. -/
inductive Side where
  | glob (a : W64)
  | scr (o : Nat)
  deriving DecidableEq, Repr

/-- A slice of a collective copy, or a transfer of its kind. -/
structure CopyOp where
  kind : CopyKind
  buf : Nat
  /-- Which copy on the handle the slice belongs to, and whether that copy has started (R168). -/
  seq : Nat
  started : Bool
  dst : Side
  src : Side
  rowBytes : Nat
  rows : Nat
  srcStride : W64
  dstStride : W64
  /-- Index array of a gather, its rows that have arrived, and the bytes done. -/
  ix : Side
  done : List Nat
  cursor : Nat
  ev : BitVec 3
  suspended : Bool
  deriving DecidableEq, Repr

/-- A lane of ADRS: item, scratchpad offset, row, first column, parameter slot. -/
structure DrLane where
  item : Nat
  ofs : Nat
  row : Nat
  col : Nat
  par : Nat
  deriving DecidableEq, Repr

/-- A matrix operation on a tile (R204): `b` is the number of B slots, or the entry of a cluster product's B bytes. -/
inductive MtxOp where
  | mma (c : MmaC) (posns : BitVec 16) (aSlot b0 scale b : Nat) (cbs : List (BitVec 256))
  | mmac (c : MmaC) (posns : BitVec 16) (aSlot scale b : Nat) (cbs : List (BitVec 256))
  | azero (tile : Nat) (posns : BitVec 16)
  | ascac (c p : Nat) (posns : BitVec 16) (scale : Nat)
  | adrn (c : DrC) (lane : DrLane) (dst : DestR) (word : W64)
  | adrs (c : DrC) (lanes : List DrLane)
  deriving DecidableEq, Repr

/-- The B operand of a cluster product, read once for all its participants (R250). -/
structure MmacB where
  users : Nat
  bytes : List (BitVec 8)
  bad : List Nat
  deriving DecidableEq, Repr

/-- What a set or order command answers. -/
structure CmdAns where
  record : W64
  value : W64
  /-- Its result field becomes POISON with this reason (R274). -/
  fail : Option (Nat × W64)
  deriving DecidableEq, Repr

/-- A set or order command (R273): the instruction, its operand values, and its answer once accepted; `batch` is the step in
which it was issued. -/
structure SetOp where
  ins : Instr
  batch : Nat
  args : List W64
  dst : DestR
  ans : Option CmdAns
  /-- A pending acceptance fault. -/
  trap : Option Trap
  word : W64
  deriving DecidableEq, Repr

/-- A bulk fabric transfer with a token register (R384). -/
structure TokOp where
  ins : Instr
  args : List W64
  dst : DestR
  cursor : Nat
  suspended : Bool
  word : W64
  deriving DecidableEq, Repr

/-- The kinds of outstanding operation. -/
inductive OpKind where
  | load (l : LoadOp)
  | atomic (l : LoadOp)
  | line (pline : Nat) (inval : Bool)
  | copy (c : CopyOp)
  | mtx (m : MtxOp)
  | set (c : SetOp)
  | tok (t : TokOp)
  | snap (dst : RegRef) (items : List Nat) (g st : W32)
  | attr (item lvl : Nat) (dst : RegRef) (va : W64) (code : BitVec 2) (old : BitVec 2)
  deriving DecidableEq, Repr

/-- An outstanding operation: the items of `launch` that issued it are those from `lo` to before `hi`. -/
structure Op where
  core : Nat
  launch : Nat
  lo : Nat
  hi : Nat
  pc : W64
  kind : OpKind
  deriving DecidableEq, Repr

/-! ## The core -/

/-- A copy fault record (R171). -/
structure CopyRec where
  op : Nat
  team : Nat
  reason : Nat
  addr : W64
  pc : W64
  deriving DecidableEq, Repr

/-- Line states of the directory protocol (R297). -/
inductive Moesi where | i | s | e | m | o
  deriving DecidableEq, Repr

/-- A line of a cache: its physical line, the job and virtual address it was reached by, page attr code, state, eviction
priority, time of last use, valid sectors, and the bytes of a PRIV copy by address with its dirty addresses (R149, R150,
R321). -/
structure Line where
  line : Nat
  job : Nat
  va : Nat
  code : BitVec 2
  st : Moesi
  prio : BitVec 3
  used : Nat
  sectors : BitVec 4
  data : AMap (BitVec 8)
  dirty : List Nat
  deriving DecidableEq, Repr

/-- A translation, as last-page registers and TLBs hold it (R146, R245): job, page address, size code, entry. -/
structure Trans where
  job : Nat
  va : Nat
  pte : W64
  deriving DecidableEq, Repr

/-- A lane request that waits in a collector slot (R151): item and bytes of a plain store. -/
structure LaneReq where
  item : Nat
  va : Nat
  pa : Nat
  code : BitVec 2
  bytes : List (BitVec 8)
  ev : BitVec 3
  deriving DecidableEq, Repr

/-- An open slot of the collector (R151). -/
structure BrSlot where
  line : Nat
  window : Nat
  /-- The items of its load requests, and its store requests. -/
  loads : List Nat
  reqs : List LaneReq
  /-- Its window has ended, and the core has asked for the line in M. -/
  asked : Bool
  deriving DecidableEq, Repr

/-- An event record (R226, R236). -/
structure DbgEvent where
  cause : Nat
  num : Nat
  grp : W32
  pc : W64
  mask : W32
  br : W32
  deriving DecidableEq, Repr

/-- A watchpoint (R234). -/
structure Watch where
  s : W32
  e : W32
  c : W32
  deriving DecidableEq, Repr

/-- The state of a core that belongs to no team. -/
structure Core where
  /-- WINDOW of `memctl` (R152). -/
  window : Nat
  psel : BitVec 6
  bps : List W64
  wps : List Watch
  dlaunch : W32
  dgrp : W32
  found : Bool
  events : List DbgEvent
  mbox : Cells
  bell : Bool
  /-- Monitor entry of each resident job on this core (R226). -/
  mvec : AMap W64
  l1 : List Line
  tlb : List Trans
  lastPage : AMap Trans
  bufs : AMap Buf
  copyRecs : AMap CopyRec
  poison : AMap PRec
  slots : AMap BrSlot
  /-- Pending PHASE bytes of this core by physical address, in its L1 or in pool blocks (R300, R325). -/
  pend : AMap (BitVec 8)
  pendPool : List Nat
  /-- Atomic predictor counters, 0 where unlisted (R302), and lines taken in M for a near atomic and not accessed
  since. -/
  pred : AMap (BitVec 2)
  nearTaken : List Nat
  /-- Re-formings done by each quad (R134). -/
  reforms : AMap Nat
  /-- Lines the L1 instruction cache holds (R105). -/
  icache : List Nat
  deriving DecidableEq, Repr

/-! ## Cluster -/

/-- A cluster barrier (R251): owner job and launch identifier, team arrivals of the generation, and the items arrived. -/
structure CBar where
  owner : Option Nat
  expect : Nat
  arrived : Nat
  gen : BitVec 16
  teams : List Nat
  items : List Nat
  deriving DecidableEq, Repr

/-- An MMAC local instance that waits for its peers (R248): its items in ascending position, with the handler levels at
which they joined; `same` says that all of them gave the B address `b`. -/
structure MmacLocal where
  core : Nat
  grp : Nat
  tag : BitVec 8
  cmask : BitVec 8
  desc : W32
  b : W64
  c : MmaC
  posns : BitVec 16
  items : List (Nat × Nat)
  pc : W64
  same : Bool
  deriving DecidableEq, Repr

/-! ## Sets -/

/-- Representations (R260). -/
inductive Repr4 where | bitmap | sorted | runs | hash
  deriving DecidableEq, Repr

/-- Where a conversion stands (R263 to R268): to another representation, or to `s` shard bits; `seq` orders the deferred
ones. -/
inductive ConvSt where | scheduled | running | deferred
  deriving DecidableEq, Repr
inductive ConvTo where | repr (r : Repr4) | shards (s : Nat)
  deriving DecidableEq, Repr
structure Conv where
  goal : ConvTo
  st : ConvSt
  seq : Nat
  /-- Chunks taken from each die for the target. -/
  chunks : AMap Nat
  deriving DecidableEq, Repr

/-- A shard of a set, or a whole unsharded set (R268): its keys in ascending order, its chunks by die, the engine that
serves it, the outstanding operations that read its present representation (R265), and whether a chunk of it has had an
uncorrectable error (R267). -/
structure Shard where
  keys : List Nat
  repr : Repr4
  churn : Nat
  chunks : AMap Nat
  conv : Option Conv
  engine : Nat
  readers : List Nat
  bad : Bool
  deriving DecidableEq, Repr

/-- A set descriptor (R256, R257). -/
structure SetD where
  tag : BitVec 16
  free : Bool
  freed : Nat
  sbits : Nat
  shards : List Shard
  /-- A resharding or merging of the whole set (R268). -/
  conv : Option Conv
  damaged : Bool
  deriving DecidableEq, Repr

/-! ## Versions -/

/-- Generation states (R326). -/
inductive GenSt where | fixing | held | draining | drained
  deriving DecidableEq, Repr

/-- A live generation: its state, tier and the pages mapped at its cut (R326, R329). -/
structure Gen where
  st : GenSt
  tier : Nat
  pages : List Nat
  views : Nat
  deriving DecidableEq, Repr

/-- An old version of a 4 KiB block of a job, by virtual block number, for the generations that need it (R327). -/
structure Version where
  job : Nat
  block : Nat
  gens : List Nat
  data : Cells
  lower : Bool
  bad : Bool
  deriving DecidableEq, Repr

/-! ## Jobs and launches -/

/-- A declared range (R346). -/
structure Rng where
  base : Nat
  len : Nat
  mode : BitVec 2
  deriving DecidableEq, Repr

/-- A card as the queue holds it (R344). -/
structure CardC where
  entry : W64
  handler : W64
  count : Nat
  config : W64
  cont : W64
  wctr : W32
  wval : W64
  graph : Nat
  ranges : List Rng
  deriving DecidableEq, Repr

/-- A queue of the scheduler (R348). -/
inductive QLevel where
  | core (c : Nat)
  | cluster (c : Nat)
  | die (d : Nat)
  | device
  deriving DecidableEq, Repr

/-- Where a launch stands. -/
inductive LSt where | queued | running | done
  deriving DecidableEq, Repr

/-- A launch of a job (R342, R343). -/
structure Launch where
  card : CardC
  lvl : QLevel
  seq : Nat
  phase : Nat
  st : LSt
  /-- Items handed to cores, and items ended. -/
  next : Nat
  ended : Nat
  canc : Bool
  cfail : Bool
  /-- Raised by age, with the order in which that happened (R350). -/
  raised : Option Nat
  /-- A co-resident launch that stood before one raised later: it keeps its cores from that one (R350). -/
  holds : Bool
  /-- Deposits: key, payload, depositing item (R143), and the continuation read at the start (R144). -/
  deposits : List (Nat × W64 × Nat)
  cont : Option (Nat × Nat × Nat)
  lbar : List Nat
  lbarN : Nat
  phb : List Nat
  phbN : Nat
  /-- ROUTE table version the launch has used (R387). -/
  rver : Option Nat
  deriving DecidableEq, Repr

/-- An expert replica: device, core, base (R386). -/
structure Replica where
  dev : Nat
  core : Nat
  base : W64
  deriving DecidableEq, Repr

/-- A routing table entry (R386); `copy` is a replica whose weights are being copied (R387). -/
structure Expert where
  reps : List Replica
  wlen : Nat
  routes : Nat
  copy : Option Replica
  deriving DecidableEq, Repr

/-- A resident job. -/
structure Job where
  weight : Nat
  nextWeight : Nat
  snapperm : Bool
  thresh : Nat
  active : Bool
  phase : Nat
  lastLaunch : Nat
  graphs : AMap Nat
  phases : AMap Nat
  ctr : Nat
  cancGraphs : List Nat
  cancPhases : List Nat
  canc : Bool
  lastGen : Nat
  gens : AMap Gen
  sets : AMap SetD
  nextSet : Nat
  experts : AMap Expert
  rver : Nat
  /-- Removed replicas whose copies are kept, with the version that removed them (R387). -/
  kept : List (Nat × Replica × Nat)
  /-- Regions of 1 GiB owned by other devices (R380). -/
  gmap : AMap Nat
  /-- Version map entries of its view pages by page number: generation and source page (R333, R337). -/
  viewMap : AMap (Nat × Nat)
  /-- Root of the page table: physical address of its 512 entries. -/
  root : Nat
  /-- A PHBND whose merge is under way (R361): launch. -/
  ending : List Nat
  /-- Bytes of PHASE writes of the ending phase wait to be merged; operations numbered from `mark` on belong to the phase
  that follows. -/
  merge : Bool
  mark : Nat
  deriving DecidableEq, Repr

/-! ## Coherence metadata -/

/-- A request at a home slice, or a message of the directory protocol (R298, R299). Parties 0 to 47 are the die's
L1s, 48 to 55 the remote-data caches by die; `who` is the core whose access asked and `prio` its eviction priority, `acks`
the acknowledgements the requester must await, `home` whether the home sent the message, `full` whether it carries the
data, `stale` whether a forward or invalidation has crossed the writeback. -/
inductive CohMsg where
  | gets (line party who : Nat) (prio : BitVec 3)
  | getm (line party who : Nat) (prio : BitVec 3)
  | far (line : Nat) (r : FarReq)
  | wb (line party : Nat) (stale : Bool)
  | wbAck (line party : Nat)
  | fwd (line party req who acks : Nat) (prio : BitVec 3) (own : Bool)
  | inv (line party req : Nat)
  | ack (line req : Nat)
  | data (line party who acks : Nat) (prio : BitVec 3) (st : Moesi) (home full : Bool)
  | complete (line party : Nat)
  deriving DecidableEq, Repr

/-- The directory entry of a line (R297): `busy` while a transaction has not completed. -/
structure DirEnt where
  st : Moesi
  owner : Option Nat
  sharers : List Nat
  busy : Option Nat
  deriving DecidableEq, Repr

/-- A requester's gathering of data and acknowledgements (R298): `need` is known once the data has come, `once` says that
an invalidation came first (R299). A home's gathering before it executes a far atomic has its request in `far`. -/
structure Gather where
  line : Nat
  party : Nat
  who : Nat
  data : Option Moesi
  need : Nat
  got : Nat
  once : Bool
  prio : BitVec 3
  far : Option FarReq
  deriving DecidableEq, Repr

/-! ## Errors, the system die, the fabric -/

/-- Error record of a unit (R304, R373); `due` says that the job boundary at which it is to be retired has come (R305). -/
structure UnitErr where
  times : List Nat
  total : Nat
  lasting : Bool
  retired : Bool
  uncorr : Bool
  due : Bool
  deriving DecidableEq, Repr

/-- Device modes (R369). -/
inductive DevMode where | starting | normal | minimal | reloading
  deriving DecidableEq, Repr

/-- A failure record (R372). -/
structure FailRec where
  detail : W64
  unit : BitVec 16
  die : BitVec 8
  reason : BitVec 8
  start : W32
  deriving DecidableEq, Repr

/-- The management window and the system die (R368 to R378). -/
structure Mgmt where
  mode : DevMode
  ltfull : Bool
  pstate : BitVec 2
  preq : BitVec 2
  fails : BitVec 2
  svn : BitVec 16
  minSvn : BitVec 16
  meas : BitVec 256
  starts : Nat
  /-- A start is running and has not reported (R370). -/
  running : Bool
  errsel : BitVec 16
  imgaddr : W64
  imglen : W32
  failrec : List FailRec
  subjob : BitVec 6
  subaddr : W64
  substat : W32
  /-- Submissions whose card lies on a page that stalls: job and card address, oldest first (R374). -/
  subWait : List (Nat × W64)
  jarg : List W32
  busy : Bool
  jstat : BitVec 8
  /-- The job-control command that runs: the word written to `jcmd` and the arguments of that moment (R375). -/
  jcmd : Option (W32 × List W32)
  /-- Dispatch stopped and P1 held by coolant temperature (R378). -/
  hot : Bool
  holdP1 : Bool
  cxl : Bool
  linkRate : Nat
  linkWidth : Nat
  /-- The image store (R371). -/
  imgStore : List (BitVec 8)
  deriving DecidableEq, Repr

/-- A request to, or an answer for, another device (R380, R381). -/
structure FabMsg where
  id : Nat
  dev : Nat
  job : Nat
  addr : W64
  op : RemoteOp
  item : Nat
  deriving DecidableEq, Repr
structure FabAns where
  dev : Nat
  req : Nat
  ans : RemoteAns
  deriving DecidableEq, Repr

/-! ## What the machine does next -/

/-- A choice of the machine or an arrival from outside it. -/
inductive Move where
  | issue (u : IUnit)
  | event (i : Instr)
  deriving DecidableEq, Repr

/-- The issue under way: the core and quad, the items of the bundle in ascending order or the span, and the address of
the word. -/
structure Cur where
  core : Nat
  quad : Nat
  items : List Nat
  span : Option Nat
  pc : W64
  deriving DecidableEq, Repr


/-- The whole machine. `agenda` holds choices and arrivals still to come, oldest first; while it is empty the machine
follows its own order (log entry 1). -/
structure State where
  -- time and choice
  /-- `%clock` (R55). -/
  clock : W64
  /-- Steps taken. -/
  tick : Nat
  /-- Serial numbers given out: operations, poison records, ages, acceptance order. -/
  fresh : Nat
  /-- Free values used (log entry 8). -/
  free : Nat
  agenda : List Move
  /-- Bundles and spans raised by age, longest first; true for step 1 of R137. -/
  raised : List (IUnit × Bool)
  /-- Quads whose last issue was a YIELD, with that issue, by core and quad: its unit is passed over at the quad's next
  choice (R106). -/
  yielded : AMap Cur
  cur : Cur
  /-- The issue under way has made progress in some item. -/
  moved : Bool
  /-- The items that the issue under way has trapped. -/
  trapped : List Nat
  /-- `%dev` (R379). -/
  devId : BitVec 21
  -- cores and clusters
  items : AMap Item
  groups : AMap Group
  teams : AMap Team
  spans : AMap Span
  /-- Flags that items which ended in span form have left to their groups, by group key (R56). -/
  flagsLeft : AMap (BitVec 5)
  /-- The core that holds PHASE writes of a team in the current phase, by team key (R314). -/
  phaseCores : AMap Nat
  cores : AMap Core
  ops : AMap Op
  cbars : AMap CBar
  mmacs : List MmacLocal
  bops : AMap MmacB
  tlb2 : AMap (List Trans)
  -- memory and translation; a physical address is die * 2^36 + offset
  mem : Cells
  /-- Physical addresses of bytes with an uncorrectable error (R157, R160). -/
  memErr : List Nat
  /-- Page table entries by physical address (R336, R337). -/
  ptes : AMap W64
  /-- Frame attr table by physical address / 65536 (R307). -/
  fat : AMap (BitVec 2)
  /-- Granules in use, by physical address / 65536. -/
  used : List Nat
  /-- Lower tier pages: job * 2^57 + virtual address (R340). -/
  lower : Cells
  lowerBad : List Nat
  /-- Lower tier addresses of bytes that went there with an uncorrectable error. -/
  lowerErr : List Nat
  /-- Page addresses whose next translations stall: job, address, page bytes (R324, R338). -/
  stalled : List (Nat × Nat × Nat)
  -- dies
  dir : AMap DirEnt
  coh : List CohMsg
  gathers : List Gather
  wbufs : List (Nat × Nat)
  rdc : AMap (List Line)
  l2 : AMap (List Line)
  errs : AMap UnitErr
  /-- Free set-heap chunks of each die (R259). -/
  heap : AMap Nat
  /-- Chunks freed so far, and chunks that wait to be freed until operations that read them complete (R265). -/
  heapFreed : Nat
  lateFree : List (List Nat × AMap Nat)
  -- version store
  /-- Size of the version store in MiB (R325). -/
  poolMiB : Nat
  vers : List Version
  -- jobs
  jobs : AMap Job
  launches : AMap Launch
  -- system die, host, fabric
  mgmt : Mgmt
  host : Cells
  /-- Host addresses that cannot be read or written: base and length. -/
  hostHoles : List (Nat × Nat)
  linksDown : List Nat
  unreach : List Nat
  fabOut : List FabMsg
  fabAns : List FabAns
  deriving DecidableEq, Repr

/-- A full register holding 0 (R43, R49). -/
def Reg.zero : Reg := ⟨0, .full, none⟩

/-- Item registers at an item's start (R112, R226). -/
def HRegs.zero : HRegs := ⟨0, 0, 0, 0, false, 0⟩
def MRegs.zero : MRegs := ⟨0, 0, 0, 0, false, false, false⟩

/-- Index registers at an item's start, for quota `q` (R46). -/
def XReg.start (q : Nat) : XReg := ⟨0, 0, BitVec.ofNat 8 (q - 1)⟩

/-- An item at its start at address `pc`, for quota `q` (R43, R46, R48, R112). -/
def Item.start (q : Nat) (pc : W64) : Item :=
  ⟨pc, List.replicate q Reg.zero, 1, List.replicate 4 (XReg.start q), HRegs.zero, MRegs.zero, false, 0, [], [], false,
    false, [], []⟩

/-- A group at its start (R49, R56, R140). -/
def Group.start : Group := ⟨List.replicate 64 Reg.zero, 0, 0, [], [], none, false, false, false⟩

/-- A core after reset (R152, R226): WINDOW 16, `dlaunch` all ones, every other register 0. -/
def Core.reset : Core :=
  ⟨16, 0, List.replicate 8 0, List.replicate 4 ⟨0, 0, 0⟩, 0xFFFFFFFF, 0, false, [], [], false, [], [], [], [], [], [],
    [], [], [], [], [], [], [], []⟩

/-- A cluster barrier after reset (R251). -/
def CBar.reset : CBar := ⟨none, 0, 0, 0, [], []⟩

/-- A unit without errors (R304). -/
def UnitErr.none : UnitErr := ⟨[], 0, false, false, false, false⟩

/-- A directory entry without copies (R297). -/
def DirEnt.none : DirEnt := ⟨.i, .none, [], .none⟩

/-- The management window after reset: the device starts, its compute dies not yet powered (R369, R370, log entry 62). -/
def Mgmt.reset : Mgmt :=
  { mode := .starting, ltfull := false, pstate := 3, preq := 0, fails := 0, svn := 0, minSvn := 0, meas := 0,
    starts := 0, running := false, errsel := 0, imgaddr := 0, imglen := 0, failrec := [], subjob := 0, subaddr := 0,
    substat := 0, subWait := [], jarg := List.replicate 16 0, busy := false, jstat := 0, jcmd := none, hot := false,
    holdP1 := false, cxl := false, linkRate := 0, linkWidth := 0, imgStore := [] }

/-- No issue under way. -/
def Cur.none : Cur := ⟨0, 0, [], .none, 0⟩

/-- The machine right after reset: it starts (R370), no job is resident, every register holds the value of its rule or
zero (log entry 3), and no memory is listed. -/
def State.reset : State :=
  { clock := 0, tick := 0, fresh := 0, free := 0, agenda := [], raised := [], yielded := [], cur := Cur.none, moved := false, trapped := [],
    devId := 0,
    items := [], groups := [], teams := [], spans := [], flagsLeft := [], phaseCores := [], cores := [], ops := [], cbars := [], mmacs := [], bops := [],
    tlb2 := [], mem := [], memErr := [], ptes := [], fat := [], used := [], lower := [], lowerBad := [], lowerErr := [], stalled := [],
    dir := [], coh := [], gathers := [], wbufs := [], rdc := [], l2 := [], errs := [], heap := [], heapFreed := 0, lateFree := [], poolMiB := 24576,
    vers := [], jobs := [], launches := [], mgmt := Mgmt.reset, host := [], hostHoles := [], linksDown := [],
    unreach := [], fabOut := [], fabAns := [] }

end Sys2Proof.Machine
end

