-- ==== Sys2Proof/Machine/Ops.lean ====
section
/-! DEFINITION. The named operations over items, groups, teams and cores: keys and lookups, register reads and writes with
tags (R11, R44, R47, R50, R53), taking a trap and returning from one (R108, R222, R223), event records (R236), and the
frame in which a bundle issues a word (R39, R135). -/

namespace Sys2Proof.Machine

/-! ## Keys -/

/-- Launch, item index, group, position and job of an item key. -/
def launchOf (ik : Nat) : Nat := ik / 2 ^ 40
def indexOf (ik : Nat) : Nat := ik % 2 ^ 40
def groupOf (ik : Nat) : Nat := ik / 16
def posOf (ik : Nat) : Nat := ik % 16
def jobOfLaunch (lk : Nat) : Nat := lk / 2 ^ 24
def jobOf (ik : Nat) : Nat := jobOfLaunch (launchOf ik)
/-- The key of item `i` of launch `lk`. -/
def itemKey (lk i : Nat) : Nat := lk * 2 ^ 40 + i
/-- The launch of a group or team key. -/
def launchOfGroup (gk : Nat) : Nat := gk / 2 ^ 36

/-- Fields of CONFIG (R345). -/
def cfgQuota (c : W64) : Nat := 8 * ((c.extractLsb' 0 5).toNat + 1)
def cfgTeam (c : W64) : Nat := 16 * ((c.extractLsb' 5 6).toNat + 1)
def cfgScratch (c : W64) : Nat := 256 * (c.extractLsb' 11 11).toNat
def cfgBars (c : W64) : Nat := (c.extractLsb' 22 11).toNat
def cfgSlots (c : W64) : Nat := (c.extractLsb' 33 6).toNat
def cfgPrio (c : W64) : Nat := (c.extractLsb' 39 2).toNat
def cfgCores (c : W64) : Bool := bit c 41
def cfgSnap (c : W64) : Bool := bit c 42

/-- A card of zeros. -/
def CardC.zero : CardC := ⟨0, 0, 0, 0, 0, 0, 0, 0, []⟩

/-- The card of launch `lk`. -/
def State.cardOf (s : State) (lk : Nat) : CardC :=
  match AMap.find s.launches lk with
  | some l => l.card
  | none => CardC.zero
/-- Register quota of a launch (R43) and its team size (R118). -/
def State.quotaOf (s : State) (lk : Nat) : Nat := cfgQuota (s.cardOf lk).config
def State.teamSize (s : State) (lk : Nat) : Nat := cfgTeam (s.cardOf lk).config
/-- The team key of an item. -/
def State.teamOf (s : State) (ik : Nat) : Nat :=
  launchOf ik * 2 ^ 36 + indexOf ik / s.teamSize (launchOf ik)

/-! ## Lookups and updates -/

/-- The item of a key. -/
def State.item? (s : State) (ik : Nat) : Option Item := AMap.find s.items ik
/-- The state with item `ik` replaced by `f` of it. -/
def State.updItem (s : State) (ik : Nat) (f : Item → Item) : State := { s with items := AMap.upd s.items ik f }
/-- The state with group `gk` replaced by `f` of it. -/
def State.updGroup (s : State) (gk : Nat) (f : Group → Group) : State := { s with groups := AMap.upd s.groups gk f }
/-- The state with team `tk` replaced by `f` of it. -/
def State.updTeam (s : State) (tk : Nat) (f : Team → Team) : State := { s with teams := AMap.upd s.teams tk f }
/-- Core `c`. -/
def State.core (s : State) (c : Nat) : Core := AMap.getD s.cores c Core.reset
/-- The state with core `c` replaced by `f` of it. -/
def State.updCore (s : State) (c : Nat) (f : Core → Core) : State :=
  { s with cores := AMap.put s.cores c (f (s.core c)) }
/-- The group of an item; a fresh group where there is none. -/
def State.groupD (s : State) (gk : Nat) : Group := AMap.getD s.groups gk Group.start
/-- The state with job `j` replaced by `f` of it. -/
def State.updJob (s : State) (j : Nat) (f : Job → Job) : State := { s with jobs := AMap.upd s.jobs j f }
/-- The state with launch `lk` replaced by `f` of it. -/
def State.updLaunch (s : State) (lk : Nat) (f : Launch → Launch) : State :=
  { s with launches := AMap.upd s.launches lk f }
/-- A serial number not given out before, and the state that has given it out. -/
def State.serial (s : State) : Nat × State := (s.fresh, { s with fresh := s.fresh + 1 })

/-- Cluster and die of a core (R3). -/
def clusterOf (c : Nat) : Nat := c / 8
def dieOf (c : Nat) : Nat := c / 48

/-- Item keys of the live items of group `gk` that are materialised, ascending (R49). -/
def State.members (s : State) (gk : Nat) : List Nat := (AMap.range s.items (gk * 16) (gk * 16 + 16)).map (·.1)

/-- The spans of launch `lk` that hold an item index in [lo, hi). -/
def State.spansIn (s : State) (lk lo hi : Nat) : AMap Span :=
  s.spans.filter (fun e => e.2.launch == lk && decide (e.2.lo < hi) && decide (lo < e.2.hi))

/-- The lowest live item of group `gk` that stands in a span. -/
def State.spanLeader (s : State) (gk : Nat) : Option Nat :=
  let lk := launchOfGroup gk
  let lo := (gk % 2 ^ 36) * 16
  ((s.spansIn lk lo (lo + 16)).map (fun e => itemKey lk (Nat.max lo e.2.lo))).min?
/-- The leader of group `gk` (R49): its lowest live item, materialised or in a span. -/
def State.leader (s : State) (gk : Nat) : Option Nat :=
  match (s.members gk).head?, s.spanLeader gk with
  | some a, some b => some (Nat.min a b)
  | some a, none => some a
  | none, l => l

/-- Whether the bundle under way contains the leader of item `ik`'s group (R50). -/
def State.leads (s : State) (ik : Nat) : Bool :=
  match s.leader (groupOf ik) with
  | some l => s.cur.items.contains l
  | none => false

/-- The quad and lane slot of an item (R117, R230), from its team's placement. -/
def State.quadOf (s : State) (ik : Nat) : Nat :=
  match AMap.find s.teams (s.teamOf ik) with
  | some t => (t.q0 + (indexOf ik - t.base) / 16) % 4
  | none => s.cur.quad
def State.laneSlot (s : State) (ik : Nat) : Nat :=
  match AMap.find s.teams (s.teamOf ik) with
  | some t =>
    let j := (indexOf ik - t.base) / 16
    ((t.q0 + j) % 4) * 1024 + ((t.slots.getD j none).getD 0) * 16 + posOf ik
  | none => 0
/-- The core an item is on; the issuing core for an item of a span. -/
def State.coreOf (s : State) (ik : Nat) : Nat :=
  match AMap.find s.teams (s.teamOf ik) with
  | some t => t.core.getD s.cur.core
  | none => s.cur.core

/-! ## Registers -/

/-- Why an item does not complete an instruction now: it is not ready (R135), it traps, or watchpoint `num` fires with
its action, `MINFO` value and address (R234); `idle` are the items of the bundle whose access is not performed (R113). -/
inductive Stop where
  | wait
  | trap (t : Trap)
  | watch (num : Nat) (halt : Bool) (info : Nat) (addr : W64) (idle : List Nat)
  deriving DecidableEq, Repr

/-- What an instruction's body answers for one item. -/
abbrev Ev (α : Type) := Except Stop α

/-- `()` when `c` holds, else the trap. -/
def orTrap (c : Bool) (t : Trap) : Ev Unit := if c then .ok () else .error (.trap t)
/-- `()` when `c` holds, else the item waits. -/
def orWait (c : Bool) : Ev Unit := if c then .ok () else .error .wait

/-- A trap that defines only HINFO; one that defines HINFO and the fault address (R108: the rest is 0). -/
def mkTrap (cause info : Nat) : Trap := ⟨cause, BitVec.ofNat 32 info, 0, 0⟩
def addrTrap (cause info : Nat) (a : W64) : Trap := ⟨cause, BitVec.ofNat 32 info, a, 0⟩

/-- Cause codes (R221). -/
def cILL : Nat := 0x01
def cIDX : Nat := 0x02
def cEMPTY : Nat := 0x03
def cPOISON : Nat := 0x04
def cMISALIGN : Nat := 0x05
def cTRAP : Nat := 0x06
def cBKPT : Nat := 0x07
def cSVC : Nat := 0x08
def cFETCH : Nat := 0x09
def cREORDER : Nat := 0x0A
def cMEM : Nat := 0x0B
def cCOPY : Nat := 0x0C
def cGRPMASK : Nat := 0x0D
def cBAR : Nat := 0x0E
def cALIAS : Nat := 0x10
def cORDER : Nat := 0x11
def cATOMIC : Nat := 0x12
def cPRIV : Nat := 0x13
def cREDERR : Nat := 0x14
def cPFULL : Nat := 0x15
def cSLOT : Nat := 0x20
def cSETH : Nat := 0x21
def cHEAP : Nat := 0x22
def cBUF : Nat := 0x23
def cMTX : Nat := 0x24
def cCLU : Nat := 0x25
def cORD : Nat := 0x26
def cVER : Nat := 0x27
def cSCHED : Nat := 0x28
def cFAB : Nat := 0x29
def cCANC : Nat := 0x30
def cCOTERM : Nat := 0x31
def cWATCH : Nat := 0x40
def cSTEP : Nat := 0x41
def cBREAK : Nat := 0x42
def cDOUBLE : Nat := 0x43

/-- Causes that go to the monitor handler first (R221). -/
def toMonitor (cause : Nat) : Bool :=
  cause == cBKPT || cause == cSVC || cause == cPRIV || cause == cREDERR || cause == cPFULL || cause == cWATCH ||
    cause == cBREAK

/-- Lane register `n` of an item, uniform register `n` of a group. -/
def Item.reg (it : Item) (n : Nat) : Reg := it.v.getD n Reg.zero
def Group.reg (g : Group) (n : Nat) : Reg := g.g.getD n Reg.zero
/-- The register a reference names, for an item of a group. -/
def regAt (it : Item) (g : Group) : RegRef → Reg
  | .v n => it.reg n
  | .g n => g.reg n
/-- The register `i` places after a reference. -/
def RegRef.plus (r : RegRef) (i : Nat) : RegRef :=
  match r with
  | .v n => .v (n + i)
  | .g n => .g (n + i)

/-- An indexed reference `v[xk+d]` to `w` registers (R47): the first register, or none where it traps `IDX_RANGE`. -/
def resolveIdx (q : Nat) (it : Item) (k : BitVec 2) (d : BitVec 6) (w : Nat) : Option Nat :=
  let x := it.x.getD k.toNat ⟨0, 0, 0⟩
  let n : Int := x.base.toNat + x.ofs.toInt + d.toInt
  let top := n + w - 1
  if n < x.base.toNat ∨ (x.last.toNat : Int) < top ∨ (q : Int) ≤ top then none
  else if n % w ≠ 0 then none
  else some n.toNat

/-- The register a source field names, none for an immediate (R25, R47). -/
def srcRef (q : Nat) (it : Item) (src : Src) (w : Nat) : Ev (Option RegRef) :=
  match src with
  | .v n => .ok (some (.v n.toNat))
  | .g n => .ok (some (.g n.toNat))
  | .x k d =>
    match resolveIdx q it k d w with
    | some n => .ok (some (.v n))
    | none => .error (.trap (mkTrap cIDX 0))
  | .imm _ => .ok none

/-- The `w` registers from a reference on (w 1, 2 or 4). -/
def regsAt (it : Item) (g : Group) (r : RegRef) (w : Nat) : List Reg :=
  (List.range w).map (fun i => regAt it g (r.plus i))
/-- Whether some register of a list is EMPTY; the record index of its lower POISON register (R44, R113). -/
def anyEmpty (rs : List Reg) : Bool := rs.any (fun r => r.tag == .empty)
def firstPoison (rs : List Reg) : Option W32 := (rs.find? (fun r => r.tag == .poison)).map (·.val)
/-- The value of a list of registers, lowest first (R7). -/
def regsVal (rs : List Reg) : Nat := rs.foldr (fun r acc => r.val.toNat + 2 ^ 32 * acc) 0

/-- Reads `w` registers under R11: an EMPTY one makes the item wait, or trap `EMPTY_USE` under its wait bit; a POISON one
is returned with its record index. -/
def readRef (it : Item) (g : Group) (r : RegRef) (w : Nat) (wb : Bool) : Ev (W64 × Option W32) :=
  let rs := regsAt it g r w
  if anyEmpty rs then (if wb then .error (.trap (mkTrap cEMPTY 0)) else .error .wait)
  else .ok (BitVec.ofNat 64 (regsVal rs), firstPoison rs)

/-- `Operand(i, X)` of R11 for a field that reads `w` registers; an immediate is sign-extended (R28, R68). -/
def readSrc (q : Nat) (it : Item) (g : Group) (src : Src) (w : Nat) (wb : Bool) : Ev (W64 × Option W32) :=
  match src with
  | .imm n => .ok (n.signExtend 64, none)
  | src => do
    match ← srcRef q it src w with
    | some r => readRef it g r w wb
    | none => .ok (0, none)

/-- A lane register operand of format E or I, which blocks while EMPTY (R29, R33). -/
def readV (it : Item) (g : Group) (n w : Nat) : Ev (W64 × Option W32) := readRef it g (.v n) w false

/-- The register a destination field names, none for a predicate (R25, R47). -/
def dstRef (q : Nat) (it : Item) (d : Dst) (w : Nat) : Ev (Option RegRef) :=
  match d with
  | .v n => .ok (some (.v n.toNat))
  | .g n => .ok (some (.g n.toNat))
  | .x k i =>
    match resolveIdx q it k i w with
    | some n => .ok (some (.v n))
    | none => .error (.trap (mkTrap cIDX 0))
  | .p _ => .ok none

/-- The wait of R53 item 4: not ready while a register the item would write is EMPTY; for a `g` destination only a bundle
that contains the leader waits. -/
def refBusy (it : Item) (g : Group) (leads : Bool) (r : RegRef) (w : Nat) : Bool :=
  match r with
  | .v _ => anyEmpty (regsAt it g r w)
  | .g _ => leads && anyEmpty (regsAt it g r w)
/-- The wait of R53 for a destination field; a reference that does not resolve traps later (R69). -/
def dstBusy (q : Nat) (it : Item) (g : Group) (leads : Bool) (d : Dst) (w : Nat) : Bool :=
  match dstRef q it d w with
  | .ok (some r) => refBusy it g leads r w
  | _ => false

/-- Item `ik` with register `n` set. -/
def Item.setReg (it : Item) (n : Nat) (r : Reg) : Item := { it with v := setAt it.v n r }
def Group.setReg (g : Group) (n : Nat) (r : Reg) : Group := { g with g := setAt g.g n r }

/-- Writes one register as seen by item `ik`: any write drops the register's claim (R113). The leader rule has been
applied. -/
def State.setReg (s : State) (ik : Nat) (r : RegRef) (x : Reg) : State :=
  match r with
  | .v n => s.updItem ik (·.setReg n x)
  | .g n => s.updGroup (groupOf ik) (·.setReg n x)

/-- Writes the 32-bit parts of a value to the registers from `r` on, all FULL. -/
def State.setRegs (s : State) (ik : Nat) (r : RegRef) : List W32 → State
  | [] => s
  | x :: xs => State.setRegs (s.setReg ik r ⟨x, .full, none⟩) ik (r.plus 1) xs

/-- Marks `n` registers from `r` on EMPTY; an EMPTY register keeps its value (R53). -/
def State.setEmpty (s : State) (ik : Nat) (r : RegRef) : Nat → State
  | 0 => s
  | n + 1 =>
    let it := (s.item? ik).getD (Item.start 8 0)
    let old := regAt it (s.groupD (groupOf ik)) r
    State.setEmpty (s.setReg ik r ⟨old.val, .empty, none⟩) ik (r.plus 1) n

/-- The parts of a value, `n` registers, lowest first. -/
def parts (v : Nat) : Nat → List W32
  | 0 => []
  | n + 1 => BitVec.ofNat 32 v :: parts (v / 2 ^ 32) n

/-- `Dest(i, value)` of R10 under the leader rule (R50): `n` registers from `r` on. -/
def State.dest (s : State) (ik : Nat) (r : RegRef) (n : Nat) (v : Nat) : State :=
  match r with
  | .v _ => s.setRegs ik r (parts v n)
  | .g _ => if s.leads ik then s.setRegs ik r (parts v n) else s

/-- A destination that takes propagated POISON with record index `p` in each of its `n` registers (R113). -/
def State.destPoison (s : State) (ik : Nat) (r : RegRef) (n : Nat) (p : W32) : State :=
  let put := (List.range n).foldl (fun t i => t.setReg ik (r.plus i) ⟨p &&& 0x3F, .poison, none⟩)
  match r with
  | .v _ => put s
  | .g _ => if s.leads ik then put s else s

/-- Writes predicate `n`; a write to `p0` is discarded (R48). -/
def Item.setPred (it : Item) (n : BitVec 3) (b : Bool) : Item :=
  if n = 0 then it
  else { it with p := if b then it.p ||| (1#8 <<< n.toNat) else it.p &&& ~~~(1#8 <<< n.toNat) }
/-- Predicate `n`; `p0` reads true (R48). -/
def Item.pred (it : Item) (n : BitVec 3) : Bool := n == 0 || it.p.getLsbD n.toNat

/-- The guard of a word for an item (R23). -/
def guardHolds (g : Guard) (it : Item) : Bool := it.pred g.p != g.neg

/-! ## Poison records of the core (R113, R114, R228) -/

/-- The record with serial `n` on core `c`, with its index: the one held, else a freed one that still has its fields. -/
def State.recBySerial (s : State) (c n : Nat) : Option (Nat × PRec) :=
  let l := (s.core c).poison
  (l.find? (fun e => e.2.held && e.2.serial == n)).orElse (fun _ => l.find? (fun e => e.2.serial == n))

/-- Whether the entry is free, or held for another lane slot (R228), as item `ik` sees it. -/
def recFreed (s : State) (ik idx : Nat) : Bool :=
  match AMap.find (s.core (s.coreOf ik)).poison idx with
  | some r => !r.held || r.slot != s.laneSlot ik
  | none => true

/-- The `POISON_USE` trap that names record `p` (R113, R114, R228). -/
def poisonTrap (s : State) (ik : Nat) (p : W32) : Trap :=
  let idx := p.toNat % 64
  match AMap.find (s.core (s.coreOf ik)).poison idx with
  | some r => ⟨cPOISON, BitVec.ofNat 32 (idx + if recFreed s ik idx then 256 else 0), r.addr, r.pc⟩
  | none => ⟨cPOISON, BitVec.ofNat 32 (idx + 256), 0, 0⟩

/-- `()` when the source was not POISON, else the trap. -/
def noPoison (s : State) (ik : Nat) (p : Option W32) : Ev Unit :=
  match p with
  | some i => .error (.trap (poisonTrap s ik i))
  | none => .ok ()

/-- Whether a register of the item, or of its group, still holds the claim of the record with serial `n`. -/
def claimHeld (it : Item) (g : Group) (n : Nat) : Bool := it.v.any (·.claim == some n) || g.g.any (·.claim == some n)
/-- The gate of R114 before a memory or engine access: a POISON destination of an unreplayed acquire of the item
traps. -/
def acquireGate (s : State) (ik : Nat) : Ev Unit :=
  match s.item? ik with
  | some it =>
    match it.acqPoison.find? (claimHeld it (s.groupD (groupOf ik))) with
    | some n =>
      match s.recBySerial (s.coreOf ik) n with
      | some (i, _) => .error (.trap (poisonTrap s ik (BitVec.ofNat 32 i)))
      | none => .ok ()
    | none => .ok ()
  | none => .ok ()

/-! ## Events and traps -/

/-- Posts an event record of core `c`: the list's head is the posted one, the others wait (R236). -/
def State.postEvent (s : State) (c : Nat) (e : DbgEvent) : State := s.updCore c (fun k => { k with events := k.events ++ [e] })

/-- Halts group `gk` (R235). -/
def State.haltGroup (s : State) (gk : Nat) (h : HaltBy) : State :=
  s.updGroup gk (fun g => { g with halt := some h, haltReq := false, stepping := false })

/-- `%grp` of an item (R55). -/
def grpNo (ik : Nat) : W32 := BitVec.ofNat 32 (indexOf ik / 16)

/-- The monitor entry of job `j` on core `c` (R226). -/
def State.mvecOf (s : State) (c j : Nat) : W64 := AMap.getD (s.core c).mvec j 0

/-- The H registers of a trap taken to the launch handler (R108). -/
def enterLaunch (it : Item) (t : Trap) (saved handler : W64) : Item :=
  { it with
    pc := handler
    h := { cause := BitVec.ofNat 32 t.cause, pc := saved, addr := t.addr, info := t.info, flag := true, lpc := t.lpc } }

/-- The M registers of a trap taken to the monitor handler (R222). -/
def enterMonitor (it : Item) (t : Trap) (saved vec : W64) (noh : Bool) : Item :=
  { it with
    pc := vec
    m := { cause := BitVec.ofNat 32 t.cause, pc := saved, addr := t.addr, info := t.info, mon := true,
           fromh := it.h.flag, noh := noh } }

/-- Where a trap of an item goes (R221, R223). -/
inductive Route where | launch | monitor (noh : Bool) | double
  deriving DecidableEq, Repr

/-- The route of cause `c` for an item whose card names handler `h`: with MON set it is not delivered (R223); the
in-handler flag or a card without a handler sends a launch cause to the monitor (R221). -/
def routeOf (it : Item) (h : W64) (c : Nat) : Route :=
  if it.m.mon then .double
  else if toMonitor c then .monitor false
  else if h = 0 then .monitor true
  else if it.h.flag then .monitor false
  else .launch

/-- The program counter a trap at the word at `pc` saves (R109, R222): SVC and, taken to the launch handler, TRAP save the
next word, the others the word. -/
def savedPc (r : Route) (cause : Nat) (pc : W64) : W64 :=
  if cause = cSVC ∨ (cause = cTRAP ∧ r = .launch) then pc + 8 else pc

/-- Taking a trap at the word at `pc` (R108, R222, R223): the one operation every exception uses. -/
def State.takeTrap (s : State) (ik : Nat) (t : Trap) (pc : W64) : State :=
  match s.item? ik with
  | none => s
  | some it =>
    let h := (s.cardOf (launchOf ik)).handler
    let s := { s with moved := true, trapped := ik :: s.trapped }
    let c := s.coreOf ik
    let r := routeOf it h t.cause
    let saved := savedPc r t.cause pc
    match r with
    | .launch => s.updItem ik (fun it => { enterLaunch it t saved h with skip := false })
    | .monitor noh =>
      s.updItem ik (fun it => { enterMonitor it t saved (s.mvecOf c (jobOf ik)) noh with skip := false })
    | .double =>
      (s.haltGroup (groupOf ik) .double).postEvent c
        ⟨cDOUBLE, t.cause, grpNo ik, it.pc, BitVec.ofNat 32 (65536 * 2 ^ posOf ik), 0⟩

/-- The handler level an item runs at: 0 its program, 1 its launch handler, 2 and 3 its monitor handler over either. -/
def Item.level (it : Item) : Nat := (if it.h.flag then 1 else 0) + (if it.m.mon then 2 else 0)
/-- Where the item stands, as its waits are kept by. -/
def Item.spot (it : Item) : Spot := ⟨it.pc, it.level⟩
/-- After a return, the waits that stay: the one at the word the item is at, and those of levels further out (R183,
R224). -/
def dropWaits (it : Item) : Item :=
  { it with waits := it.waits.filter (fun w => w.1 == it.spot || decide (w.1.lvl < it.level)) }

/-- ERET (R110, R223): with MON set it returns from the monitor, else from the launch handler; with neither it is
illegal. A return from a BREAK or WATCH sets the debug-skip flag, which covers one word only (R233); after a return from
the monitor the loads of a taken `POISON_FULL` try again (R229). -/
def eretItem (it : Item) : Option Item :=
  if it.m.mon then
    some (dropWaits { it with
      pc := it.m.pc
      m := { it.m with mon := false }
      skip := it.m.cause == BitVec.ofNat 32 cBREAK || it.m.cause == BitVec.ofNat 32 cWATCH
      full := it.full.filter (fun f => !f.2) })
  else if it.h.flag then some (dropWaits { it with pc := it.h.pc, h := { it.h with flag := false }, skip := false })
  else none

/-! ## Issuing a word -/

/-- Item `ik` at address `pc`. -/
def State.setPc (s : State) (ik : Nat) (pc : W64) : State := s.updItem ik (fun it => { it with pc := pc })

/-- Item `ik` past the word of `len` bytes; progress has been made. The debug-skip flag covers one word (R233). -/
def State.advance (s : State) (ik len : Nat) : State :=
  { s.updItem ik (fun it => { it with pc := it.pc + BitVec.ofNat 64 len, skip := false }) with moved := true }

/-- The items of the bundle under way whose guard is true, and those whose guard is false (R39). -/
def State.active (s : State) (g : Guard) : List Nat :=
  s.cur.items.filter (fun ik => match s.item? ik with | some it => guardHolds g it | none => false)
def State.inactive (s : State) (g : Guard) : List Nat :=
  s.cur.items.filter (fun ik => match s.item? ik with | some it => !guardHolds g it | none => false)

/-- Positions of the items of a list that belong to group `gk`, as a 16-bit mask. -/
def posMask (gk : Nat) (l : List Nat) : Nat := ((l.filter (fun ik => groupOf ik == gk)).map (fun ik => 2 ^ posOf ik)).sum

/-- The bundle under way without item `ik`, or without every item: those left out split off (R135, R242). -/
def State.leave (s : State) (ik : Nat) : State := { s with cur := { s.cur with items := s.cur.items.filter (· != ik) } }
def State.leaveAll (s : State) : State := { s with cur := { s.cur with items := [] } }

/-- A watchpoint fires for item `ik` of the word at `pc`; `done` are the items that have performed their access, `grd` the
items of the bundle instruction whose guard was true (R234, R241, R242). -/
def State.fireWatch (s : State) (done grd : List Nat) (ik : Nat) (pc : W64) (num : Nat) (halt : Bool) (info : Nat) (a : W64) :
    State :=
  if halt then
    let gk := groupOf ik
    let mask := posMask gk done + 65536 * posMask gk grd
    (((s.haltGroup gk .watch).postEvent (s.coreOf ik)
      ⟨cWATCH, num, grpNo ik, pc, BitVec.ofNat 32 mask, 0⟩)).leaveAll
  else (s.takeTrap ik ⟨cWATCH, BitVec.ofNat 32 info, a, 0⟩ pc).leaveAll

/-- Whether item `ik` has completed the word at `pc` of the issue under way, without a trap. -/
def passed (s : State) (pc : W64) (ik : Nat) : Bool :=
  match s.item? ik with
  | some b => b.pc != pc && !s.trapped.contains ik
  | none => false
/-- Whether a body makes the item wait: it is then in no position of the bundle instruction (R135). -/
def Ev.waits {α : Type} : Ev α → Bool
  | .error .wait => true
  | _ => false

/-- One active item of an issue: `f s0 s ik` is the instruction's body, from the state before the word (`s0`) and the
state its earlier items have left (`s`). A ready item completes, a waiting one stays at its word and leaves the bundle, a
trap is taken. -/
def runItem (act : List Nat) (f : State → State → Nat → Ev State) (s0 s : State) (ik : Nat) : State :=
  if !s.cur.items.contains ik then s
  else
    match f s0 s ik with
    | .ok t => { t with moved := true }
    | .error .wait => s.leave ik
    | .error (.trap t) => s.takeTrap ik t s0.cur.pc
    | .error (.watch n h i a idle) =>
      let grd := act.filter (fun k => s.cur.items.contains k && (decide (k ≤ ik) || !(f s0 s k).waits))
      let done := act.filter (fun k => passed s s0.cur.pc k && !idle.contains k)
      { s.fireWatch done grd ik s0.cur.pc n h i a with moved := true }

/-- The issue of a word of `len` bytes whose body sets the program counter itself (R39): items whose guard is false
advance, then the active items run in ascending order. -/
def issueRaw (g : Guard) (len : Nat) (f : State → State → Nat → Ev State) (s : State) : State :=
  let s1 := (s.inactive g).foldl (fun t ik => t.advance ik len) s
  (s.active g).foldl (runItem (s.active g) f s) s1

/-- The issue of a word whose body leaves each completed item at the next word. -/
def issue (g : Guard) (len : Nat) (f : State → State → Nat → Ev State) (s : State) : State :=
  issueRaw g len (fun s0 t ik => do let u ← f s0 t ik; .ok (u.advance ik len)) s

/-- The item and group of a key, as a body reads them. -/
def getItem (s : State) (ik : Nat) : Ev (Item × Group) :=
  match s.item? ik with
  | some it => .ok (it, s.groupD (groupOf ik))
  | none => .error .wait

/-- Whether an exchange is a matrix product, which will raise the count when it is accepted. -/
def Exch.isProduct (e : Exch) : Bool :=
  match e.ins with
  | .mma _ _ | .mmac _ _ => true
  | _ => false
/-- A group's in-flight count with the products that its open instances will add (R140). -/
def State.inflightRes (s : State) (gk : Nat) : Nat :=
  let g := s.groupD gk
  g.inflight + (g.exch.filter Exch.isProduct).length + (s.mmacs.filter (fun m => m.grp == gk)).length
/-- The group's in-flight count raised by one; where that would make it 64 the item waits (R140). -/
def raiseInflight (s : State) (ik : Nat) : Ev State :=
  if 63 ≤ s.inflightRes (groupOf ik) then .error .wait
  else .ok (s.updGroup (groupOf ik) (fun g => { g with inflight := g.inflight + 1 }))
/-- The in-flight count of a group lowered by one at a completion. -/
def State.lowerInflight (s : State) (gk : Nat) : State := s.updGroup gk (fun g => { g with inflight := g.inflight - 1 })

/-! ## What a boundary comes to first (R224) -/

/-- Whether an item is to take CANCELLED now: its operations in flight have drained (R354). -/
def State.cancelDue (s : State) (ik : Nat) (it : Item) : Bool :=
  it.cancel && !it.cancelled && (s.groupD (groupOf ik)).inflight == 0
/-- Whether an asynchronous trap is to be taken at the item's boundary. -/
def State.trapDue (s : State) (ik : Nat) : Bool :=
  match s.item? ik with
  | some it => !it.m.mon && (!it.pend.isEmpty || s.cancelDue ik it)
  | none => false
/-- Whether an item waits for another device, whose answer its instruction has not had (R380). -/
def Item.awaitsDevice (it : Item) : Bool := it.waits.any (fun w => match w.2 with | .remote _ none => true | _ => false)
/-- Whether a group may stop: its in-flight count is zero and none of its registers is EMPTY. -/
def State.groupQuiet (s : State) (gk : Nat) : Bool :=
  let g := s.groupD gk
  g.inflight == 0 && !anyEmpty g.g &&
    (AMap.range s.items (gk * 16) (gk * 16 + 16)).all (fun e => !anyEmpty e.2.v && !e.2.awaitsDevice)
/-- Whether pre-emption has been asked of team `tk`: of the team, of its job (R351), or of every team (R378). -/
def State.mustLeave (s : State) (tk : Nat) : Bool :=
  s.mgmt.hot ||
    (match AMap.find s.teams tk with | some t => t.preempt | none => false) ||
    (match AMap.find s.jobs (jobOfLaunch (tk / 2 ^ 36)) with | some b => !b.active | none => false)

/-! ## Who knows of operand-store writes (R199, R312) -/

/-- What carries order between items: named barrier `b` of a team in a generation, cluster barrier, LBAR and PHBND
instances, a buffer entry, an operation, a tile, a byte of memory or of a scratchpad, an item's release fence and the
writes its loads have seen. -/
def tok (kind n : Nat) : Nat := kind * 2 ^ 120 + n
def tokBar (tk b : Nat) (gen : BitVec 16) : Nat := tok 1 ((tk * 1024 + b) * 65536 + gen.toNat)
def tokCBar (k : Nat) (gen : BitVec 16) : Nat := tok 2 (k * 65536 + gen.toNat)
def tokLbar (lk n : Nat) : Nat := tok 3 (lk * 2 ^ 32 + n)
def tokPhbnd (lk n : Nat) : Nat := tok 4 (lk * 2 ^ 32 + n)
def tokBuf (made : Nat) : Nat := tok 5 made
def tokOp (n : Nat) : Nat := tok 6 n
def tokTile (tk k : Nat) : Nat := tok 7 (tk * 8 + k)
def tokMem (pa n : Nat) : List Nat := (List.range n).map (fun i => tok 8 (pa + i))
def tokFence (ik : Nat) : Nat := tok 9 ik
def tokSeen (ik : Nat) : Nat := tok 10 ik
def tokScr (tk o n : Nat) : List Nat := (List.range n).map (fun i => tok 11 (tk * 2 ^ 20 + o + i))
/-- A list of knowers with those of `dst` added from time `t` on, where one of `src` is among them. -/
def learn (l : List (Nat × Nat)) (src dst : List Nat) (t : Nat) : List (Nat × Nat) :=
  if l.any (fun e => src.contains e.1) then
    l ++ (dst.filter (fun d => !l.any (fun e => e.1 == d))).map (fun d => (d, t))
  else l
/-- Whatever happens-before one of `src` happens-before those of `dst` from now on. -/
def State.sync (s : State) (src dst : List Nat) : State :=
  if s.teams.all (fun e => e.2.unpublished.isEmpty) then s
  else { s with teams := s.teams.map (fun e => (e.1, { e.2 with unpublished := e.2.unpublished.map (fun w =>
    { w with known := learn w.known src dst s.fresh, pubs := learn w.pubs src dst s.fresh }) })) }
/-- A store or atomic of item `ik` to places `l`: a release carries what the item knows, another write what its last release
fence did (R312). -/
def State.syncStore (s : State) (ik : Nat) (rel : Bool) (l : List Nat) : State :=
  s.sync (if rel then [ik] else [tokFence ik]) l
/-- A load or atomic from places `l`: an acquire learns what they carry, another read leaves it for an acquire fence. -/
def State.syncLoad (s : State) (ik : Nat) (acq : Bool) (l : List Nat) : State := s.sync l (if acq then [ik, tokSeen ik] else [tokSeen ik])

/-! ## Pending traps -/

/-- A pending asynchronous trap of an item, kept in the order of R224. -/
def pendRank (t : Trap) : Nat :=
  if t.cause = cCOPY then 0 else if t.cause = cMTX then 1 else if t.cause = cREDERR then 2
  else if t.cause = cPFULL then 3 else 4
def State.addPending (s : State) (ik : Nat) (t : Trap) : State :=
  s.updItem ik (fun it => { it with pend := sortBy (fun a b => decide (pendRank a < pendRank b)) (it.pend ++ [t]) })

/-- An uncorrectable error at a RED's location (R162, R221). -/
def redErr (ea : W64) : Trap := addrTrap cREDERR 4 ea

/-! ## Outstanding operations and waits -/

/-- Adds an outstanding operation and gives its number. -/
def State.addOp (s : State) (o : Op) : Nat × State :=
  (s.fresh, { s with ops := AMap.put s.ops s.fresh o, fresh := s.fresh + 1 })

/-- A wait of item `ik` begun at the word under way, the one recorded there, and its removal. -/
def State.setWait (s : State) (ik : Nat) (w : Wait) : State :=
  s.updItem ik (fun it => { it with waits := (it.spot, w) :: it.waits.filter (fun e => e.1 != it.spot) })
def Item.wait? (it : Item) : Option Wait := (it.waits.find? (fun e => e.1 == it.spot)).map (·.2)
def State.clearWait (s : State) (ik : Nat) : State :=
  s.updItem ik (fun it => { it with waits := it.waits.filter (fun e => e.1 != it.spot) })

end Sys2Proof.Machine
end

