-- ==== Sys2Proof/Machine/Flags.lean ====
section
/-! DEFINITION. The sticky exception flags of a group (R56): bit 4 NV, 3 DZ, 2 OF, 1 UF, 0 NX. A flag is visible to the
whole group at once (log entry 11). -/

namespace Sys2Proof.Machine

/-- A set of exception flags. -/
abbrev Flg := BitVec 5
def fNone : Flg := 0
def fNV : Flg := 16
def fDZ : Flg := 8
def fOF : Flg := 4
def fUF : Flg := 2
def fNX : Flg := 1

/-- NX when `b`. -/
def nxIf (b : Bool) : Flg := if b then fNX else fNone
/-- NV when `b`. -/
def nvIf (b : Bool) : Flg := if b then fNV else fNone

/-- Adds flags to the group of item `ik`; no instruction clears one (R56). -/
def State.addFlags (s : State) (ik : Nat) (f : Flg) : State :=
  if f = 0 then s else s.updGroup (groupOf ik) (fun g => { g with fstat := g.fstat ||| f })

end Sys2Proof.Machine
end

