-- ==== Sys2Proof/Machine/Float.lean ====
section
/-! DEFINITION. Number formats and their arithmetic (R57 to R66, R91 to R101): a finite value is an exact dyadic
rational, an operation is exact, and one rounding narrows it (R9). -/

namespace Sys2Proof.Machine

/-! ## Formats (R57) -/

/-- The float formats. -/
inductive Fmt where | f64 | f32 | f16 | bf16 | e5m2 | e4m3 | e2m1
  deriving DecidableEq, Repr

/-- Fraction bits, exponent bits and bias. -/
def Fmt.frac : Fmt → Nat
  | .f64 => 52 | .f32 => 23 | .f16 => 10 | .bf16 => 7 | .e5m2 => 2 | .e4m3 => 3 | .e2m1 => 1
def Fmt.expo : Fmt → Nat
  | .f64 => 11 | .f32 => 8 | .f16 => 5 | .bf16 => 8 | .e5m2 => 5 | .e4m3 => 4 | .e2m1 => 2
def Fmt.bias : Fmt → Int
  | .f64 => 1023 | .f32 => 127 | .f16 => 15 | .bf16 => 127 | .e5m2 => 15 | .e4m3 => 7 | .e2m1 => 1
/-- Width of the format. -/
def Fmt.bits (f : Fmt) : Nat := 1 + Fmt.expo f + Fmt.frac f
/-- Encoding of the largest finite magnitude. -/
def Fmt.maxMag : Fmt → Nat
  | .f64 => 0x7FEFFFFFFFFFFFFF | .f32 => 0x7F7FFFFF | .f16 => 0x7BFF | .bf16 => 0x7F7F | .e5m2 => 0x7B
  | .e4m3 => 0x7E | .e2m1 => 0x7
/-- Whether the format has infinities. -/
def Fmt.hasInf : Fmt → Bool
  | .e4m3 | .e2m1 => false
  | _ => true
/-- The canonical quiet NaN (R59); 0 where the format has none. -/
def Fmt.nan : Fmt → Nat
  | .f64 => 0x7FF8000000000000 | .f32 => 0x7FC00000 | .f16 => 0x7E00 | .bf16 => 0x7FC0 | .e5m2 => 0x7E
  | .e4m3 => 0x7F | .e2m1 => 0
/-- The sign bit. -/
def Fmt.signBit (f : Fmt) (neg : Bool) : Nat := if neg then 2 ^ (Fmt.bits f - 1) else 0

/-! ## Values -/

/-- A number: `fin n m e` is (−1)^n × m × 2^e. -/
inductive Num where
  | nan (sig : Bool)
  | inf (neg : Bool)
  | fin (neg : Bool) (m : Nat) (e : Int)
  deriving DecidableEq, Repr

/-- `Val(x, T)` (R57, R58). -/
def Fmt.val (f : Fmt) (x : Nat) : Num :=
  let w := Fmt.frac f
  let neg := (x / 2 ^ (Fmt.bits f - 1)) % 2 = 1
  let e := (x / 2 ^ w) % 2 ^ Fmt.expo f
  let m := x % 2 ^ w
  if f = .e4m3 ∧ e = 15 ∧ m = 7 then .nan false
  else if Fmt.hasInf f ∧ e = 2 ^ Fmt.expo f - 1 then
    if m = 0 then .inf neg else .nan (decide (m < 2 ^ (w - 1)))
  else if e = 0 then .fin neg m (1 - Fmt.bias f - w)
  else .fin neg (2 ^ w + m) ((e : Int) - Fmt.bias f - w)

/-- Whether a number is a signalling NaN, any NaN. -/
def Num.isSnan : Num → Bool
  | .nan s => s
  | _ => false
def Num.isNan : Num → Bool
  | .nan _ => true
  | _ => false
/-- Sign, and negation. -/
def Num.neg? : Num → Bool
  | .nan _ => false
  | .inf n => n
  | .fin n _ _ => n
def Num.negate : Num → Num
  | .nan s => .nan s
  | .inf n => .inf (!n)
  | .fin n m e => .fin (!n) m e
/-- The integer `z` as a number; 0 is +0. -/
def Num.ofInt (z : Int) : Num := .fin (decide (z < 0)) z.natAbs 0
/-- A number times 2^k. -/
def Num.scale (x : Num) (k : Int) : Num :=
  match x with
  | .fin n m e => .fin n m (e + k)
  | y => y

/-- Digits of a number in base 2. -/
def bitLen (m : Nat) : Nat := if m = 0 then 0 else Nat.log2 m + 1

/-! ## Rounding (R60 to R62) -/

/-- Whether a magnitude with integer part `n` steps up: `half` compares the rest with one half (lt, eq, gt), `inexact`
says the rest is not 0. -/
def stepsUp (mode : RMode) (neg : Bool) (n : Nat) (half : Ordering) (inexact : Bool) : Bool :=
  match mode with
  | .rne =>
    match half with
    | .lt => false
    | .gt => true
    | .eq => n % 2 = 1
  | .rtz => false
  | .rdn => inexact && neg
  | .rup => inexact && !neg

/-- The magnitude m × 2^e, plus something below 2^e where `sticky`, rounded to a multiple of 2^q: the multiple, and
whether it was inexact. -/
def roundAt (mode : RMode) (neg : Bool) (m : Nat) (e : Int) (sticky : Bool) (q : Int) : Nat × Bool :=
  if q ≤ e then (m * 2 ^ (e - q).toNat, sticky)
  else
    let k := (q - e).toNat
    let n := m / 2 ^ k
    let r := m % 2 ^ k
    let h := 2 ^ (k - 1)
    let half : Ordering := if r < h then .lt else if h < r then .gt else if sticky then .gt else .eq
    let inx := decide (r ≠ 0) || sticky
    (if stepsUp mode neg n half inx then n + 1 else n, inx)

/-- The value of an overflow (R61, R62). -/
def overflowMag (f : Fmt) (mode : RMode) (neg : Bool) : Nat :=
  let inf := (2 ^ Fmt.expo f - 1) * 2 ^ Fmt.frac f
  if !Fmt.hasInf f then Fmt.maxMag f
  else
    match mode with
    | .rne => inf
    | .rtz => Fmt.maxMag f
    | .rdn => if neg then inf else Fmt.maxMag f
    | .rup => if neg then Fmt.maxMag f else inf

/-- `Round` of (−1)^neg × m × 2^e (R60, R61), where `sticky` says that the exact magnitude lies strictly between m and
m + 1 times 2^e; the caller then gives at least two bits more than the format holds. A zero keeps `neg`. -/
def roundTo (f : Fmt) (mode : RMode) (neg : Bool) (m : Nat) (e : Int) (sticky : Bool) : Nat × Flg :=
  if m = 0 ∧ ¬sticky then (Fmt.signBit f neg, fNone)
  else
    let w := Fmt.frac f
    let qmin : Int := 1 - Fmt.bias f - w
    let qu : Int := e + bitLen m - (w + 1)
    let q : Int := if qu < qmin then qmin else qu
    let (n, inx) := roundAt mode neg m e sticky q
    let mag := (q - qmin).toNat * 2 ^ w + n
    if Fmt.maxMag f < mag then (Fmt.signBit f neg + overflowMag f mode neg, fOF ||| fNX)
    else
      let (nu, _) := roundAt mode neg m e sticky qu
      let tiny := decide (qu < qmin) && (decide (qu < qmin - 1) || decide (nu < 2 ^ (w + 1)))
      (Fmt.signBit f neg + mag, nxIf inx ||| (if tiny && inx then fUF else fNone))

/-- An infinity in a format: R62 gives ±M with OF where the format has none. -/
def infTo (f : Fmt) (neg : Bool) : Nat × Flg :=
  if Fmt.hasInf f then (Fmt.signBit f neg + (2 ^ Fmt.expo f - 1) * 2 ^ Fmt.frac f, fNone)
  else (Fmt.signBit f neg + Fmt.maxMag f, fOF)

/-- A result in a format; a NaN result is canonical (R59). -/
def numTo (f : Fmt) (mode : RMode) (x : Num) : Nat × Flg :=
  match x with
  | .nan _ => (Fmt.nan f, fNone)
  | .inf n => infTo f n
  | .fin n m e => roundTo f mode n m e false

/-! ## Arithmetic (R91) -/

/-- NV for a signalling operand. -/
def snanFlags (xs : List Num) : Flg := nvIf (xs.any Num.isSnan)

/-- The exact sum of two finite values as a signed multiple of the lower exponent. -/
def finSum (n1 : Bool) (m1 : Nat) (e1 : Int) (n2 : Bool) (m2 : Nat) (e2 : Int) : Int × Int :=
  let e := if e1 ≤ e2 then e1 else e2
  let a : Int := (m1 * 2 ^ (e1 - e).toNat : Nat)
  let b : Int := (m2 * 2 ^ (e2 - e).toNat : Nat)
  ((if n1 then -a else a) + (if n2 then -b else b), e)

/-- The sum of two numbers that are not NaN (R91 items 2 to 4, R60 for zeros). -/
def addNum (mode : RMode) (x y : Num) : Num × Flg :=
  match x, y with
  | .fin n1 m1 e1, .fin n2 m2 e2 =>
    let (z, e) := finSum n1 m1 e1 n2 m2 e2
    if z = 0 then
      if m1 = 0 ∧ m2 = 0 ∧ n1 = n2 then (.fin n1 0 0, fNone) else (.fin (mode == .rdn) 0 0, fNone)
    else (.fin (decide (z < 0)) z.natAbs e, fNone)
  | .inf a, .inf b => if a = b then (.inf a, fNone) else (.nan false, fNV)
  | .inf a, _ => (.inf a, fNone)
  | _, .inf b => (.inf b, fNone)
  | _, _ => (.nan false, fNone)

/-- The product of two numbers that are not NaN. -/
def mulNum (x y : Num) : Num × Flg :=
  match x, y with
  | .fin n1 m1 e1, .fin n2 m2 e2 => (.fin (n1 != n2) (m1 * m2) (e1 + e2), fNone)
  | .inf a, .fin b m _ => if m = 0 then (.nan false, fNV) else (.inf (a != b), fNone)
  | .fin a m _, .inf b => if m = 0 then (.nan false, fNV) else (.inf (a != b), fNone)
  | .inf a, .inf b => (.inf (a != b), fNone)
  | _, _ => (.nan false, fNone)

/-- a + b in format f. -/
def fpAdd (f : Fmt) (mode : RMode) (a b : Num) : Nat × Flg :=
  if a.isNan || b.isNan then (Fmt.nan f, snanFlags [a, b])
  else
    let (r, fl) := addNum mode a b
    let (v, fl2) := numTo f mode r
    (v, fl ||| fl2)
/-- a × b in format f. -/
def fpMul (f : Fmt) (mode : RMode) (a b : Num) : Nat × Flg :=
  if a.isNan || b.isNan then (Fmt.nan f, snanFlags [a, b])
  else
    let (r, fl) := mulNum a b
    let (v, fl2) := numTo f mode r
    (v, fl ||| fl2)
/-- a × b + c in format f with one rounding; 0 × ∞ is NV even beside a quiet NaN. -/
def fpFma (f : Fmt) (mode : RMode) (a b c : Num) : Nat × Flg :=
  let nv := if a.isNan || b.isNan then fNone else (mulNum a b).2
  if a.isNan || b.isNan || c.isNan then (Fmt.nan f, snanFlags [a, b, c] ||| nv)
  else
    let (p, fl) := mulNum a b
    if p.isNan then (Fmt.nan f, fl)
    else
      let (r, fl1) := addNum mode p c
      let (v, fl2) := numTo f mode r
      (v, fl1 ||| fl2)

/-- Order of two numbers that are not NaN: −0 and +0 are equal. -/
def cmpNum (x y : Num) : Ordering :=
  match x, y with
  | .fin n1 m1 e1, .fin n2 m2 e2 => compare (finSum n1 m1 e1 (!n2) m2 e2).1 0
  | .inf a, .inf b => if a = b then .eq else if a then .lt else .gt
  | .inf a, _ => if a then .lt else .gt
  | _, .inf b => if b then .gt else .lt
  | _, _ => .eq

/-- minimumNumber and maximumNumber on encodings (R66). -/
def fpMinMax (f : Fmt) (max : Bool) (x y : Nat) : Nat × Flg :=
  let a := Fmt.val f x
  let b := Fmt.val f y
  let fl := snanFlags [a, b]
  if a.isNan then (if b.isNan then Fmt.nan f else y, fl)
  else if b.isNan then (x, fl)
  else
    match cmpNum a b with
    | .lt => (if max then y else x, fl)
    | .gt => (if max then x else y, fl)
    | .eq => (if a.neg? == max then y else x, fl)

/-- The compares of R93. -/
def fpCmp (f : Fmt) (c : FCond) (x y : Nat) : Bool × Flg :=
  let a := Fmt.val f x
  let b := Fmt.val f y
  let uno := a.isNan || b.isNan
  let o := cmpNum a b
  let q := snanFlags [a, b]
  match c with
  | .eq => (!uno && o == .eq, q)
  | .ne => (uno || o != .eq, q)
  | .lt => (!uno && o == .lt, nvIf uno)
  | .le => (!uno && o != .gt, nvIf uno)
  | .gt => (!uno && o == .gt, nvIf uno)
  | .ge => (!uno && o != .lt, nvIf uno)
  | .ord => (!uno, q)
  | .uno => (uno, q)

/-- The class mask of a binary32 (R94). -/
def fpClass (x : Nat) : Nat :=
  let e := (x / 2 ^ 23) % 256
  let m := x % 2 ^ 23
  let neg := (x / 2 ^ 31) % 2 = 1
  if e = 255 then
    if m = 0 then (if neg then 1 else 128) else if 2 ^ 22 ≤ m then 512 else 256
  else if e = 0 then
    if m = 0 then (if neg then 8 else 16) else (if neg then 4 else 32)
  else (if neg then 2 else 64)

/-! ## Special functions (R95) -/

/-- Integer square root by bits: `n` more bits of result. -/
def isqrtBits (x : Nat) : Nat → Nat → Nat
  | 0, r => r
  | n + 1, r =>
    let r1 := r + 2 ^ n
    isqrtBits x n (if r1 * r1 ≤ x then r1 else r)
/-- The integer part of the square root. -/
def isqrt (x : Nat) : Nat := isqrtBits x (bitLen x / 2 + 1) 0

/-- A finite quotient of magnitudes, rounded: m1 × 2^e1 ÷ m2 × 2^e2, m2 not 0. -/
def divRound (f : Fmt) (mode : RMode) (neg : Bool) (m1 : Nat) (e1 : Int) (m2 : Nat) (e2 : Int) : Nat × Flg :=
  let k := bitLen m2 + Fmt.frac f + 4
  let n := m1 * 2 ^ k
  roundTo f mode neg (n / m2) (e1 - e2 - k) (decide (n % m2 ≠ 0))

/-- a ÷ b. -/
def fpDiv (f : Fmt) (mode : RMode) (a b : Num) : Nat × Flg :=
  match a, b with
  | .fin n1 m1 e1, .fin n2 m2 e2 =>
    if m2 = 0 then
      if m1 = 0 then (Fmt.nan f, fNV) else ((infTo f (n1 != n2)).1, fDZ)
    else if m1 = 0 then (Fmt.signBit f (n1 != n2), fNone)
    else divRound f mode (n1 != n2) m1 e1 m2 e2
  | .inf n1, .fin n2 _ _ => infTo f (n1 != n2)
  | .fin n1 _ _, .inf n2 => (Fmt.signBit f (n1 != n2), fNone)
  | .inf _, .inf _ => (Fmt.nan f, fNV)
  | _, _ => (Fmt.nan f, snanFlags [a, b])

/-- √a; and 1 ÷ √a. A value m × 2^e is taken with e even. -/
def evenExp (m : Nat) (e : Int) : Nat × Int := if e % 2 = 0 then (m, e) else (2 * m, e - 1)
def fpSqrt (f : Fmt) (mode : RMode) (a : Num) : Nat × Flg :=
  match a with
  | .nan s => (Fmt.nan f, nvIf s)
  | .inf n => if n then (Fmt.nan f, fNV) else infTo f false
  | .fin n m e =>
    if m = 0 then (Fmt.signBit f n, fNone)
    else if n then (Fmt.nan f, fNV)
    else
      let (m, e) := evenExp m e
      let k := Fmt.frac f + 4
      let x := m * 2 ^ (2 * k)
      let r := isqrt x
      roundTo f mode false r (e / 2 - k) (decide (r * r ≠ x))
def fpRsqrt (f : Fmt) (a : Num) : Nat × Flg :=
  match a with
  | .nan s => (Fmt.nan f, nvIf s)
  | .inf n => if n then (Fmt.nan f, fNV) else (0, fNone)
  | .fin n m e =>
    if m = 0 then ((infTo f n).1, fDZ)
    else if n then (Fmt.nan f, fNV)
    else
      let (m, e) := evenExp m e
      let k := bitLen m + Fmt.frac f + 4
      let r := isqrt (2 ^ (2 * k) / m)
      roundTo f .rne false r (-(e / 2) - k) (decide (r * r * m ≠ 2 ^ (2 * k)))

/-- Fraction bits of the fixed-point evaluations; log entry 10 says why they round rightly. -/
def fixBits : Nat := 320
def fixOne : Nat := 2 ^ 320

/-- Σ t^n / n! for the fixed-point t below 1: `n` terms from term `term` of number `i` on. -/
def expSeries (t : Nat) : Nat → Nat → Nat → Nat
  | 0, _, _ => 0
  | n + 1, i, term => term + expSeries t n (i + 1) (term * t / fixOne / (i + 1))
/-- e^t for t in [0, 1). -/
def expFix (t : Nat) : Nat := expSeries t 90 0 fixOne
/-- Σ z^(2k+1) / (2k+1). -/
def atanhSeries (z2 : Nat) : Nat → Nat → Nat → Nat
  | 0, _, _ => 0
  | n + 1, i, pow => pow / (2 * i + 1) + atanhSeries z2 n (i + 1) (pow * z2 / fixOne)
/-- The inverse hyperbolic tangent of z in [0, 1/3]. -/
def atanhFix (z : Nat) : Nat := atanhSeries (z * z / fixOne) 110 0 z
/-- The natural logarithm of 2. -/
def ln2Fix : Nat := 2 * atanhFix (fixOne / 3)

/-- The fixed-point value of m × 2^e, truncated. -/
def toFix (m : Nat) (e : Int) : Nat :=
  let k := e + fixBits
  if 0 ≤ k then m * 2 ^ k.toNat else m / 2 ^ (-k).toNat

/-- 2^a for a finite a (R95). -/
def exp2Fin (neg : Bool) (m : Nat) (e : Int) : Nat × Flg :=
  if m = 0 then (0x3F800000, fNone)
  else if 1024 * fixOne ≤ toFix m e then
    if neg then roundTo .f32 .rne false 1 (-1000) false else roundTo .f32 .rne false 1 1000 false
  else
    let x := toFix m e
    -- the integer part, and the fraction in [0, 1)
    let (n, t) : Int × Nat :=
      if neg then
        let r := x % fixOne
        if r = 0 then (-(x / fixOne : Nat), 0) else (-(x / fixOne : Nat) - 1, fixOne - r)
      else ((x / fixOne : Nat), x % fixOne)
    if t = 0 then roundTo .f32 .rne false 1 n false
    else roundTo .f32 .rne false (expFix (t * ln2Fix / fixOne)) (n - fixBits) true
def fpExp2 (a : Num) : Nat × Flg :=
  match a with
  | .nan s => (Fmt.nan .f32, nvIf s)
  | .inf n => if n then (0, fNone) else infTo .f32 false
  | .fin n m e => exp2Fin n m e

/-- log2 a. -/
def fpLog2 (a : Num) : Nat × Flg :=
  match a with
  | .nan s => (Fmt.nan .f32, nvIf s)
  | .inf n => if n then (Fmt.nan .f32, fNV) else infTo .f32 false
  | .fin n m e =>
    if m = 0 then ((infTo .f32 true).1, fDZ)
    else if n then (Fmt.nan .f32, fNV)
    else
      let l := bitLen m - 1
      let p : Int := e + l
      if m = 2 ^ l then
        if p = 0 then (0, fNone) else roundTo .f32 .rne (decide (p < 0)) p.natAbs 0 false
      else
        -- a = 2^p × (1 + y), log2 a = p + 2 atanh (y / (2 + y)) / ln 2
        let z := (m - 2 ^ l) * fixOne / (m + 2 ^ l)
        let lg : Int := (2 * atanhFix z * fixOne / ln2Fix : Nat)
        let v : Int := p * (fixOne : Int) + lg
        roundTo .f32 .rne (decide (v < 0)) v.natAbs (-fixBits) true

/-- tanh a: below 2^-12 the result lies strictly between the number below a and a and within a quarter unit of a; from
16 on within 2^-40 below 1. -/
def fpTanh (a : Num) : Nat × Flg :=
  match a with
  | .nan s => (Fmt.nan .f32, nvIf s)
  | .inf n => (if n then 0xBF800000 else 0x3F800000, fNone)
  | .fin n m e =>
    if m = 0 then (Fmt.signBit .f32 n, fNone)
    else
      let x := toFix m e
      if x < 2 ^ (fixBits - 12) then roundTo .f32 .rne n (m * 2 ^ 64 - 1) (e - 64) true
      else if 16 * fixOne ≤ x then roundTo .f32 .rne n (2 ^ 64 - 1) (-64) true
      else
        -- e^(2x) as the 64th power of e^(x/32)
        let b := expFix (x / 32)
        let sq := fun (y : Nat) => y * y / fixOne
        let ex := sq (sq (sq (sq (sq (sq b)))))
        roundTo .f32 .rne n ((ex - fixOne) * fixOne / (ex + fixOne)) (-fixBits) true

/-! ## Conversions (R96, R97) -/

/-- What a full type is. -/
inductive Cls where
  | int (signed : Bool) (w : Nat)
  | flt (f : Fmt)
  | code
  deriving DecidableEq, Repr
def FullTy.cls : FullTy → Cls
  | .s8 => .int true 8 | .s16 => .int true 16 | .s32 => .int true 32 | .s64 => .int true 64
  | .z8 => .int false 8 | .z16 => .int false 16 | .z32 => .int false 32 | .z64 => .int false 64
  | .f16 => .flt .f16 | .bf16 => .flt .bf16 | .f32 => .flt .f32 | .f64 => .flt .f64
  | .e4m3 => .flt .e4m3 | .e5m2 => .flt .e5m2 | .e2m1 => .flt .e2m1
  | .c4 => .code

/-- Range of an integer class; the integer its low bits stand for; an integer as it stands in a register or pair,
sign- or zero-extended (R45). -/
def intLo (signed : Bool) (w : Nat) : Int := if signed then -(2 ^ (w - 1) : Nat) else 0
def intHi (signed : Bool) (w : Nat) : Int := if signed then (2 ^ (w - 1) : Nat) - 1 else (2 ^ w : Nat) - 1
def intVal (signed : Bool) (w : Nat) (x : Nat) : Int :=
  let y := x % 2 ^ w
  if signed ∧ 2 ^ (w - 1) ≤ y then (y : Int) - (2 ^ w : Nat) else y
def intImage (w : Nat) (z : Int) : Nat := (z % (2 ^ (if w = 64 then 64 else 32) : Nat)).toNat

/-- A finite value rounded to an integer: the magnitude, and whether it was inexact. -/
def toIntegral (mode : RMode) (neg : Bool) (m : Nat) (e : Int) : Nat × Bool := roundAt mode neg m e false 0

/-- Float to integer (R97). -/
def fltToInt (mode : RMode) (signed : Bool) (w : Nat) (x : Num) : Nat × Flg :=
  match x with
  | .nan _ => (0, fNV)
  | .inf n => (intImage w (if n then intLo signed w else intHi signed w), fNV)
  | .fin n m e =>
    let (k, inx) := toIntegral mode n m e
    let z : Int := if n then -(k : Int) else k
    if z < intLo signed w then (intImage w (intLo signed w), fNV)
    else if intHi signed w < z then (intImage w (intHi signed w), fNV)
    else (intImage w z, nxIf inx)

/-- Float to another float format (R97, R62). -/
def fltToFlt (f : Fmt) (mode : RMode) (x : Num) : Nat × Flg :=
  match x with
  | .nan s => (Fmt.nan f, nvIf (s || f == .e2m1))
  | y => numTo f mode y

/-- Round to an integral value in the same format (R97); a value that is kept is encoded exactly. -/
def fltIntegral (f : Fmt) (mode : RMode) (x : Num) : Nat × Flg :=
  match x with
  | .nan s => (Fmt.nan f, nvIf s)
  | .inf n => infTo f n
  | .fin n m e =>
    if m = 0 then (Fmt.signBit f n, fNone)
    else ((roundTo f .rne n (toIntegral mode n m e).1 0 false).1, fNone)

/-- CVT of the bits `x` (R96, R97). -/
def fCvt (dt st : FullTy) (mode : RMode) (x : Nat) : Nat × Flg :=
  match FullTy.cls st, FullTy.cls dt with
  | .int ss sw, .int ds dw =>
    let z := intVal ss sw x
    (intImage dw (if z < intLo ds dw then intLo ds dw else if intHi ds dw < z then intHi ds dw else z), fNone)
  | .int ss sw, .flt f => numTo f mode (Num.ofInt (intVal ss sw x))
  | .flt f, .int ds dw => fltToInt mode ds dw (Fmt.val f x)
  | .flt f, .flt f2 => if f = f2 then fltIntegral f mode (Fmt.val f x) else fltToFlt f2 mode (Fmt.val f x)
  | _, _ => (0, fNone)

/-- Element bits of a packed type (R98), and whether it is signed. -/
def packBits : FullTy → Nat
  | .s16 | .z16 | .f16 | .bf16 => 16
  | .e2m1 | .c4 => 4
  | _ => 8
def packSigned : FullTy → Bool
  | .s8 | .s16 => true
  | _ => false
/-- The low `n` bits of each of the `e` containers of `x`, as `e` dense elements (R98). -/
def packReg (n x : Nat) : Nat → Nat
  | 0 => 0
  | e + 1 => x % 2 ^ n + 2 ^ n * packReg n (x / 2 ^ (2 * n)) e
def fPack (t : FullTy) (a b : Nat) : Nat :=
  let n := packBits t
  packReg n a (16 / n) + 2 ^ 16 * packReg n b (16 / n)
/-- `e` elements of `x`, each extended to its container (R98). -/
def unpackReg (n : Nat) (signed : Bool) (x : Nat) : Nat → Nat
  | 0 => 0
  | e + 1 =>
    let y := x % 2 ^ n
    (if signed ∧ 2 ^ (n - 1) ≤ y then y + (2 ^ (2 * n) - 2 ^ n) else y) +
      2 ^ (2 * n) * unpackReg n signed (x / 2 ^ n) e
def fUnpk (t : FullTy) (h : Bool) (a : Nat) : Nat :=
  unpackReg (packBits t) (packSigned t) (if h then a / 2 ^ 16 else a % 2 ^ 16) (16 / packBits t)

/-! ## Block scales and codes (R64, R65, R99 to R101) -/

/-- `Exp(s)` of a scale byte: bits 5:0 minus 31, or bits 3:0 minus 7 for the codebook meaning. -/
def scaleExp (s : Nat) : Int :=
  if (s / 64) % 4 = 3 then ((s % 16 : Nat) : Int) - 7 else ((s % 64 : Nat) : Int) - 31
/-- The exponent of a scale byte read with bias 31 (R100). -/
def scaleExp31 (s : Nat) : Int := ((s % 64 : Nat) : Int) - 31

/-- Entry `c` of a codebook register (R65). -/
def cbEntry (cb : BitVec 256) (c : Nat) : Num := Fmt.val .f16 (cb.toNat / 2 ^ (16 * (c % 16)) % 2 ^ 16)
/-- The power-of-two column of R65. -/
def pow2Code (c : Nat) : Num :=
  if c % 8 = 0 then .fin false 0 0 else .fin (decide (8 ≤ c % 16)) 1 ((c % 8 : Nat) - 4)
/-- The value of code `c` under scale byte `s` (R65). -/
def codeVal (cbs : List (BitVec 256)) (s c : Nat) : Num :=
  match (s / 64) % 4 with
  | 0 => Num.ofInt (intVal true 4 c)
  | 1 => Fmt.val .e2m1 (c % 16)
  | 2 => pow2Code c
  | _ => cbEntry (cbs.getD ((s / 16) % 4) 0) c

/-- SCAC (R99). -/
def fScac (mode : RMode) (a s c : Nat) : Nat × Flg :=
  let k := scaleExp (s % 256) + scaleExp (s / 256 % 256)
  fpAdd .f32 mode (Num.scale (Fmt.val .f32 a) k) (Fmt.val .f32 c)

/-- Magnitudes of the power-of-two column in eighths, ascending, with their codes. -/
def pow2Mags : List (Nat × Nat) := [(0, 0), (1, 1), (2, 2), (4, 3), (8, 4), (16, 5), (32, 6), (64, 7)]

/-- QNT under the integer meaning. -/
def qntInt (mode : RMode) (x : Num) : Nat × Flg :=
  match x with
  | .nan _ => (0, fNV)
  | .inf n => (if n then 8 else 7, fOF)
  | .fin n m e =>
    let (k, inx) := toIntegral mode n m e
    let z : Int := if n then -(k : Int) else k
    if z < -8 then (8, fOF ||| fNX)
    else if 7 < z then (7, fOF ||| fNX)
    else ((z % 16).toNat, nxIf inx)

/-- The neighbours of a magnitude of `v` in 2^-k eighths among the column: the greatest entry not above it, and the
least not below it. -/
def pow2Below (v k : Nat) : Nat × Nat := (pow2Mags.filter (fun p => p.1 * 2 ^ k ≤ v)).getLastD (0, 0)
def pow2Above (v k : Nat) : Nat × Nat := ((pow2Mags.filter (fun p => v ≤ p.1 * 2 ^ k)).head?).getD (64, 7)

/-- QNT under the power-of-two meaning: a tie goes to the code whose bit 0 is 0. -/
def qntPow2 (mode : RMode) (x : Num) : Nat × Flg :=
  match x with
  | .nan _ => (0, fNV)
  | .inf n => (if n then 15 else 7, fOF)
  | .fin n m e =>
    -- the magnitude in units of 2^-k eighths
    let ex : Int := e + 3
    let k := (-ex).toNat
    let v := m * 2 ^ ex.toNat
    let code := fun (c : Nat) => if c = 0 then 0 else if n then 8 + c else c
    if 64 * 2 ^ k < v then (code 7, fOF ||| fNX)
    else
      let lo := pow2Below v k
      let hi := pow2Above v k
      if lo.1 = hi.1 then (code lo.2, fNone)
      else
        let dl := v - lo.1 * 2 ^ k
        let dh := hi.1 * 2 ^ k - v
        let up := match mode with
          | .rne => if dl < dh then false else if dh < dl then true else hi.2 % 2 == 0
          | .rtz => false
          | .rdn => n
          | .rup => !n
        (code (if up then hi.2 else lo.2), fNX)

/-- Distance order of two finite numbers from `x`: whether |a − x| < |b − x|. -/
def nearer (x a b : Num) : Bool :=
  match x, a, b with
  | .fin n m e, .fin n1 m1 e1, .fin n2 m2 e2 =>
    let (d1, q1) := finSum n1 m1 e1 (!n) m e
    let (d2, q2) := finSum n2 m2 e2 (!n) m e
    (finSum false d1.natAbs q1 true d2.natAbs q2).1 < 0
  | _, _, _ => false

/-- The first code, in ascending order, whose entry no other entry is better than. -/
def bestCode (better : Num → Num → Bool) : List (Nat × Num) → Option (Nat × Num)
  | [] => none
  | p :: l =>
    match bestCode better l with
    | some r => if better r.2 p.2 then some r else some p
    | none => some p

/-- QNT under the codebook meaning. -/
def qntBook (cb : BitVec 256) (x : Num) : Nat × Flg :=
  let all := (List.range 16).map (fun c => (c, cbEntry cb c))
  let finite := all.filter (fun p => match p.2 with | .fin _ _ _ => true | _ => false)
  match x with
  | .nan _ => (0, fNV)
  | .inf n =>
    match all.find? (fun p => p.2 == .inf n) with
    | some p => (p.1, fNone)
    | none =>
      match bestCode (fun a b => cmpNum a b == (if n then .lt else .gt)) finite with
      | some p => (p.1, fOF)
      | none => (0, fNV)
  | y =>
    match bestCode (nearer y) finite with
    | some p => (p.1, nxIf (cmpNum p.2 y != .eq))
    | none => (0, fNV)

/-- The format of a QNT or DQNT type; none for `.c4`. -/
def QTy.fmt : QTy → Option Fmt
  | .e4m3 => some .e4m3
  | .e5m2 => some .e5m2
  | .e2m1 => some .e2m1
  | .c4 => none

/-- QNT (R100). -/
def fQnt (cbs : List (BitVec 256)) (t : QTy) (mode : RMode) (a s : Nat) : Nat × Flg :=
  let v := Fmt.val .f32 a
  match QTy.fmt t with
  | some f => fltToFlt f mode (Num.scale v (-(scaleExp31 s)))
  | none =>
    let x := Num.scale v (-(scaleExp (s % 256)))
    match (s / 64) % 4 with
    | 0 => qntInt mode x
    | 1 => fltToFlt .e2m1 mode x
    | 2 => qntPow2 mode x
    | _ => qntBook (cbs.getD ((s / 16) % 4) 0) x

/-- DQNT (R101). -/
def fDqnt (cbs : List (BitVec 256)) (t : QTy) (a s : Nat) : Nat × Flg :=
  let (v, k) := match QTy.fmt t with
    | some f => (Fmt.val f (a % 2 ^ Fmt.bits f), scaleExp31 s)
    | none => (codeVal cbs (s % 256) (a % 16), scaleExp (s % 256))
  match v with
  | .nan sg => (Fmt.nan .f32, nvIf sg)
  | y => ((numTo .f32 .rne (Num.scale y k)).1, fNone)

end Sys2Proof.Machine
end

