-- ==== Sys2Proof/Machine/Operands.lean ====
section
/-! DEFINITION. The frames in which formats V, I and E read their operands and write their results (R11, R69 to R71, R84,
R90, R33). All items of a bundle read the state before the word, so a uniform register written by the word is read old
by every item (R51). -/

namespace Sys2Proof.Machine

/-- Registers an operand of an integer type covers. -/
def ITy.regs : ITy → Nat
  | .s32 | .z32 => 1
  | .s64 | .z64 => 2
/-- Registers of a full type. -/
def FullTy.regs : FullTy → Nat
  | .s64 | .z64 | .f64 => 2
  | _ => 1
/-- Registers of an operand that is a pair when `wide`. -/
def wideRegs (wide : Bool) : Nat := if wide then 2 else 1

/-- A source of width `w` registers; width 0 is a field the instruction does not use. -/
def readUse (q : Nat) (it : Item) (g : Group) (src : Src) (w : Nat) (wb : Bool) : Ev (W64 × Option W32) :=
  if w = 0 then .ok (0, none) else readSrc q it g src w wb

/-- The three sources of a format-V word in the order A, B, C (R11). -/
def readV3 (q : Nat) (it : Item) (g : Group) (f : VF) (aw bw cw : Nat) :
    Ev ((W64 × Option W32) × (W64 × Option W32) × (W64 × Option W32)) := do
  let a ← readUse q it g f.a aw f.wa
  let b ← readUse q it g f.b bw f.wb
  let c ← readUse q it g f.c cw f.wc
  .ok (a, b, c)

/-- The record index of the first POISON source in the order A, B, C (R113). -/
def firstOf3 (a b c : Option W32) : Option W32 := a.orElse (fun _ => b.orElse (fun _ => c))

/-- The frame of a format-V word with a register destination of `dw` registers (R69, R71, R90): it waits while the
destination is EMPTY, reads A, B, C, propagates POISON, else writes `F` of the sources and adds its flags. -/
def vBody (f : VF) (dw aw bw cw : Nat) (F : W64 → W64 → W64 → Nat × Flg) (s0 s : State) (ik : Nat) : Ev State := do
  let (it, g) ← getItem s0 ik
  let q := s0.quotaOf (launchOf ik)
  orWait (!dstBusy q it g (s0.leads ik) f.d dw)
  let (a, b, c) ← readV3 q it g f aw bw cw
  match ← dstRef q it f.d dw with
  | none => .ok s
  | some r =>
    match firstOf3 a.2 b.2 c.2 with
    | some p => .ok (s.destPoison ik r dw p)
    | none =>
      let (v, fl) := F a.1 b.1 c.1
      .ok ((s.addFlags ik fl).dest ik r dw v)

/-- The issue of such a word. -/
def execV (f : VF) (dw aw bw cw : Nat) (F : W64 → W64 → W64 → Nat × Flg) (s : State) :
    Host.Outcome State Fault Refusal :=
  .next (issue f.g 8 (vBody f dw aw bw cw F) s)

/-- The same without flags. -/
def execVI (f : VF) (dw aw bw cw : Nat) (F : W64 → W64 → W64 → Nat) (s : State) : Host.Outcome State Fault Refusal :=
  execV f dw aw bw cw (fun a b c => (F a b c, fNone)) s

/-- The predicate a format-V destination names; `p0` otherwise. -/
def dstPred : Dst → BitVec 3
  | .p n => n
  | _ => 0

/-- The frame of a compare (R70, R79, R93): a POISON source traps, the result goes to a predicate. -/
def cmpBody (f : VF) (w : Nat) (F : W64 → W64 → Bool × Flg) (s0 s : State) (ik : Nat) : Ev State := do
  let (it, g) ← getItem s0 ik
  let q := s0.quotaOf (launchOf ik)
  let (a, b, _) ← readV3 q it g f w w 0
  noPoison s0 ik (firstOf3 a.2 b.2 none)
  let (r, fl) := F a.1 b.1
  .ok ((s.addFlags ik fl).updItem ik (fun it => it.setPred (dstPred f.d) r))

/-- The issue of a compare. -/
def execCmpV (f : VF) (w : Nat) (F : W64 → W64 → Bool × Flg) (s : State) : Host.Outcome State Fault Refusal :=
  .next (issue f.g 8 (cmpBody f w F) s)

/-- The register an I-format field names (R29). -/
def iRef (u : Bool) (n : Fld) : RegRef := if u then .g n.toNat else .v n.toNat

/-- The frame of a format-I word with a register result (R84). -/
def iBody (f : IF) (uses : Bool) (F : W32 → W32) (s0 s : State) (ik : Nat) : Ev State := do
  let (it, g) ← getItem s0 ik
  orWait (!refBusy it g (s0.leads ik) (iRef f.u f.d) 1)
  let (a, p) ← if uses then readRef it g (iRef f.u f.a) 1 false else .ok (0, none)
  match p with
  | some i => .ok (s.destPoison ik (iRef f.u f.d) 1 i)
  | none => .ok (s.dest ik (iRef f.u f.d) 1 (F (lo32 a)).toNat)

/-- The issue of a format-I word. -/
def execI (f : IF) (uses : Bool) (F : W32 → W32) (s : State) : Host.Outcome State Fault Refusal :=
  .next (issue f.g 8 (iBody f uses F) s)

/-- A lane register pair or register read by format E, trapping on POISON (R33, R113). -/
def readE (s : State) (ik : Nat) (it : Item) (g : Group) (n : Fld) (w : Nat) : Ev W64 := do
  let (v, p) ← readV it g n.toNat w
  noPoison s ik p
  .ok v

/-- `w` registers read by format E as separate 32-bit values (R11, R113). -/
def readEs (s : State) (ik : Nat) (it : Item) (g : Group) (n : Fld) (w : Nat) : Ev (List W32) := do
  let rs := regsAt it g (.v n.toNat) w
  orWait (!anyEmpty rs)
  noPoison s ik (firstPoison rs)
  .ok (rs.map (·.val))

/-- The wait of R53 for `w` lane registers from `n` on. -/
def freeE (it : Item) (g : Group) (n : Fld) (w : Nat) : Ev Unit := orWait (!anyEmpty (regsAt it g (.v n.toNat) w))

end Sys2Proof.Machine
end

