-- ==== Sys2Proof/Machine/Translate.lean ====
section
/-! DEFINITION. Homes and slices (R294), translation (R145 to R147, R336, R337, R380), and old versions of blocks (R325
to R329, R334). A physical address is die × 2^36 + the offset within the die. -/

namespace Sys2Proof.Machine

/-! ## Slices (R294, R295) -/

/-- Key of a unit in the error table: class and index as in `errsel` (R373). -/
def unitKey (cls idx : Nat) : Nat := cls * 4096 + idx
def State.unit (s : State) (cls idx : Nat) : UnitErr := AMap.getD s.errs (unitKey cls idx) UnitErr.none
/-- Whether a unit is retired (R305). -/
def State.retired (s : State) (cls idx : Nat) : Bool := (s.unit cls idx).retired
/-- The live slices of a die, ascending: neither the slice nor its channel is retired. -/
def State.live (s : State) (die : Nat) : List Nat :=
  (List.range 48).filter (fun k => !s.retired 1 (die * 48 + k) && !s.retired 2 (die * 48 + k))
/-- `HomeSlice(x)` on a die: the slice, and the line's place in its channel (R294). -/
def State.homeSlice (s : State) (die x : Nat) : Nat × Nat :=
  let l := s.live die
  let n := l.length
  let q := x / n
  let f := q % 64 + q / 64 % 64 + q / 4096 % 64 + q / 262144 % 32
  (l.getD ((x % n + f) % n) 0, q)
/-- Die and offset of a physical address; its line. -/
def paDie (pa : Nat) : Nat := pa / 2 ^ 36
def paOff (pa : Nat) : Nat := pa % 2 ^ 36
def lineOf (pa : Nat) : Nat := pa / 128
/-- Bytes of live memory of a die. -/
def State.liveBytes (s : State) (die : Nat) : Nat := (s.live die).length * 2 ^ 30

/-! ## The page table (R336, R337) -/

def State.pte (s : State) (p : Nat) : W64 := AMap.getD s.ptes p 0
/-- Fields of an entry. -/
def pteHome (e : W64) : Nat := (e.extractLsb' 55 3).toNat
def pteFrame (e : W64) : Nat := pteHome e * 2 ^ 36 + (e.extractLsb' 16 20).toNat * 65536
def pteAttr (e : W64) : BitVec 2 := e.extractLsb' 58 2
def pteSize (e : W64) : BitVec 2 := e.extractLsb' 1 2
/-- Bytes of the page a leaf maps; its level. -/
def leafBytes (sz : BitVec 2) : Nat := if sz = 0 then 65536 else if sz = 1 then 2 ^ 21 else 2 ^ 30
def leafLevel (sz : BitVec 2) : Nat := 5 - sz.toNat
/-- Index bits of a level. -/
def pteIdx (lvl va : Nat) : Nat :=
  match lvl with
  | 1 => va / 2 ^ 48 % 512
  | 2 => va / 2 ^ 39 % 512
  | 3 => va / 2 ^ 30 % 512
  | 4 => va / 2 ^ 21 % 512
  | _ => va / 2 ^ 16 % 32

/-- The walk from a table at `base` of level `lvl`: the leaf and where it stands. -/
def State.walk (s : State) (va : Nat) : Nat → Nat → Nat → Option (Nat × W64)
  | 0, _, _ => none
  | n + 1, lvl, base =>
    let p := base + 8 * pteIdx lvl va
    let e := s.pte p
    if !bit e 0 then none
    else if pteSize e = 3 then s.walk va n (lvl + 1) (pteFrame e)
    else if leafLevel (pteSize e) = lvl then some (p, e)
    else none
/-- The leaf of job `j` for virtual address `va` below 2^57. -/
def State.leaf (s : State) (j va : Nat) : Option (Nat × W64) :=
  match AMap.find s.jobs j with
  | some job => s.walk va 5 1 job.root
  | none => none

/-- All leaves below a table of level `lvl`: virtual address, place, entry. -/
def State.leavesAt (s : State) : Nat → Nat → Nat → Nat → List (Nat × Nat × W64)
  | 0, _, _, _ => []
  | n + 1, lvl, base, va =>
    let cnt := if lvl = 5 then 32 else 512
    let step := match lvl with | 1 => 2 ^ 48 | 2 => 2 ^ 39 | 3 => 2 ^ 30 | 4 => 2 ^ 21 | _ => 2 ^ 16
    ((AMap.range s.ptes base (base + 8 * cnt)).map (fun p =>
      let a := va + (p.1 - base) / 8 * step
      if !bit p.2 0 then []
      else if pteSize p.2 = 3 then s.leavesAt n (lvl + 1) (pteFrame p.2) a
      else if leafLevel (pteSize p.2) = lvl then [(a, p.1, p.2)]
      else [])).flatten
/-- All leaves of a job, ascending. -/
def State.leaves (s : State) (j : Nat) : List (Nat × Nat × W64) :=
  match AMap.find s.jobs j with
  | some job => s.leavesAt 5 1 job.root 0
  | none => []

/-! ## Translation -/

/-- A translation of an access: page base and size, entry, physical address. -/
structure Xlat where
  va : Nat
  size : Nat
  pte : W64
  pa : Nat
  deriving DecidableEq, Repr
def Xlat.gv (x : Xlat) : Bool := bit x.pte 63
/-- The attribute; a view page is REL (R334). -/
def Xlat.attr (x : Xlat) : BitVec 2 := if x.gv then 1 else pteAttr x.pte
def Xlat.rd (x : Xlat) : Bool := bit x.pte 60
def Xlat.wr (x : Xlat) : Bool := bit x.pte 61 && !x.gv
def Xlat.ex (x : Xlat) : Bool := bit x.pte 62

def aSEQ : BitVec 2 := 0
def aREL : BitVec 2 := 1
def aPHASE : BitVec 2 := 2
def aPRIV : BitVec 2 := 3

/-- What translation answers: a translation, a reason of R157, a stall, or the device that owns the region. -/
inductive TR where
  | ok (x : Xlat)
  | fail (reason : Nat)
  | stall
  | remote (dev : Nat)
  deriving DecidableEq, Repr

/-- Bits 63:57 all equal bit 56 (R145). -/
def canonical (a : W64) : Bool :=
  let top : BitVec 8 := a.extractLsb' 56 8
  top == 0 || top == 255
/-- Bits 56:0 of an address. -/
def vaOf (a : W64) : Nat := a.toNat % 2 ^ 57
/-- Whether no path reaches another device (R379, R380): none is known, or every link of this device is down. -/
def State.cutOff (s : State) (dev : Nat) : Bool :=
  s.unreach.contains dev || (List.range 36).all (fun l => s.linksDown.contains l)
/-- Key of a virtual address of a job in the lower tier. -/
def lowKey (j va : Nat) : Nat := j * 2 ^ 57 + va

/-- Translation of address `a` for job `j`. A page under an attribute change or a migration stalls (R324, R338), as
does a page in the lower tier (R340). -/
def State.translate (s : State) (j : Nat) (a : W64) : TR :=
  let va := vaOf a
  if !canonical a then .fail 1
  else
    match AMap.find s.jobs j with
    | none => .fail 1
    | some job =>
      match AMap.find job.gmap (va / 2 ^ 30) with
      | some d => .remote d
      | none =>
        match s.walk va 5 1 job.root with
        | none => .fail 1
        | some (_, e) =>
          let size := leafBytes (pteSize e)
          let base := va - va % size
          if s.stalled.any (fun t => t.1 == j && decide (t.2.1 ≤ va) && decide (va < t.2.1 + t.2.2)) then .stall
          else if bit e 3 then (if s.lowerBad.contains (lowKey j base) then .fail 4 else .stall)
          else if !bit e 63 && decide (s.liveBytes (pteHome e) < paOff (pteFrame e) + size) then .fail 1
          else .ok ⟨base, size, e, pteFrame e + va % size⟩

/-- Whether the attribute of the translation differs from that of its frame (R307). -/
def State.aliased (s : State) (x : Xlat) : Bool := !x.gv && AMap.getD s.fat (x.pa / 65536) 0 != x.attr

/-- The translation as a last-page register and the TLBs hold it (R146): a register that holds it is used alone, an L1 TLB
that holds it before the cluster's; the newest comes first. -/
def State.recordXlat (s : State) (c slot j : Nat) (x : Xlat) : State :=
  let t : Trans := ⟨j, x.va, x.pte⟩
  let put := fun (l : List Trans) (cap : Nat) => (t :: l.filter (fun u => u != t)).take cap
  if AMap.find (s.core c).lastPage slot = some t then s
  else
    let hit := (s.core c).tlb.contains t
    let s := s.updCore c (fun k => { k with lastPage := AMap.put k.lastPage slot t, tlb := put k.tlb 256 })
    if hit then s
    else { s with tlb2 := AMap.put s.tlb2 (clusterOf c) (put (AMap.getD s.tlb2 (clusterOf c) []) 16384) }

/-- A change to the translations of job `j` in [lo, hi) sweeps every register and TLB that may hold one (R147). -/
def State.sweep (s : State) (j lo hi : Nat) : State :=
  let hit := fun (t : Trans) => t.job == j && decide (t.va < hi) && decide (lo < t.va + leafBytes (pteSize t.pte))
  { s with
    cores := s.cores.map (fun e => (e.1,
      { e.2 with tlb := e.2.tlb.filter (fun t => !hit t), lastPage := e.2.lastPage.filter (fun p => !hit p.2) }))
    tlb2 := s.tlb2.map (fun e => (e.1, e.2.filter (fun t => !hit t))) }

/-! ## Old versions (R325 to R329) -/

/-- Pool blocks of 4 KiB, and those in use: old versions not in the lower tier, and pending PHASE blocks. -/
def State.poolSize (s : State) : Nat := s.poolMiB * 256
def State.poolUsed (s : State) : Nat :=
  (s.vers.filter (fun v => !v.lower)).length + (s.cores.map (fun e => e.2.pendPool.length)).sum
def State.poolFree (s : State) : Bool := decide (s.poolUsed < s.poolSize)

/-- The version of block `b` of job `j` that generation `g` needs. -/
def State.versionOf (s : State) (j b g : Nat) : Option Version :=
  s.vers.find? (fun v => v.job == j && v.block == b && v.gens.contains g)

/-- Whether a page entry is one whose present bytes a generation in fixing keeps (R329, log entry 15): mapped, no view page,
and not PRIV, whose writes reach the home when they are written back (R321). -/
def fixes (e : W64) : Bool := !bit e 63 && pteAttr e != aPRIV
/-- Whether a fixing generation keeps block `b` of job `j`. -/
def State.fixesBlock (s : State) (j b : Nat) : Bool :=
  match s.leaf j (b * 4096) with
  | some (_, e) => fixes e
  | none => false
/-- Generations of job `j` that lack a version of block `b` (R327): live, holding its page. -/
def State.lacking (s : State) (j b : Nat) : List Nat :=
  match AMap.find s.jobs j with
  | none => []
  | some job =>
    (job.gens.filter (fun e => (if e.2.st = .fixing then s.fixesBlock j b else e.2.pages.contains (b / 16)) &&
      (s.versionOf j b e.1).isNone)).map (·.1)

/-- The published bytes of the 4 KiB at physical address `pa`, by offset. -/
def State.blockBytes (s : State) (pa : Nat) : Cells :=
  (AMap.range s.mem pa (pa + 4096)).map (fun e => (e.1 - pa, e.2))

/-- Whether `n` more pool blocks can be taken. -/
def State.poolFits (s : State) (n : Nat) : Bool := n == 0 || decide (s.poolUsed + n ≤ s.poolSize)
/-- Copies that writes of jobs to virtual addresses need first, each block copied once (R327). -/
def State.copiesFor (s : State) (ws : List (Nat × Nat)) : Nat :=
  ((ws.map (fun w => (w.1, w.2 / 4096))).eraseDups.filter (fun w => !(s.lacking w.1 w.2).isEmpty)).length
/-- Whether such writes can be performed now: the pool has a block for each copy. -/
def State.cowRoom (s : State) (ws : List (Nat × Nat)) : Bool := s.poolFits (s.copiesFor ws)
/-- Whether a write of job `j` to the block of `va` can be performed now: no copy is needed or a pool block is free. -/
def State.cowOk (s : State) (j va : Nat) : Bool := s.cowRoom [(j, va)]
/-- An old version of the block of `va`, standing at physical address `pa`, for generations `gs`. -/
def State.copyBlock (s : State) (j va pa : Nat) (gs : List Nat) : State :=
  if gs.isEmpty then s
  else
    let base := pa - pa % 4096
    let bad := s.memErr.any (fun p => decide (base ≤ p) && decide (p < base + 4096))
    let s : State := { s with vers := s.vers ++ [⟨j, va / 4096, gs, s.blockBytes base, false, bad⟩] }
    s.updJob j (fun job => { job with gens := job.gens.map (fun e =>
      (e.1, if gs.contains e.1 ∧ e.2.st = .drained then { e.2 with st := .draining } else e.2)) })
/-- The copy on write of the block of `va`, standing at physical address `pa`. -/
def State.cow (s : State) (j va pa : Nat) : State := s.copyBlock j va pa (s.lacking j (va / 4096))
/-- Generation `g` of job `j` no longer needs the old versions of blocks that satisfy `f`; those it alone needed are
freed. -/
def State.dropVers (s : State) (j g : Nat) (f : Nat → Bool) : State :=
  { s with vers := s.vers.filterMap (fun v =>
      if v.job = j ∧ v.gens.contains g ∧ f v.block then
        (if v.gens.all (· == g) then none else some { v with gens := v.gens.filter (· != g) })
      else some v) }

/-- The byte of generation `g` at virtual address `va` of job `j`, and whether it was read with an error (R334): an old
version, or the block still in place, in memory or in the lower tier. -/
def State.genByte (s : State) (j g va : Nat) : BitVec 8 × Bool :=
  match s.versionOf j (va / 4096) g with
  | some v => (v.data.read (va % 4096), v.bad)
  | none =>
    match s.leaf j va with
    | none => (Config.unwritten, true)
    | some (_, e) =>
      let size := leafBytes (pteSize e)
      if bit e 3 then
        (s.lower.read (lowKey j va), s.lowerBad.contains (lowKey j (va - va % size)) || s.lowerErr.contains (lowKey j va))
      else
        let pa := pteFrame e + va % size
        (s.mem.read pa, s.memErr.contains pa)
/-- The byte a view page of job `j` shows at `va`. -/
def State.viewByte (s : State) (j va : Nat) : BitVec 8 × Bool :=
  match AMap.find s.jobs j with
  | some job =>
    match AMap.find job.viewMap (va / 65536) with
    | some (g, src) => s.genByte j g (src + va % 65536)
    | none => (Config.unwritten, true)
  | none => (Config.unwritten, true)

/-! ## Writing published memory -/

/-- A store to an expert's weight range removes its added replicas first (R387). -/
def State.dropReplicas (s : State) (j va n : Nat) : State :=
  match AMap.find s.jobs j with
  | none => s
  | some job =>
    let hit := fun (x : Expert) =>
      match x.reps with
      | p :: _ :: _ => decide (p.base.toNat < va + n) && decide (va < p.base.toNat + x.wlen)
      | _ => false
    if job.experts.any (fun e => hit e.2) then
      s.updJob j (fun job =>
        { job with
          rver := job.rver + 1
          kept := job.kept ++ ((job.experts.filter (fun e => hit e.2)).map
            (fun e => e.2.reps.tail.map (fun r => (e.1, r, job.rver + 1)))).flatten
          experts := job.experts.map (fun e => (e.1, if hit e.2 then { e.2 with reps := e.2.reps.take 1 } else e.2)) })
    else s

/-- Bytes written at physical address `pa`, the place of virtual address `va` of job `j`: copy on write comes first, and
errors of the written bytes are gone (R160). The bytes lie in one 4 KiB block. -/
def State.writeHome (s : State) (j va pa : Nat) (bs : List (BitVec 8)) : State :=
  let s := (s.dropReplicas j va bs.length).cow j va pa
  { s with
    mem := s.mem.writeN pa bs
    memErr := s.memErr.filter (fun p => !(decide (pa ≤ p) && decide (p < pa + bs.length))) }

end Sys2Proof.Machine
end

