-- ==== Sys2Proof/Machine/Coherence.lean ====
section
/-! DEFINITION. Caches and the directory protocol (R149, R150, R293 to R303). Loads and far atomics ask the home and wait
for its answer; a store or near atomic is performed once its transaction has completed. They change no value that a
program can observe but for PRIV lines, whose copies hold their own bytes (R321). -/

namespace Sys2Proof.Machine

/-! ## The L1 (R149, R150) -/

/-- The L1's copy of a line. -/
def Core.l1Line (k : Core) (l : Nat) : Option Line := k.l1.find? (fun x => x.line == l)
/-- The L1 without the line. -/
def Core.l1Drop (k : Core) (l : Nat) : Core := { k with l1 := k.l1.filter (fun x => x.line != l) }
/-- The L1 with the line's copy replaced. -/
def Core.l1Set (k : Core) (x : Line) : Core := { k with l1 := x :: k.l1.filter (fun y => y.line != x.line) }
/-- Whether a core has pending PHASE writes in a line, performed or waiting in its collector. -/
def Core.pendIn (k : Core) (l : Nat) : Bool :=
  !(AMap.range k.pend (l * 128) (l * 128 + 128)).isEmpty || k.slots.any (fun e => e.2.line == l && !e.2.reqs.isEmpty)

/-- Party of core `c` in the directory of a line: its L1, or its die's remote-data cache (R296, R301). -/
def partyOf (c line : Nat) : Nat := if dieOf c = paDie (line * 128) then c % 48 else 48 + dieOf c
/-- The home itself, as the one to which the copies answer that a far atomic invalidates (R298). -/
def homeParty : Nat := 56
/-- Whether a state is exclusive or dirty-owned. -/
def Moesi.owns : Moesi → Bool
  | .e | .m | .o => true
  | .i | .s => false
def Moesi.writable : Moesi → Bool
  | .e | .m => true
  | _ => false

/-- The line a message is about. -/
def CohMsg.line : CohMsg → Nat
  | .gets l _ _ _ | .getm l _ _ _ | .far l _ | .wb l _ _ | .wbAck l _ | .fwd l _ _ _ _ _ _ | .inv l _ _ | .ack l _
  | .data l _ _ _ _ _ _ _ | .complete l _ => l
/-- Whether a request of the party for the line is on its way; for a write, one for ownership. -/
def State.asking (s : State) (line p : Nat) (write : Bool) : Bool :=
  s.coh.any (fun m => match m with
    | .gets l q _ _ => l == line && q == p && !write
    | .getm l q _ _ => l == line && q == p
    | .data l q _ _ _ st _ _ => l == line && q == p && (!write || Moesi.writable st)
    | _ => false) || s.gathers.any (fun g => g.line == line && g.party == p)
/-- Whether anything about the line is under way. -/
def State.lineBusy (s : State) (line : Nat) : Bool :=
  s.coh.any (fun m => m.line == line) || s.gathers.any (fun g => g.line == line) ||
    (AMap.getD s.dir line DirEnt.none).busy.isSome

/-- Dirty PRIV bytes of a copy written to the home, one by one. -/
def State.cleanPriv (s : State) (x : Line) : State :=
  x.dirty.foldl (fun t pa => t.writeHome x.job (x.va + (pa - x.line * 128)) pa [AMap.getD x.data pa 0]) s

/-- Whether the copy may leave the L1 now: pending PHASE bytes need a pool block (R327), dirty PRIV bytes a copy on
write; a tracked copy stays while its party asks for the line. -/
def State.mayEvict (s : State) (c : Nat) (x : Line) : Bool :=
  if x.code = aPHASE then
    !(s.core c).pendIn x.line || (s.core c).pendPool.contains (x.line / 32) || s.poolFree
  else if x.code = aPRIV then x.dirty.isEmpty || s.cowOk x.job x.va
  else !s.asking x.line (partyOf c x.line) false

/-- A party gives up a copy it owned: the line stands in its writeback buffer until the home acknowledges (R299). -/
def State.giveBack (s : State) (line p : Nat) (st : Moesi) : State :=
  if Moesi.owns st then { s with wbufs := s.wbufs ++ [(line, p)], coh := s.coh ++ [.wb line p false] } else s
/-- A pool block for the core's pending writes to the line's 4 KiB (R325). -/
def State.takePend (s : State) (c line : Nat) : State :=
  if (s.core c).pendPool.contains (line / 32) then s
  else s.updCore c (fun k => { k with pendPool := line / 32 :: k.pendPool })
/-- The copy leaves the L1 of core `c` (R149, R299, R325); a copy under the remote-data cache is gathered there (R301). -/
def State.evict (s : State) (c : Nat) (x : Line) : State :=
  let s := s.updCore c (·.l1Drop x.line)
  if x.code = aPRIV then s.cleanPriv x
  else if x.code = aPHASE then
    if (s.core c).pendIn x.line then s.takePend c x.line else s
  else
    let p := partyOf c x.line
    if p < 48 then s.giveBack x.line p x.st else s

/-- Whether `a` goes before `b` as a victim: lower priority, then less recent (R150). -/
def victimBefore (a b : Line) : Bool := decide (a.prio.toNat < b.prio.toNat) || (a.prio == b.prio && decide (a.used < b.used))
/-- The lines that share the line's set in the L1 of core `c`: 128 sets of 8 ways, the set being the line modulo 128. -/
def Core.l1Others (k : Core) (line : Nat) : List Line := k.l1.filter (fun y => y.line % 128 == line % 128 && y.line != line)
/-- A line enters the L1 of core `c`, where a way can be had. -/
def State.l1Fill (s : State) (c : Nat) (x : Line) : State :=
  let set := (s.core c).l1Others x.line
  if set.length < 8 then s.updCore c (·.l1Set x)
  else
    match sortBy victimBefore (set.filter (s.mayEvict c)) with
    | v :: _ => (s.evict c v).updCore c (·.l1Set x)
    | [] => s
/-- Whether pending PHASE bytes of the line need a pool block: their line is not in the L1 and cannot enter it (R325). -/
def State.needsPend (s : State) (c line : Nat) (prio : BitVec 3) : Bool :=
  let set := (s.core c).l1Others line
  !((s.core c).l1Line line).isSome && !(s.core c).pendPool.contains (line / 32) &&
    (prio == 0 || (decide (8 ≤ set.length) && !set.any (s.mayEvict c)))

/-! ## The predictor (R302) -/

/-- Entry of a line: address bits 14:7 xor 22:15. -/
def predIdx (line : Nat) : Nat := Nat.xor (line % 256) (line / 256 % 256)
def Core.predUp (k : Core) (line : Nat) : Core :=
  let n := AMap.getD k.pred (predIdx line) 0
  { k with pred := AMap.put k.pred (predIdx line) (if n = 3 then 3 else n + 1) }
def Core.predDown (k : Core) (line : Nat) : Core :=
  let n := AMap.getD k.pred (predIdx line) 0
  { k with pred := AMap.put k.pred (predIdx line) (if n = 0 then 0 else n - 1) }
/-- Core `c` loses ownership of a line to another party. -/
def Core.lose (k : Core) (line : Nat) : Core :=
  if k.nearTaken.contains line then
    { k.predUp line with nearTaken := k.nearTaken.filter (· != line) }
  else k
/-- The core accesses the line again. -/
def Core.touch (k : Core) (line : Nat) : Core := { k with nearTaken := k.nearTaken.filter (· != line) }
/-- The L1's copy of the line taken away, or left in state `st`: a copy that it owned and owns no longer is a loss. -/
def Core.yieldLine (k : Core) (line : Nat) (st : Option Moesi) : Core :=
  match k.l1Line line with
  | none => k
  | some y =>
    let owns := match st with | some m => Moesi.owns m | none => false
    let k := if Moesi.owns y.st && !owns then k.lose line else k
    match st with
    | some m => { k with l1 := k.l1.map (fun x => if x.line = line then { x with st := m } else x) }
    | none => k.l1Drop line

/-! ## The remote-data cache (R301) -/

/-- Banks of a die's remote-data cache in use, and the one that serves a line, with the line's set: the retired banks'
sets are served by the others (R305, log entry 55). -/
def State.rdcBanks (s : State) (die : Nat) : List Nat := (List.range 8).filter (fun b => !s.retired 3 (die * 8 + b))
def State.rdcKey (s : State) (die line : Nat) : Nat :=
  let l := s.rdcBanks die
  die * 8 + l.getD (line % l.length) 0
def State.rdcSet (s : State) (die line : Nat) : Nat := line / (s.rdcBanks die).length % 2048
/-- The cache's copy of a line; the state with it set, or dropped. -/
def State.rdcLine (s : State) (die line : Nat) : Option Line :=
  (AMap.getD s.rdc (s.rdcKey die line) []).find? (fun x => x.line == line)
def State.rdcDrop (s : State) (die line : Nat) : State :=
  let k := s.rdcKey die line
  { s with rdc := AMap.put s.rdc k ((AMap.getD s.rdc k []).filter (fun x => x.line != line)) }
def State.rdcSet1 (s : State) (die : Nat) (x : Line) : State :=
  let k := s.rdcKey die x.line
  { s with rdc := AMap.put s.rdc k (x :: (AMap.getD s.rdc k []).filter (fun y => y.line != x.line)) }

/-- Cores of a die whose L1s hold copies under party `p` of `line`. -/
def coresOf (line p : Nat) : List Nat :=
  if p < 48 then [paDie (line * 128) * 48 + p] else (List.range 48).map (fun k => (p - 48) * 48 + k)
/-- The L1 copies under a party taken away, or left in state `st`. -/
def State.yieldL1s (s : State) (line p : Nat) (st : Option Moesi) : State :=
  (coresOf line p).foldl (fun t c =>
    if ((t.core c).l1Line line).isSome then t.updCore c (·.yieldLine line st) else t) s
/-- The party's copies are dropped, ownership being lost. -/
def State.dropParty (s : State) (line p : Nat) : State :=
  let s := s.yieldL1s line p none
  if p < 48 then s else s.rdcDrop (p - 48) line
/-- The party's copies become shared, or owned where they were dirty; a remote-data cache gathers its L1s' data. -/
def State.sharePartyAs (s : State) (line p : Nat) (st : Moesi) : State :=
  if p < 48 then s.yieldL1s line p (some st)
  else
    let s := s.yieldL1s line p (some .s)
    match s.rdcLine (p - 48) line with
    | some y => s.rdcSet1 (p - 48) { y with st := st }
    | none => s
/-- The cache of a die gives up a line: its L1 copies go first, and an owned line goes home. -/
def State.rdcEvict (s : State) (die : Nat) (x : Line) : State :=
  let s := s.dropParty x.line (48 + die)
  if x.code = aPHASE then s else s.giveBack x.line (48 + die) x.st
/-- A line enters a die's cache: 16 ways, the least recently used first to go (log entry 55); none where every bank is
retired or every way is being asked for. -/
def State.rdcFill (s : State) (die : Nat) (x : Line) : Option State :=
  if (s.rdcBanks die).isEmpty then none
  else
    let set := (AMap.getD s.rdc (s.rdcKey die x.line) []).filter (fun y =>
      s.rdcSet die y.line == s.rdcSet die x.line && y.line != x.line)
    if set.length < 16 then some (s.rdcSet1 die x)
    else
      match sortBy victimBefore (set.filter (fun y => !s.asking y.line (48 + die) false)) with
      | v :: _ => some ((s.rdcEvict die v).rdcSet1 die x)
      | [] => none
/-- A bank goes out of use: what the die's cache holds leaves it, since its lines find other banks (R305). -/
def State.rdcEmpty (s : State) (die : Nat) : State :=
  ((List.range 8).map (fun b => AMap.getD s.rdc (die * 8 + b) [])).flatten.foldl (fun t x => t.rdcEvict die x) s

/-! ## Slices (R293) -/

/-- The cache of a line's home slice: its lines, and those of the line's set, the line modulo 1,024 (log entry 55). -/
def State.l2Key (s : State) (line : Nat) : Nat :=
  let die := paDie (line * 128)
  die * 48 + (s.homeSlice die (paOff (line * 128) / 128)).1
def State.l2Others (s : State) (line : Nat) : List Line :=
  (AMap.getD s.l2 (s.l2Key line) []).filter (fun y => y.line % 1024 == line % 1024 && y.line != line)
def State.l2Holds (s : State) (line : Nat) : Bool := (AMap.getD s.l2 (s.l2Key line) []).any (fun y => y.line == line)
/-- Whether the slice can take an access to the line now: a line that must enter it finds a way whose line is in no
transaction. -/
def State.l2Ready (s : State) (line : Nat) (prio : BitVec 3) : Bool :=
  s.l2Holds line || prio == 0 || decide ((s.l2Others line).length < 16) ||
    (s.l2Others line).any (fun y => !s.lineBusy y.line)
/-- The home slice's cache at an access of priority `prio`: a hit records it, a miss fills the line unless it is 0 (R150).
Before a line with tracked copies leaves, they are invalidated and an owner's dirty data retrieved (R296). -/
def State.l2Touch (s : State) (line : Nat) (prio : BitVec 3) : State :=
  let key := s.l2Key line
  let cur := AMap.getD s.l2 key []
  let x : Line := ⟨line, 0, 0, aREL, .s, prio, s.tick, 15, [], []⟩
  let rest := cur.filter (fun y => y.line != line)
  if !s.l2Holds line && prio == 0 then s
  else if s.l2Holds line || decide ((s.l2Others line).length < 16) then { s with l2 := AMap.put s.l2 key (x :: rest) }
  else
    match sortBy victimBefore ((s.l2Others line).filter (fun y => !s.lineBusy y.line)) with
    | [] => s
    | v :: _ =>
      let d := AMap.getD s.dir v.line DirEnt.none
      let s := (d.sharers ++ d.owner.toList).foldl (fun t p => t.dropParty v.line p) s
      { s with
        dir := AMap.del s.dir v.line
        l2 := AMap.put s.l2 key (x :: rest.filter (fun y => y.line != v.line)) }

/-! ## Requests (R298, R301, R302) -/

/-- A copy of a tracked line for core `c` by way of job `j` at `va`. -/
def freshLine (s : State) (x : Xlat) (j : Nat) (st : Moesi) (prio : BitVec 3) : Line :=
  ⟨lineOf x.pa, j, x.va + x.pa % x.size - x.pa % 128, x.attr, st, prio, s.tick, 15, [], []⟩

/-- An access of core `c` to a tracked line that its L1, or its die's remote-data cache, serves; none where the home must
be asked. -/
def State.serve (s : State) (c j : Nat) (x : Xlat) (write : Bool) (prio : BitVec 3) : Option State :=
  let line := lineOf x.pa
  let p := partyOf c line
  let hit := match (s.core c).l1Line line with
    | some y => if !write || Moesi.writable y.st then some y else none
    | none => none
  match hit with
  | some y => some (s.updCore c (fun k =>
      (k.touch line).l1Set { y with prio := prio, used := s.tick, st := if write then .m else y.st }))
  | none =>
    match (if p < 48 then none else s.rdcLine (dieOf c) line) with
    | none => none
    | some y =>
      if write && !Moesi.writable y.st then none
      else
        let s := s.updCore c (·.touch line)
        let s := s.yieldL1s line p (if write then none else some .s)
        let s := s.rdcSet1 (dieOf c) { y with used := s.tick, st := if write then .m else y.st }
        some (if prio = 0 then s else s.l1Fill c (freshLine s x j (if write then .m else .s) prio))
/-- The request of core `c` to the home, unless its party's is on its way. -/
def State.ask (s : State) (c line : Nat) (write : Bool) (prio : BitVec 3) : State :=
  let p := partyOf c line
  let s := s.updCore c (·.touch line)
  if s.asking line p write then s
  else { s with coh := s.coh ++ [if write then .getm line p c prio else .gets line p c prio] }
/-- A load of core `c` from a tracked line: served, or asked of the home. -/
def State.tracked (s : State) (c j : Nat) (x : Xlat) (write : Bool) (prio : BitVec 3) : State :=
  (s.serve c j x write prio).getD (s.ask c (lineOf x.pa) write prio)

/-! ## Steps of the home (R297, R298) -/

/-- Whether a message is a request that waits at the home of `line`. -/
def atHome (line : Nat) : CohMsg → Bool
  | .gets l _ _ _ | .getm l _ _ _ | .far l _ | .wb l _ _ => l == line
  | _ => false
/-- The first message that satisfies `f`, and the list without it. -/
def takeMsg (f : CohMsg → Bool) : List CohMsg → Option (CohMsg × List CohMsg)
  | [] => none
  | m :: l => if f m then some (m, l) else (takeMsg f l).map (fun r => (r.1, m :: r.2))

/-- The directory entry of a line; the state with it set. -/
def State.dirOf (s : State) (line : Nat) : DirEnt := AMap.getD s.dir line DirEnt.none
def State.setDir (s : State) (line : Nat) (d : DirEnt) : State :=
  { s with dir := if d = DirEnt.none then AMap.del s.dir line else AMap.put s.dir line d }
/-- Sharers of a line other than a party. -/
def DirEnt.others (d : DirEnt) (p : Nat) : List Nat := d.sharers.filter (· != p)
/-- Messages sent. A forward or invalidation makes a writeback stale that its party has under way (R299). -/
def State.send (s : State) (ms : List CohMsg) : State :=
  let crossed := fun (l p : Nat) => ms.any (fun m => match m with
    | .fwd a q _ _ _ _ _ => a == l && q == p
    | .inv a q _ => a == l && q == p
    | _ => false)
  { s with coh := s.coh.map (fun m => match m with
      | .wb l p st => .wb l p (st || crossed l p)
      | m => m) ++ ms }

/-- A read request at the home. -/
def State.doGets (s : State) (line p who : Nat) (prio : BitVec 3) : State :=
  let s := s.l2Touch line prio
  let d := s.dirOf line
  match d.st with
  | .i => (s.setDir line ⟨.e, some p, [], some p⟩).send [.data line p who 0 prio .e true true]
  | .s => (s.setDir line { d with sharers := p :: d.others p, busy := some p }).send [.data line p who 0 prio .s true true]
  | _ =>
    match d.owner with
    | some y =>
      if y = p then (s.setDir line { d with busy := some p }).send [.data line p who 0 prio d.st true true]
      else
        let d2 : DirEnt := match d.st with
          | .e => ⟨.s, none, [p, y], some p⟩
          | _ => ⟨.o, some y, p :: d.others p, some p⟩
        (s.setDir line d2).send [.fwd line y p who 0 prio false]
    | none => (s.setDir line ⟨.e, some p, [], some p⟩).send [.data line p who 0 prio .e true true]

/-- A request for ownership at the home: the data are not sent to a requester that holds the line. -/
def State.doGetm (s : State) (line p who : Nat) (prio : BitVec 3) : State :=
  let s := s.l2Touch line prio
  let d := s.dirOf line
  let invs := (d.others p).map (fun q => CohMsg.inv line q p)
  let s := s.setDir line ⟨.m, some p, [], some p⟩
  let own := CohMsg.data line p who invs.length prio .m true (!(d.sharers.contains p || d.owner == some p))
  match d.st, d.owner with
  | .i, _ | .s, _ | _, none => s.send (invs ++ [own])
  | _, some y => if y = p then s.send (invs ++ [own]) else s.send (invs ++ [.fwd line y p who invs.length prio true])

/-- The new value of an atomic of `n` bytes: `v` is the operand, or the new value of a compare-and-swap whose expected
value is `e` (R162). -/
def atomNew (op : AOp) (n : Nat) (signed : Bool) (old v e : Nat) : Nat :=
  let m := 2 ^ (8 * n)
  let f : Fmt := if n = 8 then .f64 else .f32
  let sv := fun (x : Nat) => intVal signed (8 * n) x
  match op with
  | .add => (old + v) % m
  | .and => Nat.land old v
  | .or => Nat.lor old v
  | .xor => Nat.xor old v
  | .min => if sv v < sv old then v else old
  | .max => if sv old < sv v then v else old
  | .exch => v
  | .cas => if old = e then v else old
  | .fadd => (fpAdd f .rne (Fmt.val f old) (Fmt.val f v)).1
  | .fmin => (fpMinMax f false old v).1
  | .fmax => (fpMinMax f true old v).1
/-- The answer of a far atomic reaches the operation of its item: the old value, or the reason it failed. -/
def State.answerFar (s : State) (r : FarReq) (old : Nat) (fail : Option Nat) : State :=
  match r.op with
  | some n => { s with ops := AMap.upd s.ops n (fun o => match o.kind with
      | .atomic l => { o with kind := .atomic { l with val := BitVec.ofNat 128 old, fail := fail, pend := false } }
      | _ => o) }
  | none => if fail.isSome then s.addPending r.item (redErr r.addr) else s
/-- The slice's atomic unit executes a far atomic, all copies of the line being gone; its requester then reports
completion (R162, R298, R303). -/
def State.executeFar (s : State) (line : Nat) (r : FarReq) : State :=
  let bs := s.mem.readN r.pa r.bytes
  let bad := s.memErr.any (fun p => decide (r.pa ≤ p) && decide (p < r.pa + r.bytes))
  let old := leNat bs
  let s := if bad then s.answerFar r 0 (some 4)
    else (s.writeHome (jobOf r.item) r.va r.pa (leBytes (atomNew r.aop r.bytes r.signed old r.v r.e) r.bytes)).answerFar r old none
  (s.setDir line { DirEnt.none with busy := some (partyOf r.core line) }).send [.complete line (partyOf r.core line)]
/-- A far atomic at the home: every copy is invalidated and its data gathered, and the operation is then executed. -/
def State.doFar (s : State) (line : Nat) (r : FarReq) : State :=
  let s := s.l2Touch line r.prio
  let d := s.dirOf line
  let ps := (d.sharers ++ d.owner.toList).eraseDups
  if ps.isEmpty then s.executeFar line r
  else
    let s := s.setDir line { d with busy := some homeParty }
    { s.send (ps.map (fun q => .inv line q homeParty)) with
      gathers := s.gathers ++ [⟨line, homeParty, r.core, none, ps.length, 0, false, r.prio, some r⟩] }

/-- A writeback at the home; one that has become stale is discarded (R299). -/
def State.doWb (s : State) (line p : Nat) (stale : Bool) : State :=
  let d := s.dirOf line
  let s := if d.owner = some p ∧ !stale then
      match d.st with
      | .o => s.setDir line (if d.sharers.isEmpty then DirEnt.none else ⟨.s, none, d.sharers, none⟩)
      | _ => s.setDir line DirEnt.none
    else s
  s.send [.wbAck line p]

/-- The home takes the oldest request for a line when no transaction holds it and its cache can take it; `want` says which
kind. -/
def State.homeStep (s : State) (line : Nat) (want : CohMsg → Bool) : State :=
  if (s.dirOf line).busy.isSome then s
  else
    match takeMsg (atHome line) s.coh with
    | some (m, rest) =>
      let t : State := { s with coh := rest, moved := true }
      if !want m then s
      else
        match m with
        | .gets l p w prio => if s.l2Ready line prio then t.doGets l p w prio else s
        | .getm l p w prio => if s.l2Ready line prio then t.doGetm l p w prio else s
        | .far l r => if s.l2Ready line r.prio then t.doFar l r else s
        | .wb l p stale => t.doWb l p stale
        | _ => s
    | none => s

/-! ## Steps of the sharers (R298, R299) -/

/-- Messages from the home to a party about a line, which arrive in the order in which they were sent. -/
def fromHome (line p : Nat) : CohMsg → Bool
  | .fwd l q _ _ _ _ _ => l == line && q == p
  | .inv l q _ => l == line && q == p
  | .wbAck l q => l == line && q == p
  | .data l q _ _ _ _ home _ => l == line && q == p && home
  | _ => false

/-- Messages to a requester, and its report to the home. -/
def ackTo (line party : Nat) : CohMsg → Bool
  | .ack l p => l == line && p == party
  | _ => false
def dataTo (line party : Nat) : CohMsg → Bool
  | .data l p _ _ _ _ _ _ => l == line && p == party
  | _ => false
def completeOf (line party : Nat) : CohMsg → Bool
  | .complete l p => l == line && p == party
  | _ => false

/-- A forward reaches the owner, which answers from its copy or its writeback buffer. -/
def State.takeForward (s : State) (line party : Nat) : State :=
  match takeMsg (fromHome line party) s.coh with
  | some (.fwd l y req who acks prio own, rest) =>
    let s : State := { s with coh := rest, moved := true }
    if own then (s.dropParty l y).send [.data l req who acks prio .m false true]
    else
      let st : Moesi := if (s.dirOf l).st = .o then .o else .s
      (s.sharePartyAs l y st).send [.data l req who acks prio .s false true]
  | _ => s

/-- An invalidation reaches a sharer, which acknowledges to the requester; data it still awaits will serve one access
only. -/
def State.takeInvalidation (s : State) (line party : Nat) : State :=
  match takeMsg (fromHome line party) s.coh with
  | some (.inv l p req, rest) =>
    let gs := s.gathers.map (fun g => if g.line = l ∧ g.party = p then { g with once := true } else g)
    let gs := if s.asking l p false && !s.gathers.any (fun g => g.line == l && g.party == p) then
        gs ++ [⟨l, p, 0, none, 0, 0, true, 0, none⟩] else gs
    ({ s with coh := rest ++ [.ack l req], moved := true, gathers := gs } : State).dropParty l p
  | _ => s

/-- The gathering of a party for a line, one begun where there is none. -/
def State.gatherOf (s : State) (line p : Nat) : Gather :=
  (s.gathers.find? (fun g => g.line == line && g.party == p)).getD ⟨line, p, 0, none, 0, 0, false, 0, none⟩
/-- The line enters the requester's caches in state `st`, or is given back at once: where it serves one access only, or
its priority allocates nothing, or no way is to be had (R150, R299). -/
def State.grant (s : State) (line p who : Nat) (st : Moesi) (prio : BitVec 3) (once : Bool) : State :=
  let x : Line := ⟨line, 0, 0, aREL, st, prio, s.tick, 15, [], []⟩
  if once || prio == 0 then s.giveBack line p st
  else if p < 48 then
    let t := s.l1Fill who x
    if ((t.core who).l1Line line).isSome then t else t.giveBack line p st
  else
    match s.rdcFill (p - 48) { x with prio := 4 } with
    | some t => t.l1Fill who { x with st := if st = .m then .m else .s }
    | none => s.giveBack line p st
/-- The gathering as it now stands: complete, it lets the requester use the line and report to the home, or the home
execute its far atomic. -/
def State.putGather (s : State) (g : Gather) : State :=
  let rest := s.gathers.filter (fun h => !(h.line == g.line && h.party == g.party))
  let done := decide (g.need ≤ g.got)
  match g.far, g.data with
  | some r, _ => if done then ({ s with gathers := rest } : State).executeFar g.line r else { s with gathers := rest ++ [g] }
  | none, some st =>
    if done then
      (({ s with gathers := rest } : State).grant g.line g.party g.who st g.prio g.once).send [.complete g.line g.party]
    else { s with gathers := rest ++ [g] }
  | none, none => { s with gathers := rest ++ [g] }

/-- An acknowledgement reaches the requester. -/
def State.takeAck (s : State) (line party : Nat) : State :=
  match takeMsg (ackTo line party) s.coh with
  | some (_, rest) =>
    let s : State := { s with coh := rest, moved := true }
    let g := s.gatherOf line party
    s.putGather { g with got := g.got + 1 }
  | none => s
/-- Data reach the requester; those of the home not before what the home sent it earlier. -/
def State.takeData (s : State) (line party : Nat) : State :=
  match takeMsg (dataTo line party) s.coh with
  | some (.data l p who acks prio st home full, rest) =>
    let first := match takeMsg (fromHome line party) s.coh with
      | some (m, _) => m == .data l p who acks prio st home full
      | none => true
    if home && !first then s
    else
      let s : State := { s with coh := rest, moved := true }
      s.putGather { s.gatherOf line party with who := who, data := some st, need := acks, prio := prio }
  | _ => s
/-- The requester's report ends the transaction. -/
def State.takeComplete (s : State) (line party : Nat) : State :=
  match takeMsg (completeOf line party) s.coh with
  | some (_, rest) =>
    let s : State := { s with coh := rest, moved := true }
    let d := s.dirOf line
    if d.busy = some party then s.setDir line { d with busy := none } else s
  | none => s
/-- The home acknowledges a writeback; the buffer entry is dropped (R299). -/
def State.takeWbAck (s : State) (line party : Nat) : State :=
  match takeMsg (fromHome line party) s.coh with
  | some (.wbAck l p, rest) => { s with coh := rest, moved := true, wbufs := s.wbufs.erase (l, p) }
  | _ => s

def execHomeGets (line : Nat) (s : State) : Host.Outcome State Fault Refusal :=
  .next (s.homeStep line (fun m => match m with | .gets _ _ _ _ => true | _ => false))
def execHomeGetm (line : Nat) (s : State) : Host.Outcome State Fault Refusal :=
  .next (s.homeStep line (fun m => match m with | .getm _ _ _ _ => true | _ => false))
def execHomeFarAtomic (line : Nat) (s : State) : Host.Outcome State Fault Refusal :=
  .next (s.homeStep line (fun m => match m with | .far _ _ => true | _ => false))
def execHomeWriteback (line : Nat) (s : State) : Host.Outcome State Fault Refusal :=
  .next (s.homeStep line (fun m => match m with | .wb _ _ _ => true | _ => false))
def execForward (line party : Nat) (s : State) : Host.Outcome State Fault Refusal := .next (s.takeForward line party)
def execInvalidation (line party : Nat) (s : State) : Host.Outcome State Fault Refusal :=
  .next (s.takeInvalidation line party)
def execInvalidationAck (line party : Nat) (s : State) : Host.Outcome State Fault Refusal := .next (s.takeAck line party)
def execDataResponse (line party : Nat) (s : State) : Host.Outcome State Fault Refusal := .next (s.takeData line party)
def execTransactionComplete (line party : Nat) (s : State) : Host.Outcome State Fault Refusal :=
  .next (s.takeComplete line party)
def execWritebackAck (line party : Nat) (s : State) : Host.Outcome State Fault Refusal := .next (s.takeWbAck line party)

/-! ## Transactions awaited -/

/-- A message taken by the one it is for. -/
def State.cohStep (s : State) (m : CohMsg) : State :=
  match m with
  | .gets l _ _ _ | .getm l _ _ _ | .far l _ | .wb l _ _ => s.homeStep l (fun _ => true)
  | .wbAck l p => s.takeWbAck l p
  | .fwd l p _ _ _ _ _ => s.takeForward l p
  | .inv l p _ => s.takeInvalidation l p
  | .ack l r => s.takeAck l r
  | .data l p _ _ _ _ _ _ => s.takeData l p
  | .complete l p => s.takeComplete l p
/-- Messages taken, those about the line first, until none about it is left; `n` bounds their number. -/
def State.settleN (s : State) (line : Nat) : Nat → State
  | 0 => s
  | n + 1 =>
    if !s.coh.any (fun m => m.line == line) then s
    else
      match (s.coh.filter (fun m => m.line == line) ++ s.coh).findSome? (fun m =>
        let t := ({ s with moved := false } : State).cohStep m
        if t.moved then some t else none) with
      | some t => State.settleN t line n
      | none => s
/-- Every transaction on the line carried through, in the order of its home. A request with its copies has fewer than 128
messages. -/
def State.settle (s : State) (line : Nat) : State :=
  { s.settleN line (128 * (s.coh.length + 1)) with moved := s.moved }
/-- Core `c` has the line in M: served, or by a transaction of its own that has completed (R297, R298). -/
def State.takeLine (s : State) (c j : Nat) (x : Xlat) (prio : BitVec 3) : State :=
  match s.serve c j x true prio with
  | some t => t
  | none =>
    let line := lineOf x.pa
    let s := s.settle line
    match s.serve c j x true prio with
    | some t => t
    | none =>
      let t := (s.ask c line true prio).settle line
      (t.serve c j x true prio).getD t
/-- The far atomics under way that satisfy `f`, each executed at its home. -/
def State.settleFar (s : State) (f : FarReq → Bool) : State :=
  let ls := s.coh.filterMap (fun m => match m with | .far l r => if f r then some l else none | _ => none) ++
    s.gathers.filterMap (fun g => match g.far with | some r => if f r then some g.line else none | none => none)
  ls.foldl (fun t l => t.settle l) s
/-- Every copy of a line recalled to its home, where another device's access is performed (R381). -/
def State.recallLine (s : State) (line : Nat) : State :=
  let s := (s.settle line).l2Touch line 4
  let d := s.dirOf line
  ((d.sharers ++ d.owner.toList).foldl (fun t p => t.dropParty line p) s).setDir line DirEnt.none

/-- How an atomic of core `c` on a tracked line is performed: near or far, as the predictor says (R302). -/
def State.ownsLine (s : State) (c line : Nat) : Bool :=
  match (s.core c).l1Line line with | some y => Moesi.writable y.st | none => false
def State.goesNear (s : State) (c line : Nat) (red : Bool) : Bool :=
  (red && s.ownsLine c line) || decide ((AMap.getD (s.core c).pred (predIdx line) 0).toNat ≤ 1)
/-- A near atomic: the line is taken in M (R303), and the predictor trained. -/
def State.nearAtomic (s : State) (c j : Nat) (x : Xlat) (prio : BitVec 3) : State :=
  let line := lineOf x.pa
  if s.ownsLine c line then (s.updCore c (·.predDown line)).takeLine c j x prio
  else
    let s := s.takeLine c j x prio
    if s.ownsLine c line then s.updCore c (fun k => { k with nearTaken := line :: k.nearTaken.filter (· != line) }) else s
/-- Before core `c` sends a far atomic to a line, its L1 drops its copy, one that it has asked for having come (R303). -/
def State.leaveLine (s : State) (c line : Nat) : State :=
  let s := if s.asking line (partyOf c line) false then s.settle line else s
  match (s.core c).l1Line line with
  | some y => s.evict c y
  | none => s

/-- Every copy of the lines in [lo, hi) leaves every cache, dirty PRIV bytes going home in ascending core order, so that
the highest core's stand (R324, R338). -/
def State.recallRange (s : State) (lo hi : Nat) : State :=
  let mine := fun (x : Line) => decide (lo ≤ x.line * 128) && decide (x.line * 128 < hi)
  let s := s.cores.foldl (fun t e =>
    (e.2.l1.filter mine).foldl (fun u x =>
      let u := u.updCore e.1 (·.yieldLine x.line none)
      if x.code = aPRIV then u.cleanPriv x else u) t) s
  { s with
    dir := s.dir.filter (fun e => !(decide (lo ≤ e.1 * 128) && decide (e.1 * 128 < hi)))
    rdc := s.rdc.map (fun e => (e.1, e.2.filter (fun x => !mine x)))
    l2 := s.l2.map (fun e => (e.1, e.2.filter (fun x => !mine x)))
    wbufs := s.wbufs.filter (fun w => !(decide (lo ≤ w.1 * 128) && decide (w.1 * 128 < hi)))
    gathers := s.gathers.filter (fun g => !(decide (lo ≤ g.line * 128) && decide (g.line * 128 < hi)))
    coh := s.coh.filter (fun m => !(decide (lo ≤ m.line * 128) && decide (m.line * 128 < hi))) }

end Sys2Proof.Machine
end

