-- ==== Sys2Proof/Machine/Access.lean ====
section
/-! DEFINITION. Reading and writing bytes of global memory under a page's attribute (R149, R160, R306, R315, R321), the
request collector (R151 to R153), and the byte accesses of engines (R169, R171, R383). -/

namespace Sys2Proof.Machine

/-! ## Bytes under an attribute -/

/-- What an item's own waiting stores hold at a physical address: the newest byte (R153). -/
def Core.ownByte (k : Core) (ik pa : Nat) : Option (BitVec 8) :=
  let rs := ((k.slots.map (fun e => e.2.reqs)).flatten).filter (fun r =>
    r.item == ik && decide (r.pa ≤ pa) && decide (pa < r.pa + r.bytes.length))
  rs.getLast?.map (fun r => r.bytes.getD (pa - r.pa) 0)

/-- One byte as core `c` reads it for a job, with whether it was read with an uncorrectable error. `gv` marks a view
page; `own` is the item whose waiting stores it sees. -/
def State.readByte (s : State) (c j : Nat) (own : Option Nat) (gv : Bool) (code : BitVec 2) (va pa : Nat) :
    BitVec 8 × Bool :=
  if gv then s.viewByte j va
  else
    let k := s.core c
    match own.bind (fun ik => k.ownByte ik pa) with
    | some b => (b, false)
    | none =>
      let held := if code = aPHASE then AMap.find k.pend pa
        else if code = aPRIV then (k.l1Line (lineOf pa)).bind (fun x => AMap.find x.data pa)
        else none
      match held with
      | some b => (b, false)
      | none => (s.mem.read pa, s.memErr.contains pa)
/-- `n` bytes from an access's translation on, and whether one was read with an error. -/
def State.readAt (s : State) (c j : Nat) (own : Option Nat) (x : Xlat) (n : Nat) : List (BitVec 8) × Bool :=
  let bs := (List.range n).map (fun i => s.readByte c j own x.gv x.attr (x.va + x.pa % x.size + i) (x.pa + i))
  (bs.map (·.1), bs.any (·.2))

/-- A PRIV copy of the line, whose damaged bytes stay at the home. -/
def State.privCopy (s : State) (x : Xlat) (j : Nat) (prio : BitVec 3) : Line :=
  let base := lineOf x.pa * 128
  { freshLine s x j .s prio with
    data := ((List.range 128).filter (fun i => !s.memErr.contains (base + i))).map (fun i => (base + i, s.mem.read (base + i))) }
/-- The translation of a store whose page is already known, for a line's bookkeeping. -/
def xlatAt (va pa : Nat) (code : BitVec 2) : Xlat := ⟨va - va % 65536, 65536, (code.setWidth 64) <<< 58, pa⟩

/-- A miss of an untracked line (R300): its home slice's cache takes part, and for a PHASE line homed on another die the
die's remote-data cache, which holds clean published copies. -/
def State.missAt (s : State) (c j : Nat) (x : Xlat) (prio : BitVec 3) : State :=
  let line := lineOf x.pa
  let away := x.attr == aPHASE && dieOf c != paDie x.pa
  match (if away then s.rdcLine (dieOf c) line else none) with
  | some y => s.rdcSet1 (dieOf c) { y with used := s.tick }
  | none =>
    let s := if s.l2Ready line prio then s.l2Touch line prio else s
    if away && prio != 0 then (s.rdcFill (dieOf c) { freshLine s x j .s prio with prio := 4 }).getD s else s
/-- The L1 after an access of core `c` to an untracked line: a hit records priority and use, a miss of priority 0 fills
nothing (R149, R150). -/
def State.fillUntracked (s : State) (c j : Nat) (x : Xlat) (prio : BitVec 3) : State :=
  match (s.core c).l1Line (lineOf x.pa) with
  | some y => s.updCore c (·.l1Set { y with prio := prio, used := s.tick })
  | none =>
    let s := s.missAt c j x prio
    if prio = 0 then s
    else if x.attr = aPRIV then s.l1Fill c (s.privCopy x j prio)
    else s.l1Fill c (freshLine s x j .s prio)
/-- The caches after a load of core `c` (R149, R150): a tracked line that no cache of its die serves is asked of its
home. -/
def State.noteRead (s : State) (c j : Nat) (x : Xlat) (prio : BitVec 3) : State :=
  if x.gv then s
  else if x.attr = aSEQ ∨ x.attr = aREL then s.tracked c j x false prio
  else s.fillUntracked c j x prio
/-- The same for an access that is performed once its line has come. -/
def State.fetchLine (s : State) (c j : Nat) (x : Xlat) (prio : BitVec 3) : State :=
  let t := s.noteRead c j x prio
  if x.attr = aSEQ ∨ x.attr = aREL then (if t.asking (lineOf x.pa) (partyOf c (lineOf x.pa)) false then t.settle (lineOf x.pa) else t)
  else t
/-- Pending PHASE bytes of a line find their place: in the L1, else in a pool block (R325). -/
def State.holdPhase (s : State) (c j : Nat) (x : Xlat) (prio : BitVec 3) : State :=
  let t := s.fillUntracked c j x prio
  if ((t.core c).l1Line (lineOf x.pa)).isSome then t else t.takePend c (lineOf x.pa)

/-- Bytes put into a table from address `a` on. -/
def putBytes (m : AMap (BitVec 8)) (a : Nat) : List (BitVec 8) → AMap (BitVec 8)
  | [] => m
  | b :: bs => putBytes (AMap.put m a b) (a + 1) bs

/-- The copy on write of a write that is to come (R327): none on a PHASE page, whose bytes are published at the boundary. -/
def State.preCow (s : State) (j va pa : Nat) (code : BitVec 2) : State := if code = aPHASE then s else s.cow j va pa
/-- Bytes written by core `c` for job `j` at `pa`, the place of `va`, on a page of attribute `code` (R160, R315, R321): on a
tracked page once the core has the line in M (R297). The bytes lie in one line. -/
def State.writeAt (s : State) (c j va pa : Nat) (code : BitVec 2) (prio : BitVec 3) (bs : List (BitVec 8)) : State :=
  let x := xlatAt va pa code
  let s := s.preCow j va pa code
  if code = aPHASE then
    (s.holdPhase c j x prio).updCore c (fun k => { k with pend := putBytes k.pend pa bs })
  else if code = aPRIV then
    let s := s.fillUntracked c j x prio
    match (s.core c).l1Line (lineOf pa) with
    | some y => s.updCore c (·.l1Set { y with
        data := putBytes y.data pa bs
        dirty := y.dirty ++ ((List.range bs.length).map (pa + ·)).filter (fun a => !y.dirty.contains a) })
    | none => s.writeHome j va pa bs
  else (s.takeLine c j x prio).writeHome j va pa bs

/-- Pool blocks that core `c` needs for writes of job `j`, given by virtual and physical address and attribute: a copy of
each block of which one is due, and a place for pending PHASE bytes that the L1 cannot take. -/
def State.poolNeed (s : State) (c j : Nat) (prio : BitVec 3) (ws : List (Nat × Nat × BitVec 2)) : Nat :=
  s.copiesFor ((ws.filter (fun w => w.2.2 != aPHASE)).map (fun w => (j, w.1))) +
    (((ws.filter (fun w => w.2.2 == aPHASE && s.needsPend c (lineOf w.2.1) prio)).map (fun w => w.2.1 / 4096)).eraseDups).length
/-- Whether a write to that place can be performed now under R327. -/
def State.writeOk (s : State) (c j va pa : Nat) (code : BitVec 2) (prio : BitVec 3) : Bool :=
  s.poolFits (s.poolNeed c j prio [(va, pa, code)])

/-! ## The request collector (R151 to R153) -/

/-- Requests of a slot; of a core's collector. -/
def BrSlot.count (b : BrSlot) : Nat := b.loads.length + b.reqs.length
def Core.requests (k : Core) : Nat := (k.slots.map (fun e => e.2.count)).sum
/-- Whether one more request finds an entry and, for a new line, a slot. -/
def Core.roomFor (k : Core) (line : Nat) : Bool :=
  decide (k.requests < 1024) && (k.slots.any (fun e => e.2.line == line) || decide (k.slots.length < 256))
/-- Whether a request that takes a slot of its own finds an entry and a slot. -/
def Core.roomOwn (k : Core) : Bool := decide (k.requests < 1024) && decide (k.slots.length < 256)

/-- One waiting store performed. -/
def State.performReq (s : State) (c : Nat) (r : LaneReq) : State :=
  s.writeAt c (jobOf r.item) r.va r.pa r.code r.ev r.bytes
/-- A slot closes: its stores are performed in the order of their requests. -/
def State.closeSlot (s : State) (c k : Nat) : State :=
  match AMap.find (s.core c).slots k with
  | some b =>
    let s := s.updCore c (fun q => { q with slots := AMap.del q.slots k })
    b.reqs.foldl (fun t r => t.performReq c r) s
  | none => s
/-- Closes the slots of core `c` that hold a request that satisfies `f`. -/
def State.closeIf (s : State) (c : Nat) (f : LaneReq → Bool) : State :=
  (s.core c).slots.foldl (fun t e => if e.2.reqs.any f then t.closeSlot c e.1 else t) s
/-- An acquire, release, atomic, fence or line operation of item `ik` closes the slots that hold a request of it, and its
far atomics have been executed; so for whatever else must see its earlier accesses performed. -/
def State.flushItem (s : State) (ik : Nat) : State :=
  let c := s.coreOf ik
  let s := (s.core c).slots.foldl (fun t e =>
    if e.2.loads.contains ik || e.2.reqs.any (fun r => r.item == ik) then t.closeSlot c e.1 else t) s
  s.settleFar (fun r => r.item == ik)
/-- Every store and far atomic of the job performed; those in a physical range. -/
def State.flushJob (s : State) (j : Nat) : State :=
  (s.cores.foldl (fun t e => t.closeIf e.1 (fun r => jobOf r.item == j)) s).settleFar (fun r => jobOf r.item == j)
def State.flushRange (s : State) (lo hi : Nat) : State :=
  (s.cores.foldl (fun t e => t.closeIf e.1 (fun r => decide (lo ≤ r.pa) && decide (r.pa < hi))) s).settleFar
    (fun r => decide (lo ≤ r.pa) && decide (r.pa < hi))

/-- The lowest number from `n` on that a table does not use. -/
def freeKey {α : Type} (m : AMap α) : Nat → Nat → Nat
  | 0, k => k
  | n + 1, k => if (AMap.find m k).isSome then freeKey m n (k + 1) else k
/-- A request of item `ik` joins an open slot for its line, or opens one; a slot that holds 64 closes. -/
def State.joinSlot (s : State) (c line ik : Nat) (r : Option LaneReq) : State :=
  let k := s.core c
  let n := match k.slots.find? (fun e => e.2.line == line) with
    | some e => e.1
    | none => freeKey k.slots 256 0
  let b := AMap.getD k.slots n ⟨line, k.window, [], [], false⟩
  let b := match r with
    | some q => { b with reqs := b.reqs ++ [q] }
    | none => { b with loads := b.loads ++ [ik] }
  let s := s.updCore c (fun q => { q with slots := AMap.put q.slots n b })
  if 64 ≤ b.count then s.closeSlot c n else s

/-- The collector's window of a slot ends (R151, R152). Where it has stores of a tracked line that the core does not own, the
core asks for the line, and performs them when it has come. -/
def execBrambleWindowExpiry (core slot : Nat) (s : State) : Host.Outcome State Fault Refusal :=
  .next (match AMap.find (s.core core).slots slot with
    | none => s
    | some b =>
      let p := partyOf core b.line
      match (b.reqs.find? (fun r => r.code == aSEQ || r.code == aREL)) with
      | none => { s.closeSlot core slot with moved := true }
      | some r =>
        if s.asking b.line p false then s
        else if b.asked || (s.serve core (jobOf r.item) (xlatAt r.va r.pa r.code) true r.ev).isSome then
          { s.closeSlot core slot with moved := true }
        else
          let t := s.ask core b.line true r.ev
          { t.updCore core (fun k => { k with slots := AMap.put k.slots slot { b with asked := true } }) with moved := true })

/-! ## Engines -/

/-- Why an engine's access fails, as a copy fault record gives it (R171, R383). -/
abbrev EngFail := Nat

/-- The translation of an engine's access: the reason where it fails, none where it stalls. -/
inductive EngX where
  | ok (x : Xlat)
  | remote (dev : Nat)
  | fail (r : EngFail)
  | stall
  deriving DecidableEq, Repr
def State.engXlat (s : State) (j : Nat) (a : W64) (write : Bool) : EngX :=
  match s.translate j a with
  | .fail r => .fail r
  | .stall => .stall
  | .remote d => if s.cutOff d then .fail 3 else .remote d
  | .ok x =>
    if (write && !x.wr) || (!write && !x.rd) then .fail 2
    else if s.aliased x then .fail 6
    else .ok x

/-- Why `n` bytes from `a` on cannot all be accessed: the first failing address and its reason; or a stall. -/
inductive EngCheck where
  | ok
  | stall
  | fail (a : W64) (r : EngFail)
  deriving DecidableEq, Repr
/-- The places of `n` bytes that an engine writes. -/
def State.engPlaces (s : State) (j : Nat) (a : W64) (n : Nat) : List (Nat × Nat × BitVec 2) :=
  (List.range n).filterMap (fun i =>
    let b := a + BitVec.ofNat 64 i
    match s.engXlat j b true with
    | .ok x => some (vaOf b, x.pa, x.attr)
    | _ => none)
/-- The check of `n` bytes, lowest first. A read also checks for errors. -/
def State.engBytes (s : State) (c j : Nat) (write : Bool) (a : W64) : Nat → EngCheck
  | 0 => .ok
  | n + 1 =>
    match s.engXlat j a write with
    | .fail r => .fail a r
    | .stall => .stall
    | .remote _ => s.engBytes c j write (a + 1) n
    | .ok x =>
      if !write && (s.readAt c j none x 1).2 then .fail a 4 else s.engBytes c j write (a + 1) n
/-- The check of an access of `n` bytes: a write also waits for the pool blocks it needs (R327). -/
def State.engCheck (s : State) (c j : Nat) (write : Bool) (prio : BitVec 3) (a : W64) (n : Nat) : EngCheck :=
  match s.engBytes c j write a n with
  | .ok => if write && !s.poolFits (s.poolNeed c j prio (s.engPlaces j a n)) then .stall else .ok
  | r => r
/-- One byte read by an engine, whose item's earlier accesses have been performed: its line passes through the L1 as for a
load (R149, R150, R169), `fresh` being set at the first byte of a line. Of another device's memory, a free value. -/
def State.engByte (s : State) (c j : Nat) (prio : BitVec 3) (fresh : Bool) (a : W64) : BitVec 8 × State :=
  match s.engXlat j a false with
  | .ok x =>
    let s := if fresh then s.fetchLine c j x prio else s
    ((s.readAt c j none x 1).1.getD 0 0, s)
  | _ => (Config.remoteByte s.free, { s with free := s.free + 1 })
/-- `n` bytes read by an engine. -/
def State.engReadFrom (s : State) (c j : Nat) (prio : BitVec 3) (fresh : Bool) (a : W64) : Nat → List (BitVec 8) × State
  | 0 => ([], s)
  | n + 1 =>
    let (b, s) := s.engByte c j prio fresh a
    let (bs, s) := s.engReadFrom c j prio (vaOf (a + 1) % 128 == 0) (a + 1) n
    (b :: bs, s)
def State.engRead (s : State) (c j : Nat) (prio : BitVec 3) (a : W64) (n : Nat) : List (BitVec 8) × State :=
  s.engReadFrom c j prio true a n
/-- A message to another device. -/
def State.toDevice (s : State) (dev j ik : Nat) (a : W64) (op : RemoteOp) : State :=
  { s with fabOut := s.fabOut ++ [⟨s.fresh, dev, j, a, op, ik⟩], fresh := s.fresh + 1 }
/-- Bytes written by an engine for item `ik` on core `c`. -/
def State.engWrite (s : State) (c j ik : Nat) (prio : BitVec 3) (a : W64) : List (BitVec 8) → State
  | [] => s
  | b :: bs =>
    let s := match s.engXlat j a true with
      | .ok x => s.writeAt c j (vaOf a) x.pa x.attr prio [b]
      | .remote d => s.toDevice d j ik a (.store 1 (b.setWidth 128))
      | _ => s
    s.engWrite c j ik prio (a + 1) bs
/-- A team whose writes reached a PHASE page stays with its core for the phase (R314). -/
def State.notePhase (s : State) (tk c : Nat) : State := { s with phaseCores := AMap.put s.phaseCores tk c }
/-- Whether some byte of an engine's write lies on a PHASE page. -/
def State.touchesPhase (s : State) (j : Nat) (a : W64) (n : Nat) : Bool :=
  (List.range n).any (fun i => match s.engXlat j (a + BitVec.ofNat 64 i) true with | .ok x => x.attr == aPHASE | _ => false)

end Sys2Proof.Machine
end

