-- ==== Sys2Proof/Machine/Alloc.lean ====
section
/-! DEFINITION. Allocating and releasing a team on a core (R117 to R119, R139): group slots, register file, scratchpad,
named barriers and tile slots. Every area is taken first fit, lowest first, and the start quad evens out the groups (log
entry 14). -/

namespace Sys2Proof.Machine

/-- Groups of a team (R118). -/
def groupsOf (c : CardC) : Nat := cfgTeam c.config / 16
/-- Groups of quota `q` a quad holds at most (R117). -/
def quadLimit (q : Nat) : Nat := if 2048 / q < 64 then 2048 / q else 64
/-- The card's team fits an empty core (R118). -/
def teamFits (c : CardC) : Bool :=
  decide ((groupsOf c + 3) / 4 ≤ quadLimit (cfgQuota c.config)) && decide (cfgScratch c.config ≤ Config.scratchBytes) &&
    decide (cfgBars c.config ≤ Config.barriers) && decide (cfgSlots c.config ≤ Config.tileSlots)

/-- Teams on core `c`. -/
def State.teamsOn (s : State) (c : Nat) : List (Nat × Team) := s.teams.filter (fun e => e.2.core == some c)
/-- Group slots in use on a quad of a core, with the register-file bytes each takes. -/
def State.slotsOn (s : State) (c quad : Nat) : List (Nat × Nat) :=
  ((s.teamsOn c).map (fun e =>
    ((List.range e.2.slots.length).filterMap (fun j =>
      if (e.2.q0 + j) % 4 = quad then (e.2.slots.getD j none).map (fun n => (n, 64 * e.2.quota)) else none)))).flatten

/-- The lowest number below `n` not in a list. -/
def lowestFree (l : List Nat) (n : Nat) : Option Nat := (List.range n).find? (fun k => !l.contains k)
/-- Slots for `k` more groups of quota `q` on a quad, lowest first. -/
def takeSlots (used : List (Nat × Nat)) (q : Nat) : Nat → Option (List Nat)
  | 0 => some []
  | k + 1 =>
    match lowestFree (used.map (·.1)) 64 with
    | none => none
    | some n =>
      if 131072 < (used.map (·.2)).sum + 64 * q then none
      else (takeSlots ((n, 64 * q) :: used) q k).map (n :: ·)
/-- Slots of the `g` groups of a team that starts at quad `q0` of core `c`, in group order. -/
def State.quadSlots (s : State) (c q0 q g : Nat) : Option (List Nat) :=
  let per := fun (quad : Nat) => takeSlots (s.slotsOn c quad) q ((g + 3 - (quad + 4 - q0) % 4) / 4)
  match per 0, per 1, per 2, per 3 with
  | some a, some b, some d, some e =>
    let l := [a, b, d, e]
    some ((List.range g).map (fun j => (l.getD ((q0 + j) % 4) []).getD (j / 4) 0))
  | _, _, _, _ => none

/-- First fit of `n` units among areas in use below `top`: the lowest base, a multiple of `unit`. -/
def firstFit (used : List (Nat × Nat)) (n top unit : Nat) : Option Nat :=
  if n = 0 then some 0
  else
    let ends := 0 :: used.map (fun u => u.1 + u.2)
    let ok := fun (b : Nat) => decide (b + n ≤ top) && used.all (fun u => decide (u.1 + u.2 ≤ b) || decide (b + n ≤ u.1))
    ((ends.map (fun e => (e + unit - 1) / unit * unit)).filter ok).min?

/-- Number of buffer entries, barriers and slots are per core; the areas in use. -/
def State.scrAreas (s : State) (c : Nat) : List (Nat × Nat) :=
  ((s.teamsOn c).map (fun e => (e.2.scrBase, e.2.scrSize))).filter (fun a => a.2 != 0)
def State.barAreas (s : State) (c : Nat) : List (Nat × Nat) :=
  ((s.teamsOn c).map (fun e => (e.2.barBase, e.2.bars.length))).filter (fun a => a.2 != 0)
def State.slotAreas (s : State) (c : Nat) : List (Nat × Nat) :=
  ((s.teamsOn c).map (fun e => (e.2.slotBase, e.2.slotCount))).filter (fun a => a.2 != 0)

/-- The state's clock of ages (R137). -/
def State.now (s : State) : Nat := s.fresh

/-- Items a team holds (R344). -/
def teamCount (c : CardC) (base : Nat) : Nat := Nat.min (cfgTeam c.config) (c.count - base)
/-- A new team of a card with its resources at their reset values (R118, R154, R178, R193, R201, R211). -/
def newTeam (lk base : Nat) (c : CardC) (core q0 : Nat) (slots : List Nat) (scr bar slot age : Nat) : Team :=
  { launch := lk, base := base, count := teamCount c base, size := cfgTeam c.config, quota := cfgQuota c.config,
    core := some core, q0 := q0, slots := slots.map some, age := age, preempt := false,
    scrBase := scr, scrSize := cfgScratch c.config, scratch := [], scratchErr := [],
    barBase := bar, bars := List.replicate (cfgBars c.config) ⟨teamCount c base, 0, 0⟩,
    slotBase := slot, slotCount := cfgSlots c.config, claimed := 0, store := [], storeErr := [], unpublished := [],
    tiles := [], cb := List.replicate 4 0, cbWritten := false, reserved := false, savedBufs := [],
    savedRecs := [] }

/-- The key of the team of launch `lk` whose first item is `base`. -/
def teamKey (lk base t : Nat) : Nat := lk * 2 ^ 36 + base / t

/-- Items that enter the group slots of a team find their last-page registers empty (R146). -/
def State.clearPages (s : State) (c : Nat) (t : Team) : State :=
  let rows := (List.range t.slots.length).filterMap (fun j =>
    (t.slots.getD j none).map (fun n => (t.q0 + j) % 4 * 1024 + n * 16))
  s.updCore c (fun k => { k with lastPage := k.lastPage.filter (fun p => !rows.contains (p.1 - p.1 % 16)) })
/-- Allocates the team of launch `lk` at item `base` on core `c`, starting at quad `q0`: all at once or not at all. -/
def State.allocAt (s : State) (lk base c q0 : Nat) : Option State :=
  let card := s.cardOf lk
  match s.quadSlots c q0 (cfgQuota card.config) (groupsOf card),
      firstFit (s.scrAreas c) (cfgScratch card.config) Config.scratchBytes 256,
      firstFit (s.barAreas c) (cfgBars card.config) Config.barriers 1,
      firstFit (s.slotAreas c) (cfgSlots card.config) Config.tileSlots 1 with
  | some sl, some scr, some bar, some slot =>
    let t := newTeam lk base card c q0 sl scr bar slot s.fresh
    some (({ s with teams := AMap.put s.teams (teamKey lk base (cfgTeam card.config)) t, fresh := s.fresh + 1 } :
      State).clearPages c t)
  | _, _, _, _ => none
/-- Allocates a team at the first start quad that can take it, from the one that evens out the groups of the core. -/
def State.allocTeam (s : State) (lk base c : Nat) : Option State :=
  let n := ((List.range 4).map (fun q => (s.slotsOn c q).length)).sum
  (List.range 4).findSome? (fun i => s.allocAt lk base c ((n + i) % 4))

/-- Whether a core of the device is live (R305). -/
def State.coreLive (s : State) (c : Nat) : Bool := decide (c < Config.cores) && !s.retired 0 c

/-- Whether a launch has completed. -/
def State.launchDone (s : State) (lk : Nat) : Bool :=
  match AMap.find s.launches lk with
  | some l => l.st == .done
  | none => true
/-- Whether no item of a team is left in its groups and no in-flight count holds its release (R119); the resources of a
co-resident team whose items have joined a span stay reserved until its launch completes (R133). -/
def State.teamEmpty (s : State) (t : Team) : Bool :=
  let lo := itemKey t.launch t.base
  (!t.reserved || s.launchDone t.launch) &&
  (AMap.range s.items lo (lo + t.size)).isEmpty &&
    (!cfgCores (s.cardOf t.launch).config || (s.spansIn t.launch t.base (t.base + t.size)).isEmpty) &&
    (AMap.range s.groups (lo / 16) ((lo + t.size) / 16)).all (fun e => e.2.inflight == 0)
/-- A team is released: its slots, scratchpad, barriers, tile slots, tiles and buffer handles are freed (R119). -/
def State.releaseTeam (s : State) (tk : Nat) : State :=
  match AMap.find s.teams tk with
  | none => s
  | some t =>
    let lo := itemKey t.launch t.base
    let s : State := { s with
      teams := AMap.del s.teams tk
      groups := s.groups.filter (fun e => decide (e.1 < lo / 16) || decide ((lo + t.size) / 16 ≤ e.1)) }
    match t.core with
    | some c => s.updCore c (fun k => { k with
        bufs := k.bufs.filter (fun b => b.2.team != tk), copyRecs := k.copyRecs.filter (fun r => r.2.team != tk) })
    | none => s
/-- The release of a team whose work is over. -/
def execTeamRelease (team : Nat) (s : State) : Host.Outcome State Fault Refusal :=
  .next (match AMap.find s.teams team with
    | some t => if s.teamEmpty t then { s.releaseTeam team with moved := true } else s
    | none => s)

end Sys2Proof.Machine
end

