-- ==== Sys2Proof/WellFormed.lean ====
section
/-! DEFINITION. Legality of a decoded word (R38) for a register quota `q` and the address it stands at: register ranges,
pair and quad alignment, classes an entry allows, unused fields and wait bits of unused fields zero (R25 to R35, and the
entries of each chapter). The decoder has already refused reserved codes. -/

namespace Sys2Proof

/-- How an instruction uses a register field: not at all, as one register, as a pair (R25). -/
inductive Use where | no | one | two
  deriving DecidableEq, Repr

/-- The use of a typed operand (R68). -/
def ITy.use : ITy → Use
  | .s32 | .z32 => .one
  | .s64 | .z64 => .two
/-- The use of an operand that is a pair when `wide`. -/
def wideUse (wide : Bool) : Use := if wide then .two else .one

/-- A source field of format V with its wait bit (R25): an unused field is register 0 with wait bit 0, an immediate has
wait bit 0, a pair is even. -/
def okSrc (q : Nat) (u : Use) (s : Src) (w : Bool) : Bool :=
  match u, s with
  | .no, s => s == .v 0 && !w
  | .one, .v n => decide (n.toNat < q)
  | .two, .v n => decide (n.toNat < q) && decide (n.toNat % 2 = 0)
  | .one, .g _ => true
  | .two, .g n => decide (n.toNat % 2 = 0)
  | _, .x _ _ => true
  | _, .imm _ => !w

/-- A register destination of format V (R25). -/
def okDst (q : Nat) (u : Use) (d : Dst) : Bool :=
  match u, d with
  | .no, d => d == .v 0
  | .one, .v n => decide (n.toNat < q)
  | .two, .v n => decide (n.toNat < q) && decide (n.toNat % 2 = 0)
  | .one, .g _ => true
  | .two, .g n => decide (n.toNat % 2 = 0)
  | _, .x _ _ => true
  | _, .p _ => false

/-- A predicate destination, class 11 (R25). -/
def Dst.isP : Dst → Bool
  | .p _ => true
  | _ => false
/-- An immediate source, class 11. -/
def Src.isImm : Src → Bool
  | .imm _ => true
  | _ => false

/-- A format-V word with a register destination. -/
def okV (q : Nat) (d a b c : Use) (f : VF) : Bool :=
  okDst q d f.d && okSrc q a f.a f.wa && okSrc q b f.b f.wb && okSrc q c f.c f.wc
/-- A format-V word with a predicate destination (R79, R93). -/
def okVP (q : Nat) (a b : Use) (f : VF) : Bool :=
  f.d.isP && okSrc q a f.a f.wa && okSrc q b f.b f.wb && okSrc q .no f.c f.wc

/-- A field of format I (R29). -/
def okI (q : Nat) (u : Bool) (n : Fld) : Bool := if u then decide (n.toNat < 64) else decide (n.toNat < q)

/-- Registers `n` to `n + k - 1` with `n` a multiple of `k`, below the quota. -/
def okBlk (q k : Nat) (n : Fld) : Bool := decide (n.toNat % k = 0) && decide (n.toNat + k ≤ q)
/-- One lane register below the quota (R33). -/
def okR (q : Nat) (n : Fld) : Bool := okBlk q 1 n
/-- An even pair of lane registers. -/
def okP (q : Nat) (n : Fld) : Bool := okBlk q 2 n
/-- Four lane registers from a multiple of 4. -/
def okQ (q : Nat) (n : Fld) : Bool := okBlk q 4 n
/-- A field that is not used. -/
def okZ (n : Fld) : Bool := n == 0
/-- A memory side: one register for scratchpad, a pair for a global address (R172). -/
def okSide (q : Nat) (scr : Bool) (n : Fld) : Bool := if scr then okR q n else okP q n

/-- The data register of a format-M word of `k` registers (R30). -/
def okData (q k : Nat) (s : Src) : Bool :=
  match s with
  | .v n => okBlk q k n
  | .g n => decide (n.toNat % k = 0)
  | .x _ _ => true
  | .imm _ => false
/-- The address register of a format-M word (R30). -/
def okAddr (q : Nat) (glob : Bool) (s : Src) : Bool :=
  match s with
  | .v n => okSide q (!glob) n
  | .g n => !glob || decide (n.toNat % 2 = 0)
  | .x _ _ => false
  | .imm _ => false
/-- Registers a width covers. -/
def Width.regs : Width → Nat
  | .b8 | .b16 | .b32 => 1 | .b64 => 2 | .b128 => 4
/-- Scopes of scratchpad orderings (R31). -/
def Scope.inTeam : Scope → Bool
  | .item | .grp | .team => true
  | _ => false
/-- Field values of a load (R31). -/
def okLoad (f : MF) (team : Bool) : Bool :=
  (f.ord == .plain && f.scope == .item || f.ord == .acq && (!team || f.scope.inTeam)) &&
    (!f.var || f.width == .b8 || f.width == .b16) && !f.wd
/-- Field values of a store (R31). -/
def okStore (f : MF) (team : Bool) : Bool :=
  (f.ord == .plain && f.scope == .item || f.ord == .rel && (!team || f.scope.inTeam)) && !f.var
/-- Registers an atomic's data field covers (R161). -/
def atomRegs (op : AOp) (w : Width) : Nat := if op == .cas then 2 * w.regs else w.regs
/-- Field values of an atomic (R31, R161): data class 00; signedness only for minimum and maximum. -/
def okAtom (q : Nat) (f : MF) (op : AOp) : Bool :=
  (f.width == .b32 || f.width == .b64) && (!f.var || op == .min || op == .max) &&
    (match f.data with | .v n => okBlk q (atomRegs op f.width) n | _ => false)
/-- Field values of CFLUSH, CINV and PREF (R31). -/
def okLine (q : Nat) (f : MF) : Bool :=
  f.data == .v 0 && !f.wd && f.ord == .plain && f.scope == .item && f.width == .b8 && !f.var && okAddr q true f.addr

/-- Registers an aligned run of N, code 000 to 100 (R197, R237). -/
def runLen (n : BitVec 3) : Nat := 2 ^ n.toNat
/-- A barrier number field (R182): an immediate number leaves operand 1 zero. -/
def okBarNo {w : Nat} (q : Nat) (n : Option (BitVec w)) (o1 : Fld) : Bool :=
  match n with | some _ => okZ o1 | none => okR q o1
/-- MMA control (R206): SAT for INT8 only, VA and VB for FP8 and INT8 only. -/
def okMma (c : MmaC) : Bool :=
  (!c.sat || c.kind == .int8) && ((!c.va && !c.vb) || c.kind == .int8 || c.kind == .fp8)
/-- Drain control (R214): a plane needs KIND 0000, COUNT at most 100, BAND at most 10. -/
def okDr (c : DrC) : Bool :=
  (c.plane == 0 || c.kind == .b32) && decide (c.count.toNat ≤ 4) && decide (c.band.toNat ≤ 2)
/-- A drain kind that requantises (R214). -/
def DKind.requant : DKind → Bool
  | .b32 | .bf16 | .f16 => false
  | _ => true
/-- AALC control (R202): rows, columns, and a partial tile no larger than the bank. -/
def okAalc (rows : BitVec 2) (cols : BitVec 6) (t : TileTy) : Bool :=
  decide (rows.toNat ≤ 2) && decide (cols.toNat ≤ 39) &&
    (t != .part || decide (16 * (rows.toNat + 1) * (16 * (cols.toNat + 1)) * 32 ≤ 262144))
/-- Order control (R285): THR for TOPK only, NANLOW for `.f32` only. -/
def okOrd (c : OrdC) (thr : Bool) : Bool := (thr || !c.thr) && (!c.nanlow || c.ty == .f32)
/-- Types PACK and UNPK take (R98). -/
def FullTy.packs : FullTy → Bool
  | .s16 | .z16 | .f16 | .bf16 | .s8 | .z8 | .e4m3 | .e5m2 | .e2m1 | .c4 => true
  | _ => false
/-- An integer type code. -/
def FullTy.isInt : FullTy → Bool
  | .s8 | .s16 | .s32 | .s64 | .z8 | .z16 | .z32 | .z64 => true
  | _ => false
/-- A 64-bit type code. -/
def FullTy.use : FullTy → Use
  | .s64 | .z64 | .f64 => .two
  | _ => .one
/-- CVT combinations of R96. -/
def okCvt (dt st : FullTy) : Bool :=
  dt != .c4 && st != .c4 &&
    (dt != st || st == .f16 || st == .bf16 || st == .f32 || st == .f64)
/-- Width of a special value (R37). -/
def Special.use : Special → Use
  | .item | .clock => .two
  | _ => .one
/-- Operand use and rounding of a reduction (R36, R191). -/
def RedOp.use : RedOp → Use
  | .add t | .min t | .max t | .and t | .or t | .xor t => t.use
  | _ => .one
/-- Item registers SRD may read and SWR may write (R111, R112), and the core's system registers (R226). -/
def okSreg (r : BitVec 16) (write : Bool) : Bool :=
  let n := r.toNat
  if n < 9 then !write || n == 1 || n == 2
  else if n < 0x100 then false
  else if n == 0x100 || n == 0x103 || n == 0x104 || n == 0x105 || n == 0x106 then !write
  else if n == 0x101 || n == 0x102 || n == 0x110 || n == 0x111 || n == 0x140 || n == 0x150 then true
  else if 0x151 ≤ n && n ≤ 0x157 then !write
  else if 0x160 ≤ n && n ≤ 0x16F then true
  else if 0x170 ≤ n && n ≤ 0x17B then true
  else if n == 0x180 || n == 0x181 then true
  else if n == 0x182 || n == 0x18E then true
  else if n == 0x183 then !write
  else if 0x188 ≤ n && n ≤ 0x18D then !write
  else false
/-- A named or uniform or indexed source of WAITF, TSTP (class 11 refused). -/
def okReg (q : Nat) (u : Use) (s : Src) (w : Bool) : Bool := okSrc q u s w && !s.isImm

/-- Legality of a decoded instruction word at address `pc` for quota `q` (R38). The steps that are no words are legal. -/
def wf (q : Nat) (pc : W64) : Instr → Bool
  | .nop _ | .svc _ _ | .eret _ | .bkpt _ _ | .trap _ _ | .ifence _ => true
  | .srd _ d r => okR q d && okSreg r false
  | .swr _ a r => okR q a && okSreg r true
  | .dbgm f n _ => okZ f.r && okZ f.o3 && decide (n.toNat ≤ 4) && okBlk q (runLen n) f.o1 && okR q f.o2
  | .add f t | .sub f t | .sadd f t | .ssub f t | .mul f t | .mulh f t | .divq f t | .rem f t | .min f t | .max f t =>
    okV q t.use t.use t.use .no f
  | .mad f t => okV q t.use t.use t.use t.use f
  | .mulw f _ => okV q .two .one .one .no f
  | .dot4 f _ _ _ | .permb f => okV q .one .one .one .one f
  | .and f w | .or f w | .xor f w | .andn f w => okV q (wideUse w) (wideUse w) (wideUse w) .no f
  | .shl f w | .shr f w | .sha f w | .rol f w | .bext f w => okV q (wideUse w) (wideUse w) .one .no f
  | .popc f w | .clz f w | .ctz f w => okV q .one (wideUse w) .no .no f
  | .brev f w | .abs f w | .neg f w | .mov f w => okV q (wideUse w) (wideUse w) .no .no f
  | .bins f w => okV q (wideUse w) (wideUse w) (wideUse w) .one f
  | .cmp f _ t => okVP q t.use t.use f
  | .pand _ _ _ _ | .por _ _ _ _ | .pxor _ _ _ _ | .pnot _ _ _ => true
  | .sel f w _ => okV q (wideUse w) (wideUse w) (wideUse w) .no f
  | .movg f => okV q .one .one .no .no f
  | .movs f sv => okV q sv.use .no .no .no f && (match f.d with | .x _ _ => false | _ => true)
  | .addi f | .andi f | .ori f | .xori f => okI q f.u f.d && okI q f.u f.a
  | .shli f | .shri f => okI q f.u f.d && okI q f.u f.a && decide (f.imm.toNat ≤ 31)
  | .movi f => okI q f.u f.d && okZ f.a
  | .cmpi f _ => decide (f.d.toNat < 8) && okI q f.u f.a
  | .xset f _ => okV q .no .one .one .no f
  | .xadd f _ => okV q .no .one .no .no f
  | .xget f _ => okV q .one .no .no .no f
  | .lea f _ => okV q .two .two .one .no f
  | .fadd f _ | .fsub f _ | .fmul f _ | .fdiv f _ | .fmin f | .fmax f => okV q .one .one .one .no f
  | .ffma f _ | .scac f _ => okV q .one .one .one .one f
  | .fcmp f _ => okVP q .one .one f
  | .fclass f | .frcp f | .frsq f | .fsqrt f _ | .fexp2 f | .flog2 f | .ftanh f => okV q .one .one .no .no f
  | .pfadd f _ _ | .pfmul f _ _ | .pfmin f _ | .pfmax f _ => okV q .one .one .one .no f
  | .pfma f _ _ => okV q .one .one .one .one f
  | .dadd f _ | .dmul f _ | .dmin f | .dmax f => okV q .two .two .two .no f
  | .dfma f _ => okV q .two .two .two .two f
  | .dcmp f _ => okVP q .two .two f
  | .cvt f dt st _ => okV q dt.use st.use .no .no f && okCvt dt st && (!f.a.isImm || st.isInt)
  | .pack f t => okV q .one .one .one .no f && t.packs
  | .unpk f t _ => okV q .one .one .no .no f && t.packs
  | .qnt f _ _ | .dqnt f _ => okV q .one .one .one .no f
  | .bra _ _ => true
  | .brx _ t | .ret _ t => okP q t
  | .call _ l _ => okP q l
  | .exit _ | .yield _ | .prply _ | .sjoin _ | .matz _ | .regrp _ => true
  | .waitf f n =>
    f.d == .v 0 && !f.wa && !f.wb && !f.wc &&
      okReg q (if 1 ≤ n.toNat then .one else .no) f.a false && okReg q (if 2 ≤ n.toNat then .one else .no) f.b false &&
      okReg q (if 3 ≤ n.toNat then .one else .no) f.c false
  | .tstp f => okV q .one .one .no .no f && !f.a.isImm
  | .clrp f => okV q .one .no .no .no f
  | .kdep f => okV q .no .one .two .no f && !f.b.isImm
  | .spanq f => okV q .one .one .no .no f && !f.wa && (match f.a with | .v _ => true | _ => false)
  | .ld f => okLoad f false && okData q f.width.regs f.data && okAddr q true f.addr
  | .lds f => okLoad f true && okData q f.width.regs f.data && okAddr q false f.addr
  | .st f => okStore f false && okData q f.width.regs f.data && okAddr q true f.addr
  | .sts f => okStore f true && okData q f.width.regs f.data && okAddr q false f.addr
  | .atom f op => okAtom q f op && okAddr q true f.addr
  | .red f op => okAtom q f op && okAddr q true f.addr && op != .exch && op != .cas
  | .atoms f op => okAtom q f op && okAddr q false f.addr && f.scope.inTeam
  | .fence _ o _ => o != .plain
  | .cflush f | .cinv f | .pref f => okLine q f
  | .cpy f dsp ssp _ => okR q f.r && okSide q dsp f.o1 && okSide q ssp f.o2 && okR q f.o3
  | .cpyw f dsp ssp _ => okR q f.r && okSide q dsp f.o1 && okSide q ssp f.o2 && okQ q f.o3
  | .cprpl f => okZ f.r && okR q f.o1 && okZ f.o2 && okZ f.o3
  | .bufa f | .bufw f => okR q f.r && okR q f.o1 && okZ f.o2 && okZ f.o3
  | .bufq f _ => okP q f.r && okR q f.o1 && okZ f.o2 && okZ f.o3
  | .buff f => okZ f.r && okR q f.o1 && okZ f.o2 && okZ f.o3
  | .buffRearm f t => okZ f.r && okR q f.o1 && (if t then okR q f.o2 else okZ f.o2) && okZ f.o3
  | .barInit f n | .barWait f n => okZ f.r && okBarNo q n f.o1 && okR q f.o2 && okZ f.o3
  | .barArv f n => okR q f.r && okBarNo q n f.o1 && okZ f.o2 && okZ f.o3
  | .barSync f n => okZ f.r && okBarNo q n f.o1 && okZ f.o2 && okZ f.o3
  | .cbar f n => okZ f.r && okBarNo q n f.o1 && okR q f.o2 && okZ f.o3
  | .shfl f m => okV q .one .one (if m == .bcast then .no else .one) .one f
  | .vote f _ _ => okV q .one .no .no .one f
  | .elect f => okV q .one .no .no .one f
  | .matchg f w => okV q .one (wideUse w) .no .one f
  | .redg f op | .scang f op => okV q op.use op.use .no .one f
  | .tclm f n => okR q f.r && okZ f.o2 && okZ f.o3 &&
      (match n with | some c => okZ f.o1 && decide (1 ≤ c.toNat) && decide (c.toNat ≤ 32) | none => okR q f.o1)
  | .trel f n => okZ f.r && okZ f.o3 &&
      (match n with
       | some (s, c) => okZ f.o1 && okZ f.o2 && decide (1 ≤ c.toNat) && decide (s.toNat + c.toNat ≤ 32)
       | none => okR q f.o1 && okR q f.o2)
  | .tld f ssp _ => okR q f.r && okR q f.o1 && okSide q ssp f.o2 && okP q f.o3
  | .tmov f n => okZ f.r && okR q f.o1 && okR q f.o2 && decide (n.toNat ≤ 4) && okBlk q (runLen n) f.o3
  | .oprf _ => true
  | .cbld f _ => okZ f.r && okBlk q 8 f.o1 && okZ f.o2 && okZ f.o3
  | .mma f c => okZ f.r && okR q f.o1 && okR q f.o2 && okZ f.o3 && okMma c
  | .mmac f c => okZ f.r && okR q f.o1 && okR q f.o2 && okP q f.o3 && okMma c
  | .aalc f _ r c t => okR q f.r && okZ f.o1 && okZ f.o2 && okZ f.o3 && okAalc r c t
  | .afree _ _ | .azero _ _ | .await _ _ => true
  | .adrn f c => okDr c && decide (f.r.toNat + runLen c.count ≤ q) && okR q f.o1 &&
      (if c.kind.requant then okR q f.o2 else okZ f.o2) && okZ f.o3
  | .adrs f c => okDr c && okZ f.r && okR q f.o1 && okR q f.o2 && (if c.kind.requant then okR q f.o3 else okZ f.o3)
  | .ascac f _ _ => okZ f.r && okR q f.o1 && okZ f.o2 && okZ f.o3
  | .snew f => okQ q f.r && okZ f.o1 && okZ f.o2 && okZ f.o3
  | .sfree f => okP q f.r && okP q f.o1 && okZ f.o2 && okZ f.o3
  | .sbld f ssp _ => okP q f.r && okP q f.o1 && okSide q ssp f.o2 && okR q f.o3
  | .senum f dsp _ => okQ q f.r && okP q f.o1 && okSide q dsp f.o2 && okP q f.o3
  | .sins f | .sdel f | .shas f => okQ q f.r && okP q f.o1 && okR q f.o2 && okZ f.o3
  | .scard f | .srep f => okQ q f.r && okP q f.o1 && okZ f.o2 && okZ f.o3
  | .scost f op => okQ q f.r && okP q f.o1 && okZ f.o3 &&
      (match op with
       | .sins | .sdel | .shas => okR q f.o2
       | .scard | .senum => okZ f.o2
       | .suni | .sint | .sdif | .sintc => okP q f.o2)
  | .suni f | .sint f | .sdif f => okP q f.r && okP q f.o1 && okP q f.o2 && okP q f.o3
  | .sintc f => okQ q f.r && okP q f.o1 && okP q f.o2 && okZ f.o3
  | .swait _ => true
  | .sortk f c => okR q f.r && okR q f.o1 && okR q f.o2 && okR q f.o3 && okOrd c false
  | .topk f c => okP q f.r && okQ q f.o1 && okP q f.o2 && (if c.thr then okQ q f.o3 else okZ f.o3) && okOrd c true
  | .selb f c => okP q f.r && okQ q f.o1 && okP q f.o2 && okZ f.o3 && okOrd c false
  | .srch f c => okR q f.r && okR q f.o1 && okR q f.o2 && okR q f.o3 && okOrd c false
  | .mrgk f c => okR q f.r && okQ q f.o1 && okP q f.o2 && okZ f.o3 && okOrd c false
  | .card f cnt cont => okR q f.r && okP q f.o1 && okP q f.o2 && (if cnt || cont then okQ q f.o3 else okZ f.o3)
  | .post f lvl => okP q f.r && okP q f.o1 && (if lvl == .to then okR q f.o2 else okZ f.o2) && okZ f.o3
  | .cntw f => okP q f.r && okR q f.o1 && okP q f.o2 && okZ f.o3
  | .cntq f _ => okP q f.r && okR q f.o1 && okZ f.o2 && okZ f.o3
  | .cancel f => okZ f.r && okR q f.o1 && okZ f.o2 && okZ f.o3
  | .lbar _ | .phbnd _ => true
  | .snap f => okP q f.r && okZ f.o1 && okZ f.o2 && okZ f.o3
  | .snapq f => okP q f.r && okR q f.o1 && okZ f.o2 && okZ f.o3
  | .gviewMap f => okR q f.r && okR q f.o1 && okQ q f.o2 && okR q f.o3
  | .gviewUnmap f => okR q f.r && okZ f.o1 && okP q f.o2 && okR q f.o3
  | .gviewFree f => okR q f.r && okR q f.o1 && okZ f.o2 && okZ f.o3
  | .attrset f => okR q f.r && okP q f.o1 && okR q f.o2 && okZ f.o3
  | .rgth f dsp isp _ => okR q f.r && okSide q dsp f.o1 && okQ q f.o2 && okSide q isp f.o3
  | .rsct f dsp isp _ _ => okR q f.r && okSide q dsp f.o1 && okQ q f.o2 && okSide q isp f.o3
  | .rget f dsp _ => okR q f.r && okSide q dsp f.o1 && okP q f.o2 && okR q f.o3
  | .rput f ssp _ => okR q f.r && okP q f.o1 && okSide q ssp f.o2 && okR q f.o3
  | .route f => okQ q f.r && okR q f.o1 && okR q f.o2 && okZ f.o3
  | .movi64 _ u d _ => pc.toNat % 16 == 0 && (if u then decide (d.toNat < 64) && decide (d.toNat % 2 = 0) else okP q d)
  | .addi64 _ u d a _ => pc.toNat % 16 == 0 &&
      (if u then decide (d.toNat < 64) && decide (d.toNat % 2 = 0) && decide (a.toNat < 64) && decide (a.toNat % 2 = 0)
       else okP q d && okP q a)
  | .itemEnd _ | .illegalWordIssue _ | .fetchFault | .pendingTrapTaken | .brk | .groupHalt => true
  | .loadCompletion _ | .atomicCompletion _ | .lineOpCompletion _ | .brambleWindowExpiry _ _ | .copyChunkArrival _
  | .tldLineWrite _ | .mmaCompletion _ | .mmacCompletion _ | .azeroCompletion _ | .ascacCompletion _
  | .adrnCompletion _ | .adrsCompletion _ | .setCommandAcceptance _ | .setCommandCompletion _
  | .setEngineChange _ _ _ _ | .conversionStart _ _ _ | .conversionSwitch _ _ _ => true
  | .teamDispatch _ _ _ _ | .cardAgeEscalation _ | .issueAgeEscalation _ _ | .bundleReform _ _
  | .materialisationResume _ _ | .teamRelease _ | .preemptTeam _ | .resumeTeam _ _ _ | .sliceEnd _ _
  | .launchCompletion _ | .phaseBoundaryCompletion _ | .snapCompletion _ | .attrsetCompletion _
  | .generationDrainBlock _ _ _ | .pageMigration _ _ _ _ | .pageEviction _ _ | .pageRecall _ _ _ _ _ => true
  | .homeGets _ | .homeGetm _ | .homeFarAtomic _ | .homeWriteback _ | .forward _ _ | .invalidation _ _
  | .invalidationAck _ _ | .dataResponse _ _ | .transactionComplete _ _ | .remoteAccessRequest _ _ _ _ _
  | .remoteResponse _ _ | .rgthRowArrival _ _ | .rsctCompletion _ | .rgetArrival _ | .rputCompletion _
  | .routeWindowEnd _ _ | .replicaCopyComplete _ _ | .flitCrcFail _ | .linkFail _ _ | .correctedError _
  | .uncorrectableError _ _ => true
  | .dcmdHaltGroup _ | .dcmdHaltTeam _ | .dcmdResumeGroup _ | .dcmdResumeTeam _ | .dcmdStep _ | .dcmdNoOp _
  | .dack _ | .registerWrite _ _ | .deviceStart _ | .readyReport | .startTimeout | .reload _ _ | .power _
  | .doorbell _ _ | .submit _ | .create _ | .map _ | .unmap _ | .copyin _ | .copyout _ | .setw _ | .count _
  | .destroy _ | .unknownJobCommand _ | .jobCommandFinish | .coolantLimit _ | .generationDrainStart _ _ _
  | .replicaRemoved _ _ _ | .writebackAck _ _ | .hostLinkNegotiation _ _ _ | .coolantBelowLimit _ => true

end Sys2Proof
end

