-- ==== Sys2Proof/Decode.lean ====
section
/-! DEFINITION. Decoding of instruction words (R22 to R37, and the control fields of each chapter), total on all words,
refusing reserved codes by name; then the encoder, written from the same encoding tables. Ranges that depend on the
quota or the address are checked by `wf`. -/

namespace Sys2Proof

/-- Why a word encodes no instruction (R38). -/
inductive Reject where
  | reservedMajor
  | reservedMinor
  | reservedClass
  | reservedType
  | reservedMod
  | reservedWidth
  | reservedVariant
  | reservedControl
  | nonZeroField
  deriving DecidableEq, Repr

/-- The result of decoding. -/
abbrev Dec (α : Type) := Except Reject α

/-- `()` when `c` holds, else the refusal. -/
def need (c : Bool) (r : Reject) : Dec Unit := if c then .ok () else .error r

/-! ## Fields -/

/-- Bits 63:58 (R22). -/
def majorOf (w : W64) : Nat := (w.extractLsb' 58 6).toNat
/-- Bits 57:52 (R22). -/
def minorOf (w : W64) : Nat := (w.extractLsb' 52 6).toNat
/-- Bits 51:48 (R23). -/
def guardOf (w : W64) : Guard := ⟨w.extractLsb' 49 3, w.getLsbD 48⟩
/-- The 8-bit field whose lowest bit is `lo`. -/
def fldOf (w : W64) (lo : Nat) : Fld := w.extractLsb' lo 8
/-- Bits 31:0. -/
def immOf (w : W64) : W32 := w.extractLsb' 0 32
/-- Bits 15:0, the engine control field (R33). -/
def ctlOf (w : W64) : BitVec 16 := w.extractLsb' 0 16

/-- A source field under its class code (R25). -/
def srcOf (c : BitVec 2) (f : Fld) : Dec Src :=
  match c.toNat with
  | 0 => .ok (.v f)
  | 1 => if f.extractLsb' 6 2 = 0 then .ok (.g (f.extractLsb' 0 6)) else .error .nonZeroField
  | 2 => .ok (.x (f.extractLsb' 6 2) (f.extractLsb' 0 6))
  | _ => .ok (.imm f)

/-- A destination field under its class code (R25). -/
def dstOf (c : BitVec 2) (f : Fld) : Dec Dst :=
  match c.toNat with
  | 0 => .ok (.v f)
  | 1 => if f.extractLsb' 6 2 = 0 then .ok (.g (f.extractLsb' 0 6)) else .error .nonZeroField
  | 2 => .ok (.x (f.extractLsb' 6 2) (f.extractLsb' 0 6))
  | _ => if f.extractLsb' 3 5 = 0 then .ok (.p (f.extractLsb' 0 3)) else .error .nonZeroField

/-- The register fields of a format-V word (R24). -/
def vfOf (w : W64) : Dec VF := do
  let d ← dstOf (w.extractLsb' 8 2) (fldOf w 40)
  let a ← srcOf (w.extractLsb' 14 2) (fldOf w 32)
  let b ← srcOf (w.extractLsb' 12 2) (fldOf w 24)
  let c ← srcOf (w.extractLsb' 10 2) (fldOf w 16)
  .ok ⟨guardOf w, d, a, b, c, w.getLsbD 7, w.getLsbD 6, w.getLsbD 5⟩

/-- The type field, bits 4:2, and the mod field, bits 1:0 (R24). -/
def tyOf (w : W64) : Nat := (w.extractLsb' 2 3).toNat
def modOf (w : W64) : Nat := (w.extractLsb' 0 2).toNat

/-- An integer type code 000 to 011 (R26). -/
def ityOf : Nat → Dec ITy
  | 0 => .ok .s32 | 1 => .ok .z32 | 2 => .ok .s64 | 3 => .ok .z64
  | _ => .error .reservedType
/-- A type code that must be 001 (narrow) or 011 (wide). -/
def zwideOf : Nat → Dec Bool
  | 1 => .ok false | 3 => .ok true
  | _ => .error .reservedType
/-- A type code that must be 000 (narrow) or 010 (wide). -/
def swideOf : Nat → Dec Bool
  | 0 => .ok false | 2 => .ok true
  | _ => .error .reservedType
/-- A rounding mode (R26). -/
def rmOf : Nat → RMode
  | 0 => .rne | 1 => .rtz | 2 => .rdn | _ => .rup

/-- A format-V word whose type and mod fields are `t` and 0. -/
def vPlain (w : W64) (t : Nat) : Dec VF := do
  need (tyOf w == t) .reservedType
  need (modOf w == 0) .reservedMod
  vfOf w
/-- A format-V word with an integer type and mod 00. -/
def vInt (w : W64) (k : VF → ITy → Instr) : Dec Instr := do
  let t ← ityOf (tyOf w)
  need (modOf w == 0) .reservedMod
  let f ← vfOf w
  .ok (k f t)
/-- A format-V word of type `.z32` or `.z64` and mod 00. -/
def vZ (w : W64) (k : VF → Bool → Instr) : Dec Instr := do
  let t ← zwideOf (tyOf w)
  need (modOf w == 0) .reservedMod
  let f ← vfOf w
  .ok (k f t)
/-- A format-V word of type `.s32` or `.s64` and mod 00. -/
def vS (w : W64) (k : VF → Bool → Instr) : Dec Instr := do
  let t ← swideOf (tyOf w)
  need (modOf w == 0) .reservedMod
  let f ← vfOf w
  .ok (k f t)
/-- A format-V word of type `t` with a rounding mode. -/
def vRound (w : W64) (t : Nat) (k : VF → RMode → Instr) : Dec Instr := do
  need (tyOf w == t) .reservedType
  let f ← vfOf w
  .ok (k f (rmOf (modOf w)))

/-- Field `C` read as a raw byte: class 00 and wait bit 0; the decoded record then holds an unused `C` (R27, R36). -/
def rawC (w : W64) : Dec (VF × Fld) := do
  need (w.extractLsb' 10 2 == 0) .reservedClass
  need (!w.getLsbD 5) .nonZeroField
  let f ← vfOf w
  .ok ({ f with c := .v 0 }, fldOf w 16)
/-- Field `A` read as a raw byte: class 00 and wait bit 0; the decoded record then holds an unused `A` (R37, R85). -/
def rawA (w : W64) : Dec (VF × Fld) := do
  need (w.extractLsb' 14 2 == 0) .reservedClass
  need (!w.getLsbD 7) .nonZeroField
  let f ← vfOf w
  .ok ({ f with a := .v 0 }, fldOf w 32)
/-- The destination field read as a raw byte of class 00; the decoded record then holds register 0 there. -/
def rawD (w : W64) : Dec (VF × Fld) := do
  need (w.extractLsb' 8 2 == 0) .reservedClass
  let f ← vfOf w
  .ok ({ f with d := .v 0 }, fldOf w 40)

/-- A predicate number in bits 2:0 of a field whose other bits are 0. -/
def predOf (f : Fld) : Dec (BitVec 3) :=
  if f.extractLsb' 3 5 = 0 then .ok (f.extractLsb' 0 3) else .error .nonZeroField

/-- Full type codes (R27). -/
def fullOf : Nat → FullTy
  | 0 => .s8 | 1 => .s16 | 2 => .s32 | 3 => .s64 | 4 => .z8 | 5 => .z16 | 6 => .z32 | 7 => .z64
  | 8 => .f16 | 9 => .bf16 | 10 => .f32 | 11 => .f64 | 12 => .e4m3 | 13 => .e5m2 | 14 => .e2m1 | _ => .c4
/-- QNT and DQNT types, float-table codes 100 to 111 (R100). -/
def qtyOf : Nat → Dec QTy
  | 4 => .ok .e4m3 | 5 => .ok .e5m2 | 6 => .ok .e2m1 | 7 => .ok .c4
  | _ => .error .reservedType
/-- Special-value codes (R37). -/
def specialOf : Nat → Dec Special
  | 0 => .ok .item | 1 => .ok .grp | 2 => .ok .team | 3 => .ok .launch | 4 => .ok .pos | 5 => .ok .quad
  | 6 => .ok .core | 7 => .ok .clu | 8 => .ok .die | 9 => .ok .dev | 10 => .ok .phase | 11 => .ok .gen
  | 12 => .ok .clock | 13 => .ok .leader | 14 => .ok .fstat
  | _ => .error .nonZeroField
/-- Float conditions in minor order (R93). -/
def fcondOf : Nat → FCond
  | 0 => .eq | 1 => .ne | 2 => .lt | 3 => .le | 4 => .gt | 5 => .ge | 6 => .ord | _ => .uno

/-- Format-I fields (R29). -/
def ifOf (w : W64) : IF := ⟨guardOf w, w.getLsbD 57, fldOf w 40, fldOf w 32, immOf w⟩
/-- Format-E register fields (R33). -/
def efOf (w : W64) : EF := ⟨guardOf w, fldOf w 40, fldOf w 32, fldOf w 24, fldOf w 16⟩

/-- Widths (R30). -/
def widthOf : Nat → Dec Width
  | 0 => .ok .b8 | 1 => .ok .b16 | 2 => .ok .b32 | 3 => .ok .b64 | 4 => .ok .b128
  | _ => .error .reservedWidth
/-- Orderings (R30). -/
def ordOf : Nat → MOrd
  | 0 => .plain | 1 => .acq | 2 => .rel | _ => .ar
/-- Scopes (R30). -/
def scopeOf : Nat → Scope
  | 0 => .item | 1 => .grp | 2 => .team | 3 => .core | 4 => .clu | 5 => .die | 6 => .pkg | _ => .sys
/-- Atomic operations, minor bits 3:0 (R31). -/
def aopOf : Nat → Dec AOp
  | 0 => .ok .add | 1 => .ok .and | 2 => .ok .or | 3 => .ok .xor | 4 => .ok .min | 5 => .ok .max | 6 => .ok .exch
  | 7 => .ok .cas | 8 => .ok .fadd | 9 => .ok .fmin | 10 => .ok .fmax
  | _ => .error .reservedMinor

/-- Format-M fields (R30): variants above 001 are reserved. -/
def mfOf (w : W64) : Dec MF := do
  let d ← srcOf (w.extractLsb' 8 2) (fldOf w 40)
  need (!d.isImm) .reservedClass
  let a ← srcOf (w.extractLsb' 10 2) (fldOf w 32)
  need (w.getLsbD 11 == false) .reservedClass
  let wd ← widthOf (w.extractLsb' 3 3).toNat
  need (w.extractLsb' 1 2 == 0) .reservedVariant
  .ok ⟨guardOf w, d, a, w.extractLsb' 20 12, ordOf (w.extractLsb' 18 2).toNat, scopeOf (w.extractLsb' 15 3).toNat,
    w.extractLsb' 12 3, w.getLsbD 7, w.getLsbD 6, wd, w.getLsbD 0⟩

/-! ## The families (R36) -/

/-- A word of major 0x00. -/
def decSys (w : W64) : Dec Instr :=
  let g := guardOf w
  match minorOf w with
  | 0x01 => .ok (.nop g)
  | 0x02 => do need (w.extractLsb' 32 16 == 0) .nonZeroField; .ok (.svc g (immOf w))
  | 0x03 => do need (w.extractLsb' 0 48 == 0) .nonZeroField; .ok (.eret g)
  | 0x04 => do
    need (fldOf w 32 == 0 && w.extractLsb' 16 16 == 0) .nonZeroField
    .ok (.srd g (fldOf w 40) (w.extractLsb' 0 16))
  | 0x05 => do
    need (fldOf w 40 == 0 && w.extractLsb' 16 16 == 0) .nonZeroField
    .ok (.swr g (fldOf w 32) (w.extractLsb' 0 16))
  | 0x06 => do
    need (w.extractLsb' 4 12 == 0) .reservedControl
    .ok (.dbgm (efOf w) (w.extractLsb' 0 3) (w.getLsbD 3))
  | 0x07 => do need (w.extractLsb' 32 16 == 0) .nonZeroField; .ok (.bkpt g (immOf w))
  | 0x08 => do need (w.extractLsb' 32 16 == 0) .nonZeroField; .ok (.trap g (immOf w))
  | 0x09 => do need (w.extractLsb' 0 48 == 0) .nonZeroField; .ok (.ifence g)
  | _ => .error .reservedMinor

/-- A word of major 0x02. -/
def decMul (w : W64) : Dec Instr :=
  match minorOf w with
  | 0x00 => vInt w .mul
  | 0x01 => vInt w .mulh
  | 0x02 => vInt w .mad
  | 0x03 => do
    need (decide (tyOf w ≤ 1)) .reservedType
    need (modOf w == 0) .reservedMod
    let f ← vfOf w
    .ok (.mulw f (tyOf w == 0))
  | 0x04 => do
    need (!w.getLsbD 2) .reservedType
    need (decide (modOf w ≤ 1)) .reservedMod
    let f ← vfOf w
    .ok (.dot4 f (w.getLsbD 4) (w.getLsbD 3) (modOf w == 1))
  | _ => .error .reservedMinor

/-- A word of major 0x06. -/
def decBits (w : W64) : Dec Instr :=
  match minorOf w with
  | 0x00 => vZ w .popc
  | 0x01 => vZ w .clz
  | 0x02 => vZ w .ctz
  | 0x03 => vZ w .brev
  | 0x04 => vZ w .bext
  | 0x05 => vZ w .bins
  | 0x06 => do let f ← vPlain w 1; .ok (.permb f)
  | _ => .error .reservedMinor

/-- Predicate logic (R80): predicate destination, predicate numbers in the source fields. -/
def decPred (w : W64) (two : Bool) (k : BitVec 3 → BitVec 3 → BitVec 3 → Instr) : Dec Instr := do
  need (tyOf w == 0) .reservedType
  need (modOf w == 0) .reservedMod
  need (w.extractLsb' 10 6 == 0) .reservedClass
  need (w.extractLsb' 8 2 == 3) .reservedClass
  need (w.extractLsb' 5 3 == 0) .nonZeroField
  let d ← predOf (fldOf w 40)
  let a ← predOf (fldOf w 32)
  let b ← predOf (fldOf w 24)
  need (two || b == 0) .nonZeroField
  need (fldOf w 16 == 0) .nonZeroField
  .ok (k d a b)

/-- A word of major 0x08. -/
def decCmp (w : W64) : Dec Instr :=
  match minorOf w with
  | 0x00 => vInt w (.cmp · .eq)
  | 0x01 => vInt w (.cmp · .ne)
  | 0x02 => vInt w (.cmp · .lt)
  | 0x03 => vInt w (.cmp · .le)
  | 0x04 => vInt w (.cmp · .gt)
  | 0x05 => vInt w (.cmp · .ge)
  | 0x10 => decPred w true (.pand (guardOf w))
  | 0x11 => decPred w true (.por (guardOf w))
  | 0x12 => decPred w true (.pxor (guardOf w))
  | 0x13 => decPred w false (fun d a _ => .pnot (guardOf w) d a)
  | _ => .error .reservedMinor

/-- A word of major 0x09. -/
def decMove (w : W64) : Dec Instr :=
  match minorOf w with
  | 0x00 => do
    let t ← zwideOf (tyOf w)
    need (modOf w == 0) .reservedMod
    let (f, c) ← rawC w
    let p ← predOf c
    .ok (.sel f t p)
  | 0x01 => vZ w .mov
  | 0x02 => do let f ← vPlain w 1; .ok (.movg f)
  | 0x03 => do
    need (tyOf w == 0) .reservedType
    need (modOf w == 0) .reservedMod
    let (f, a) ← rawA w
    let s ← specialOf a.toNat
    .ok (.movs f s)
  | _ => .error .reservedMinor

/-- A word of major 0x0A; minor bit 5 is the uniform form (R29). -/
def decImm (w : W64) : Dec Instr :=
  let f := ifOf w
  match minorOf w % 32 with
  | 0x00 => .ok (.addi f)
  | 0x01 => .ok (.andi f)
  | 0x02 => .ok (.ori f)
  | 0x03 => .ok (.xori f)
  | 0x04 => .ok (.shli f)
  | 0x05 => .ok (.shri f)
  | 0x06 => .ok (.movi f)
  | 0x08 => .ok (.cmpi f .eq)
  | 0x09 => .ok (.cmpi f .ne)
  | 0x0A => .ok (.cmpi f .ltS)
  | 0x0B => .ok (.cmpi f .leS)
  | 0x0C => .ok (.cmpi f .gtS)
  | 0x0D => .ok (.cmpi f .geS)
  | 0x0E => .ok (.cmpi f .ltZ)
  | 0x0F => .ok (.cmpi f .leZ)
  | 0x10 => .ok (.cmpi f .gtZ)
  | 0x11 => .ok (.cmpi f .geZ)
  | _ => .error .reservedMinor

/-- A word of major 0x0B. -/
def decIndex (w : W64) : Dec Instr :=
  match minorOf w with
  | 0x00 => do
    need (tyOf w == 0) .reservedType
    need (modOf w == 0) .reservedMod
    let (f, d) ← rawD w
    need (d.extractLsb' 2 6 == 0) .nonZeroField
    .ok (.xset f (d.extractLsb' 0 2))
  | 0x01 => do
    need (tyOf w == 0) .reservedType
    need (modOf w == 0) .reservedMod
    let (f, d) ← rawD w
    need (d.extractLsb' 2 6 == 0) .nonZeroField
    .ok (.xadd f (d.extractLsb' 0 2))
  | 0x02 => do
    need (tyOf w == 0) .reservedType
    need (modOf w == 0) .reservedMod
    let (f, a) ← rawA w
    need (a.extractLsb' 2 6 == 0) .nonZeroField
    .ok (.xget f (a.extractLsb' 0 2))
  | 0x03 => do
    let f ← vPlain w 3
    match f.c with
    | .imm n => do
      need (n.extractLsb' 4 4 == 0 && !f.wc) .nonZeroField
      .ok (.lea { f with c := .v 0 } (n.extractLsb' 0 4))
    | _ => .error .reservedClass
  | _ => .error .reservedMinor

/-- A word of major 0x0C. -/
def decFArith (w : W64) : Dec Instr :=
  match minorOf w with
  | 0x00 => vRound w 0 .fadd
  | 0x01 => vRound w 0 .fsub
  | 0x02 => vRound w 0 .fmul
  | 0x03 => vRound w 0 .ffma
  | 0x04 => do let f ← vPlain w 0; .ok (.fmin f)
  | 0x05 => do let f ← vPlain w 0; .ok (.fmax f)
  | _ => .error .reservedMinor

/-- A word of major 0x0D. -/
def decFCmp (w : W64) : Dec Instr :=
  let n := minorOf w
  if n ≤ 7 then do let f ← vPlain w 0; .ok (.fcmp f (fcondOf n))
  else if n = 8 then do let f ← vPlain w 0; .ok (.fclass f)
  else .error .reservedMinor

/-- A word of major 0x0E. -/
def decFSpecial (w : W64) : Dec Instr :=
  match minorOf w with
  | 0x00 => do let f ← vPlain w 0; .ok (.frcp f)
  | 0x01 => do let f ← vPlain w 0; .ok (.frsq f)
  | 0x02 => vRound w 0 .fsqrt
  | 0x03 => vRound w 0 .fdiv
  | 0x04 => do let f ← vPlain w 0; .ok (.fexp2 f)
  | 0x05 => do let f ← vPlain w 0; .ok (.flog2 f)
  | 0x06 => do let f ← vPlain w 0; .ok (.ftanh f)
  | _ => .error .reservedMinor

/-- A packed format: type 001 (`.f16`) or 010 (`.bf16`). -/
def packedOf : Nat → Dec Bool
  | 1 => .ok false | 2 => .ok true
  | _ => .error .reservedType

/-- A word of major 0x0F. -/
def decPacked (w : W64) : Dec Instr := do
  let bf ← packedOf (tyOf w)
  let f ← vfOf w
  let m := rmOf (modOf w)
  match minorOf w with
  | 0x00 => .ok (.pfadd f bf m)
  | 0x01 => .ok (.pfmul f bf m)
  | 0x02 => .ok (.pfma f bf m)
  | 0x03 => do need (modOf w == 0) .reservedMod; .ok (.pfmin f bf)
  | 0x04 => do need (modOf w == 0) .reservedMod; .ok (.pfmax f bf)
  | _ => .error .reservedMinor

/-- A word of major 0x10. -/
def decDouble (w : W64) : Dec Instr :=
  let n := minorOf w
  if n = 0 then vRound w 3 .dadd
  else if n = 1 then vRound w 3 .dmul
  else if n = 2 then vRound w 3 .dfma
  else if n = 3 then do let f ← vPlain w 3; .ok (.dmin f)
  else if n = 4 then do let f ← vPlain w 3; .ok (.dmax f)
  else if 0x10 ≤ n ∧ n ≤ 0x17 then do let f ← vPlain w 3; .ok (.dcmp f (fcondOf (n - 0x10)))
  else .error .reservedMinor

/-- A word of major 0x11: full types in field C (R27). -/
def decConv (w : W64) : Dec Instr := do
  need (tyOf w == 0) .reservedType
  let (f, c) ← rawC w
  let lo := fullOf (c.extractLsb' 0 4).toNat
  match minorOf w with
  | 0x00 => .ok (.cvt f lo (fullOf (c.extractLsb' 4 4).toNat) (rmOf (modOf w)))
  | 0x01 => do
    need (c.extractLsb' 4 4 == 0) .nonZeroField
    need (modOf w == 0) .reservedMod
    .ok (.pack f lo)
  | 0x02 => do
    need (c.extractLsb' 4 4 == 0) .nonZeroField
    need (modOf w == 0) .reservedMod
    match f.b with
    | .imm n => do
      need (n.extractLsb' 1 7 == 0 && !f.wb) .nonZeroField
      .ok (.unpk { f with b := .v 0 } lo (n.getLsbD 0))
    | _ => .error .reservedClass
  | _ => .error .reservedMinor

/-- A word of major 0x12. -/
def decScale (w : W64) : Dec Instr :=
  match minorOf w with
  | 0x00 => vRound w 0 .scac
  | 0x01 => do let t ← qtyOf (tyOf w); let f ← vfOf w; .ok (.qnt f t (rmOf (modOf w)))
  | 0x02 => do let t ← qtyOf (tyOf w); need (modOf w == 0) .reservedMod; let f ← vfOf w; .ok (.dqnt f t)
  | _ => .error .reservedMinor

/-- A word of majors 0x18 and 0x19 (R32, R103). -/
def decBranch (w : W64) (callMajor : Bool) : Dec Instr := do
  need (fldOf w 32 == 0) .nonZeroField
  match callMajor, minorOf w with
  | false, 0x00 => do need (fldOf w 40 == 0) .nonZeroField; .ok (.bra (guardOf w) (immOf w))
  | false, 0x01 => do need (immOf w == 0) .nonZeroField; .ok (.brx (guardOf w) (fldOf w 40))
  | true, 0x00 => .ok (.call (guardOf w) (fldOf w 40) (immOf w))
  | true, 0x01 => do need (immOf w == 0) .nonZeroField; .ok (.ret (guardOf w) (fldOf w 40))
  | _, _ => .error .reservedMinor

/-- A word of major 0x1A (R106, R107). -/
def decWait (w : W64) : Dec Instr :=
  match minorOf w with
  | 0x00 => do need (w.extractLsb' 0 48 == 0) .nonZeroField; .ok (.exit (guardOf w))
  | 0x01 => do need (w.extractLsb' 0 48 == 0) .nonZeroField; .ok (.yield (guardOf w))
  | 0x02 => do
    need (tyOf w == 0) .reservedType
    need (modOf w == 0) .reservedMod
    let (f, d) ← rawD w
    need (d.extractLsb' 2 6 == 0) .nonZeroField
    .ok (.waitf f (d.extractLsb' 0 2))
  | _ => .error .reservedMinor

/-- A word of major 0x1B (R116). -/
def decPoison (w : W64) : Dec Instr :=
  match minorOf w with
  | 0x00 => do let f ← vPlain w 0; .ok (.tstp f)
  | 0x01 => do let f ← vPlain w 0; .ok (.clrp f)
  | 0x02 => do need (w.extractLsb' 0 48 == 0) .nonZeroField; .ok (.prply (guardOf w))
  | _ => .error .reservedMinor

/-- A word of major 0x1C (R141, R143). -/
def decSpan (w : W64) : Dec Instr :=
  match minorOf w with
  | 0x00 => do need (w.extractLsb' 0 48 == 0) .nonZeroField; .ok (.sjoin (guardOf w))
  | 0x01 => do need (w.extractLsb' 0 48 == 0) .nonZeroField; .ok (.matz (guardOf w))
  | 0x02 => do need (w.extractLsb' 0 48 == 0) .nonZeroField; .ok (.regrp (guardOf w))
  | 0x03 => do let f ← vPlain w 0; .ok (.kdep f)
  | 0x04 => do let f ← vPlain w 0; .ok (.spanq f)
  | _ => .error .reservedMinor

/-- A word of majors 0x20 to 0x24 (R31). -/
def decMem (w : W64) (major : Nat) : Dec Instr := do
  let n := minorOf w
  match major with
  | 0x20 => do
    let f ← mfOf w
    match n with | 0 => .ok (.ld f) | 1 => .ok (.lds f) | _ => .error .reservedMinor
  | 0x21 => do
    let f ← mfOf w
    match n with | 0 => .ok (.st f) | 1 => .ok (.sts f) | _ => .error .reservedMinor
  | 0x22 => do
    need (decide (n < 32)) .reservedMinor
    let op ← aopOf (n % 16)
    need (decide (n < 16) || (op != .exch && op != .cas)) .reservedMinor
    let f ← mfOf w
    .ok (if n < 16 then .atom f op else .red f op)
  | 0x23 => do
    let op ← aopOf n
    let f ← mfOf w
    .ok (.atoms f op)
  | _ =>
    match n with
    | 0 => do
      need (w.extractLsb' 20 28 == 0 && w.extractLsb' 0 15 == 0) .nonZeroField
      .ok (.fence (guardOf w) (ordOf (w.extractLsb' 18 2).toNat) (scopeOf (w.extractLsb' 15 3).toNat))
    | 1 => do let f ← mfOf w; .ok (.cflush f)
    | 2 => do let f ← mfOf w; .ok (.cinv f)
    | 3 => do let f ← mfOf w; .ok (.pref f)
    | _ => .error .reservedMinor

/-- A word of major 0x25 (R172, R173). -/
def decCopy (w : W64) : Dec Instr :=
  let f := efOf w
  match minorOf w with
  | 0 => do
    need (w.extractLsb' 5 11 == 0) .reservedControl
    .ok (.cpy f (w.getLsbD 0) (w.getLsbD 1) (w.extractLsb' 2 3))
  | 1 => do
    need (w.extractLsb' 5 11 == 0) .reservedControl
    .ok (.cpyw f (w.getLsbD 0) (w.getLsbD 1) (w.extractLsb' 2 3))
  | 2 => do need (ctlOf w == 0) .reservedControl; .ok (.cprpl f)
  | _ => .error .reservedMinor

/-- A word of major 0x26 (R174 to R177). -/
def decBuf (w : W64) : Dec Instr :=
  let f := efOf w
  match minorOf w with
  | 0 => do need (ctlOf w == 0) .reservedControl; .ok (.bufa f)
  | 1 => do need (ctlOf w == 0) .reservedControl; .ok (.bufw f)
  | 2 => do need (w.extractLsb' 1 15 == 0) .reservedControl; .ok (.bufq f (w.getLsbD 0))
  | 3 => do
    need (w.extractLsb' 2 14 == 0) .reservedControl
    if w.getLsbD 0 then .ok (.buffRearm f (w.getLsbD 1))
    else do need (!w.getLsbD 1) .reservedControl; .ok (.buff f)
  | _ => .error .reservedMinor

/-- A barrier number in the control field (R182): IMM in bit 15, `k` number bits, the rest 0. -/
def barNoOf (w : W64) (k : Nat) : Dec (Option (BitVec k)) := do
  need (w.extractLsb' k (15 - k) == 0) .reservedControl
  if w.getLsbD 15 then .ok (some (w.extractLsb' 0 k))
  else do need (w.extractLsb' 0 k == 0) .reservedControl; .ok none

/-- A word of major 0x28 (R182, R252). -/
def decBar (w : W64) : Dec Instr := do
  let f := efOf w
  match minorOf w with
  | 0 => do let n ← barNoOf w 10; .ok (.barInit f n)
  | 1 => do let n ← barNoOf w 10; .ok (.barArv f n)
  | 2 => do let n ← barNoOf w 10; .ok (.barWait f n)
  | 3 => do let n ← barNoOf w 10; .ok (.barSync f n)
  | 4 => do let n ← barNoOf w 4; .ok (.cbar f n)
  | _ => .error .reservedMinor

/-- A word of major 0x29 (R187 to R190). -/
def decExch (w : W64) : Dec Instr :=
  match minorOf w with
  | 0 => do let f ← vPlain w 1; .ok (.shfl f .pick)
  | 1 => do let f ← vPlain w 1; .ok (.shfl f .rot)
  | 2 => do let f ← vPlain w 1; .ok (.shfl f .mir)
  | 3 => do let f ← vPlain w 1; .ok (.shfl f .bcast)
  | 4 => do let _ ← vPlain w 1; let (f, a) ← rawA w; let p ← predOf a; .ok (.vote f .mask p)
  | 5 => do let _ ← vPlain w 1; let (f, a) ← rawA w; let p ← predOf a; .ok (.vote f .cnt p)
  | 6 => do let _ ← vPlain w 1; let (f, a) ← rawA w; let p ← predOf a; .ok (.vote f .rank p)
  | 7 => do let f ← vPlain w 1; .ok (.elect f)
  | 8 => vZ w .matchg
  | _ => .error .reservedMinor

/-- The operation of a reduction (R36): minor bits 3:0, with the type and mod fields it takes. -/
def redOpOf (w : W64) (n : Nat) : Dec RedOp :=
  if n ≤ 5 then do
    need (modOf w == 0) .reservedMod
    let t ← ityOf (tyOf w)
    .ok (match n with | 0 => .add t | 1 => .min t | 2 => .max t | 3 => .and t | 4 => .or t | _ => .xor t)
  else if n ≤ 8 then do
    need (tyOf w == 0) .reservedType
    need (n == 6 || modOf w == 0) .reservedMod
    .ok (match n with | 6 => .fadd (rmOf (modOf w)) | 7 => .fmin | _ => .fmax)
  else .error .reservedMinor

/-- A word of major 0x2A (R191). -/
def decRed (w : W64) : Dec Instr := do
  let n := minorOf w
  need (decide (n < 32)) .reservedMinor
  let op ← redOpOf w (n % 16)
  let f ← vfOf w
  .ok (if n < 16 then .redg f op else .scang f op)

/-- A word of major 0x2C (R195 to R199, R211). -/
def decTile (w : W64) : Dec Instr :=
  let f := efOf w
  match minorOf w with
  | 0 =>
    if w.getLsbD 15 then do
      need (w.extractLsb' 6 9 == 0) .reservedControl
      .ok (.tclm f (some (w.extractLsb' 0 6)))
    else do need (ctlOf w == 0) .reservedControl; .ok (.tclm f none)
  | 1 =>
    if w.getLsbD 15 then do
      need (w.extractLsb' 11 4 == 0) .reservedControl
      .ok (.trel f (some (w.extractLsb' 0 5, w.extractLsb' 5 6)))
    else do need (ctlOf w == 0) .reservedControl; .ok (.trel f none)
  | 2 => do
    need (!w.getLsbD 0 && w.extractLsb' 5 11 == 0) .reservedControl
    .ok (.tld f (w.getLsbD 1) (w.extractLsb' 2 3))
  | 3 => do need (w.extractLsb' 3 13 == 0) .reservedControl; .ok (.tmov f (w.extractLsb' 0 3))
  | 4 => do need (w.extractLsb' 0 48 == 0) .nonZeroField; .ok (.oprf (guardOf w))
  | 5 => do need (w.extractLsb' 2 14 == 0) .reservedControl; .ok (.cbld f (w.extractLsb' 0 2))
  | _ => .error .reservedMinor

/-- Matrix kinds (R205). -/
def mkindOf : Nat → Dec MKind
  | 0 => .ok .f32 | 1 => .ok .bf16 | 2 => .ok .f16 | 3 => .ok .fp8 | 4 => .ok .int8 | 5 => .ok .c4
  | _ => .error .reservedControl

/-- A word of major 0x2D (R206, R247). -/
def decMma (w : W64) : Dec Instr := do
  need (w.extractLsb' 12 3 == 0 && w.extractLsb' 3 4 == 0) .reservedControl
  let k ← mkindOf (w.extractLsb' 7 3).toNat
  let c : MmaC := ⟨w.getLsbD 15, w.getLsbD 11, w.getLsbD 10, k, w.extractLsb' 0 3⟩
  match minorOf w with
  | 0 => .ok (.mma (efOf w) c)
  | 1 => .ok (.mmac (efOf w) c)
  | _ => .error .reservedMinor

/-- Drain forms (R214). -/
def dkindOf : Nat → Dec DKind
  | 0 => .ok .b32 | 1 => .ok .bf16 | 2 => .ok .f16 | 4 => .ok .s32 | 5 => .ok .s16 | 6 => .ok .z16 | 7 => .ok .s8
  | 8 => .ok .z8
  | _ => .error .reservedControl
/-- The control field of a drain (R214). -/
def drOf (w : W64) : Dec DrC := do
  need (!w.getLsbD 15) .reservedControl
  let k ← dkindOf (w.extractLsb' 8 4).toNat
  .ok ⟨w.extractLsb' 12 3, k, w.extractLsb' 5 3, w.extractLsb' 3 2, w.extractLsb' 0 3⟩
/-- Tile types of AALC (R202). -/
def tileTyOf : Nat → Dec TileTy
  | 0 => .ok .f32 | 1 => .ok .s32 | 2 => .ok .part
  | _ => .error .reservedControl

/-- A word whose only field is a tile number in bits 2:0. -/
def tileOnly (w : W64) (k : Guard → BitVec 3 → Instr) : Dec Instr := do
  need (w.extractLsb' 3 45 == 0) .nonZeroField
  .ok (k (guardOf w) (w.extractLsb' 0 3))

/-- A word of major 0x2E (R202 to R218). -/
def decAcc (w : W64) : Dec Instr :=
  let f := efOf w
  match minorOf w with
  | 0 => do
    need (w.extractLsb' 13 3 == 0) .reservedControl
    let t ← tileTyOf (w.extractLsb' 11 2).toNat
    .ok (.aalc f (w.extractLsb' 0 3) (w.extractLsb' 3 2) (w.extractLsb' 5 6) t)
  | 1 => tileOnly w .afree
  | 2 => tileOnly w .azero
  | 3 => do let c ← drOf w; .ok (.adrn f c)
  | 4 => do let c ← drOf w; .ok (.adrs f c)
  | 5 => do
    need (w.extractLsb' 6 10 == 0) .reservedControl
    .ok (.ascac f (w.extractLsb' 0 3) (w.extractLsb' 3 3))
  | 6 => tileOnly w .await
  | _ => .error .reservedMinor

/-- A word with a zero control field. -/
def ctl0 (w : W64) (i : Instr) : Dec Instr := do
  need (ctlOf w == 0) .reservedControl
  .ok i

/-- A word of major 0x30 (R276 to R279). -/
def decSetLife (w : W64) : Dec Instr :=
  let f := efOf w
  match minorOf w with
  | 0 => ctl0 w (.snew f)
  | 1 => ctl0 w (.sfree f)
  | 2 => do
    need (!w.getLsbD 0 && w.extractLsb' 5 11 == 0) .reservedControl
    .ok (.sbld f (w.getLsbD 1) (w.extractLsb' 2 3))
  | 3 => do
    need (!w.getLsbD 1 && w.extractLsb' 5 11 == 0) .reservedControl
    .ok (.senum f (w.getLsbD 0) (w.extractLsb' 2 3))
  | _ => .error .reservedMinor

/-- SCOST operations (R282). -/
def costOf : Nat → Dec CostOp
  | 0 => .ok .sins | 1 => .ok .sdel | 2 => .ok .shas | 3 => .ok .scard | 4 => .ok .senum | 5 => .ok .suni
  | 6 => .ok .sint | 7 => .ok .sdif | 8 => .ok .sintc
  | _ => .error .reservedControl

/-- A word of major 0x31 (R280 to R282). -/
def decSetKey (w : W64) : Dec Instr :=
  let f := efOf w
  match minorOf w with
  | 0 => ctl0 w (.sins f)
  | 1 => ctl0 w (.sdel f)
  | 2 => ctl0 w (.shas f)
  | 3 => ctl0 w (.scard f)
  | 4 => ctl0 w (.srep f)
  | 5 => do
    need (w.extractLsb' 4 12 == 0) .reservedControl
    let op ← costOf (w.extractLsb' 0 4).toNat
    .ok (.scost f op)
  | _ => .error .reservedMinor

/-- A word of major 0x32 (R283, R284). -/
def decSetAlg (w : W64) : Dec Instr :=
  let f := efOf w
  match minorOf w with
  | 0 => ctl0 w (.suni f)
  | 1 => ctl0 w (.sint f)
  | 2 => ctl0 w (.sdif f)
  | 3 => ctl0 w (.sintc f)
  | 4 => do need (w.extractLsb' 0 48 == 0) .nonZeroField; .ok (.swait (guardOf w))
  | _ => .error .reservedMinor

/-- Key types (R285). -/
def ktyOf : Nat → Dec KTy
  | 0 => .ok .z32 | 1 => .ok .s32 | 2 => .ok .f32
  | _ => .error .reservedControl

/-- A word of major 0x33 (R285). -/
def decOrder (w : W64) : Dec Instr := do
  let f := efOf w
  need (w.extractLsb' 5 11 == 0) .reservedControl
  let t ← ktyOf (w.extractLsb' 0 2).toNat
  let c : OrdC := ⟨w.getLsbD 4, w.getLsbD 3, w.getLsbD 2, t⟩
  match minorOf w with
  | 0 => .ok (.sortk f c)
  | 1 => .ok (.topk f c)
  | 2 => .ok (.selb f c)
  | 3 => .ok (.srch f c)
  | 4 => .ok (.mrgk f c)
  | _ => .error .reservedMinor

/-- Queue levels of POST (R357). -/
def lvlOf : Nat → Dec PostLvl
  | 0 => .ok .own | 1 => .ok .to | 2 => .ok .clu | 3 => .ok .die | 4 => .ok .dev
  | _ => .error .reservedControl

/-- A word of major 0x34 (R356 to R361). -/
def decSched (w : W64) : Dec Instr :=
  let f := efOf w
  match minorOf w with
  | 0 => do need (w.extractLsb' 2 14 == 0) .reservedControl; .ok (.card f (w.getLsbD 0) (w.getLsbD 1))
  | 1 => do
    need (w.extractLsb' 3 13 == 0) .reservedControl
    let l ← lvlOf (w.extractLsb' 0 3).toNat
    .ok (.post f l)
  | 2 => ctl0 w (.cntw f)
  | 3 => do need (w.extractLsb' 1 15 == 0) .reservedControl; .ok (.cntq f (w.getLsbD 0))
  | 4 => ctl0 w (.cancel f)
  | 5 => do need (w.extractLsb' 0 48 == 0) .nonZeroField; .ok (.lbar (guardOf w))
  | 6 => do need (w.extractLsb' 0 48 == 0) .nonZeroField; .ok (.phbnd (guardOf w))
  | _ => .error .reservedMinor

/-- A word of major 0x35 (R331 to R335). -/
def decVersion (w : W64) : Dec Instr :=
  let f := efOf w
  match minorOf w with
  | 0 => ctl0 w (.snap f)
  | 1 => ctl0 w (.snapq f)
  | 2 => do
    need (w.extractLsb' 2 14 == 0) .reservedControl
    match (w.extractLsb' 0 2).toNat with
    | 0 => .ok (.gviewMap f)
    | 1 => .ok (.gviewUnmap f)
    | 2 => .ok (.gviewFree f)
    | _ => .error .reservedControl
  | 3 => ctl0 w (.attrset f)
  | _ => .error .reservedMinor

/-- A word of major 0x36 (R384, R388). -/
def decFabric (w : W64) : Dec Instr :=
  let f := efOf w
  match minorOf w with
  | 0 => do
    need (w.extractLsb' 5 11 == 0) .reservedControl
    .ok (.rgth f (w.getLsbD 0) (w.getLsbD 1) (w.extractLsb' 2 3))
  | 1 => do
    need (w.extractLsb' 6 10 == 0) .reservedControl
    .ok (.rsct f (w.getLsbD 0) (w.getLsbD 1) (w.extractLsb' 2 3) (w.getLsbD 5))
  | 2 => do
    need (!w.getLsbD 1 && w.extractLsb' 5 11 == 0) .reservedControl
    .ok (.rget f (w.getLsbD 0) (w.extractLsb' 2 3))
  | 3 => do
    need (!w.getLsbD 0 && w.extractLsb' 5 11 == 0) .reservedControl
    .ok (.rput f (w.getLsbD 1) (w.extractLsb' 2 3))
  | 4 => ctl0 w (.route f)
  | _ => .error .reservedMinor

/-- A word of major 0x3F with its second word (R34). -/
def decLong (w w2 : W64) : Dec Instr := do
  need (immOf w == 0) .nonZeroField
  match minorOf w with
  | 0x00 => do need (fldOf w 32 == 0) .nonZeroField; .ok (.movi64 (guardOf w) false (fldOf w 40) w2)
  | 0x20 => do need (fldOf w 32 == 0) .nonZeroField; .ok (.movi64 (guardOf w) true (fldOf w 40) w2)
  | 0x01 => .ok (.addi64 (guardOf w) false (fldOf w 40) (fldOf w 32) w2)
  | 0x21 => .ok (.addi64 (guardOf w) true (fldOf w 40) (fldOf w 32) w2)
  | _ => .error .reservedMinor

/-- The instruction a word encodes; `w2` is the word that follows it, used by format L (R22, R36). -/
def decode (w w2 : W64) : Dec Instr :=
  match majorOf w with
  | 0x00 => decSys w
  | 0x01 => match minorOf w with
    | 0 => vInt w .add | 1 => vInt w .sub | 2 => vInt w .sadd | 3 => vInt w .ssub | _ => .error .reservedMinor
  | 0x02 => decMul w
  | 0x03 => match minorOf w with
    | 0 => vInt w .divq | 1 => vInt w .rem | _ => .error .reservedMinor
  | 0x04 => match minorOf w with
    | 0 => vZ w .and | 1 => vZ w .or | 2 => vZ w .xor | 3 => vZ w .andn | _ => .error .reservedMinor
  | 0x05 => match minorOf w with
    | 0 => vZ w .shl | 1 => vZ w .shr | 2 => vZ w .sha | 3 => vZ w .rol | _ => .error .reservedMinor
  | 0x06 => decBits w
  | 0x07 => match minorOf w with
    | 0 => vInt w .min | 1 => vInt w .max | 2 => vS w .abs | 3 => vS w .neg | _ => .error .reservedMinor
  | 0x08 => decCmp w
  | 0x09 => decMove w
  | 0x0A => decImm w
  | 0x0B => decIndex w
  | 0x0C => decFArith w
  | 0x0D => decFCmp w
  | 0x0E => decFSpecial w
  | 0x0F => decPacked w
  | 0x10 => decDouble w
  | 0x11 => decConv w
  | 0x12 => decScale w
  | 0x18 => decBranch w false
  | 0x19 => decBranch w true
  | 0x1A => decWait w
  | 0x1B => decPoison w
  | 0x1C => decSpan w
  | 0x20 => decMem w 0x20
  | 0x21 => decMem w 0x21
  | 0x22 => decMem w 0x22
  | 0x23 => decMem w 0x23
  | 0x24 => decMem w 0x24
  | 0x25 => decCopy w
  | 0x26 => decBuf w
  | 0x28 => decBar w
  | 0x29 => decExch w
  | 0x2A => decRed w
  | 0x2C => decTile w
  | 0x2D => decMma w
  | 0x2E => decAcc w
  | 0x30 => decSetLife w
  | 0x31 => decSetKey w
  | 0x32 => decSetAlg w
  | 0x33 => decOrder w
  | 0x34 => decSched w
  | 0x35 => decVersion w
  | 0x36 => decFabric w
  | 0x3F => decLong w w2
  | _ => .error .reservedMajor

/-- Bytes of a word's instruction (R22, R39): 16 for major 0x3F, else 8. -/
def wordLen (w : W64) : Nat := if majorOf w = 0x3F then 16 else 8

/-- The instruction of bits `x` read as one or two 64-bit words, the first in the low half. -/
def decodeTableWord (_nbits x : Nat) : Option Instr :=
  match decode (BitVec.ofNat 64 x) (BitVec.ofNat 64 (x / 2 ^ 64)) with
  | .ok i => some i
  | .error _ => none

/-- A position-dependent word (R23). -/
def posDependent (w : W64) : Bool :=
  majorOf w == 0x29 || majorOf w == 0x2A || (majorOf w == 0x2D && (minorOf w == 0 || minorOf w == 1))

/-! ## The encoder -/

/-- One bit. -/
def b1 (b : Bool) : BitVec 1 := BitVec.ofBool b
/-- Guard bits 51:48. -/
def encG (g : Guard) : BitVec 4 := g.p ++ b1 g.neg
/-- Class code and field of a source (R25). -/
def Src.cls : Src → BitVec 2
  | .v _ => 0 | .g _ => 1 | .x _ _ => 2 | .imm _ => 3
def Src.fld : Src → Fld
  | .v n => n | .g n => n.setWidth 8 | .x k d => k ++ d | .imm n => n
/-- Class code and field of a destination (R25). -/
def Dst.cls : Dst → BitVec 2
  | .v _ => 0 | .g _ => 1 | .x _ _ => 2 | .p _ => 3
def Dst.fld : Dst → Fld
  | .v n => n | .g n => n.setWidth 8 | .x k d => k ++ d | .p n => n.setWidth 8

/-- A format-V word (R24). -/
def encV (maj min : BitVec 6) (f : VF) (ty : BitVec 3) (md : BitVec 2) : W64 :=
  maj ++ min ++ encG f.g ++ f.d.fld ++ f.a.fld ++ f.b.fld ++ f.c.fld ++ f.a.cls ++ f.b.cls ++ f.c.cls ++ f.d.cls ++
    b1 f.wa ++ b1 f.wb ++ b1 f.wc ++ ty ++ md
/-- A format-I word (R29). -/
def encI (min : BitVec 5) (f : IF) : W64 :=
  (0x0A : BitVec 6) ++ b1 f.u ++ min ++ encG f.g ++ f.d ++ f.a ++ f.imm
/-- A word of one guard and a 48-bit rest. -/
def encW (maj min : BitVec 6) (g : Guard) (rest : BitVec 48) : W64 := maj ++ min ++ encG g ++ rest
/-- A format-E word (R33). -/
def encE (maj min : BitVec 6) (f : EF) (ctl : BitVec 16) : W64 :=
  maj ++ min ++ encG f.g ++ f.r ++ f.o1 ++ f.o2 ++ f.o3 ++ ctl
/-- A format-B word (R32). -/
def encB (maj min : BitVec 6) (g : Guard) (reg : Fld) (off : W32) : W64 :=
  maj ++ min ++ encG g ++ reg ++ (0 : Fld) ++ off

/-- Codes of the enumerations, as the decoder reads them. -/
def ITy.code : ITy → BitVec 3
  | .s32 => 0 | .z32 => 1 | .s64 => 2 | .z64 => 3
def zcode (wide : Bool) : BitVec 3 := if wide then 3 else 1
def scode (wide : Bool) : BitVec 3 := if wide then 2 else 0
def RMode.code : RMode → BitVec 2
  | .rne => 0 | .rtz => 1 | .rdn => 2 | .rup => 3
def FullTy.code : FullTy → BitVec 4
  | .s8 => 0 | .s16 => 1 | .s32 => 2 | .s64 => 3 | .z8 => 4 | .z16 => 5 | .z32 => 6 | .z64 => 7
  | .f16 => 8 | .bf16 => 9 | .f32 => 10 | .f64 => 11 | .e4m3 => 12 | .e5m2 => 13 | .e2m1 => 14 | .c4 => 15
def QTy.code : QTy → BitVec 3
  | .e4m3 => 4 | .e5m2 => 5 | .e2m1 => 6 | .c4 => 7
def Cond.code : Cond → BitVec 6
  | .eq => 0 | .ne => 1 | .lt => 2 | .le => 3 | .gt => 4 | .ge => 5
def CondI.code : CondI → BitVec 5
  | .eq => 0x08 | .ne => 0x09 | .ltS => 0x0A | .leS => 0x0B | .gtS => 0x0C | .geS => 0x0D | .ltZ => 0x0E | .leZ => 0x0F
  | .gtZ => 0x10 | .geZ => 0x11
def FCond.code : FCond → BitVec 6
  | .eq => 0 | .ne => 1 | .lt => 2 | .le => 3 | .gt => 4 | .ge => 5 | .ord => 6 | .uno => 7
def Special.code : Special → Fld
  | .item => 0 | .grp => 1 | .team => 2 | .launch => 3 | .pos => 4 | .quad => 5 | .core => 6 | .clu => 7 | .die => 8
  | .dev => 9 | .phase => 10 | .gen => 11 | .clock => 12 | .leader => 13 | .fstat => 14
def ShflMode.code : ShflMode → BitVec 6
  | .pick => 0 | .rot => 1 | .mir => 2 | .bcast => 3
def VoteMode.code : VoteMode → BitVec 6
  | .mask => 4 | .cnt => 5 | .rank => 6
def RedOp.code : RedOp → BitVec 6
  | .add _ => 0 | .min _ => 1 | .max _ => 2 | .and _ => 3 | .or _ => 4 | .xor _ => 5 | .fadd _ => 6 | .fmin => 7
  | .fmax => 8
def RedOp.ty : RedOp → BitVec 3
  | .add t | .min t | .max t | .and t | .or t | .xor t => t.code
  | .fadd _ | .fmin | .fmax => 0
def RedOp.rm : RedOp → BitVec 2
  | .fadd m => m.code
  | _ => 0
def Width.code : Width → BitVec 3
  | .b8 => 0 | .b16 => 1 | .b32 => 2 | .b64 => 3 | .b128 => 4
def MOrd.code : MOrd → BitVec 2
  | .plain => 0 | .acq => 1 | .rel => 2 | .ar => 3
def Scope.code : Scope → BitVec 3
  | .item => 0 | .grp => 1 | .team => 2 | .core => 3 | .clu => 4 | .die => 5 | .pkg => 6 | .sys => 7
def AOp.code : AOp → BitVec 6
  | .add => 0 | .and => 1 | .or => 2 | .xor => 3 | .min => 4 | .max => 5 | .exch => 6 | .cas => 7 | .fadd => 8
  | .fmin => 9 | .fmax => 10
def MKind.code : MKind → BitVec 3
  | .f32 => 0 | .bf16 => 1 | .f16 => 2 | .fp8 => 3 | .int8 => 4 | .c4 => 5
def DKind.code : DKind → BitVec 4
  | .b32 => 0 | .bf16 => 1 | .f16 => 2 | .s32 => 4 | .s16 => 5 | .z16 => 6 | .s8 => 7 | .z8 => 8
def TileTy.code : TileTy → BitVec 2
  | .f32 => 0 | .s32 => 1 | .part => 2
def KTy.code : KTy → BitVec 2
  | .z32 => 0 | .s32 => 1 | .f32 => 2
def CostOp.code : CostOp → BitVec 4
  | .sins => 0 | .sdel => 1 | .shas => 2 | .scard => 3 | .senum => 4 | .suni => 5 | .sint => 6 | .sdif => 7 | .sintc => 8
def PostLvl.code : PostLvl → BitVec 3
  | .own => 0 | .to => 1 | .clu => 2 | .die => 3 | .dev => 4

/-- A format-M word (R30). -/
def encM (maj min : BitVec 6) (f : MF) : W64 :=
  maj ++ min ++ encG f.g ++ f.data.fld ++ f.addr.fld ++ f.off ++ f.ord.code ++ f.scope.code ++ f.ev ++ f.addr.cls ++
    f.data.cls ++ b1 f.wa ++ b1 f.wd ++ f.width.code ++ (0 : BitVec 2) ++ b1 f.var
/-- Copy control (R172). -/
def encCopy (d s : Bool) (ev : BitVec 3) : BitVec 16 := (0 : BitVec 11) ++ ev ++ b1 s ++ b1 d
/-- Barrier number control (R182). -/
def encBarNo (n : Option (BitVec 10)) : BitVec 16 :=
  match n with | some k => (1 : BitVec 1) ++ (0 : BitVec 5) ++ k | none => 0
def encMmaC (c : MmaC) : BitVec 16 :=
  b1 c.sat ++ (0 : BitVec 3) ++ b1 c.vb ++ b1 c.va ++ c.kind.code ++ (0 : BitVec 4) ++ c.tile
def encDrC (c : DrC) : BitVec 16 := (0 : BitVec 1) ++ c.plane ++ c.kind.code ++ c.count ++ c.band ++ c.tile
def encOrdC (c : OrdC) : BitVec 16 := (0 : BitVec 11) ++ b1 c.thr ++ b1 c.rev ++ b1 c.nanlow ++ c.ty.code

/-- The words of an instruction: one, or two for format L; none for a step that is no word. -/
def encode : Instr → List W64
  | .nop g => [encW 0 1 g 0]
  | .svc g i => [encW 0 2 g ((0 : BitVec 16) ++ i)]
  | .eret g => [encW 0 3 g 0]
  | .srd g d r => [encW 0 4 g (d ++ (0 : BitVec 24) ++ r)]
  | .swr g a r => [encW 0 5 g ((0 : Fld) ++ a ++ (0 : BitVec 16) ++ r)]
  | .dbgm f n ring => [encE 0 6 f ((0 : BitVec 12) ++ b1 ring ++ n)]
  | .bkpt g i => [encW 0 7 g ((0 : BitVec 16) ++ i)]
  | .trap g i => [encW 0 8 g ((0 : BitVec 16) ++ i)]
  | .ifence g => [encW 0 9 g 0]
  | .add f t => [encV 1 0 f t.code 0]
  | .sub f t => [encV 1 1 f t.code 0]
  | .sadd f t => [encV 1 2 f t.code 0]
  | .ssub f t => [encV 1 3 f t.code 0]
  | .mul f t => [encV 2 0 f t.code 0]
  | .mulh f t => [encV 2 1 f t.code 0]
  | .mad f t => [encV 2 2 f t.code 0]
  | .mulw f s => [encV 2 3 f (if s then 0 else 1) 0]
  | .dot4 f sa sb sat => [encV 2 4 f (b1 sa ++ b1 sb ++ (0 : BitVec 1)) (if sat then 1 else 0)]
  | .divq f t => [encV 3 0 f t.code 0]
  | .rem f t => [encV 3 1 f t.code 0]
  | .and f w => [encV 4 0 f (zcode w) 0]
  | .or f w => [encV 4 1 f (zcode w) 0]
  | .xor f w => [encV 4 2 f (zcode w) 0]
  | .andn f w => [encV 4 3 f (zcode w) 0]
  | .shl f w => [encV 5 0 f (zcode w) 0]
  | .shr f w => [encV 5 1 f (zcode w) 0]
  | .sha f w => [encV 5 2 f (zcode w) 0]
  | .rol f w => [encV 5 3 f (zcode w) 0]
  | .popc f w => [encV 6 0 f (zcode w) 0]
  | .clz f w => [encV 6 1 f (zcode w) 0]
  | .ctz f w => [encV 6 2 f (zcode w) 0]
  | .brev f w => [encV 6 3 f (zcode w) 0]
  | .bext f w => [encV 6 4 f (zcode w) 0]
  | .bins f w => [encV 6 5 f (zcode w) 0]
  | .permb f => [encV 6 6 f 1 0]
  | .min f t => [encV 7 0 f t.code 0]
  | .max f t => [encV 7 1 f t.code 0]
  | .abs f w => [encV 7 2 f (scode w) 0]
  | .neg f w => [encV 7 3 f (scode w) 0]
  | .cmp f c t => [encV 8 c.code f t.code 0]
  | .pand g d a b =>
    [encV 8 0x10 ⟨g, .p d, .v (a.setWidth 8), .v (b.setWidth 8), .v 0, false, false, false⟩ 0 0]
  | .por g d a b =>
    [encV 8 0x11 ⟨g, .p d, .v (a.setWidth 8), .v (b.setWidth 8), .v 0, false, false, false⟩ 0 0]
  | .pxor g d a b =>
    [encV 8 0x12 ⟨g, .p d, .v (a.setWidth 8), .v (b.setWidth 8), .v 0, false, false, false⟩ 0 0]
  | .pnot g d a => [encV 8 0x13 ⟨g, .p d, .v (a.setWidth 8), .v 0, .v 0, false, false, false⟩ 0 0]
  | .sel f w p => [encV 9 0 { f with c := .v (p.setWidth 8) } (zcode w) 0]
  | .mov f w => [encV 9 1 f (zcode w) 0]
  | .movg f => [encV 9 2 f 1 0]
  | .movs f s => [encV 9 3 { f with a := .v s.code } 0 0]
  | .addi f => [encI 0 f]
  | .andi f => [encI 1 f]
  | .ori f => [encI 2 f]
  | .xori f => [encI 3 f]
  | .shli f => [encI 4 f]
  | .shri f => [encI 5 f]
  | .movi f => [encI 6 f]
  | .cmpi f c => [encI c.code f]
  | .xset f k => [encV 0x0B 0 { f with d := .v (k.setWidth 8) } 0 0]
  | .xadd f k => [encV 0x0B 1 { f with d := .v (k.setWidth 8) } 0 0]
  | .xget f k => [encV 0x0B 2 { f with a := .v (k.setWidth 8) } 0 0]
  | .lea f sh => [encV 0x0B 3 { f with c := .imm (sh.setWidth 8) } 3 0]
  | .fadd f m => [encV 0x0C 0 f 0 m.code]
  | .fsub f m => [encV 0x0C 1 f 0 m.code]
  | .fmul f m => [encV 0x0C 2 f 0 m.code]
  | .ffma f m => [encV 0x0C 3 f 0 m.code]
  | .fmin f => [encV 0x0C 4 f 0 0]
  | .fmax f => [encV 0x0C 5 f 0 0]
  | .fcmp f c => [encV 0x0D c.code f 0 0]
  | .fclass f => [encV 0x0D 8 f 0 0]
  | .frcp f => [encV 0x0E 0 f 0 0]
  | .frsq f => [encV 0x0E 1 f 0 0]
  | .fsqrt f m => [encV 0x0E 2 f 0 m.code]
  | .fdiv f m => [encV 0x0E 3 f 0 m.code]
  | .fexp2 f => [encV 0x0E 4 f 0 0]
  | .flog2 f => [encV 0x0E 5 f 0 0]
  | .ftanh f => [encV 0x0E 6 f 0 0]
  | .pfadd f b m => [encV 0x0F 0 f (if b then 2 else 1) m.code]
  | .pfmul f b m => [encV 0x0F 1 f (if b then 2 else 1) m.code]
  | .pfma f b m => [encV 0x0F 2 f (if b then 2 else 1) m.code]
  | .pfmin f b => [encV 0x0F 3 f (if b then 2 else 1) 0]
  | .pfmax f b => [encV 0x0F 4 f (if b then 2 else 1) 0]
  | .dadd f m => [encV 0x10 0 f 3 m.code]
  | .dmul f m => [encV 0x10 1 f 3 m.code]
  | .dfma f m => [encV 0x10 2 f 3 m.code]
  | .dmin f => [encV 0x10 3 f 3 0]
  | .dmax f => [encV 0x10 4 f 3 0]
  | .dcmp f c => [encV 0x10 (0x10 + c.code) f 3 0]
  | .cvt f dt st m => [encV 0x11 0 { f with c := .v (st.code ++ dt.code) } 0 m.code]
  | .pack f t => [encV 0x11 1 { f with c := .v (t.code.setWidth 8) } 0 0]
  | .unpk f t h => [encV 0x11 2 { f with c := .v (t.code.setWidth 8), b := .imm ((b1 h).setWidth 8) } 0 0]
  | .scac f m => [encV 0x12 0 f 0 m.code]
  | .qnt f t m => [encV 0x12 1 f t.code m.code]
  | .dqnt f t => [encV 0x12 2 f t.code 0]
  | .bra g o => [encB 0x18 0 g 0 o]
  | .brx g t => [encB 0x18 1 g t 0]
  | .call g l o => [encB 0x19 0 g l o]
  | .ret g t => [encB 0x19 1 g t 0]
  | .exit g => [encW 0x1A 0 g 0]
  | .yield g => [encW 0x1A 1 g 0]
  | .waitf f n => [encV 0x1A 2 { f with d := .v (n.setWidth 8) } 0 0]
  | .tstp f => [encV 0x1B 0 f 0 0]
  | .clrp f => [encV 0x1B 1 f 0 0]
  | .prply g => [encW 0x1B 2 g 0]
  | .sjoin g => [encW 0x1C 0 g 0]
  | .matz g => [encW 0x1C 1 g 0]
  | .regrp g => [encW 0x1C 2 g 0]
  | .kdep f => [encV 0x1C 3 f 0 0]
  | .spanq f => [encV 0x1C 4 f 0 0]
  | .ld f => [encM 0x20 0 f]
  | .lds f => [encM 0x20 1 f]
  | .st f => [encM 0x21 0 f]
  | .sts f => [encM 0x21 1 f]
  | .atom f op => [encM 0x22 op.code f]
  | .red f op => [encM 0x22 (0x10 + op.code) f]
  | .atoms f op => [encM 0x23 op.code f]
  | .fence g o s => [encW 0x24 0 g ((0 : BitVec 28) ++ o.code ++ s.code ++ (0 : BitVec 15))]
  | .cflush f => [encM 0x24 1 f]
  | .cinv f => [encM 0x24 2 f]
  | .pref f => [encM 0x24 3 f]
  | .cpy f d s ev => [encE 0x25 0 f (encCopy d s ev)]
  | .cpyw f d s ev => [encE 0x25 1 f (encCopy d s ev)]
  | .cprpl f => [encE 0x25 2 f 0]
  | .bufa f => [encE 0x26 0 f 0]
  | .bufw f => [encE 0x26 1 f 0]
  | .bufq f t => [encE 0x26 2 f ((b1 t).setWidth 16)]
  | .buff f => [encE 0x26 3 f 0]
  | .buffRearm f t => [encE 0x26 3 f ((0 : BitVec 14) ++ b1 t ++ (1 : BitVec 1))]
  | .barInit f n => [encE 0x28 0 f (encBarNo n)]
  | .barArv f n => [encE 0x28 1 f (encBarNo n)]
  | .barWait f n => [encE 0x28 2 f (encBarNo n)]
  | .barSync f n => [encE 0x28 3 f (encBarNo n)]
  | .cbar f n => [encE 0x28 4 f (encBarNo (n.map (·.setWidth 10)))]
  | .shfl f m => [encV 0x29 m.code f 1 0]
  | .vote f m p => [encV 0x29 m.code { f with a := .v (p.setWidth 8) } 1 0]
  | .elect f => [encV 0x29 7 f 1 0]
  | .matchg f w => [encV 0x29 8 f (zcode w) 0]
  | .redg f op => [encV 0x2A op.code f op.ty op.rm]
  | .scang f op => [encV 0x2A (0x10 + op.code) f op.ty op.rm]
  | .tclm f n => [encE 0x2C 0 f (match n with | some c => (1 : BitVec 1) ++ (0 : BitVec 9) ++ c | none => 0)]
  | .trel f n => [encE 0x2C 1 f
      (match n with | some (s, c) => (1 : BitVec 1) ++ (0 : BitVec 4) ++ c ++ s | none => 0)]
  | .tld f s ev => [encE 0x2C 2 f (encCopy false s ev)]
  | .tmov f n => [encE 0x2C 3 f (n.setWidth 16)]
  | .oprf g => [encW 0x2C 4 g 0]
  | .cbld f k => [encE 0x2C 5 f (k.setWidth 16)]
  | .mma f c => [encE 0x2D 0 f (encMmaC c)]
  | .mmac f c => [encE 0x2D 1 f (encMmaC c)]
  | .aalc f k r c t => [encE 0x2E 0 f ((0 : BitVec 3) ++ t.code ++ c ++ r ++ k)]
  | .afree g k => [encW 0x2E 1 g (k.setWidth 48)]
  | .azero g k => [encW 0x2E 2 g (k.setWidth 48)]
  | .adrn f c => [encE 0x2E 3 f (encDrC c)]
  | .adrs f c => [encE 0x2E 4 f (encDrC c)]
  | .ascac f c p => [encE 0x2E 5 f ((0 : BitVec 10) ++ p ++ c)]
  | .await g k => [encW 0x2E 6 g (k.setWidth 48)]
  | .snew f => [encE 0x30 0 f 0]
  | .sfree f => [encE 0x30 1 f 0]
  | .sbld f s ev => [encE 0x30 2 f (encCopy false s ev)]
  | .senum f d ev => [encE 0x30 3 f (encCopy d false ev)]
  | .sins f => [encE 0x31 0 f 0]
  | .sdel f => [encE 0x31 1 f 0]
  | .shas f => [encE 0x31 2 f 0]
  | .scard f => [encE 0x31 3 f 0]
  | .srep f => [encE 0x31 4 f 0]
  | .scost f op => [encE 0x31 5 f (op.code.setWidth 16)]
  | .suni f => [encE 0x32 0 f 0]
  | .sint f => [encE 0x32 1 f 0]
  | .sdif f => [encE 0x32 2 f 0]
  | .sintc f => [encE 0x32 3 f 0]
  | .swait g => [encW 0x32 4 g 0]
  | .sortk f c => [encE 0x33 0 f (encOrdC c)]
  | .topk f c => [encE 0x33 1 f (encOrdC c)]
  | .selb f c => [encE 0x33 2 f (encOrdC c)]
  | .srch f c => [encE 0x33 3 f (encOrdC c)]
  | .mrgk f c => [encE 0x33 4 f (encOrdC c)]
  | .card f a b => [encE 0x34 0 f ((0 : BitVec 14) ++ b1 b ++ b1 a)]
  | .post f l => [encE 0x34 1 f (l.code.setWidth 16)]
  | .cntw f => [encE 0x34 2 f 0]
  | .cntq f s => [encE 0x34 3 f ((b1 s).setWidth 16)]
  | .cancel f => [encE 0x34 4 f 0]
  | .lbar g => [encW 0x34 5 g 0]
  | .phbnd g => [encW 0x34 6 g 0]
  | .snap f => [encE 0x35 0 f 0]
  | .snapq f => [encE 0x35 1 f 0]
  | .gviewMap f => [encE 0x35 2 f 0]
  | .gviewUnmap f => [encE 0x35 2 f 1]
  | .gviewFree f => [encE 0x35 2 f 2]
  | .attrset f => [encE 0x35 3 f 0]
  | .rgth f d i ev => [encE 0x36 0 f (encCopy d i ev)]
  | .rsct f d i ev t => [encE 0x36 1 f ((0 : BitVec 10) ++ b1 t ++ ev ++ b1 i ++ b1 d)]
  | .rget f d ev => [encE 0x36 2 f (encCopy d false ev)]
  | .rput f s ev => [encE 0x36 3 f (encCopy false s ev)]
  | .route f => [encE 0x36 4 f 0]
  | .movi64 g u d i => [encW 0x3F (if u then 0x20 else 0) g (d ++ (0 : BitVec 40)), i]
  | .addi64 g u d a i => [encW 0x3F (if u then 0x21 else 1) g (d ++ a ++ (0 : W32)), i]
  | .itemEnd _ | .illegalWordIssue _ | .fetchFault | .pendingTrapTaken | .brk | .groupHalt => []
  | .loadCompletion _ | .atomicCompletion _ | .lineOpCompletion _ | .brambleWindowExpiry _ _ | .copyChunkArrival _
  | .tldLineWrite _ | .mmaCompletion _ | .mmacCompletion _ | .azeroCompletion _ | .ascacCompletion _
  | .adrnCompletion _ | .adrsCompletion _ | .setCommandAcceptance _ | .setCommandCompletion _
  | .setEngineChange _ _ _ _ | .conversionStart _ _ _ | .conversionSwitch _ _ _ => []
  | .teamDispatch _ _ _ _ | .cardAgeEscalation _ | .issueAgeEscalation _ _ | .bundleReform _ _
  | .materialisationResume _ _ | .teamRelease _ | .preemptTeam _ | .resumeTeam _ _ _ | .sliceEnd _ _
  | .launchCompletion _ | .phaseBoundaryCompletion _ | .snapCompletion _ | .attrsetCompletion _
  | .generationDrainBlock _ _ _ | .pageMigration _ _ _ _ | .pageEviction _ _ | .pageRecall _ _ _ _ _ => []
  | .homeGets _ | .homeGetm _ | .homeFarAtomic _ | .homeWriteback _ | .forward _ _ | .invalidation _ _
  | .invalidationAck _ _ | .dataResponse _ _ | .transactionComplete _ _ | .remoteAccessRequest _ _ _ _ _
  | .remoteResponse _ _ | .rgthRowArrival _ _ | .rsctCompletion _ | .rgetArrival _ | .rputCompletion _
  | .routeWindowEnd _ _ | .replicaCopyComplete _ _ | .flitCrcFail _ | .linkFail _ _ | .correctedError _
  | .uncorrectableError _ _ => []
  | .dcmdHaltGroup _ | .dcmdHaltTeam _ | .dcmdResumeGroup _ | .dcmdResumeTeam _ | .dcmdStep _ | .dcmdNoOp _
  | .dack _ | .registerWrite _ _ | .deviceStart _ | .readyReport | .startTimeout | .reload _ _ | .power _
  | .doorbell _ _ | .submit _ | .create _ | .map _ | .unmap _ | .copyin _ | .copyout _ | .setw _ | .count _
  | .destroy _ | .unknownJobCommand _ | .jobCommandFinish | .coolantLimit _ | .generationDrainStart _ _ _
  | .replicaRemoved _ _ _ | .writebackAck _ _ | .hostLinkNegotiation _ _ _ | .coolantBelowLimit _ => []

/-- The words of an instruction as one number, the first word low (the numbering of spec/opcode_table.json). -/
def encodeNat (i : Instr) : Nat :=
  match encode i with
  | [w] => w.toNat
  | [w, w2] => w.toNat + 2 ^ 64 * w2.toNat
  | _ => 0

end Sys2Proof
end

