-- ==== Sys2Proof/Machine/Memory.lean ====
section
/-! DEFINITION. The memory instructions of majors 0x20 to 0x24 (R154 to R164): loads, stores, atomics, fences and line
operations. A load's or atomic's value is bound when it issues and delivered when it completes (log entry 13). -/

namespace Sys2Proof.Machine

/-! ## Gates -/

/-- The items that an instruction of item `ik` stands for: the item, or the whole range of the span under way (R126). -/
def State.standsFor (s : State) (ik : Nat) : Nat × Nat :=
  match s.cur.span.bind (AMap.find s.spans) with
  | some e => (e.lo, e.hi)
  | none => (indexOf ik, indexOf ik + 1)
/-- Whether an operation was issued by item `ik`, or by one it stands for. -/
def State.covers (s : State) (ik : Nat) (o : Op) : Bool :=
  let r := s.standsFor ik
  o.launch == launchOf ik && decide (o.lo < r.2) && decide (r.1 < o.hi)
/-- Whether an acquire of the item has not come back (R160). -/
def State.acqPending (s : State) (ik : Nat) : Bool :=
  s.ops.any (fun e => s.covers ik e.2 && match e.2.kind with
    | .load l | .atomic l => l.acq
    | _ => false)
/-- An acquire of the item that has not come back holds its later memory, engine and fence instructions. -/
def acqGate (s : State) (ik : Nat) : Ev Unit := orWait (!s.acqPending ik)
/-- Whether a CFLUSH or CINV of the item has not completed (R319). -/
def State.linePending (s : State) (ik : Nat) : Bool :=
  s.ops.any (fun e => s.covers ik e.2 && match e.2.kind with | .line _ _ => true | _ => false)
/-- Whether a CINV of the item for this line has not completed (R321). -/
def State.invPending (s : State) (ik line : Nat) : Bool :=
  s.ops.any (fun e => s.covers ik e.2 && match e.2.kind with | .line l i => i && l == line | _ => false)

/-- The item's team, and its scratchpad size (R154). -/
def State.teamScr (s : State) (ik : Nat) : Nat := ((AMap.find s.teams (s.teamOf ik)).map (·.scrSize)).getD 0
/-- `n` bytes of the team's scratchpad from offset `o`, and whether one is damaged. -/
def State.scrRead (s : State) (ik o n : Nat) : List (BitVec 8) × Bool :=
  match AMap.find s.teams (s.teamOf ik) with
  | some t => (t.scratch.readN o n, t.scratchErr.any (fun e => decide (o ≤ e) && decide (e < o + n)))
  | none => (List.replicate n 0, false)
/-- Bytes written to the team's scratchpad. -/
def State.scrWrite (s : State) (ik o : Nat) (bs : List (BitVec 8)) : State :=
  s.updTeam (s.teamOf ik) (fun t => { t with
    scratch := t.scratch.writeN o bs
    scratchErr := t.scratchErr.filter (fun e => !(decide (o ≤ e) && decide (e < o + bs.length))) })

/-! ## Addresses (R155, R156) -/

/-- The address register operand. -/
def readAddr (q : Nat) (it : Item) (g : Group) (f : MF) (team : Bool) : Ev (W64 × Option W32) :=
  readSrc q it g f.addr (if team then 1 else 2) f.wa
/-- The effective address. -/
def effAddr (f : MF) (team : Bool) (n : Nat) (a : W64) : W64 :=
  if team then (lo32 a + f.off.signExtend 32 * BitVec.ofNat 32 n).setWidth 64
  else a + f.off.signExtend 64 * BitVec.ofNat 64 n
/-- The alignment check. -/
def aligned (ea : W64) (n : Nat) : Ev Unit := orTrap (ea.toNat % n == 0) (addrTrap cMISALIGN 0 ea)
/-- The data field as a destination. -/
def dataDst : Src → Dst
  | .v n => .v n
  | .g n => .g n
  | .x k d => .x k d
  | .imm _ => .p 0
/-- Whether a data field names a uniform register that the bundle may not write or store (R160). -/
def notLeader (s : State) (ik : Nat) (d : Src) : Bool :=
  match d with
  | .g _ => !s.leads ik
  | _ => false

/-! ## Watchpoints (R234) -/

/-- An `IDX_RANGE` of the data field comes after the POISON checks `k` (R158). -/
def lateIdx {α : Type} (d : Ev α) (k : Ev Unit) : Ev α :=
  match d with
  | .error (.trap t) => if t.cause = cIDX then do k; d else d
  | _ => d

/-- The first watchpoint of the core that fires for an access of `n` bytes at `ea`. -/
def watchHit (k : Core) (launch ea n : Nat) (rd wr : Bool) : Option (Nat × Watch) :=
  ((List.range 4).filterMap (fun i =>
    let w := k.wps.getD i ⟨0, 0, 0⟩
    if bit w.c 0 && (k.dlaunch == 0xFFFFFFFF || k.dlaunch.toNat == launch) &&
        decide (ea < w.e.toNat) && decide (w.s.toNat < ea + n) && ((rd && bit w.c 1) || (wr && bit w.c 2)) then
      some (i, w)
    else none)).head?
/-- Items of the bundle under way whose scratchpad access is not performed because its address is POISON (R113). -/
def State.idleItems (s : State) (f : MF) : List Nat :=
  s.cur.items.filter (fun ik => match s.item? ik with
    | some it =>
      (match readSrc (s.quotaOf (launchOf ik)) it (s.groupD (groupOf ik)) f.addr 1 false with
      | .ok (_, p) => p.isSome
      | .error _ => false)
    | none => false)
/-- Stops the access where a watchpoint fires and the item's debug-skip flag is clear; `idle` are the items of the bundle
that perform none. -/
def checkWatch (s : State) (ik : Nat) (it : Item) (ea : W64) (n : Nat) (rd wr : Bool) (idle : List Nat) : Ev Unit :=
  if it.skip then .ok ()
  else
    match watchHit (s.core (s.coreOf ik)) (launchOf ik % 2 ^ 24) ea.toNat n rd wr with
    | some (i, w) => .error (.watch i (bit w.c 3) (i + if wr && bit w.c 2 then 16 else 0) ea idle)
    | none => .ok ()

/-! ## Translation of an item's access -/

/-- The trap of R157. -/
def memFault (reason : Nat) (ea : W64) : Trap := addrTrap cMEM reason ea

/-- The last-page register of the item's lane slot takes the translation (R146); a span has no lane slot. -/
def State.usedXlat (s : State) (ik : Nat) (x : Xlat) : State :=
  match AMap.find s.teams (s.teamOf ik) with
  | some t => match t.core with
    | some c => s.recordXlat c (s.laneSlot ik) (jobOf ik) x
    | none => s
  | none => s

/-- Asks device `dev` for an access of item `ik` and leaves the item at its word (R380). -/
def State.askDevice (s : State) (ik dev : Nat) (ea : W64) (op : RemoteOp) : State :=
  let id := s.fresh
  (s.toDevice dev (jobOf ik) ik ea op).setWait ik (.remote id none)
/-- The answer of another device to the item's access at this word: none while it has not been asked. -/
def remoteAns (it : Item) : Option (Option RemoteAns) :=
  match it.wait? with
  | some (.remote _ a) => some a
  | _ => none
/-- The trap a failing answer stands for. -/
def ansTrap (ea : W64) : RemoteAns → Option Trap
  | .fail r _ => some (memFault r ea)
  | .trap c => some (mkTrap c 0)
  | .data _ _ => none

/-- Whether the page of an address that cannot be accessed is a SEQ page, whose loads are acquires all the same (R306). -/
def State.seqPage (s : State) (j : Nat) (a : W64) : Bool :=
  match s.leaf j (vaOf a) with
  | some (_, e) => !bit e 63 && pteAttr e == aSEQ
  | none => false
/-- Whether a far atomic was issued by the item, or one it stands for, to the line. -/
def State.ownFar (s : State) (ik line : Nat) (r : FarReq) : Bool :=
  let w := s.standsFor ik
  launchOf r.item == launchOf ik && decide (w.1 ≤ indexOf r.item) && decide (indexOf r.item < w.2) && lineOf r.pa == line

/-- Whether the job's ending phase waits for its merge; PHASE accesses of the next phase wait with it (R361). -/
def State.merging (s : State) (j : Nat) : Bool :=
  match AMap.find s.jobs j with | some job => job.merge | none => false
def phaseGate (s : State) (j : Nat) (x : Xlat) : Ev Unit := orWait (!(x.attr == aPHASE && s.merging j))

/-! ## Loads (R160) -/

/-- The word that a poison record keeps: an indexed data field is replaced by its register (R226). -/
def loadWord (mk : MF → Instr) (f : MF) (r : RegRef) : W64 :=
  let f := match f.data, r with
    | .x _ _, .v n => { f with data := .v (BitVec.ofNat 8 n) }
    | _, _ => f
  (encode (mk f)).headD 0

/-- A load on its way: its destination goes EMPTY, and its value, or the reason it fails, arrives at completion, when the
line `want` has come. -/
def State.startLoad (s : State) (ik : Nat) (f : MF) (mk : MF → Instr) (r : RegRef) (ea : W64) (acq : Bool)
    (bytes : List (BitVec 8)) (fail want : Option Nat) : State :=
  let n := f.width.bytes
  let l : LoadOp :=
    { dst := ⟨r, f.width.regs⟩, bytes := n, sext := f.var, val := BitVec.ofNat 128 (leNat bytes), fail := fail,
      addr := ea, acq := acq, word := loadWord mk f r, args := [], want := want, pend := false }
  let pc := s.cur.pc
  let (_, s) := (s.setEmpty ik r f.width.regs).addOp
    ⟨s.coreOf ik, launchOf ik, indexOf ik, indexOf ik + 1, pc, .load l⟩
  s.advance ik 8

/-- LD after its address is known. -/
def loadGlobal (f : MF) (s : State) (ik : Nat) (it : Item) (r : RegRef) (ea : W64) : Ev State :=
  let n := f.width.bytes
  let j := jobOf ik
  let go := fun (t : State) (acq : Bool) (bs : List (BitVec 8)) (fail want : Option Nat) =>
    t.startLoad ik f .ld r ea acq bs fail want
  let enc := MOrd.acquires f.ord
  match s.translate j ea with
  | .stall => .error .wait
  | .fail why => .ok (go s (enc || s.seqPage j ea) [] (some why) none)
  | .remote d =>
    if s.cutOff d then .ok (go s enc [] (some 3) none)
    else
      match remoteAns it with
      | none => .ok ((s.flushItem ik).askDevice ik d ea (.load n))
      | some none => .error .wait
      | some (some (.data v seq)) => .ok (go (s.clearWait ik) (enc || seq) (leBytes v.toNat n) none none)
      | some (some (.fail why seq)) => .ok (go (s.clearWait ik) (enc || seq) [] (some why) none)
      | some (some (.trap c)) => .error (.trap (mkTrap c 0))
  | .ok x => do
    let c := s.coreOf ik
    let line := lineOf x.pa
    let acq := enc || (x.attr == aSEQ && !x.gv)
    if !x.rd then .ok (go s acq [] (some 2) none)
    else do
      orTrap (!s.aliased x) (mkTrap cALIAS 0)
      orTrap (!(x.attr == aPHASE && enc)) (mkTrap cORDER 0)
      orWait (!s.invPending ik line)
      phaseGate s j x
      let own := acq || f.ev == 0
      orWait (if own then (s.core c).roomOwn else (s.core c).roomFor line)
      let s := if acq then s.flushItem ik else s.settleFar (s.ownFar ik line)
      let (bs, bad) := s.readAt c j (some ik) x n
      let s := (s.noteRead c j x f.ev).usedXlat ik x
      let s := if own then s else s.joinSlot c line ik none
      let s := s.syncLoad ik acq (tokMem x.pa n)
      let tracked := !x.gv && (x.attr == aSEQ || x.attr == aREL)
      let want := if tracked && s.asking line (partyOf c line) false then some line else none
      .ok (go s acq bs (if bad then some 4 else none) want)

/-- LDS after its address is known. -/
def loadTeam (f : MF) (s : State) (ik : Nat) (it : Item) (r : RegRef) (ea : W64) : Ev State := do
  let n := f.width.bytes
  orTrap (decide (ea.toNat + n ≤ s.teamScr ik)) (memFault 5 ea)
  checkWatch s ik it ea n true false (s.idleItems f)
  let s := if MOrd.acquires f.ord then s.flushItem ik else s
  let (bs, bad) := s.scrRead ik ea.toNat n
  let s := s.syncLoad ik (MOrd.acquires f.ord) (tokScr (s.teamOf ik) ea.toNat n)
  .ok (s.startLoad ik f .lds r ea (MOrd.acquires f.ord) bs (if bad then some 4 else none) none)

/-- The body of LD and LDS. -/
def loadBody (f : MF) (team : Bool) (s0 s : State) (ik : Nat) : Ev State := do
  let (it, g) ← getItem s0 ik
  let q := s0.quotaOf (launchOf ik)
  let w := f.width.regs
  acqGate s ik
  orWait (!dstBusy q it g (s0.leads ik) (dataDst f.data) w)
  let (a, p) ← readAddr q it g f team
  if notLeader s ik f.data then .ok (s.advance ik 8)
  else do
    acquireGate s ik
    match ← dstRef q it (dataDst f.data) w with
    | none => .ok (s.advance ik 8)
    | some r =>
      match p with
      | some i => .ok ((s.destPoison ik r w i).advance ik 8)
      | none =>
        let n := f.width.bytes
        let ea := effAddr f team n a
        aligned ea n
        if team then loadTeam f s ik it r ea
        else loadGlobal f s ik it r ea
def execLd (f : MF) (s : State) : Host.Outcome State Fault Refusal := .next (issueRaw f.g 8 (loadBody f false) s)
def execLds (f : MF) (s : State) : Host.Outcome State Fault Refusal := .next (issueRaw f.g 8 (loadBody f true) s)

/-! ## Stores (R160) -/

/-- The data operand, `w` registers from the data field: their values and the record of a POISON one. A value of four
registers is kept as two pairs. -/
def readData (q : Nat) (it : Item) (g : Group) (f : MF) (w : Nat) : Ev (List W32 × Option W32) := do
  match ← srcRef q it f.data w with
  | some r =>
    let rs := regsAt it g r w
    if anyEmpty rs then (if f.wd then .error (.trap (mkTrap cEMPTY 0)) else .error .wait)
    else .ok (rs.map (·.val), firstPoison rs)
  | none => .ok ([], none)
/-- The low `n` bytes of a list of registers. -/
def regBytes (vs : List W32) (n : Nat) : List (BitVec 8) := ((vs.map (fun v => leBytes v.toNat 4)).flatten).take n

/-- ST after its operands are known. Of another device's page the attribute is not known here: the store waits for line
operations as a release would (R306, R319). -/
def storeGlobal (f : MF) (s : State) (ik : Nat) (it : Item) (ea : W64) (bs : List (BitVec 8)) : Ev State :=
  let n := f.width.bytes
  let j := jobOf ik
  let rel := MOrd.releases f.ord
  match s.translate j ea with
  | .stall => .error .wait
  | .fail why => .error (.trap (memFault why ea))
  | .remote d =>
    if s.cutOff d then .error (.trap (memFault 3 ea))
    else if s.linePending ik then .error .wait
    else
      match remoteAns it with
      | none => .ok ((s.flushItem ik).askDevice ik d ea (.store n (BitVec.ofNat 128 (leNat bs))))
      | some none => .error .wait
      | some (some a) =>
        match ansTrap ea a with
        | some t => .error (.trap t)
        | none => .ok ((s.clearWait ik).advance ik 8)
  | .ok x => do
    let c := s.coreOf ik
    let line := lineOf x.pa
    orTrap x.wr (memFault 2 ea)
    orTrap (!s.aliased x) (mkTrap cALIAS 0)
    orTrap (!(x.attr == aPHASE && rel)) (mkTrap cORDER 0)
    orWait (s.writeOk c j (vaOf ea) x.pa x.attr f.ev)
    phaseGate s j x
    let rel := rel || x.attr == aSEQ
    orWait (!(rel && s.linePending ik))
    let own := rel || f.ev == 0
    orWait (if own then (s.core c).roomOwn else (s.core c).roomFor line)
    let s := s.usedXlat ik x
    let s := if x.attr = aPHASE then (s.notePhase (s.teamOf ik) c).holdPhase c j x f.ev else s.preCow j (vaOf ea) x.pa x.attr
    let s := s.syncStore ik rel (tokMem x.pa n)
    let s := if own then (s.flushItem ik).writeAt c j (vaOf ea) x.pa x.attr f.ev bs
      else s.joinSlot c line ik (some ⟨ik, vaOf ea, x.pa, x.attr, bs, f.ev⟩)
    .ok (s.advance ik 8)

/-- The body of ST and STS. -/
def storeBody (f : MF) (team : Bool) (s0 s : State) (ik : Nat) : Ev State := do
  let (it, g) ← getItem s0 ik
  let q := s0.quotaOf (launchOf ik)
  acqGate s ik
  let (a, pa) ← readAddr q it g f team
  let (vs, pd) ← lateIdx (readData q it g f f.width.regs) (do noPoison s0 ik pa; acquireGate s ik)
  if notLeader s ik f.data then .ok (s.advance ik 8)
  else do
    noPoison s0 ik pa
    noPoison s0 ik pd
    acquireGate s ik
    let n := f.width.bytes
    let ea := effAddr f team n a
    let bs := regBytes vs n
    aligned ea n
    if team then do
      orTrap (decide (ea.toNat + n ≤ s.teamScr ik)) (memFault 5 ea)
      checkWatch s ik it ea n false true (s.idleItems f)
      orWait (!(MOrd.releases f.ord && s.linePending ik))
      let s := if MOrd.releases f.ord then s.flushItem ik else s
      let s := s.syncStore ik (MOrd.releases f.ord) (tokScr (s.teamOf ik) ea.toNat n)
      .ok ((s.scrWrite ik ea.toNat bs).advance ik 8)
    else storeGlobal f s ik it ea bs
def execSt (f : MF) (s : State) : Host.Outcome State Fault Refusal := .next (issueRaw f.g 8 (storeBody f false) s)
def execSts (f : MF) (s : State) : Host.Outcome State Fault Refusal := .next (issueRaw f.g 8 (storeBody f true) s)

/-! ## Atomics (R161, R162) -/

/-- Operand and expected value from the data registers of an atomic (R161). -/
def atomArgs (op : AOp) (w : Nat) (vs : List W32) : Nat × Nat :=
  let num := fun (l : List W32) => leNat ((l.map (fun v => leBytes v.toNat 4)).flatten)
  if op = .cas then (num (vs.drop w), num (vs.take w)) else (num vs, 0)

/-- The register an atomic returns its old value to; a RED has none. -/
def atomDst (f : MF) (red : Bool) : Option RegRef :=
  if red then none else match f.data with | .v n => some (RegRef.v n.toNat) | _ => none
/-- An atomic's old value on its way to its register, or its poison (R162); `pend` while its home has yet to execute it. -/
def State.startAtomic (s : State) (ik : Nat) (f : MF) (mk : MF → Instr) (red : Bool) (ea : W64) (acq : Bool) (old : Nat)
    (fail : Option Nat) (args : List W64) (pend : Bool) : State :=
  match atomDst f red with
  | none => s.advance ik 8
  | some r =>
    let l : LoadOp :=
      { dst := ⟨r, f.width.regs⟩, bytes := f.width.bytes, sext := false, val := BitVec.ofNat 128 old, fail := fail,
        addr := ea, acq := acq, word := loadWord mk f r, args := args, want := none, pend := pend }
    let pc := s.cur.pc
    let (_, s) := (s.setEmpty ik r f.width.regs).addOp
      ⟨s.coreOf ik, launchOf ik, indexOf ik, indexOf ik + 1, pc, .atomic l⟩
    s.advance ik 8

/-- An atomic meets an uncorrectable error (R162): a RED tells the monitor, the others take POISON. -/
def State.atomError (s : State) (ik : Nat) (f : MF) (mk : MF → Instr) (red : Bool) (ea : W64) (acq : Bool)
    (args : List W64) : State :=
  if red then (s.addPending ik (redErr ea)).advance ik 8 else s.startAtomic ik f mk red ea acq 0 (some 4) args false
/-- An atomic performed in the L1 of core `c` (R303): its value, or the error it meets. -/
def State.atomNear (s : State) (c ik : Nat) (f : MF) (mk : MF → Instr) (op : AOp) (red : Bool) (x : Xlat) (ea : W64)
    (acq : Bool) (v e : Nat) : State :=
  let n := f.width.bytes
  let j := jobOf ik
  let args := [BitVec.ofNat 64 v, BitVec.ofNat 64 e]
  let s := if x.attr = aPRIV then s.noteRead c j x f.ev else s.nearAtomic c j x f.ev
  let (bs, bad) := s.readAt c j none x n
  if bad then s.atomError ik f mk red ea acq args
  else
    let old := leNat bs
    let new := leBytes (atomNew op n f.var old v e) n
    let s := if x.attr = aPRIV then s.writeAt c j (vaOf ea) x.pa x.attr f.ev new else s.writeHome j (vaOf ea) x.pa new
    s.startAtomic ik f mk red ea acq old none args false
/-- An atomic sent to its home (R303); a RED that is ordered before the item's later accesses has been executed first. -/
def State.atomFar (s : State) (c ik : Nat) (f : MF) (mk : MF → Instr) (op : AOp) (red : Bool) (x : Xlat) (ea : W64)
    (acq : Bool) (v e : Nat) : State :=
  let num := if (atomDst f red).isSome then some s.fresh else none
  let r : FarReq :=
    { core := c, item := ik, op := num, pa := x.pa, va := vaOf ea, bytes := f.width.bytes, aop := op, signed := f.var,
      v := v, e := e, ord := f.ord, addr := ea, prio := f.ev }
  let s := ((s.leaveLine c (lineOf x.pa)).startAtomic ik f mk red ea acq 0 none [BitVec.ofNat 64 v, BitVec.ofNat 64 e] true).send
    [.far (lineOf x.pa) r]
  if red && acq then s.settle (lineOf x.pa) else s

/-- The atomic's operation on global memory once its operands are known: `v` and `e` as in `atomNew`. -/
def atomGlobal (f : MF) (mk : MF → Instr) (op : AOp) (red : Bool) (s : State) (ik : Nat) (it : Item) (ea : W64)
    (v e : Nat) : Ev State :=
  let n := f.width.bytes
  let j := jobOf ik
  let enc := MOrd.acquires f.ord
  let args := [BitVec.ofNat 64 v, BitVec.ofNat 64 e]
  match s.translate j ea with
  | .stall => .error .wait
  | .fail why =>
    if why = 4 then .ok (s.atomError ik f mk red ea (enc || s.seqPage j ea) args) else .error (.trap (memFault why ea))
  | .remote d =>
    if s.cutOff d then .error (.trap (memFault 3 ea))
    else if s.linePending ik then .error .wait
    else
      match remoteAns it with
      | none => .ok ((s.flushItem ik).askDevice ik d ea (.atom op n f.var (BitVec.ofNat 64 v) (BitVec.ofNat 64 e)))
      | some none => .error .wait
      | some (some (.data old seq)) =>
        .ok ((s.clearWait ik).startAtomic ik f mk red ea (enc || seq) (old.toNat % 2 ^ (8 * n)) none args false)
      | some (some (.fail why seq)) =>
        if why = 4 then .ok ((s.clearWait ik).atomError ik f mk red ea (enc || seq) args)
        else .error (.trap (memFault why ea))
      | some (some (.trap c)) => .error (.trap (mkTrap c 0))
  | .ok x => do
    let c := s.coreOf ik
    orTrap x.wr (memFault 2 ea)
    orTrap (!s.aliased x) (mkTrap cALIAS 0)
    orTrap (x.attr != aPHASE) (mkTrap cATOMIC 0)
    orWait (!s.invPending ik (lineOf x.pa))
    orWait (s.writeOk c j (vaOf ea) x.pa x.attr f.ev)
    let acq := enc || x.attr == aSEQ
    let rel := MOrd.releases f.ord || x.attr == aSEQ
    orWait (!(rel && s.linePending ik))
    orWait (s.core c).roomOwn
    let s := ((s.preCow j (vaOf ea) x.pa x.attr).flushItem ik).usedXlat ik x
    let s := (s.syncLoad ik acq (tokMem x.pa n)).syncStore ik rel (tokMem x.pa n)
    .ok (if x.attr = aPRIV ∨ s.goesNear c (lineOf x.pa) red then s.atomNear c ik f mk op red x ea acq v e
      else s.atomFar c ik f mk op red x ea acq v e)

/-- The atomic's operation on the team's scratchpad. -/
def atomTeam (f : MF) (op : AOp) (s : State) (ik : Nat) (it : Item) (ea : W64) (v e : Nat) : Ev State := do
  let n := f.width.bytes
  orTrap (decide (ea.toNat + n ≤ s.teamScr ik)) (memFault 5 ea)
  checkWatch s ik it ea n true true (s.idleItems f)
  orWait (!(MOrd.releases f.ord && s.linePending ik))
  let s := s.flushItem ik
  let at_ := tokScr (s.teamOf ik) ea.toNat n
  let s := (s.syncLoad ik (MOrd.acquires f.ord) at_).syncStore ik (MOrd.releases f.ord) at_
  let args := [BitVec.ofNat 64 v, BitVec.ofNat 64 e]
  let mk := fun f => Instr.atoms f op
  let (bs, bad) := s.scrRead ik ea.toNat n
  if bad then .ok (s.startAtomic ik f mk false ea (MOrd.acquires f.ord) 0 (some 4) args false)
  else
    let old := leNat bs
    let s := s.scrWrite ik ea.toNat (leBytes (atomNew op n f.var old v e) n)
    .ok (s.startAtomic ik f mk false ea (MOrd.acquires f.ord) old none args false)

/-- The body of ATOM, RED and ATOMS. -/
def atomBody (f : MF) (mk : MF → Instr) (op : AOp) (team red : Bool) (s0 s : State) (ik : Nat) : Ev State := do
  let (it, g) ← getItem s0 ik
  let q := s0.quotaOf (launchOf ik)
  acqGate s ik
  orWait (red || !dstBusy q it g (s0.leads ik) (dataDst f.data) f.width.regs)
  let (a, pa) ← readAddr q it g f team
  let (vs, pd) ← readData q it g f (atomRegs op f.width)
  noPoison s0 ik pa
  noPoison s0 ik pd
  acquireGate s ik
  let n := f.width.bytes
  let ea := effAddr f team n a
  aligned ea n
  let (v, e) := atomArgs op f.width.regs vs
  if team then atomTeam f op s ik it ea v e else atomGlobal f mk op red s ik it ea v e
def execAtom (f : MF) (op : AOp) (s : State) : Host.Outcome State Fault Refusal :=
  .next (issueRaw f.g 8 (atomBody f (fun f => .atom f op) op false false) s)
def execRed (f : MF) (op : AOp) (s : State) : Host.Outcome State Fault Refusal :=
  .next (issueRaw f.g 8 (atomBody f (fun f => .red f op) op false true) s)
def execAtoms (f : MF) (op : AOp) (s : State) : Host.Outcome State Fault Refusal :=
  .next (issueRaw f.g 8 (atomBody f (fun f => .atoms f op) op true false) s)

/-! ## Fences and line operations (R163, R164) -/

/-- FENCE. -/
def execFence (g : Guard) (ord : MOrd) (_scope : Scope) (s : State) : Host.Outcome State Fault Refusal :=
  .next (issue g 8 (fun s0 t ik => do
    let _ ← getItem s0 ik
    acqGate t ik
    acquireGate t ik
    orWait (!(MOrd.releases ord && t.linePending ik))
    let t := if MOrd.acquires ord then t.sync [tokSeen ik] [ik] else t
    .ok ((if MOrd.releases ord then t.sync [ik] [tokFence ik] else t).flushItem ik)) s)

/-- The body of CFLUSH and CINV: the operation completes later. On another device's page its owner checks it (R380), and no
line of it is cached here. -/
def lineBody (f : MF) (inval : Bool) (s0 s : State) (ik : Nat) : Ev State := do
  let (it, g) ← getItem s0 ik
  acqGate s ik
  let (a, p) ← readAddr (s0.quotaOf (launchOf ik)) it g f false
  noPoison s0 ik p
  acquireGate s ik
  let ea := effAddr f false 1 a
  match s.translate (jobOf ik) ea with
  | .stall => .error .wait
  | .fail why => .error (.trap (memFault why ea))
  | .remote d =>
    if s.cutOff d then .error (.trap (memFault 3 ea))
    else
      match remoteAns it with
      | none => .ok ((s.flushItem ik).askDevice ik d ea (.line inval))
      | some none => .error .wait
      | some (some a) =>
        match ansTrap ea a with
        | some t => .error (.trap t)
        | none => .ok ((s.clearWait ik).advance ik 8)
  | .ok x => do
    if x.gv then .ok (s.advance ik 8)
    else do
      orTrap (x.rd || x.wr) (memFault 2 ea)
      orTrap (!s.aliased x) (mkTrap cALIAS 0)
      orWait (s.core (s.coreOf ik)).roomOwn
      let s := (s.flushItem ik).usedXlat ik x
      let (_, s) := s.addOp ⟨s.coreOf ik, launchOf ik, indexOf ik, indexOf ik + 1, s0.cur.pc, .line (lineOf x.pa) inval⟩
      .ok (s.advance ik 8)
def execCflush (f : MF) (s : State) : Host.Outcome State Fault Refusal := .next (issueRaw f.g 8 (lineBody f false) s)
def execCinv (f : MF) (s : State) : Host.Outcome State Fault Refusal := .next (issueRaw f.g 8 (lineBody f true) s)
/-- PREF: a prefetch that cannot be performed is dropped. -/
def execPref (f : MF) (s : State) : Host.Outcome State Fault Refusal :=
  .next (issue f.g 8 (fun s0 t ik => do
    let (it, g) ← getItem s0 ik
    acqGate t ik
    let (a, p) ← readAddr (s0.quotaOf (launchOf ik)) it g f false
    noPoison s0 ik p
    acquireGate t ik
    orWait (t.core (t.coreOf ik)).roomOwn
    let ea := effAddr f false 1 a
    match t.translate (jobOf ik) ea with
    | .ok x =>
      if x.rd && !t.aliased x then .ok ((t.noteRead (t.coreOf ik) (jobOf ik) x f.ev).usedXlat ik x) else .ok t
    | _ => .ok t) s)

/-- A CFLUSH or CINV completes at its line (R164): dirty PRIV bytes go to the home, and CINV drops the copy. -/
def State.lineDone (s : State) (c line : Nat) (inval : Bool) : State :=
  match (s.core c).l1Line line with
  | none => s
  | some x =>
    if x.code = aPHASE then s
    else
      let s := if x.code = aPRIV then s.cleanPriv x
        else if Moesi.owns x.st && inval then s.evict c x else s
      if inval then s.updCore c (·.l1Drop line)
      else s.updCore c (·.l1Set { x with dirty := [] })
/-- Whether the line's dirty PRIV bytes can be written home now (R327). -/
def State.lineReady (s : State) (c line : Nat) : Bool :=
  match (s.core c).l1Line line with
  | some x => if x.code = aPRIV then x.dirty.isEmpty || s.cowOk x.job x.va else true
  | none => true
def execLineOpCompletion (op : Nat) (s : State) : Host.Outcome State Fault Refusal :=
  .next (match AMap.find s.ops op with
    | some o =>
      match o.kind with
      | .line l i =>
        if s.lineReady o.core l then { (s.lineDone o.core l i) with ops := AMap.del s.ops op, moved := true } else s
      | _ => s
    | none => s)

end Sys2Proof.Machine
end

