-- ==== Sys2Proof/Machine/Matrix.lean ====
section
/-! DEFINITION. The operand store, the accumulator bank and the matrix engine (R193 to R220): majors 0x2C and 0x2E, and
what an accepted product does. -/

namespace Sys2Proof.Machine

/-! ## Lookups -/

def State.team? (s : State) (ik : Nat) : Option Team := AMap.find s.teams (s.teamOf ik)
/-- The item's team, or the item waits where there is none. -/
def getTeam (s : State) (ik : Nat) : Ev Team :=
  match s.team? ik with
  | some t => .ok t
  | none => .error .wait
/-- The team of an operation. -/
def State.opTeam (s : State) (o : Op) : Nat := s.teamOf (itemKey o.launch o.lo)
/-- Tile `k` of a team. -/
def Team.tile (t : Team) (k : Nat) : Option Tile := AMap.find t.tiles k
/-- Whether slot `n` is claimed (R193). -/
def Team.claims (t : Team) (n : Nat) : Bool := bit t.claimed n
/-- The trap of R193 for the first unclaimed slot of a list. -/
def claimed (t : Team) (l : List Nat) : Ev Unit :=
  match l.find? (fun n => !t.claims n) with
  | some n => .error (.trap (mkTrap cSLOT n))
  | none => .ok ()
/-- An MTX_STATE check. -/
def mtx (c : Bool) (reason : Nat) : Ev Unit := orTrap c (mkTrap cMTX reason)
/-- A set of slots as bits from `n` on. -/
def slotBits (n c : Nat) : W32 := BitVec.ofNat 32 ((2 ^ c - 1) * 2 ^ n)

/-! ## Slots in use by operations (R196) -/

/-- Whether an output form requantises and so reads a parameter slot (R214). -/
def parSlots (c : DrC) (p : Nat) : List Nat := if DKind.requant c.kind then [p] else []
/-- Slots a matrix operation reads. -/
def MtxOp.slots : MtxOp → List Nat
  | .mma c _ a b0 sc n _ => a :: (List.range n).map (b0 + ·) ++ (if c.kind = .c4 then [sc] else [])
  | .mmac c _ a sc _ _ => a :: (if c.kind = .c4 then [sc] else [])
  | .ascac _ _ _ sc => [sc]
  | .adrn c l _ _ => parSlots c l.par
  | .adrs c ls => (ls.map (fun l => parSlots c l.par)).flatten
  | .azero _ _ => []
/-- Tiles a matrix operation works on. -/
def MtxOp.tiles : MtxOp → List Nat
  | .mma c _ _ _ _ _ _ => [c.tile.toNat]
  | .mmac c _ _ _ _ _ => [c.tile.toNat]
  | .azero k _ => [k]
  | .ascac c p _ _ => [c, p]
  | .adrn c _ _ _ => [c.tile.toNat]
  | .adrs c _ => [c.tile.toNat]
/-- Slots an operation reads or writes. -/
def OpKind.slots : OpKind → List Nat
  | .mtx m => m.slots
  | .copy c => match c.kind with | .tld n _ => [n] | _ => []
  | _ => []
/-- Outstanding operations on tile `k` of team `tk`, numbered below `n`. -/
def State.tileOps (s : State) (tk k n : Nat) : Bool :=
  s.ops.any (fun e => decide (e.1 < n) && s.opTeam e.2 == tk &&
    match e.2.kind with | .mtx m => m.tiles.contains k | _ => false)

/-! ## Writing slots (R195, R197, R199) -/

/-- Whether a write covers slot address `a`; its byte there. -/
def SlotWrite.covers (w : SlotWrite) (a : Nat) : Bool := decide (w.at_ ≤ a) && decide (a < w.at_ + w.len)
def SlotWrite.val (w : SlotWrite) (a : Nat) : BitVec 8 := w.bytes.getD (a - w.at_) 0
/-- Whether a write is in the set W of R199 for an operation numbered `n` of the items given: its OPRF, or the zeroing
itself, happens-before the operation's issue by one of them. -/
def SlotWrite.counts (w : SlotWrite) (items : List Nat) (n : Nat) : Bool :=
  (if w.zero then w.known else w.pubs).any (fun e => items.contains e.1 && decide (e.2 ≤ n))
/-- Whether two writes share a byte; whether `w` covers all of `u`. -/
def SlotWrite.meets (w u : SlotWrite) : Bool := decide (w.at_ < u.at_ + u.len) && decide (u.at_ < w.at_ + w.len)
def SlotWrite.holds (w u : SlotWrite) : Bool := decide (w.at_ ≤ u.at_) && decide (u.at_ + u.len ≤ w.at_ + w.len)
/-- Bytes written to a team's slots, known at once to `known`; `by_` are those whose point the write follows. -/
def State.putSlots (s : State) (tk at_ len : Nat) (bs : List (BitVec 8)) (zero : Bool) (by_ known : List Nat) : State :=
  let u := { s with fresh := s.fresh + 1 }
  u.updTeam tk (fun t => { t with
    storeErr := t.storeErr.filter (fun e => !(decide (at_ ≤ e) && decide (e < at_ + len)))
    unpublished := t.unpublished ++ [{
      serial := s.fresh, at_ := at_, len := len, bytes := bs, zero := zero, known := known.map (fun k => (k, s.fresh)),
      pubs := [], past := (t.unpublished.filter (fun w => w.known.any (fun e => by_.contains e.1))).map (·.serial) }] })
/-- Bytes written to a slot by TMOV or TLD: unpublished until an OPRF. -/
def State.slotWrite (s : State) (tk slot o : Nat) (bs : List (BitVec 8)) (by_ known : List Nat) : State :=
  s.putSlots tk (slot * 16384 + o) bs.length bs false by_ known
/-- Slots [n, n + c) claimed and zeroed by item `ik`; the zeroing needs no OPRF (R195). -/
def State.claimSlots (s : State) (tk ik n c : Nat) : State :=
  (s.putSlots tk (n * 16384) (c * 16384) [] true [ik] [ik]).updTeam tk (fun t => { t with claimed := t.claimed ||| slotBits n c })
/-- A write put into the store itself. -/
def Team.absorb (t : Team) (w : SlotWrite) : Team :=
  { t with
    store := if w.zero then t.store.filter (fun e => !w.covers e.1) else t.store.writeN w.at_ w.bytes
    unpublished := t.unpublished.filter (fun u =>
      u.serial != w.serial && !(decide (u.serial < w.serial) && w.holds u && w.past.contains u.serial)) }
/-- Whether every operation yet to read its bytes has the write in W, and the other listed writes of its bytes precede or
follow it in happens-before: it may then stand in the store. -/
def State.settled (s : State) (tk : Nat) (t : Team) (w : SlotWrite) : Bool :=
  let lo := itemKey t.launch t.base
  (AMap.range s.items lo (lo + t.size)).all (fun e => w.counts [e.1] s.fresh) &&
    (s.spansIn t.launch t.base (t.base + t.size)).isEmpty &&
    !s.ops.any (fun e => s.opTeam e.2 == tk && e.2.kind.slots.any (fun k => decide (w.at_ < (k + 1) * 16384) && decide (k * 16384 < w.at_ + w.len))) &&
    t.unpublished.all (fun u => u.serial == w.serial || !u.meets w ||
      (if u.serial < w.serial then w.holds u && w.past.contains u.serial else u.past.contains w.serial))
/-- The writes of a team that may stand in the store put into it. -/
def State.absorbN (s : State) (tk : Nat) : Nat → State
  | 0 => s
  | n + 1 =>
    match AMap.find s.teams tk with
    | none => s
    | some t =>
      match t.unpublished.find? (s.settled tk t) with
      | some w => State.absorbN (s.updTeam tk (·.absorb w)) tk n
      | none => s
def State.absorbSlots (s : State) (tk : Nat) : State :=
  s.absorbN tk (((AMap.find s.teams tk).map (fun t => t.unpublished.length)).getD 0)
/-- The lowest run of `c` unclaimed slots of the reservation, looked for from slot `n` on. -/
def Team.freeRun (t : Team) (c : Nat) : Nat → Nat → Option Nat
  | 0, _ => none
  | fuel + 1, n =>
    if t.slotBase + t.slotCount < n + c then none
    else if (t.claimed &&& slotBits n c) = 0 then some n
    else t.freeRun c fuel (n + 1)

/-- The gates every engine instruction passes first: an acquire still out holds it (R160), an unreplayed acquire poison
traps it (R114). -/
def engineGate (s : State) (ik : Nat) : Ev Unit := do
  acqGate s ik
  acquireGate s ik

/-- TCLM. -/
def execTclm (f : EF) (n : Option (BitVec 6)) (s : State) : Host.Outcome State Fault Refusal :=
  .next (issue f.g 8 (fun s0 t ik => do
    let (it, g) ← getItem s0 ik
    acqGate t ik
    freeE it g f.r 1
    let c ← match n with
      | some k => .ok k.toNat
      | none => do let v ← readE s0 ik it g f.o1 1; .ok (lo32 v).toNat
    acquireGate t ik
    mtx (decide (1 ≤ c) && decide (c ≤ 32)) 5
    let tm ← getTeam t ik
    let r := RegRef.v f.r.toNat
    match tm.freeRun c 33 tm.slotBase with
    | some k => .ok (((t.claimSlots (t.teamOf ik) ik k c).absorbSlots (t.teamOf ik)).dest ik r 1 k)
    | none => .ok (t.dest ik r 1 0xFFFFFFFF)) s)

/-- TREL. -/
def execTrel (f : EF) (n : Option (BitVec 5 × BitVec 6)) (s : State) : Host.Outcome State Fault Refusal :=
  .next (issue f.g 8 (fun s0 t ik => do
    let (it, g) ← getItem s0 ik
    acqGate t ik
    let (b, c) ← match n with
      | some k => .ok (k.1.toNat, k.2.toNat)
      | none => do
        let x ← readE s0 ik it g f.o1 1
        let y ← readE s0 ik it g f.o2 1
        .ok ((lo32 x).toNat, (lo32 y).toNat)
    acquireGate t ik
    mtx (decide (0 < c) && decide (b + c ≤ 32)) 5
    let tm ← getTeam t ik
    let l := (List.range c).map (b + ·)
    claimed tm l
    let core := t.coreOf ik
    orWait (!t.ops.any (fun e => e.2.core == core && e.2.kind.slots.any l.contains))
    .ok (t.updTeam (t.teamOf ik) (fun tm => { tm with
      claimed := tm.claimed &&& ~~~(slotBits b c) }))) s)

/-- TMOV of 2^n registers. -/
def execTmov (f : EF) (n : BitVec 3) (s : State) : Host.Outcome State Fault Refusal :=
  .next (issue f.g 8 (fun s0 t ik => do
    let (it, g) ← getItem s0 ik
    acqGate t ik
    let c := 2 ^ n.toNat
    let x ← readE s0 ik it g f.o1 1
    let y ← readE s0 ik it g f.o2 1
    let vs ← readEs s0 ik it g f.o3 c
    acquireGate t ik
    let slot := (lo32 x).toNat
    let o := (lo32 y).toNat
    mtx (decide (slot ≤ 31)) 5
    let tm ← getTeam t ik
    claimed tm [slot]
    mtx (o % (4 * c) == 0 && decide (o + 4 * c ≤ 16384)) 5
    .ok (t.slotWrite (t.teamOf ik) slot o (regBytes vs (4 * c)) [ik] [ik])) s)

/-- OPRF: the slot writes that happen-before it are published for whatever it happens-before (R199; log entries 8, 58). -/
def execOprf (g : Guard) (s : State) : Host.Outcome State Fault Refusal :=
  .next (issue g 8 (fun s0 t ik => do
    let _ ← getItem s0 ik
    engineGate t ik
    let t := t.updTeam (t.teamOf ik) (fun tm => { tm with unpublished := tm.unpublished.map (fun w =>
      if w.known.any (fun e => e.1 == ik) && !w.pubs.any (fun e => e.1 == ik) then { w with pubs := w.pubs ++ [(ik, t.fresh)] } else w) })
    .ok (t.absorbSlots (t.teamOf ik))) s)

/-- CBLD (R211). -/
def execCbld (f : EF) (k : BitVec 2) (s : State) : Host.Outcome State Fault Refusal :=
  .next (issue f.g 8 (fun s0 t ik => do
    let (it, g) ← getItem s0 ik
    acqGate t ik
    let vs ← readEs s0 ik it g f.o1 8
    acquireGate t ik
    .ok (t.updTeam (t.teamOf ik) (fun tm => { tm with
      cb := setAt tm.cb k.toNat (BitVec.ofNat 256 (leNat (regBytes vs 32))), cbWritten := true }))) s)

/-! ## Tiles (R201 to R203) -/

/-- Granules of 1 KiB of a tile. -/
def tileGranules (rows cols : Nat) (ty : TileTy) : Nat := rows * cols * (if ty = .part then 32 else 4) / 1024
/-- Granules the tiles of core `c` hold. -/
def State.bankUsed (s : State) (c : Nat) : Nat :=
  (s.teams.map (fun e => if e.2.core = some c then
    (e.2.tiles.map (fun x => tileGranules x.2.rows x.2.cols x.2.ty)).sum else 0)).sum

/-- AALC. -/
def execAalc (f : EF) (k : BitVec 3) (rows : BitVec 2) (cols : BitVec 6) (ty : TileTy) (s : State) :
    Host.Outcome State Fault Refusal :=
  .next (issue f.g 8 (fun s0 t ik => do
    let (it, g) ← getItem s0 ik
    acqGate t ik
    freeE it g f.r 1
    acquireGate t ik
    let tm ← getTeam t ik
    mtx (tm.tile k.toNat).isNone 2
    let r := 16 * (rows.toNat + 1)
    let c := 16 * (cols.toNat + 1)
    if t.bankUsed (t.coreOf ik) + tileGranules r c ty ≤ 256 then
      .ok ((t.updTeam (t.teamOf ik) (fun tm =>
        { tm with tiles := AMap.put tm.tiles k.toNat ⟨r, c, ty, [], [], []⟩ })).dest ik (.v f.r.toNat) 1 1)
    else .ok (t.dest ik (.v f.r.toNat) 1 0)) s)

/-- Waits until every operation accepted on tile `k` has completed; `done` then acts. An item that waits has not issued, so
that what is accepted meanwhile comes before it (R135, R204). Their effects are then ordered before it (R218, R316). -/
def awaitTile (k : Nat) (done : State → Nat → State) (s0 s : State) (ik : Nat) : Ev State := do
  let _ ← getItem s0 ik
  engineGate s ik
  let tm ← getTeam s ik
  mtx (tm.tile k).isSome 1
  orWait (!s.tileOps (s.teamOf ik) k s.fresh)
  .ok (done (s.sync [tokTile (s.teamOf ik) k] [ik]) ik)
/-- AFREE. -/
def execAfree (g : Guard) (k : BitVec 3) (s : State) : Host.Outcome State Fault Refusal :=
  .next (issue g 8 (awaitTile k.toNat (fun s ik =>
    s.updTeam (s.teamOf ik) (fun tm => { tm with tiles := AMap.del tm.tiles k.toNat }))) s)
/-- AWAIT (R218). -/
def execAwait (g : Guard) (k : BitVec 3) (s : State) : Host.Outcome State Fault Refusal :=
  .next (issue g 8 (awaitTile k.toNat (fun s _ => s)) s)

/-! ## Operations of a bundle instruction (R204) -/

/-- The operation that an earlier item of this bundle instruction and of the same group has had accepted. -/
def bundleOp (s0 s : State) (ik : Nat) : Option (Nat × Op) :=
  s.ops.find? (fun e => decide (s0.fresh ≤ e.1) && e.2.launch == launchOf ik && e.2.lo / 16 == indexOf ik / 16)
/-- Accepts a matrix operation for the item's bundle instruction: a new one with the group's in-flight count raised, or
the group's operation extended by `more`. -/
def acceptBundle (s0 s : State) (ik : Nat) (fresh : MtxOp) (more : MtxOp → MtxOp) : Ev State :=
  match bundleOp s0 s ik with
  | some (n, o) =>
    match o.kind with
    | .mtx m => .ok (({ s with ops := AMap.put s.ops n { o with hi := indexOf ik + 1, kind := .mtx (more m) } } : State).sync [ik] [tokOp n])
    | _ => .error .wait
  | none => do
    let s ← raiseInflight s ik
    .ok ((s.sync [ik] [tokOp s.fresh]).addOp ⟨s.coreOf ik, launchOf ik, indexOf ik, indexOf ik + 1, s0.cur.pc, .mtx fresh⟩).2
/-- The mask of an item's position. -/
def posBit (ik : Nat) : BitVec 16 := 1#16 <<< posOf ik

/-- AZERO (R212). -/
def execAzero (g : Guard) (k : BitVec 3) (s : State) : Host.Outcome State Fault Refusal :=
  .next (issue g 8 (fun s0 t ik => do
    let _ ← getItem s0 ik
    engineGate t ik
    let tm ← getTeam t ik
    mtx (tm.tile k.toNat).isSome 1
    acceptBundle s0 t ik (.azero k.toNat (posBit ik)) (fun m => match m with
      | .azero n p => .azero n (p ||| posBit ik)
      | m => m)) s)

/-- ASCAC (R213). -/
def execAscac (f : EF) (c p : BitVec 3) (s : State) : Host.Outcome State Fault Refusal :=
  .next (issue f.g 8 (fun s0 t ik => do
    let (it, g) ← getItem s0 ik
    acqGate t ik
    let x ← readE s0 ik it g f.o1 1
    acquireGate t ik
    let tm ← getTeam t ik
    let slot := (lo32 x).toNat
    match tm.tile c.toNat, tm.tile p.toNat with
    | some tc, some tp => do
      mtx (tc.ty == .f32 && tp.ty == .part) 3
      mtx (tc.rows == tp.rows && tc.cols == tp.cols) 6
      mtx (decide (slot ≤ 31)) 5
      claimed tm [slot]
      acceptBundle s0 t ik (.ascac c.toNat p.toNat (posBit ik) slot) (fun m => match m with
        | .ascac a b q sc => .ascac a b (q ||| posBit ik) sc
        | m => m)
    | _, _ => .error (.trap (mkTrap cMTX 1))) s)

/-- Whether a tile suits a drain's form and plane (R214). -/
def drainSuits (c : DrC) (tl : Tile) : Bool :=
  (match c.kind with
    | .b32 => true
    | .bf16 | .f16 => tl.ty == .f32
    | _ => tl.ty == .s32) && (c.plane == 0 || tl.ty == .part)
/-- The checks of a drain (R216): its lane. -/
def drainLane (tm : Team) (c : DrC) (ik col par o : Nat) : Ev DrLane :=
  match tm.tile c.tile.toNat with
  | none => .error (.trap (mkTrap cMTX 1))
  | some tl => do
    mtx (drainSuits c tl) 3
    let row := posOf ik + 16 * c.band.toNat
    let n := 2 ^ c.count.toNat
    mtx (decide (row < tl.rows) && decide (col + n ≤ tl.cols)) 4
    if DKind.requant c.kind then do
      mtx (decide (par ≤ 31)) 5
      claimed tm [par]
      .ok ⟨ik, o, row, col, par⟩
    else .ok ⟨ik, o, row, col, 0⟩

/-- A drain to registers accepted for an item: its destination goes EMPTY. -/
def State.acceptAdrn (s : State) (ik : Nat) (c : DrC) (l : DrLane) (r : RegRef) (pc word : W64) : State :=
  let n := 2 ^ c.count.toNat
  (((s.setEmpty ik r n).sync [ik] [tokOp s.fresh]).addOp ⟨s.coreOf ik, launchOf ik, indexOf ik, indexOf ik + 1, pc,
    .mtx (.adrn c l ⟨r, n⟩ word)⟩).2

/-- ADRN (R216). -/
def execAdrn (f : EF) (c : DrC) (s : State) : Host.Outcome State Fault Refusal :=
  .next (issue f.g 8 (fun s0 t ik => do
    let (it, g) ← getItem s0 ik
    acqGate t ik
    freeE it g f.r (2 ^ c.count.toNat)
    let x ← readE s0 ik it g f.o1 1
    let y ← if DKind.requant c.kind then readE s0 ik it g f.o2 1 else .ok 0
    acquireGate t ik
    let tm ← getTeam t ik
    let l ← drainLane tm c ik (lo32 x).toNat (lo32 y).toNat 0
    .ok (t.acceptAdrn ik c l (.v f.r.toNat) s0.cur.pc ((encode (.adrn f c)).headD 0))) s)

/-- Bytes of an element in an output form. -/
def DKind.size : DKind → Nat
  | .b32 | .s32 => 4
  | .bf16 | .f16 | .s16 | .z16 => 2
  | .s8 | .z8 => 1
/-- ADRS (R217). -/
def execAdrs (f : EF) (c : DrC) (s : State) : Host.Outcome State Fault Refusal :=
  .next (issue f.g 8 (fun s0 t ik => do
    let (it, g) ← getItem s0 ik
    acqGate t ik
    let o ← readE s0 ik it g f.o1 1
    let x ← readE s0 ik it g f.o2 1
    let y ← if DKind.requant c.kind then readE s0 ik it g f.o3 1 else .ok 0
    acquireGate t ik
    let tm ← getTeam t ik
    let ofs := (lo32 o).toNat
    let l ← drainLane tm c ik (lo32 x).toNat (lo32 y).toNat ofs
    let sz := DKind.size c.kind
    orTrap (ofs % sz == 0) (addrTrap cMISALIGN 0 (BitVec.ofNat 64 ofs))
    orTrap (decide (ofs + sz * 2 ^ c.count.toNat ≤ tm.scrSize)) (memFault 5 (BitVec.ofNat 64 ofs))
    acceptBundle s0 t ik (.adrs c [l]) (fun m => match m with
      | .adrs k ls => .adrs k (ls ++ [l])
      | m => m)) s)

/-! ## Elements and products (R205 to R210) -/

/-- Key of a tile element; an element, and a tile with one replaced. -/
def elemKey (plane row col : Nat) : Nat := (plane * 48 + row) * 640 + col
def Tile.get (t : Tile) (plane row col : Nat) : W32 := AMap.getD t.elems (elemKey plane row col) 0
def Tile.set (t : Tile) (plane row col : Nat) (v : W32) : Tile :=
  let k := elemKey plane row col
  { t with elems := if v = 0 then AMap.del t.elems k else AMap.put t.elems k v }
/-- The tile type a kind works on. -/
def MKind.tile : MKind → TileTy
  | .int8 => .s32
  | .c4 => .part
  | _ => .f32
/-- Elements of a line. -/
def MKind.k : MKind → Nat
  | .f32 => 32
  | .bf16 | .f16 => 64
  | .fp8 | .int8 => 128
  | .c4 => 256
/-- The format of A or B elements of a float kind; `v` is VA or VB. -/
def MKind.fmt (k : MKind) (v : Bool) : Fmt :=
  match k with
  | .bf16 => .bf16
  | .f16 => .f16
  | .fp8 => if v then .e5m2 else .e4m3
  | _ => .f32
/-- Element `k` of a line of a float kind. -/
def fltElem (f : Fmt) (line : List (BitVec 8)) (k : Nat) : Num :=
  let n := Fmt.bits f / 8
  Fmt.val f (leNat ((line.drop (n * k)).take n))
/-- Element `k` of an INT8 line. -/
def intElem (signed : Bool) (line : List (BitVec 8)) (k : Nat) : Int :=
  let b := line.getD k 0
  if signed then b.toInt else b.toNat
/-- Code `k` of a `.c4` line (R63). -/
def codeElem (line : List (BitVec 8)) (k : Nat) : Nat := (line.getD (k / 2) 0).toNat / 16 ^ (k % 2) % 16

/-- A running exact sum of products (R209): whether it is NaN, holds +∞ or −∞, its finite part, and whether every product
so far is −0. -/
structure ExSum where
  nan : Bool
  pinf : Bool
  ninf : Bool
  z : Int
  e : Int
  allNegZero : Bool
  deriving DecidableEq, Repr
def ExSum.zero : ExSum := ⟨false, false, false, 0, 0, true⟩
def ExSum.add (s : ExSum) (a b : Num) : ExSum :=
  if a.isNan || b.isNan then { s with nan := true }
  else
    match mulNum a b with
    | (.nan _, _) => { s with nan := true }
    | (.inf n, _) => if n then { s with ninf := true, allNegZero := false } else { s with pinf := true, allNegZero := false }
    | (.fin n m e, _) =>
      let lo := if s.e ≤ e then s.e else e
      let p : Int := (m * 2 ^ (e - lo).toNat : Nat)
      { s with
        z := s.z * (2 ^ (s.e - lo).toNat : Nat) + (if n then -p else p)
        e := lo
        allNegZero := s.allNegZero && n && m == 0 }
/-- The sum as a number. -/
def ExSum.num (s : ExSum) : Num :=
  if s.nan || (s.pinf && s.ninf) then .nan false
  else if s.pinf then .inf false
  else if s.ninf then .inf true
  else if s.z = 0 then .fin s.allNegZero 0 0
  else .fin (decide (s.z < 0)) s.z.natAbs s.e
/-- The sum of the products of elements `i` to `i + n − 1`. -/
def blockSum (a b : Nat → Num) (i n : Nat) : Num :=
  ((List.range n).foldl (fun s k => s.add (a (i + k)) (b (i + k))) ExSum.zero).num
/-- A binary32 plus a sum, rounded once under RNE; its bits. -/
def accF32 (c : W32) (x : Num) : W32 := BitVec.ofNat 32 (fpAdd .f32 .rne (Fmt.val .f32 c.toNat) x).1

/-- What one element of the tile becomes: `n` is the number of blocks of 32 for a float kind. -/
def fltProduct (fa fb : Fmt) (al bl : List (BitVec 8)) (n : Nat) (c : W32) : W32 :=
  (List.range n).foldl (fun c blk => accF32 c (blockSum (fltElem fa al) (fltElem fb bl) (32 * blk) 32)) c
def intProduct (va vb sat8 : Bool) (al bl : List (BitVec 8)) (c : W32) : W32 :=
  let s := ((List.range 128).map (fun k => intElem va al k * intElem vb bl k)).sum
  let t := c.toInt + s
  BitVec.ofInt 32 (if sat8 then (if t < -2147483648 then -2147483648 else if 2147483647 < t then 2147483647 else t) else t)
/-- Plane `blk` of a coded product: `sa` and `sb` are the scale bytes of the block. -/
def codeProduct (cbs : List (BitVec 256)) (al bl : List (BitVec 8)) (blk sa sb : Nat) : W32 :=
  let x := blockSum (fun k => codeVal cbs sa (codeElem al k)) (fun k => codeVal cbs sb (codeElem bl k)) (32 * blk) 32
  BitVec.ofNat 32 (numTo .f32 .rne x).1

/-- The items that issued a matrix operation. -/
def MtxOp.issuers (m : MtxOp) (o : Op) : List Nat :=
  let lo := itemKey o.launch (o.lo / 16 * 16)
  let at_ := fun (p : BitVec 16) => ((List.range 16).filter (fun i => p.getLsbD i)).map (lo + ·)
  match m with
  | .mma _ p _ _ _ _ _ | .mmac _ p _ _ _ _ | .azero _ p | .ascac _ _ p _ => at_ p
  | .adrn _ l _ _ => [l.item]
  | .adrs _ ls => ls.map (·.item)
/-- The values slot address `a` may show an operation numbered `n` of the items given, newest first (R199): of a write that
no write in W follows in happens-before; what stood before, where W is empty. -/
def Team.shows (t : Team) (items : List Nat) (n a : Nat) : List (BitVec 8) :=
  let ws := t.unpublished.filter (fun w => w.covers a)
  let inW := ws.filter (fun w => w.counts items n)
  let l := ((ws.filter (fun w => !inW.any (fun u => u.past.contains w.serial))).map (fun w => w.val a)).reverse
  if inW.isEmpty then l ++ [t.store.read a] else l
/-- One of a list of values, as free values choose (log entry 8), and the free values used. -/
def pickOf (n : Nat) : List (BitVec 8) → BitVec 8 × Nat
  | [] => (0, n)
  | [b] => (b, n)
  | b :: l => if Config.seesUnpublished n then (b, n + 1) else pickOf (n + 1) l
/-- The operand-store image that operation `n` of the items given reads in its slots. -/
def State.engineStore (s : State) (tk n : Nat) (items slots : List Nat) : Cells × State :=
  match AMap.find s.teams tk with
  | none => ([], s)
  | some t =>
    let as := ((t.unpublished.map (fun w => (List.range w.len).map (w.at_ + ·))).flatten.filter (fun a =>
      slots.contains (a / 16384))).eraseDups
    let r := as.foldl (fun (acc : Cells × Nat) a =>
      let p := pickOf acc.2 (t.shows items n a)
      (acc.1.write a p.1, p.2)) (t.store, s.free)
    (r.1, { s with free := r.2 })
/-- Line `n` of slot `slot` in an image. -/
def storeLine (m : Cells) (slot n : Nat) : List (BitVec 8) := m.readN (slot * 16384 + 128 * n) 128

/-- Rows of a tile owned by the positions of a mask. -/
def ownedRows (t : Tile) (p : BitVec 16) : List Nat := (List.range t.rows).filter (fun i => p.getLsbD (i % 16))
/-- The tile after a product: `bline c` gives column `c` of B, `img` holds A and the scales. -/
def productTile (t : Tile) (c : MmaC) (p : BitVec 16) (img : Cells) (aSlot scale : Nat) (cbs : List (BitVec 256))
    (bline : Nat → List (BitVec 8)) : Tile :=
  (ownedRows t p).foldl (fun t i =>
    let al := storeLine img aSlot i
    (List.range t.cols).foldl (fun t j =>
      let bl := bline j
      match c.kind with
      | .int8 => t.set 0 i j (intProduct c.va c.vb c.sat al bl (t.get 0 i j))
      | .c4 =>
        (List.range 8).foldl (fun t blk =>
          let sa := (img.read (scale * 16384 + 8 * i + blk)).toNat
          let sb := (img.read (scale * 16384 + 1024 + 8 * j + blk)).toNat
          t.set blk i j (codeProduct cbs al bl blk sa sb)) t
      | k => t.set 0 i j (fltProduct (MKind.fmt k c.va) (MKind.fmt k c.vb) al bl (MKind.k k / 32) (t.get 0 i j))) t) t
/-- The tile with rows marked, or cleared of their marks, as damaged (R219). -/
def Tile.mark (t : Tile) (rows : List Nat) : Tile :=
  { t with damaged := t.damaged ++ rows.filter (fun r => !t.damaged.contains r) }
def Tile.unmark (t : Tile) (rows : List Nat) : Tile := { t with damaged := t.damaged.filter (fun r => !rows.contains r) }
/-- The tile with rows written anew: none of their elements is read with an error any more. -/
def Tile.sound (t : Tile) (rows : List Nat) : Tile := { t with faulty := t.faulty.filter (fun r => !rows.contains r) }
/-- Marks after a product: an error in what was read, slot bytes or the elements added to, damages every row written; a coded
product rewrites its rows and reads none of their elements. -/
def productMarks (t : Tile) (k : MKind) (p : BitVec 16) (bad : Bool) : Tile :=
  let rows := ownedRows t p
  let bad := bad || (k != .c4 && rows.any t.faulty.contains)
  (if bad then t.mark rows else if k = .c4 then t.unmark rows else t).sound rows
/-- Whether a damaged byte lies among `n` bytes of a slot. -/
def badIn (t : Team) (slot lo n : Nat) : Bool :=
  t.storeErr.any (fun e => decide (slot * 16384 + lo ≤ e) && decide (e < slot * 16384 + lo + n))
/-- Whether a damaged byte lies among the lines of A, or the scale bytes of A and B, that a product reads. -/
def badA (tm : Team) (slot : Nat) (rows : List Nat) : Bool := rows.any (fun i => badIn tm slot (128 * i) 128)
def badScales (tm : Team) (slot : Nat) (rows : List Nat) (cols : Nat) : Bool :=
  rows.any (fun i => badIn tm slot (8 * i) 8) || badIn tm slot 1024 (8 * cols)
/-- The same of the columns of B. -/
def badB (tm : Team) (b0 cols : Nat) : Bool := (List.range cols).any (fun j => badIn tm (b0 + j / 128) (128 * (j % 128)) 128)

/-! ## Completions (R204) -/

/-- Whether an operation is the oldest on each of its tiles. -/
def State.oldestOn (s : State) (n : Nat) (o : Op) (m : MtxOp) : Bool :=
  let tk := s.opTeam o
  m.tiles.all (fun k => !s.tileOps tk k n)
/-- The step of a matrix completion: nothing unless operation `n` is of the wanted kind and oldest on its tiles. What
happens-before its issue happens-before an AWAIT on its tiles (R316). -/
def State.mtxStep (s : State) (n : Nat) (f : Nat → State → Op → MtxOp → Option State) : State :=
  match AMap.find s.ops n with
  | some o =>
    match o.kind with
    | .mtx m =>
      if s.oldestOn n o m then
        match f n s o m with
        | some t =>
          let t := t.sync [tokOp n] (m.tiles.map (tokTile (s.opTeam o)))
          { t with ops := AMap.del t.ops n, moved := true }
        | none => s
      else s
    | _ => s
  | none => s
/-- The issuing group of an operation has one less in flight (R140). -/
def State.landed (s : State) (o : Op) : State := s.lowerInflight (groupOf (itemKey o.launch o.lo))
/-- A tile of a team replaced. -/
def State.putTile (s : State) (tk k : Nat) (t : Tile) : State :=
  s.updTeam tk (fun tm => { tm with tiles := AMap.put tm.tiles k t })
def State.getTile (s : State) (tk k : Nat) : Tile :=
  (((AMap.find s.teams tk).bind (fun t => t.tile k))).getD ⟨16, 16, .f32, [], [], []⟩

/-- An MMA completes (R208 to R210). -/
def mmaDone (num : Nat) (s : State) (o : Op) (m : MtxOp) : Option State :=
  match m with
  | .mma c p a b0 sc _ cbs =>
    let tk := s.opTeam o
    let (img, s) := s.engineStore tk num (m.issuers o) m.slots
    let t := s.getTile tk c.tile.toNat
    let bad := match AMap.find s.teams tk with
      | some tm => badA tm a (ownedRows t p) || badB tm b0 t.cols || (c.kind == .c4 && badScales tm sc (ownedRows t p) t.cols)
      | none => false
    let t2 := productTile t c p img a sc cbs (fun j => storeLine img (b0 + j / 128) (j % 128))
    some ((s.putTile tk c.tile.toNat (productMarks t2 c.kind p bad)).landed o)
  | _ => none
def execMmaCompletion (op : Nat) (s : State) : Host.Outcome State Fault Refusal := .next (s.mtxStep op mmaDone)

/-- An MMAC completes on this core (R250). -/
def mmacDone (num : Nat) (s : State) (o : Op) (m : MtxOp) : Option State :=
  match m with
  | .mmac c p a sc b cbs =>
    let tk := s.opTeam o
    let (img, s) := s.engineStore tk num (m.issuers o) m.slots
    let t := s.getTile tk c.tile.toNat
    let bd := AMap.getD s.bops b ⟨0, [], []⟩
    let bad := match AMap.find s.teams tk with
      | some tm => badA tm a (ownedRows t p) || (c.kind == .c4 && badScales tm sc (ownedRows t p) t.cols)
      | none => false
    let t2 := productTile t c p img a sc cbs (fun j => (bd.bytes.drop (128 * j)).take 128)
    let s := s.putTile tk c.tile.toNat (productMarks t2 c.kind p (bad || !bd.bad.isEmpty))
    let left := if bd.users ≤ 1 then AMap.del s.bops b
      else AMap.put s.bops b { bd with users := bd.users - 1 }
    let s : State := { s with bops := left }
    some (s.landed o)
  | _ => none
def execMmacCompletion (op : Nat) (s : State) : Host.Outcome State Fault Refusal := .next (s.mtxStep op mmacDone)

/-- AZERO completes (R212). -/
def azeroDone (_ : Nat) (s : State) (o : Op) (m : MtxOp) : Option State :=
  match m with
  | .azero k p =>
    let tk := s.opTeam o
    let t := s.getTile tk k
    let rows := ownedRows t p
    let t := { t with elems := t.elems.filter (fun e => !rows.contains (e.1 / 640 % 48)) }
    some ((s.putTile tk k ((t.unmark rows).sound rows)).landed o)
  | _ => none
def execAzeroCompletion (op : Nat) (s : State) : Host.Outcome State Fault Refusal := .next (s.mtxStep op azeroDone)

/-- One element of ASCAC: the eight planes scaled and added in ascending order. -/
def ascacElem (img : Cells) (slot : Nat) (p : Tile) (i j : Nat) (c : W32) : W32 :=
  (List.range 8).foldl (fun c blk =>
    let e := scaleExp (img.read (slot * 16384 + 8 * i + blk)).toNat +
      scaleExp (img.read (slot * 16384 + 1024 + 8 * j + blk)).toNat
    accF32 c (Num.scale (Fmt.val .f32 (p.get blk i j).toNat) e)) c
/-- ASCAC completes (R213, R219). -/
def ascacDone (num : Nat) (s : State) (o : Op) (m : MtxOp) : Option State :=
  match m with
  | .ascac c p posns slot =>
    let tk := s.opTeam o
    let (img, s) := s.engineStore tk num (m.issuers o) m.slots
    let tc := s.getTile tk c
    let tp := s.getTile tk p
    let rows := ownedRows tc posns
    let t2 := rows.foldl (fun t i => (List.range t.cols).foldl (fun t j =>
      t.set 0 i j (ascacElem img slot tp i j (t.get 0 i j))) t) tc
    let bad := rows.any tc.faulty.contains || rows.any tp.faulty.contains || (match AMap.find s.teams tk with
      | some tm => badScales tm slot rows tc.cols
      | none => false)
    let t2 := (t2.mark (if bad then rows else rows.filter tp.damaged.contains)).sound rows
    some ((s.putTile tk c t2).landed o)
  | _ => none
def execAscacCompletion (op : Nat) (s : State) : Host.Outcome State Fault Refusal := .next (s.mtxStep op ascacDone)

/-! ## Drains (R214 to R217) -/

/-- Range of a requantising form. -/
def DKind.range : DKind → Int × Int
  | .s32 => (-2147483648, 2147483647)
  | .s16 => (-32768, 32767)
  | .z16 => (0, 65535)
  | .s8 => (-128, 127)
  | .z8 => (0, 255)
  | _ => (0, 0)
/-- The requantised value (R215): halves round away from zero. -/
def requant (k : DKind) (acc m zp : Int) (s : Nat) : Int :=
  let y := acc * m
  let q : Int := (((y.natAbs * 2 + 2 ^ s) / 2 ^ (s + 1) : Nat) : Int)
  let v := (if y < 0 then -q else q) + zp
  let (lo, hi) := DKind.range k
  if v < lo then lo else if hi < v then hi else v
/-- An element in its output form, as a register holds it. -/
def drainElem (c : DrC) (img : Cells) (par col : Nat) (x : W32) : W32 :=
  match c.kind with
  | .b32 => x
  | .bf16 => BitVec.ofNat 32 (fltToFlt .bf16 .rne (Fmt.val .f32 x.toNat)).1
  | .f16 => BitVec.ofNat 32 (fltToFlt .f16 .rne (Fmt.val .f32 x.toNat)).1
  | k =>
    let a := par * 16384 + 12 * col
    let w := fun (o : Nat) => BitVec.ofNat 32 (leNat (img.readN (a + o) 4))
    BitVec.ofInt 32 (requant k x.toInt (w 0).toInt (w 8).toInt ((w 4).toNat % 64))
/-- The drained values of a lane. -/
def drainVals (c : DrC) (img : Cells) (t : Tile) (l : DrLane) : List W32 :=
  (List.range (2 ^ c.count.toNat)).map (fun e =>
    drainElem c img l.par (l.col + e) (t.get c.plane.toNat l.row (l.col + e)))
/-- Whether a drain reads a damaged row or a damaged parameter. -/
def drainBad (s : State) (tk : Nat) (c : DrC) (t : Tile) (l : DrLane) : Bool :=
  t.damaged.contains l.row || (DKind.requant c.kind && match AMap.find s.teams tk with
    | some tm => badIn tm l.par (12 * l.col) (12 * 2 ^ c.count.toNat)
    | none => false)

/-- An ADRS completes (R217, R219). -/
def adrsDone (num : Nat) (s : State) (o : Op) (m : MtxOp) : Option State :=
  match m with
  | .adrs c ls =>
    let tk := s.opTeam o
    let (img, s) := s.engineStore tk num (m.issuers o) m.slots
    let t := s.getTile tk c.tile.toNat
    let s := ls.foldl (fun s l =>
      if drainBad s tk c t l then s.addPending l.item (mkTrap cMTX 7)
      else
        let sz := DKind.size c.kind
        let bs := ((drainVals c img t l).map (fun v => leBytes v.toNat sz)).flatten
        s.scrWrite l.item l.ofs bs) s
    some (s.landed o)
  | _ => none
def execAdrsCompletion (op : Nat) (s : State) : Host.Outcome State Fault Refusal := .next (s.mtxStep op adrsDone)

/-! ## Accepting products (R207, R248) -/

/-- The first check of R207 that fails; MMAC makes no check of B0. -/
def mmaCheck (tm : Team) (c : MmaC) (d : W32) (cluster : Bool) : Option Trap :=
  match tm.tile c.tile.toNat with
  | none => some (mkTrap cMTX 1)
  | some t =>
    if MKind.tile c.kind ≠ t.ty then some (mkTrap cMTX 3)
    else
      let nb := (t.cols + 127) / 128
      let b0 := (d.extractLsb' 8 5).toNat
      let a := (d.extractLsb' 0 5).toNat
      let sc := (d.extractLsb' 16 5).toNat
      if !cluster ∧ 32 < b0 + nb then some (mkTrap cMTX 5)
      else
        let l := a :: (if cluster then [] else (List.range nb).map (b0 + ·)) ++ (if c.kind = .c4 then [sc] else [])
        (l.find? (fun n => !tm.claims n)).map (mkTrap cSLOT ·)
/-- An accepted MMA of group `gk`, for the positions of `p` (R207). -/
def State.acceptMma (s : State) (gk : Nat) (pc : W64) (c : MmaC) (p : BitVec 16) (d : W32) : State :=
  let ik := gk * 16
  match s.team? ik with
  | none => s
  | some tm =>
    let nb := match tm.tile c.tile.toNat with | some t => (t.cols + 127) / 128 | none => 0
    let s := s.sync ((List.range 16).filterMap (fun i => if p.getLsbD i then some (ik + i) else none)) [tokOp s.fresh]
    let m : MtxOp := .mma c p (d.extractLsb' 0 5).toNat (d.extractLsb' 8 5).toNat (d.extractLsb' 16 5).toNat nb tm.cb
    let s := s.updGroup gk (fun g => { g with inflight := g.inflight + 1 })
    (s.addOp ⟨s.coreOf ik, launchOf ik, indexOf ik, indexOf ik + 16, pc, .mtx m⟩).2
/-- An accepted cluster product's part on one core (R250). -/
def State.acceptMmac (s : State) (l : MmacLocal) (b : Nat) : State :=
  let ik := l.grp * 16
  match s.team? ik with
  | none => s
  | some tm =>
    let s := s.sync (l.items.map (·.1)) [tokOp s.fresh]
    let m : MtxOp := .mmac l.c l.posns (l.desc.extractLsb' 0 5).toNat (l.desc.extractLsb' 16 5).toNat b tm.cb
    let s := s.updGroup l.grp (fun g => { g with inflight := g.inflight + 1 })
    (s.addOp ⟨l.core, launchOf ik, indexOf ik, indexOf ik + 16, l.pc, .mtx m⟩).2

end Sys2Proof.Machine
end

