-- ==== Sys2Proof/Machine/Integer.lean ====
section
/-! DEFINITION. The integer, logic and address instructions (R68 to R87) and the long immediates (R35). -/

namespace Sys2Proof.Machine

/-! ## Values -/

/-- Width W of a type, whether it is signed, Lo(T) and Hi(T) (R71). -/
def ITy.width : ITy → Nat
  | .s32 | .z32 => 32
  | .s64 | .z64 => 64
def ITy.signed : ITy → Bool
  | .s32 | .s64 => true
  | .z32 | .z64 => false
def ITy.lo (t : ITy) : Int := if ITy.signed t then -(2 ^ (ITy.width t - 1) : Nat) else 0
def ITy.hi (t : ITy) : Int := if ITy.signed t then (2 ^ (ITy.width t - 1) : Nat) - 1 else (2 ^ (ITy.width t) : Nat) - 1

/-- The exact integer the low W bits of `x` stand for under type `t`: `val(x, T)` (R71). -/
def ITy.val (t : ITy) (x : W64) : Int :=
  match t with
  | .s32 => (x.setWidth 32).toInt
  | .z32 => (x.setWidth 32).toNat
  | .s64 => x.toInt
  | .z64 => x.toNat
/-- The low W bits of an exact integer. -/
def ITy.wrap (t : ITy) (z : Int) : Nat := (z % (2 ^ (ITy.width t) : Nat)).toNat
/-- `Sat(x, lo, hi)` (R10). -/
def sat (x lo hi : Int) : Int := if x < lo then lo else if hi < x then hi else x

/-- Width of the logic types, and the low W bits of a value. -/
def wbits (wide : Bool) : Nat := if wide then 64 else 32
def low (wide : Bool) (x : W64) : Nat := if wide then x.toNat else (x.setWidth 32).toNat
/-- A 32-bit operand as a number. -/
def n32 (x : W64) : Nat := (x.setWidth 32).toNat

/-! ## The exact results (R72 to R78) -/

def fAdd (t : ITy) (a b : Int) : Int := let _ := t; a + b
def fSub (t : ITy) (a b : Int) : Int := let _ := t; a - b
def fSadd (t : ITy) (a b : Int) : Int := sat (a + b) (ITy.lo t) (ITy.hi t)
def fSsub (t : ITy) (a b : Int) : Int := sat (a - b) (ITy.lo t) (ITy.hi t)
def fMul (t : ITy) (a b : Int) : Int := let _ := t; a * b
def fMulh (t : ITy) (a b : Int) : Int := (a * b) / (2 ^ (ITy.width t) : Nat)
/-- All ones for a zero divisor, else truncation toward zero (R72). -/
def fDivq (t : ITy) (a b : Int) : Int := let _ := t; if b = 0 then -1 else Int.tdiv a b
def fRem (t : ITy) (a b : Int) : Int := let _ := t; if b = 0 then a else a - b * Int.tdiv a b
def fMin (t : ITy) (a b : Int) : Int := let _ := t; if a ≤ b then a else b
def fMax (t : ITy) (a b : Int) : Int := let _ := t; if a ≤ b then b else a

/-- A typed instruction of two sources (R72). -/
def execTyped (f : VF) (t : ITy) (F : ITy → Int → Int → Int) (s : State) : Host.Outcome State Fault Refusal :=
  execVI f (ITy.regs t) (ITy.regs t) (ITy.regs t) 0 (fun a b _ => ITy.wrap t (F t (ITy.val t a) (ITy.val t b))) s

def execAdd (f : VF) (t : ITy) (s : State) : Host.Outcome State Fault Refusal := execTyped f t fAdd s
def execSub (f : VF) (t : ITy) (s : State) : Host.Outcome State Fault Refusal := execTyped f t fSub s
def execSadd (f : VF) (t : ITy) (s : State) : Host.Outcome State Fault Refusal := execTyped f t fSadd s
def execSsub (f : VF) (t : ITy) (s : State) : Host.Outcome State Fault Refusal := execTyped f t fSsub s
def execMul (f : VF) (t : ITy) (s : State) : Host.Outcome State Fault Refusal := execTyped f t fMul s
def execMulh (f : VF) (t : ITy) (s : State) : Host.Outcome State Fault Refusal := execTyped f t fMulh s
def execMad (f : VF) (t : ITy) (s : State) : Host.Outcome State Fault Refusal :=
  execVI f (ITy.regs t) (ITy.regs t) (ITy.regs t) (ITy.regs t)
    (fun a b c => ITy.wrap t (ITy.val t a * ITy.val t b + ITy.val t c)) s
/-- The exact 64-bit product of two 32-bit operands (R73). -/
def fMulw (signed : Bool) (a b : W64) : Nat :=
  let t := if signed then ITy.s32 else ITy.z32
  ITy.wrap .z64 (ITy.val t a * ITy.val t b)
def execMulw (f : VF) (signed : Bool) (s : State) : Host.Outcome State Fault Refusal :=
  execVI f 2 1 1 0 (fun a b _ => fMulw signed a b) s
/-- Byte `k` of a word, signed or unsigned. -/
def byteInt (signed : Bool) (x : W64) (k : Nat) : Int :=
  let b : BitVec 8 := x.extractLsb' (8 * k) 8
  if signed then b.toInt else b.toNat
/-- DOT4 (R74). -/
def fDot4 (sa sb st : Bool) (a b c : W64) : Nat :=
  let acc : ITy := if sa || sb then .s32 else .z32
  let sum := ITy.val acc c + byteInt sa a 0 * byteInt sb b 0 + byteInt sa a 1 * byteInt sb b 1 +
    byteInt sa a 2 * byteInt sb b 2 + byteInt sa a 3 * byteInt sb b 3
  ITy.wrap acc (if st then sat sum (ITy.lo acc) (ITy.hi acc) else sum)
def execDot4 (f : VF) (sa sb st : Bool) (s : State) : Host.Outcome State Fault Refusal :=
  execVI f 1 1 1 1 (fDot4 sa sb st) s
def execDivq (f : VF) (t : ITy) (s : State) : Host.Outcome State Fault Refusal := execTyped f t fDivq s
def execRem (f : VF) (t : ITy) (s : State) : Host.Outcome State Fault Refusal := execTyped f t fRem s
def execMin (f : VF) (t : ITy) (s : State) : Host.Outcome State Fault Refusal := execTyped f t fMin s
def execMax (f : VF) (t : ITy) (s : State) : Host.Outcome State Fault Refusal := execTyped f t fMax s
/-- The signed type of a width. -/
def sty (wide : Bool) : ITy := if wide then .s64 else .s32
def execAbs (f : VF) (w : Bool) (s : State) : Host.Outcome State Fault Refusal :=
  execVI f (wideRegs w) (wideRegs w) 0 0 (fun a _ _ => ITy.wrap (sty w) ((ITy.val (sty w) a).natAbs : Int)) s
def execNeg (f : VF) (w : Bool) (s : State) : Host.Outcome State Fault Refusal :=
  execVI f (wideRegs w) (wideRegs w) 0 0 (fun a _ _ => ITy.wrap (sty w) (-(ITy.val (sty w) a))) s

/-- A logic instruction of two sources (R75). -/
def execLogic (f : VF) (w : Bool) (F : W64 → W64 → W64) (s : State) : Host.Outcome State Fault Refusal :=
  execVI f (wideRegs w) (wideRegs w) (wideRegs w) 0 (fun a b _ => low w (F a b)) s
def execAnd (f : VF) (w : Bool) (s : State) : Host.Outcome State Fault Refusal := execLogic f w (· &&& ·) s
def execOr (f : VF) (w : Bool) (s : State) : Host.Outcome State Fault Refusal := execLogic f w (· ||| ·) s
def execXor (f : VF) (w : Bool) (s : State) : Host.Outcome State Fault Refusal := execLogic f w (· ^^^ ·) s
def execAndn (f : VF) (w : Bool) (s : State) : Host.Outcome State Fault Refusal :=
  execLogic f w (fun a b => a &&& ~~~b) s

/-- A shift of a typed source by a 32-bit count taken modulo W (R75). -/
def execShift (f : VF) (w : Bool) (F : Nat → Nat → Nat) (s : State) : Host.Outcome State Fault Refusal :=
  execVI f (wideRegs w) (wideRegs w) 1 0 (fun a b _ => F (low w a) (n32 b % wbits w) % 2 ^ wbits w) s
def execShl (f : VF) (w : Bool) (s : State) : Host.Outcome State Fault Refusal :=
  execShift f w (fun a n => a * 2 ^ n) s
def execShr (f : VF) (w : Bool) (s : State) : Host.Outcome State Fault Refusal :=
  execShift f w (fun a n => a / 2 ^ n) s
def execSha (f : VF) (w : Bool) (s : State) : Host.Outcome State Fault Refusal :=
  execVI f (wideRegs w) (wideRegs w) 1 0
    (fun a b _ => ITy.wrap (sty w) (ITy.val (sty w) a / (2 ^ (n32 b % wbits w) : Nat))) s
def execRol (f : VF) (w : Bool) (s : State) : Host.Outcome State Fault Refusal :=
  execShift f w (fun a n => a * 2 ^ n + a / 2 ^ (wbits w - n)) s

/-- One bits among the low `n` bits of `x` (R76). -/
def popc (x : Nat) : Nat → Nat
  | 0 => 0
  | n + 1 => x % 2 + popc (x / 2) n
/-- Zero bits below the lowest one bit of the low `n` bits, `n` for 0 (R76). -/
def ctz (x : Nat) : Nat → Nat
  | 0 => 0
  | n + 1 => if x % 2 = 1 then 0 else 1 + ctz (x / 2) n
/-- The low `n` bits of `x` in reverse order (R76). -/
def brev (x : Nat) : Nat → Nat
  | 0 => 0
  | n + 1 => (x % 2) * 2 ^ n + brev (x / 2) n
/-- Zero bits above the highest one bit of the low `n` bits, `n` for 0 (R76). -/
def clz (x n : Nat) : Nat := ctz (brev x n) n

/-- A count of one source into a single register (R76). -/
def countBits (f : VF) (w : Bool) (F : Nat → Nat → Nat) (s : State) : Host.Outcome State Fault Refusal :=
  execVI f 1 (wideRegs w) 0 0 (fun a _ _ => F (low w a) (wbits w)) s
def execPopc (f : VF) (w : Bool) (s : State) : Host.Outcome State Fault Refusal := countBits f w popc s
def execClz (f : VF) (w : Bool) (s : State) : Host.Outcome State Fault Refusal := countBits f w clz s
def execCtz (f : VF) (w : Bool) (s : State) : Host.Outcome State Fault Refusal := countBits f w ctz s
def execBrev (f : VF) (w : Bool) (s : State) : Host.Outcome State Fault Refusal :=
  execVI f (wideRegs w) (wideRegs w) 0 0 (fun a _ _ => brev (low w a) (wbits w)) s

/-- BEXT and BINS (R77): position in bits 7:0 of the control word, length in bits 15:8. -/
def fBext (w : Bool) (a ctl : W64) : Nat :=
  (low w a / 2 ^ ((n32 ctl) % 256)) % 2 ^ (Nat.min ((n32 ctl / 256) % 256) (wbits w))
def fBins (w : Bool) (a b ctl : W64) : Nat :=
  let pos := n32 ctl % 256
  let len := (n32 ctl / 256) % 256
  let W := wbits w
  let top := Nat.min (pos + len) W
  if W ≤ pos ∨ len = 0 then low w a
  else
    low w a % 2 ^ pos + (low w b % 2 ^ (top - pos)) * 2 ^ pos + (low w a / 2 ^ top) * 2 ^ top
def execBext (f : VF) (w : Bool) (s : State) : Host.Outcome State Fault Refusal :=
  execVI f (wideRegs w) (wideRegs w) 1 0 (fun a b _ => fBext w a b) s
def execBins (f : VF) (w : Bool) (s : State) : Host.Outcome State Fault Refusal :=
  execVI f (wideRegs w) (wideRegs w) (wideRegs w) 1 (fun a b c => fBins w a b c) s

/-- Result byte `k` of PERMB (R78). -/
def permByte (a b c : W64) (k : Nat) : Nat :=
  let n := (n32 c / 16 ^ k) % 16
  let src := n32 a + 2 ^ 32 * n32 b
  let byte := (src / 256 ^ (n % 8)) % 256
  if 8 ≤ n then (if 128 ≤ byte then 255 else 0) else byte
def fPermb (a b c : W64) : Nat :=
  permByte a b c 0 + 256 * permByte a b c 1 + 65536 * permByte a b c 2 + 16777216 * permByte a b c 3
def execPermb (f : VF) (s : State) : Host.Outcome State Fault Refusal := execVI f 1 1 1 1 fPermb s

/-! ## Compares and predicate logic -/

/-- The truth of a condition on exact integers (R79). -/
def Cond.holds (c : Cond) (a b : Int) : Bool :=
  match c with
  | .eq => a == b
  | .ne => a != b
  | .lt => decide (a < b)
  | .le => decide (a ≤ b)
  | .gt => decide (b < a)
  | .ge => decide (b ≤ a)
def execCmp (f : VF) (c : Cond) (t : ITy) (s : State) : Host.Outcome State Fault Refusal :=
  execCmpV f (ITy.regs t) (fun a b => (Cond.holds c (ITy.val t a) (ITy.val t b), fNone)) s

/-- Predicate logic (R80): old values are read, `p0` is not written. -/
def execPLogic (g : Guard) (d a b : BitVec 3) (F : Bool → Bool → Bool) (s : State) : Host.Outcome State Fault Refusal :=
  .next (issue g 8 (fun s0 t ik => do
    let (it, _) ← getItem s0 ik
    .ok (t.updItem ik (fun i => i.setPred d (F (it.pred a) (it.pred b))))) s)
def execPand (g : Guard) (d a b : BitVec 3) (s : State) : Host.Outcome State Fault Refusal := execPLogic g d a b (· && ·) s
def execPor (g : Guard) (d a b : BitVec 3) (s : State) : Host.Outcome State Fault Refusal := execPLogic g d a b (· || ·) s
def execPxor (g : Guard) (d a b : BitVec 3) (s : State) : Host.Outcome State Fault Refusal := execPLogic g d a b xor s
def execPnot (g : Guard) (d a : BitVec 3) (s : State) : Host.Outcome State Fault Refusal :=
  execPLogic g d a a (fun x _ => !x) s

/-! ## Selects and moves -/

/-- SEL (R81): both sources are read, only the selected one's value and tag reach the destination. -/
def execSel (f : VF) (w : Bool) (p : BitVec 3) (s : State) : Host.Outcome State Fault Refusal :=
  let n := wideRegs w
  .next (issue f.g 8 (fun s0 t ik => do
    let (it, g) ← getItem s0 ik
    let q := s0.quotaOf (launchOf ik)
    orWait (!dstBusy q it g (s0.leads ik) f.d n)
    let (a, b, _) ← readV3 q it g f n n 0
    match ← dstRef q it f.d n with
    | none => .ok t
    | some r =>
      let x := if it.pred p then a else b
      match x.2 with
      | some i => .ok (t.destPoison ik r n i)
      | none => .ok (t.dest ik r n (low w x.1))) s)
def execMov (f : VF) (w : Bool) (s : State) : Host.Outcome State Fault Refusal :=
  execVI f (wideRegs w) (wideRegs w) 0 0 (fun a _ _ => low w a) s
/-- MOVG (R82). -/
def execMovg (f : VF) (s : State) : Host.Outcome State Fault Refusal :=
  .next (issue f.g 8 (fun s0 t ik => do
    let (it, g) ← getItem s0 ik
    let q := s0.quotaOf (launchOf ik)
    orWait (!dstBusy q it g (s0.leads ik) f.d 1)
    let (n, p) ← readSrc q it g f.a 1 f.wa
    noPoison s0 ik p
    orTrap (decide (n32 n ≤ 63)) (mkTrap cIDX 0)
    let (v, p2) ← readRef it g (.g (n32 n)) 1 f.wa
    match ← dstRef q it f.d 1 with
    | none => .ok t
    | some r =>
      match p2 with
      | some i => .ok (t.destPoison ik r 1 i)
      | none => .ok (t.dest ik r 1 v.toNat)) s)

/-- The number of a job's most recent generation whose cut is fixed, and its phase (R55). -/
def State.genOf (s : State) (j : Nat) : Nat := ((AMap.find s.jobs j).map (·.lastGen)).getD 0
def State.phaseOf (s : State) (j : Nat) : Nat := ((AMap.find s.jobs j).map (·.phase)).getD 0

/-- The special value of an item (R55). -/
def special (s : State) (ik : Nat) (g : Group) (sv : Special) : Nat :=
  let i := indexOf ik
  let c := s.coreOf ik
  match sv with
  | .item => i
  | .grp => i / 16 % 2 ^ 32
  | .team => i / s.teamSize (launchOf ik) % 2 ^ 32
  | .launch => launchOf ik % 2 ^ 24
  | .pos => posOf ik
  | .quad => s.quadOf ik
  | .core => c % 8
  | .clu => c % 48 / 8
  | .die => c / 48
  | .dev => s.devId.toNat
  | .phase => s.phaseOf (jobOf ik)
  | .gen => s.genOf (jobOf ik)
  | .clock => s.clock.toNat
  | .leader => posOf ((s.leader (groupOf ik)).getD ik)
  | .fstat => g.fstat.toNat
/-- Registers of a special value (R37). -/
def Special.regs : Special → Nat
  | .item | .clock => 2
  | _ => 1
/-- MOVS (R83). -/
def execMovs (f : VF) (sv : Special) (s : State) : Host.Outcome State Fault Refusal :=
  let n := Special.regs sv
  .next (issue f.g 8 (fun s0 t ik => do
    let (it, g) ← getItem s0 ik
    let q := s0.quotaOf (launchOf ik)
    orWait (!dstBusy q it g (s0.leads ik) f.d n)
    match ← dstRef q it f.d n with
    | none => .ok t
    | some r => .ok (t.dest ik r n (special s0 ik g sv))) s)

/-! ## Immediate forms (R84) -/

def execAddi (f : IF) (s : State) : Host.Outcome State Fault Refusal := execI f true (· + f.imm) s
def execAndi (f : IF) (s : State) : Host.Outcome State Fault Refusal := execI f true (· &&& f.imm) s
def execOri (f : IF) (s : State) : Host.Outcome State Fault Refusal := execI f true (· ||| f.imm) s
def execXori (f : IF) (s : State) : Host.Outcome State Fault Refusal := execI f true (· ^^^ f.imm) s
def execShli (f : IF) (s : State) : Host.Outcome State Fault Refusal := execI f true (· <<< f.imm.toNat) s
def execShri (f : IF) (s : State) : Host.Outcome State Fault Refusal := execI f true (· >>> f.imm.toNat) s
def execMovi (f : IF) (s : State) : Host.Outcome State Fault Refusal := execI f false (fun _ => f.imm) s
/-- The truth of a CMPI condition (R84). -/
def CondI.holds (c : CondI) (a b : W32) : Bool :=
  match c with
  | .eq => a == b
  | .ne => a != b
  | .ltS => decide (a.toInt < b.toInt)
  | .leS => decide (a.toInt ≤ b.toInt)
  | .gtS => decide (b.toInt < a.toInt)
  | .geS => decide (b.toInt ≤ a.toInt)
  | .ltZ => decide (a.toNat < b.toNat)
  | .leZ => decide (a.toNat ≤ b.toNat)
  | .gtZ => decide (b.toNat < a.toNat)
  | .geZ => decide (b.toNat ≤ a.toNat)
def execCmpi (f : IF) (c : CondI) (s : State) : Host.Outcome State Fault Refusal :=
  .next (issue f.g 8 (fun s0 t ik => do
    let (it, g) ← getItem s0 ik
    let (a, p) ← readRef it g (iRef f.u f.a) 1 false
    noPoison s0 ik p
    .ok (t.updItem ik (fun i => i.setPred (f.d.extractLsb' 0 3) (CondI.holds c (lo32 a) f.imm)))) s)

/-! ## Index registers and addresses -/

/-- Item with index register `k` replaced. -/
def Item.setX (it : Item) (k : Nat) (x : XReg) : Item := { it with x := setAt it.x k x }
/-- Index register `k`. -/
def Item.xreg (it : Item) (k : Nat) : XReg := it.x.getD k ⟨0, 0, 0⟩

/-- XSET (R85). -/
def execXset (f : VF) (k : BitVec 2) (s : State) : Host.Outcome State Fault Refusal :=
  .next (issue f.g 8 (fun s0 t ik => do
    let (it, g) ← getItem s0 ik
    let q := s0.quotaOf (launchOf ik)
    let (a, b, _) ← readV3 q it g f 1 1 0
    noPoison s0 ik (firstOf3 a.2 b.2 none)
    orTrap (decide (n32 a.1 ≤ 255) && decide (n32 b.1 ≤ 255)) (mkTrap cIDX 0)
    .ok (t.updItem ik (fun i => i.setX k.toNat ⟨0, a.1.setWidth 8, b.1.setWidth 8⟩))) s)
/-- XADD (R85). -/
def execXadd (f : VF) (k : BitVec 2) (s : State) : Host.Outcome State Fault Refusal :=
  .next (issue f.g 8 (fun s0 t ik => do
    let (it, g) ← getItem s0 ik
    let q := s0.quotaOf (launchOf ik)
    let (a, p) ← readSrc q it g f.a 1 f.wa
    noPoison s0 ik p
    let x := it.xreg k.toNat
    let o : Int := x.ofs.toInt + (lo32 a).toInt
    orTrap (decide (-32768 ≤ o) && decide (o ≤ 32767)) (mkTrap cIDX 0)
    .ok (t.updItem ik (fun i => i.setX k.toNat { x with ofs := BitVec.ofInt 16 o }))) s)
/-- The 32-bit image of an index register (R46). -/
def XReg.image (x : XReg) : W32 := x.ofs ++ x.base ++ x.last
/-- XGET (R86). -/
def execXget (f : VF) (k : BitVec 2) (s : State) : Host.Outcome State Fault Refusal :=
  .next (issue f.g 8 (fun s0 t ik => do
    let (it, g) ← getItem s0 ik
    let q := s0.quotaOf (launchOf ik)
    orWait (!dstBusy q it g (s0.leads ik) f.d 1)
    match ← dstRef q it f.d 1 with
    | none => .ok t
    | some r => .ok (t.dest ik r 1 (it.xreg k.toNat).image.toNat)) s)
/-- LEA (R87). -/
def fLea (sh : BitVec 4) (a b : W64) : Nat :=
  let ix : Int := if sh.getLsbD 3 then (n32 b : Int) else (lo32 b).toInt
  ITy.wrap .z64 ((a.toNat : Int) + ix * (2 ^ (sh.toNat % 8) : Nat))
def execLea (f : VF) (sh : BitVec 4) (s : State) : Host.Outcome State Fault Refusal :=
  execVI f 2 2 1 0 (fun a b _ => fLea sh a b) s

/-! ## Long immediates (R35) -/

def execMovi64 (g : Guard) (u : Bool) (d : Fld) (imm : W64) (s : State) : Host.Outcome State Fault Refusal :=
  .next (issue g 16 (fun s0 t ik => do
    let (it, gr) ← getItem s0 ik
    orWait (!refBusy it gr (s0.leads ik) (iRef u d) 2)
    .ok (t.dest ik (iRef u d) 2 imm.toNat)) s)
def execAddi64 (g : Guard) (u : Bool) (d a : Fld) (imm : W64) (s : State) : Host.Outcome State Fault Refusal :=
  .next (issue g 16 (fun s0 t ik => do
    let (it, gr) ← getItem s0 ik
    orWait (!refBusy it gr (s0.leads ik) (iRef u d) 2)
    let (x, p) ← readRef it gr (iRef u a) 2 false
    match p with
    | some i => .ok (t.destPoison ik (iRef u d) 2 i)
    | none => .ok (t.dest ik (iRef u d) 2 (x + imm).toNat)) s)

end Sys2Proof.Machine
end

