-- ==== Sys2Proof/Machine/Exchange.lean ====
section
/-! DEFINITION. What the exchanges of a group compute (R187 to R192) from their participants in ascending position. -/

namespace Sys2Proof.Machine

/-- A result: a value, or propagated poison with its record index. -/
structure ExRes where
  val : Nat
  poison : Option W32
  deriving DecidableEq, Repr
def ExRes.ok (n : Nat) : ExRes := ⟨n, none⟩

/-- The participant at position `q`. -/
def partAt (js : List Joined) (q : Nat) : Option Joined := js.find? (fun j => j.pos == q)
/-- The lowest position among the participants. -/
def lowestPos (js : List Joined) : Nat := ((js.map (·.pos)).min?).getD 0

/-- SHFL (R187): the source position, and what the participant receives. -/
def shflFrom (m : ShflMode) (js : List Joined) (j : Joined) : Nat :=
  let b := j.b.toNat % 16
  match m with
  | .pick => b
  | .rot => (j.pos + 16 - b) % 16
  | .mir => Nat.xor j.pos b
  | .bcast => lowestPos js
def shflRes (m : ShflMode) (js : List Joined) (j : Joined) : ExRes :=
  let src := (partAt js (shflFrom m js j)).getD j
  ⟨(lo32 src.a).toNat, src.pa⟩

/-- VOTE (R188). -/
def voteRes (m : VoteMode) (js : List Joined) (j : Joined) : ExRes :=
  let bits := fun (l : List Joined) => (l.map (fun k => 2 ^ k.pos)).sum
  let yes := js.filter (·.pred)
  match m with
  | .mask => .ok (bits yes + 65536 * bits js)
  | .cnt => .ok yes.length
  | .rank => .ok (yes.filter (fun k => k.pos < j.pos)).length

/-- ELECT (R189). -/
def electRes (js : List Joined) (j : Joined) : ExRes :=
  let e := lowestPos js
  .ok (e + if j.pos = e then 2 ^ 31 else 0)

/-- MATCH (R190). -/
def matchRes (wide : Bool) (js : List Joined) (j : Joined) : ExRes :=
  let eq := js.filter (fun k => low wide k.a == low wide j.a)
  .ok (lowestPos eq + 16 * eq.length + 512 * (eq.filter (fun k => k.pos < j.pos)).length)

/-! ## Reductions (R191, R192) -/

/-- Registers of a reduction's operand and result. -/
def RedOp.regs : RedOp → Nat
  | .add t | .min t | .max t | .and t | .or t | .xor t => ITy.regs t
  | _ => 1
/-- One step of a reduction on register values, with the flags it raises. -/
def redStep (op : RedOp) (x y : Nat) : Nat × Flg :=
  let vi := fun (t : ITy) (n : Nat) => ITy.val t (BitVec.ofNat 64 n)
  match op with
  | .add t => (ITy.wrap t (vi t x + vi t y), fNone)
  | .min t => (if vi t y < vi t x then y else x, fNone)
  | .max t => (if vi t x < vi t y then y else x, fNone)
  | .and _ => (Nat.land x y, fNone)
  | .or _ => (Nat.lor x y, fNone)
  | .xor _ => (Nat.xor x y, fNone)
  | .fadd m => fpAdd .f32 m (Fmt.val .f32 x) (Fmt.val .f32 y)
  | .fmin => fpMinMax .f32 false x y
  | .fmax => fpMinMax .f32 true x y

/-- An optional value combined with another: an absent one leaves the other. -/
def redOpt (op : RedOp) (x y : Option Nat × Flg) : Option Nat × Flg :=
  match x.1, y.1 with
  | none, _ => (y.1, x.2 ||| y.2)
  | _, none => (x.1, x.2 ||| y.2)
  | some a, some b =>
    let r := redStep op a b
    (some r.1, x.2 ||| y.2 ||| r.2)
/-- One level of the fixed tree: neighbours combined (R192). -/
def treeLevel (op : RedOp) : List (Option Nat × Flg) → List (Option Nat × Flg)
  | x :: y :: l => redOpt op x y :: treeLevel op l
  | l => l
/-- The tree over 16 positions. -/
def redTree (op : RedOp) (l : List (Option Nat × Flg)) : Option Nat × Flg :=
  (treeLevel op (treeLevel op (treeLevel op (treeLevel op l)))).headD (none, fNone)
/-- The value of position `k`, absent where it is no participant. -/
def posVals (wide : Bool) (js : List Joined) : List (Option Nat × Flg) :=
  (List.range 16).map (fun k => ((partAt js k).map (fun j => low wide j.a), fNone))
/-- The folds of the values at positions 0 to k, for each k. -/
def scanFrom (op : RedOp) : Option Nat × Flg → List (Option Nat × Flg) → List (Option Nat × Flg)
  | _, [] => []
  | acc, x :: l =>
    let r := redOpt op acc x
    r :: scanFrom op r l

/-- The record index of the lowest-positioned POISON participant of a list. -/
def lowestPoison (js : List Joined) : Option W32 :=
  ((sortBy (fun a b => decide (a.pos < b.pos)) js).find? (fun j => j.pa.isSome)).bind (·.pa)
/-- REDG: the one result, and its flags, of which a POISON result has none (log entry 54). -/
def redgRes (op : RedOp) (js : List Joined) : ExRes × Flg :=
  match lowestPoison js with
  | some p => (⟨0, some p⟩, fNone)
  | none =>
    let r := redTree op (posVals (RedOp.regs op == 2) js)
    (.ok (r.1.getD 0), r.2)
/-- Participants below the lowest POISON one. -/
def beforePoison (js : List Joined) : List Joined :=
  js.filter (fun j => !js.any (fun k => k.pa.isSome && decide (k.pos ≤ j.pos)))
/-- SCANG: the result of a participant, and the flags of the whole instance, raised by the participants below the lowest
POISON one (log entry 54). -/
def scangRes (op : RedOp) (js : List Joined) (j : Joined) : ExRes :=
  match lowestPoison (js.filter (fun k => k.pos ≤ j.pos)) with
  | some p => ⟨0, some p⟩
  | none => .ok (((scanFrom op (none, fNone) (posVals (RedOp.regs op == 2) js)).getD j.pos (none, fNone)).1.getD 0)
def scangFlags (op : RedOp) (js : List Joined) : Flg :=
  ((scanFrom op (none, fNone) (posVals (RedOp.regs op == 2) (beforePoison js))).getLastD (none, fNone)).2

/-- Registers of an exchange's result. -/
def exRegs : Instr → Nat
  | .redg _ op | .scang _ op => RedOp.regs op
  | _ => 1
/-- Flags an exchange raises (R192). -/
def exFlags (i : Instr) (js : List Joined) : Flg :=
  match i with
  | .redg _ op => (redgRes op js).2
  | .scang _ op => scangFlags op js
  | _ => fNone
/-- What a participant of an exchange receives. -/
def exRes (i : Instr) (js : List Joined) (j : Joined) : ExRes :=
  match i with
  | .shfl _ m => shflRes m js j
  | .vote _ m _ => voteRes m js j
  | .elect _ => electRes js j
  | .matchg _ w => matchRes w js j
  | .redg _ op => (redgRes op js).1
  | .scang _ op => scangRes op js j
  | _ => .ok 0

end Sys2Proof.Machine
end

