-- ==== Sys2Proof/Machine/FloatOps.lean ====
section
/-! DEFINITION. The floating-point, conversion and scale instructions (R88 to R101): majors 0x0C to 0x12. -/

namespace Sys2Proof.Machine

/-- What a class-11 immediate of an operand stands for (R28, R89): its sign-extended bits, a float value, or that value
in both halves. -/
inductive ImmK where
  | bits
  | flt (f : Fmt)
  | halves (f : Fmt)
  deriving DecidableEq, Repr

/-- The encoding of an integer in a format. -/
def encInt (f : Fmt) (z : Int) : Nat := (numTo f .rne (Num.ofInt z)).1
/-- The bits of a source as its operand reads them. -/
def immBits (k : ImmK) (src : Src) (x : W64) : Nat :=
  match src, k with
  | .imm n, .flt f => encInt f n.toInt
  | .imm n, .halves f => encInt f n.toInt * 65537
  | _, _ => x.toNat

/-- A float instruction with a register destination (R90): widths of the destination and of the sources in use, what
their immediates stand for, and `F` on their bits. -/
def fltBody (f : VF) (dw aw bw cw : Nat) (ka kb kc : ImmK) (F : Nat → Nat → Nat → Nat × Flg) (s0 s : State) (ik : Nat) :
    Ev State :=
  vBody f dw aw bw cw (fun a b c => F (immBits ka f.a a) (immBits kb f.b b) (immBits kc f.c c)) s0 s ik
def execFlt (f : VF) (dw aw bw cw : Nat) (ka kb kc : ImmK) (F : Nat → Nat → Nat → Nat × Flg) (s : State) :
    Host.Outcome State Fault Refusal :=
  .next (issue f.g 8 (fltBody f dw aw bw cw ka kb kc F) s)

/-- One, two and three sources of type `.f32`. -/
def execF1 (f : VF) (F : Num → Nat × Flg) (s : State) : Host.Outcome State Fault Refusal :=
  execFlt f 1 1 0 0 (.flt .f32) .bits .bits (fun a _ _ => F (Fmt.val .f32 a)) s
def execF2 (f : VF) (F : Num → Num → Nat × Flg) (s : State) : Host.Outcome State Fault Refusal :=
  execFlt f 1 1 1 0 (.flt .f32) (.flt .f32) .bits (fun a b _ => F (Fmt.val .f32 a) (Fmt.val .f32 b)) s
def execF3 (f : VF) (F : Num → Num → Num → Nat × Flg) (s : State) : Host.Outcome State Fault Refusal :=
  execFlt f 1 1 1 1 (.flt .f32) (.flt .f32) (.flt .f32)
    (fun a b c => F (Fmt.val .f32 a) (Fmt.val .f32 b) (Fmt.val .f32 c)) s

def execFadd (f : VF) (m : RMode) (s : State) : Host.Outcome State Fault Refusal := execF2 f (fpAdd .f32 m) s
def execFsub (f : VF) (m : RMode) (s : State) : Host.Outcome State Fault Refusal :=
  execF2 f (fun a b => fpAdd .f32 m a b.negate) s
def execFmul (f : VF) (m : RMode) (s : State) : Host.Outcome State Fault Refusal := execF2 f (fpMul .f32 m) s
def execFfma (f : VF) (m : RMode) (s : State) : Host.Outcome State Fault Refusal := execF3 f (fpFma .f32 m) s
/-- R92. -/
def execFmin (f : VF) (s : State) : Host.Outcome State Fault Refusal :=
  execFlt f 1 1 1 0 (.flt .f32) (.flt .f32) .bits (fun a b _ => fpMinMax .f32 false a b) s
def execFmax (f : VF) (s : State) : Host.Outcome State Fault Refusal :=
  execFlt f 1 1 1 0 (.flt .f32) (.flt .f32) .bits (fun a b _ => fpMinMax .f32 true a b) s
/-- R93. -/
def execFcmp (f : VF) (c : FCond) (s : State) : Host.Outcome State Fault Refusal :=
  execCmpV f 1 (fun a b => fpCmp .f32 c (immBits (.flt .f32) f.a a) (immBits (.flt .f32) f.b b)) s
/-- R94. -/
def execFclass (f : VF) (s : State) : Host.Outcome State Fault Refusal :=
  execFlt f 1 1 0 0 (.flt .f32) .bits .bits (fun a _ _ => (fpClass a, fNone)) s

/-! ## Special functions (R95) -/

def execFrcp (f : VF) (s : State) : Host.Outcome State Fault Refusal := execF1 f (fpDiv .f32 .rne (.fin false 1 0)) s
def execFrsq (f : VF) (s : State) : Host.Outcome State Fault Refusal := execF1 f (fpRsqrt .f32) s
def execFsqrt (f : VF) (m : RMode) (s : State) : Host.Outcome State Fault Refusal := execF1 f (fpSqrt .f32 m) s
def execFdiv (f : VF) (m : RMode) (s : State) : Host.Outcome State Fault Refusal := execF2 f (fpDiv .f32 m) s
def execFexp2 (f : VF) (s : State) : Host.Outcome State Fault Refusal := execF1 f fpExp2 s
def execFlog2 (f : VF) (s : State) : Host.Outcome State Fault Refusal := execF1 f fpLog2 s
def execFtanh (f : VF) (s : State) : Host.Outcome State Fault Refusal := execF1 f fpTanh s

/-! ## Packed halves (R91, R92) -/

/-- The half format. -/
def halfFmt (bf : Bool) : Fmt := if bf then .bf16 else .f16
/-- An operation on both halves; the flags are combined by or. -/
def onHalves (F : Nat → Nat → Nat → Nat × Flg) (a b c : Nat) : Nat × Flg :=
  let lo := F (a % 65536) (b % 65536) (c % 65536)
  let hi := F (a / 65536 % 65536) (b / 65536 % 65536) (c / 65536 % 65536)
  (lo.1 + 65536 * hi.1, lo.2 ||| hi.2)
/-- A packed instruction of two sources, or three. -/
def execPk (f : VF) (bf : Bool) (cw : Nat) (F : Nat → Nat → Nat → Nat × Flg) (s : State) :
    Host.Outcome State Fault Refusal :=
  let k := ImmK.halves (halfFmt bf)
  execFlt f 1 1 1 cw k k k (onHalves F) s
def execPfadd (f : VF) (bf : Bool) (m : RMode) (s : State) : Host.Outcome State Fault Refusal :=
  let h := halfFmt bf
  execPk f bf 0 (fun a b _ => fpAdd h m (Fmt.val h a) (Fmt.val h b)) s
def execPfmul (f : VF) (bf : Bool) (m : RMode) (s : State) : Host.Outcome State Fault Refusal :=
  let h := halfFmt bf
  execPk f bf 0 (fun a b _ => fpMul h m (Fmt.val h a) (Fmt.val h b)) s
def execPfma (f : VF) (bf : Bool) (m : RMode) (s : State) : Host.Outcome State Fault Refusal :=
  let h := halfFmt bf
  execPk f bf 1 (fun a b c => fpFma h m (Fmt.val h a) (Fmt.val h b) (Fmt.val h c)) s
def execPfmin (f : VF) (bf : Bool) (s : State) : Host.Outcome State Fault Refusal :=
  execPk f bf 0 (fun a b _ => fpMinMax (halfFmt bf) false a b) s
def execPfmax (f : VF) (bf : Bool) (s : State) : Host.Outcome State Fault Refusal :=
  execPk f bf 0 (fun a b _ => fpMinMax (halfFmt bf) true a b) s

/-! ## FP64 (R91 to R93) -/

/-- An FP64 instruction of two sources, or three. -/
def execD (f : VF) (cw : Nat) (F : Nat → Nat → Nat → Nat × Flg) (s : State) : Host.Outcome State Fault Refusal :=
  execFlt f 2 2 2 cw (.flt .f64) (.flt .f64) (.flt .f64) F s
def execDadd (f : VF) (m : RMode) (s : State) : Host.Outcome State Fault Refusal :=
  execD f 0 (fun a b _ => fpAdd .f64 m (Fmt.val .f64 a) (Fmt.val .f64 b)) s
def execDmul (f : VF) (m : RMode) (s : State) : Host.Outcome State Fault Refusal :=
  execD f 0 (fun a b _ => fpMul .f64 m (Fmt.val .f64 a) (Fmt.val .f64 b)) s
def execDfma (f : VF) (m : RMode) (s : State) : Host.Outcome State Fault Refusal :=
  execD f 2 (fun a b c => fpFma .f64 m (Fmt.val .f64 a) (Fmt.val .f64 b) (Fmt.val .f64 c)) s
def execDmin (f : VF) (s : State) : Host.Outcome State Fault Refusal :=
  execD f 0 (fun a b _ => fpMinMax .f64 false a b) s
def execDmax (f : VF) (s : State) : Host.Outcome State Fault Refusal :=
  execD f 0 (fun a b _ => fpMinMax .f64 true a b) s
def execDcmp (f : VF) (c : FCond) (s : State) : Host.Outcome State Fault Refusal :=
  execCmpV f 2 (fun a b => fpCmp .f64 c (immBits (.flt .f64) f.a a) (immBits (.flt .f64) f.b b)) s

/-! ## Conversions and packing (R96 to R98) -/

def execCvt (f : VF) (dt st : FullTy) (m : RMode) (s : State) : Host.Outcome State Fault Refusal :=
  execFlt f (FullTy.regs dt) (FullTy.regs st) 0 0 .bits .bits .bits (fun a _ _ => fCvt dt st m a) s
/-- A 32-bit source read as bits. -/
def bits32 (x : Nat) : Nat := x % 2 ^ 32
def execPack (f : VF) (t : FullTy) (s : State) : Host.Outcome State Fault Refusal :=
  execFlt f 1 1 1 0 .bits .bits .bits (fun a b _ => (fPack t (bits32 a) (bits32 b), fNone)) s
def execUnpk (f : VF) (t : FullTy) (h : Bool) (s : State) : Host.Outcome State Fault Refusal :=
  execFlt f 1 1 0 0 .bits .bits .bits (fun a _ _ => (fUnpk t h (bits32 a), fNone)) s

/-! ## Block scales (R99 to R101) -/

def execScac (f : VF) (m : RMode) (s : State) : Host.Outcome State Fault Refusal :=
  execFlt f 1 1 1 1 (.flt .f32) .bits (.flt .f32) (fun a b c => fScac m a b c) s
/-- The codebook registers of an item's team (R211). -/
def State.cbsOf (s : State) (ik : Nat) : List (BitVec 256) :=
  match AMap.find s.teams (s.teamOf ik) with
  | some t => t.cb
  | none => List.replicate 4 0
def execQnt (f : VF) (t : QTy) (m : RMode) (s : State) : Host.Outcome State Fault Refusal :=
  .next (issue f.g 8 (fun s0 u ik =>
    fltBody f 1 1 1 0 (.flt .f32) .bits .bits (fun a b _ => fQnt (s0.cbsOf ik) t m a b) s0 u ik) s)
/-- DQNT (R89). An immediate A stands for its sign-extended bits, a code and no float value (log entry 56). -/
def execDqnt (f : VF) (t : QTy) (s : State) : Host.Outcome State Fault Refusal :=
  .next (issue f.g 8 (fun s0 u ik =>
    fltBody f 1 1 1 0 .bits .bits .bits (fun a b _ => fDqnt (s0.cbsOf ik) t a b) s0 u ik) s)

end Sys2Proof.Machine
end

