-- ==== Sys2Proof/Machine/Finish.lean ====
section
/-! DEFINITION. Instances of position-dependent words (R184 to R192, R207, R248), the barriers that count live items (R252,
R361), and the end of an item (R49, R106). -/

namespace Sys2Proof.Machine

/-! ## Going on after a wait -/

/-- The wait of an item that began at `at_` becomes `w`. -/
def State.setWaitAt (s : State) (ik : Nat) (at_ : Spot) (w : Wait) : State :=
  s.updItem ik (fun it => { it with waits := it.waits.map (fun x => if x.1 = at_ then (at_, w) else x) })
/-- Item `ik` has done with the word where it began to wait: it goes on if it stands there, else once it is there again. -/
def State.goOn (s : State) (ik : Nat) (at_ : Spot) : State :=
  match s.item? ik with
  | none => s
  | some it => if it.spot = at_ then (s.clearWait ik).advance ik 8 else s.setWaitAt ik at_ .done
/-- The word at which item `ik` began to wait traps it now, or once it is there again. -/
def State.failAt (s : State) (ik : Nat) (at_ : Spot) (t : Trap) : State :=
  match s.item? ik with
  | none => s
  | some it => if it.spot = at_ then (s.clearWait ik).takeTrap ik t at_.pc else s.setWaitAt ik at_ (.fault t)

/-! ## Instances (R184, R185) -/

/-- Whether position `p` of a group holds a live item, materialised or in a span (R49). -/
def State.liveAt (s : State) (gk p : Nat) : Bool :=
  let lk := launchOfGroup gk
  let i := (gk % 2 ^ 36) * 16 + p
  (s.item? (itemKey lk i)).isSome || !(s.spansIn lk i (i + 1)).isEmpty
/-- Whether every live position of the membership mask has been accounted for. -/
def Exch.accounted (s : State) (gk : Nat) (e : Exch) : Bool :=
  (List.range 16).all (fun p =>
    !e.mask.getLsbD p || !s.liveAt gk p || e.passed.getLsbD p || e.joined.any (fun j => j.pos == p))

/-- A participant receives its result; its bundle at the join says whether a `g` destination is written (R50, log entry
54). -/
def State.deliver (s : State) (i : Instr) (js : List Joined) (j : Joined) : State :=
  let r := exRes i js j
  let n := exRegs i
  let t := match r.poison, j.dst with
    | some p, .v _ => (List.range n).foldl (fun t k => t.setReg j.item (j.dst.plus k) ⟨p &&& 0x3F, .poison, none⟩) s
    | some p, .g _ =>
      if j.leads then (List.range n).foldl (fun t k => t.setReg j.item (j.dst.plus k) ⟨p &&& 0x3F, .poison, none⟩) s else s
    | none, .v _ => s.setRegs j.item j.dst (parts r.val n)
    | none, .g _ => if j.leads then s.setRegs j.item j.dst (parts r.val n) else s
  t

/-- The effect of a complete exchange: flags once, then each participant's destination in ascending position,
so that the highest stands in a `g` register that several write (log entry 54), then each goes on. -/
def State.finishExchange (s : State) (gk : Nat) (e : Exch) (js : List Joined) : State :=
  let s := s.addFlags (gk * 16) (exFlags e.ins js)
  let s := js.foldl (fun t j => t.deliver e.ins js j) s
  js.foldl (fun t j => t.goOn j.item ⟨e.pc, j.lvl⟩) s

/-- A complete MMA: accepted, or its first failing check traps every participant (R207). -/
def State.finishMma (s : State) (gk : Nat) (e : Exch) (c : MmaC) (js : List Joined) : State :=
  match s.team? (gk * 16), js with
  | some tm, j :: _ =>
    match mmaCheck tm c j.b false with
    | some t => js.foldl (fun s k => s.failAt k.item ⟨e.pc, k.lvl⟩ t) s
    | none => js.foldl (fun s k => s.goOn k.item ⟨e.pc, k.lvl⟩) (s.acceptMma gk e.pc c ((js.map (fun k => posBit k.item)).foldl (· ||| ·) 0) j.b)
  | _, _ => s

/-! ## Cluster products (R248) -/

/-- Cores a local instance names, its own included. -/
def MmacLocal.cores (l : MmacLocal) : List Nat :=
  (List.range 8).map (clusterOf l.core * 8 + ·) |>.filter (fun c => l.cmask.getLsbD (c % 8) || c == l.core)
/-- Whether two local instances may join. -/
def MmacLocal.suits (l m : MmacLocal) : Bool := launchOfGroup l.grp == launchOfGroup m.grp && l.tag == m.tag
/-- The first local instance of core `c` that joins with `l`. -/
def State.mmacAt (s : State) (l : MmacLocal) (c : Nat) : Option MmacLocal :=
  s.mmacs.find? (fun m => m.core == c && m.suits l)
/-- Columns of the tile of a local instance. -/
def State.mmacCols (s : State) (l : MmacLocal) : Nat :=
  match s.team? (l.grp * 16) with
  | some tm => ((tm.tile l.c.tile.toNat).map (·.cols)).getD 16
  | none => 16
/-- The first failing line of B: its check, for lines from `a` on. -/
def State.bLines (s : State) (j : Nat) (a : W64) : Nat → Option (Option Trap)
  | 0 => none
  | n + 1 =>
    match s.engXlat j a false with
    | .fail r => some (some (if r = 6 then mkTrap cALIAS 0 else memFault r a))
    | .stall => some none
    | _ => s.bLines j (a + 128) n
/-- What a complete cluster instance comes to: `none` while a line of B stalls, else its trap or acceptance. -/
def State.clusterCheck (s : State) (x : MmacLocal) (ls : List MmacLocal) : Option (Option Trap) :=
  let cols := s.mmacCols x
  if s.merging (jobOfLaunch (launchOfGroup x.grp)) then none
  else if !ls.all (fun l => l.cmask == x.cmask && l.cmask.getLsbD (l.core % 8)) then some (some (mkTrap cCLU 1))
  else if !ls.all (fun l => l.c.kind == x.c.kind && l.c.sat == x.c.sat && l.c.va == x.c.va && l.c.vb == x.c.vb &&
      l.same && l.b == x.b && s.mmacCols l == cols) then some (some (mkTrap cCLU 2))
  else if x.b.toNat % 128 ≠ 0 then some (some (addrTrap cMISALIGN 0 x.b))
  else
    match s.bLines (jobOfLaunch (launchOfGroup x.grp)) x.b cols with
    | none => some none
    | some none => none
    | some (some t) => some (some t)
/-- The lines of B taken into the L1 of the core that reads them for all (R149, R250). -/
def State.fetchB (s : State) (c j : Nat) (a : W64) : Nat → State
  | 0 => s
  | n + 1 =>
    let s := match s.engXlat j a false with
      | .ok x => s.fetchLine c j x 4
      | _ => s
    s.fetchB c j (a + 128) n
/-- Bytes of B from `a` on, as core `c` reads them, with the offsets of damaged ones. -/
def State.readB (s : State) (c j : Nat) (a : W64) (n : Nat) : List (BitVec 8) × List Nat :=
  let r := (List.range n).map (fun i =>
    let p := a + BitVec.ofNat 64 i
    match s.engXlat j p false with
    | .ok x => let b := s.readAt c j none x 1; (b.1.getD 0 0, b.2)
    | _ => (Config.remoteByte (s.free + i), false))
  (r.map (·.1), (List.range n).filter (fun i => (r.getD i (0, false)).2))
/-- Forms the cluster instance of local instance `x` if its peers have come. -/
def State.formCluster (s : State) (x : MmacLocal) : State :=
  let ls := x.cores.map (s.mmacAt x)
  if !ls.all (·.isSome) || !s.mmacs.contains x then s
  else
    let ls := ls.filterMap id
    if !ls.contains x then s
    else
    match s.clusterCheck x ls with
    | none => s
    | some (some t) =>
      let s : State := { s with mmacs := s.mmacs.filter (fun m => !ls.contains m) }
      ls.foldl (fun s l => l.items.foldl (fun s k => s.failAt k.1 ⟨l.pc, k.2⟩ t) s) s
    | some none =>
      let s : State := { s with mmacs := s.mmacs.filter (fun m => !ls.contains m) }
      let s := ls.foldl (fun s l => l.items.foldl (fun s k => s.flushItem k.1) s) s
      let reader := ((ls.map (·.core)).min?).getD x.core
      let n := 128 * s.mmacCols x
      let s := s.fetchB reader (jobOfLaunch (launchOfGroup x.grp)) x.b (s.mmacCols x)
      let (bs, bad) := s.readB reader (jobOfLaunch (launchOfGroup x.grp)) x.b n
      let key := s.fresh
      let s : State := { s with bops := AMap.put s.bops key ⟨ls.length, bs, bad⟩, fresh := s.fresh + 1, free := s.free + n }
      ls.foldl (fun s l => l.items.foldl (fun s k => s.goOn k.1 ⟨l.pc, k.2⟩) (s.acceptMmac l key)) s
/-- Every cluster instance that can form, oldest local instance first. -/
def State.formClusters (s : State) : State := s.mmacs.foldl (fun t x => t.formCluster x) s

/-- A complete local instance of MMAC: it waits for its peers, or its first failing check traps its participants. -/
def State.finishMmac (s : State) (gk : Nat) (e : Exch) (c : MmaC) (js : List Joined) : State :=
  match s.team? (gk * 16), js with
  | some tm, j :: _ =>
    match mmaCheck tm c j.b true with
    | some t => js.foldl (fun s k => s.failAt k.item ⟨e.pc, k.lvl⟩ t) s
    | none =>
      let l : MmacLocal :=
        { core := s.coreOf (gk * 16), grp := gk, tag := j.m.extractLsb' 24 8, cmask := j.m.extractLsb' 16 8, desc := j.b,
          b := j.a, c := c, posns := (js.map (fun k => posBit k.item)).foldl (· ||| ·) 0, items := js.map (fun k => (k.item, k.lvl)),
          pc := e.pc, same := js.all (fun k => k.a == j.a) }
      let s := js.foldl (fun s k => s.setWaitAt k.item ⟨e.pc, k.lvl⟩ (.mmac l.tag.toNat)) s
      let s : State := { s with mmacs := s.mmacs ++ [l] }
      s.formClusters
  | _, _ => s

/-- Finishes an instance of group `gk` whose members are all accounted for. -/
def State.tryFinish (s : State) (gk : Nat) (e : Exch) : State :=
  if !e.accounted s gk then s
  else
    let s := s.updGroup gk (fun g => { g with exch := g.exch.filter (fun x => x.pc != e.pc) })
    let js := sortBy (fun a b => decide (a.pos < b.pos)) e.joined
    let s := { s with moved := true }
    match e.ins with
    | .mma _ c => s.finishMma gk e c js
    | .mmac _ c => s.finishMmac gk e c js
    | _ => s.finishExchange gk e js
/-- Finishes every instance of a group that can be, after an item of it has ended. -/
def State.recheckGroup (s : State) (gk : Nat) : State :=
  (s.groupD gk).exch.foldl (fun t e => t.tryFinish gk e) s

/-- Item `ik` passes the word at `pc` with a false guard: it is accounted for in the open instance, or leaves a pass
record. -/
def State.passWord (s : State) (ik : Nat) (pc : W64) : State :=
  let gk := groupOf ik
  match (s.groupD gk).exch.find? (fun e => e.pc == pc) with
  | some e =>
    let e2 := { e with passed := e.passed ||| posBit ik }
    let s := s.updGroup gk (fun g => { g with exch := g.exch.map (fun x => if x.pc = pc then e2 else x) })
    s.tryFinish gk e2
  | none =>
    s.updGroup gk (fun g => { g with passes := (pc, posOf ik) :: g.passes.filter (fun p => p != (pc, posOf ik)) })

/-- A member joins the instance at `pc`, or opens one and takes the pass records there; a product that opens reserves its
place in the in-flight count (R140). Of both reasons of `GRP_MASK`, the item's own position comes first (log entry 54). A
position that has joined already, at a handler level further out, joins no second time: it waits (log entry 54). -/
def State.joinWord (s : State) (ik : Nat) (pc : W64) (i : Instr) (mask : BitVec 16) (j : Joined) : Ev State := do
  let gk := groupOf ik
  orTrap (mask.getLsbD (posOf ik)) (mkTrap cGRPMASK 1)
  match (s.groupD gk).exch.find? (fun e => e.pc == pc) with
  | some e => do
    orTrap (e.mask == mask) (mkTrap cGRPMASK 2)
    orWait (!e.joined.any (fun k => k.pos == j.pos))
    let e2 := { e with joined := j :: e.joined, passed := e.passed &&& ~~~(posBit ik) }
    let s := s.updGroup gk (fun g => { g with exch := g.exch.map (fun x => if x.pc = pc then e2 else x) })
    .ok ((s.setWait ik .joined).tryFinish gk e2)
  | none => do
    let e : Exch := ⟨pc, i, mask, [j], (((s.groupD gk).passes.filter (fun p => p.1 == pc && p.2 != posOf ik)).map
      (fun p => 1#16 <<< p.2)).foldl (· ||| ·) 0⟩
    orWait (!e.isProduct || decide (s.inflightRes gk < 63))
    let s := s.updGroup gk (fun g => { g with exch := g.exch ++ [e], passes := g.passes.filter (fun p => p.1 != pc) })
    .ok ((s.setWait ik .joined).tryFinish gk e)

/-- The issue of a position-dependent word: items whose guard is false pass, then the others join, wait or go on. `f` reads
a member's operands. A member whose instance another item of the bundle has completed has gone on already. -/
def issueExch (i : Instr) (g : Guard) (f : State → Nat → Item → Group → Ev (BitVec 16 × Joined)) (s : State) : State :=
  let pc := s.cur.pc
  let s1 := (s.inactive g).foldl (fun t ik => (t.passWord ik pc).advance ik 8) s
  (s.active g).foldl (runItem (s.active g) (fun s0 t ik => do
    let (it, _) ← getItem t ik
    let (it0, g0) ← getItem s0 ik
    if it.spot ≠ it0.spot then .ok t
    else match it.wait? with
    | some .joined => .error .wait
    | some .done => .ok ((t.clearWait ik).advance ik 8)
    | some (.mmac _) =>
      let u := t.formClusters
      if u = t then .error .wait else .ok u
    | some (.fault tr) => .ok ((t.clearWait ik).takeTrap ik tr pc)
    | _ => do
      let (m, j) ← f s0 ik it0 g0
      t.joinWord ik pc i m j) s) s1

/-! ## The exchanges (R186 to R191) -/

/-- What an immediate A of a reduction stands for (R28). -/
def redImm : RedOp → ImmK
  | .fadd _ | .fmin | .fmax => .flt .f32
  | _ => .bits
/-- Reads a member's operands: A, B of the given widths (0 where unused), the mask in C. `ka` is what an immediate A stands
for, `trapA` and `trapB` say which POISON traps. Whether the bundle holds the leader (R50) is judged here, at the join (log
entry 54). -/
def exRead (f : VF) (aw bw dw : Nat) (ka : ImmK) (trapA trapB : Bool) (pred : Item → Bool) (s : State) (ik : Nat) (it : Item)
    (g : Group) : Ev (BitVec 16 × Joined) := do
  let q := s.quotaOf (launchOf ik)
  orWait (!dstBusy q it g (s.leads ik) f.d dw)
  let a ← readUse q it g f.a aw f.wa
  let b ← readUse q it g f.b bw f.wb
  let m ← readUse q it g f.c 1 f.wc
  match ← dstRef q it f.d dw with
  | none => .error .wait
  | some r => do
    noPoison s ik (if trapA then a.2 else none)
    noPoison s ik (if trapB then b.2 else none)
    noPoison s ik m.2
    .ok ((lo32 m.1).setWidth 16, ⟨ik, posOf ik, BitVec.ofNat 64 (immBits ka f.a a.1), a.2, lo32 b.1, lo32 m.1, pred it,
      s.leads ik, r, it.level⟩)

def execShfl (f : VF) (m : ShflMode) (s : State) : Host.Outcome State Fault Refusal :=
  .next (issueExch (.shfl f m) f.g (exRead f 1 (if m = .bcast then 0 else 1) 1 .bits false true (fun _ => false)) s)
def execVote (f : VF) (m : VoteMode) (p : BitVec 3) (s : State) : Host.Outcome State Fault Refusal :=
  .next (issueExch (.vote f m p) f.g (exRead f 0 0 1 .bits false false (fun it => it.pred p)) s)
def execElect (f : VF) (s : State) : Host.Outcome State Fault Refusal :=
  .next (issueExch (.elect f) f.g (exRead f 0 0 1 .bits false false (fun _ => false)) s)
def execMatchg (f : VF) (wide : Bool) (s : State) : Host.Outcome State Fault Refusal :=
  .next (issueExch (.matchg f wide) f.g (exRead f (wideRegs wide) 0 1 .bits true false (fun _ => false)) s)
def execRedg (f : VF) (op : RedOp) (s : State) : Host.Outcome State Fault Refusal :=
  .next (issueExch (.redg f op) f.g (exRead f (RedOp.regs op) 0 (RedOp.regs op) (redImm op) false false (fun _ => false)) s)
def execScang (f : VF) (op : RedOp) (s : State) : Host.Outcome State Fault Refusal :=
  .next (issueExch (.scang f op) f.g (exRead f (RedOp.regs op) 0 (RedOp.regs op) (redImm op) false false (fun _ => false)) s)

/-- Reads a member's operands of MMA or MMAC: the descriptor, the mask word, and B's address. -/
def mmaRead (f : EF) (cluster : Bool) (s : State) (ik : Nat) (it : Item) (g : Group) : Ev (BitVec 16 × Joined) := do
  acqGate s ik
  let d ← readE s ik it g f.o1 1
  let m ← readE s ik it g f.o2 1
  let b ← if cluster then readE s ik it g f.o3 2 else .ok 0
  acquireGate s ik
  .ok ((lo32 m).setWidth 16, ⟨ik, posOf ik, b, none, lo32 d, lo32 m, false, false, .v 0, it.level⟩)
/-- MMA (R206, R207) and MMAC (R247, R248). -/
def execMma (f : EF) (c : MmaC) (s : State) : Host.Outcome State Fault Refusal :=
  .next (issueExch (.mma f c) f.g (mmaRead f false) s)
def execMmac (f : EF) (c : MmaC) (s : State) : Host.Outcome State Fault Refusal :=
  .next (issueExch (.mmac f c) f.g (mmaRead f true) s)

/-! ## Cluster barriers and launch barriers (R252, R361) -/

def State.cbarD (s : State) (k : Nat) : CBar := AMap.getD s.cbars k CBar.reset
def State.setCBar (s : State) (k : Nat) (b : CBar) : State := { s with cbars := AMap.put s.cbars k b }
/-- The items of team `tk`. -/
def State.teamItems (s : State) (tk : Nat) : List Nat :=
  match AMap.find s.teams tk with
  | some t =>
    let lo := itemKey t.launch t.base
    (AMap.range s.items lo (lo + t.size)).map (·.1)
  | none => []
/-- Whether a live item of team `tk` stands in a span, where it has arrived at no barrier (R126). -/
def State.teamInSpan (s : State) (tk : Nat) : Bool :=
  let T := s.teamSize (tk / 2 ^ 36)
  let b := tk % 2 ^ 36 * T
  !(s.spansIn (tk / 2 ^ 36) b (b + T)).isEmpty
/-- Team `tk` arrives at cluster barrier `k` once all its live items have; the arrival that makes up the count completes
the generation. -/
def State.cbarTeam (s : State) (k tk : Nat) : State :=
  let b := s.cbarD k
  let l := s.teamItems tk
  if b.teams.contains tk || l.isEmpty || !l.all b.items.contains || s.teamInSpan tk then s
  else if b.arrived + 1 = b.expect then s.setCBar k { CBar.reset with gen := b.gen + 1 }
  else s.setCBar k { b with arrived := b.arrived + 1, teams := b.teams ++ [tk] }
/-- The barrier's arrivals are withdrawn (R252). -/
def State.withdrawCBar (s : State) (lk : Nat) : State :=
  { s with cbars := s.cbars.map (fun e => (e.1, if e.2.owner = some lk then { CBar.reset with gen := e.2.gen } else e.2)) }

/-- An LBAR or PHBND instance of launch `lk` completes when every item that has not ended has arrived. A PHBND ends the
job's phase, behind any whose merge is under way. -/
def State.lbarCheck (s : State) (lk : Nat) : State :=
  match AMap.find s.launches lk with
  | none => s
  | some l =>
    let n := l.card.count - l.ended
    let s := if !l.lbar.isEmpty && n ≤ l.lbar.length then
        s.updLaunch lk (fun l => { l with lbar := [], lbarN := l.lbarN + 1 }) else s
    if !l.phb.isEmpty && n ≤ l.phb.length then
      (s.updLaunch lk (fun l => { l with phb := [] })).updJob (jobOfLaunch lk) (fun j =>
        if j.ending.isEmpty then { j with ending := [lk], phase := j.phase + 1, merge := true, mark := s.fresh }
        else { j with ending := j.ending ++ [lk] })
    else s

/-! ## The end of an item (R49, R106) -/

/-- Whether none of an item's registers is EMPTY and its group's in-flight count is zero. -/
def State.mayEnd (s : State) (ik : Nat) : Bool :=
  match s.item? ik with
  | some it => !anyEmpty it.v && (s.groupD (groupOf ik)).inflight == 0
  | none => false
/-- The records that the items from `lo` to before `hi` hold on core `c` are freed (R228). -/
def State.freeRecords (s : State) (c lo hi : Nat) : State :=
  let hit := fun (r : PRec) => r.held && decide (lo ≤ r.item) && decide (r.item < hi)
  { s.updCore c (fun k => { k with poison := k.poison.map (fun e => (e.1, if hit e.2 then
      { e.2 with held := false, freed := s.fresh } else e.2)) }) with fresh := s.fresh + 1 }
/-- The state without item `ik`: its records are freed, it is counted as ended, and it is in no instance. -/
def State.dropItem (s : State) (ik : Nat) : State :=
  let s := s.freeRecords (s.coreOf ik) ik (ik + 1)
  let s : State := { s.leave ik with items := AMap.del s.items ik, moved := true }
  let s := s.updLaunch (launchOf ik) (fun l => { l with
    ended := l.ended + 1, lbar := l.lbar.filter (· != ik), phb := l.phb.filter (· != ik) })
  s.updGroup (groupOf ik) (fun g => { g with
    exch := g.exch.map (fun e => { e with joined := e.joined.filter (fun j => j.item != ik) })
    passes := g.passes.filter (fun p => p.2 != posOf ik) })
/-- What waited for item `ik` of team `tk` is counted again. -/
def State.recount (s : State) (ik tk : Nat) : State :=
  let s := s.recheckGroup (groupOf ik)
  let s := s.cbars.foldl (fun t e =>
    if e.2.items.contains ik || e.2.owner == some (launchOf ik) then t.cbarTeam e.1 tk else t) s
  s.lbarCheck (launchOf ik)
/-- Item `ik` ends: its waiting stores are performed, its records freed, its group's instances and its barriers counted
again, and a group without items gives up its instances. -/
def State.endItem (s : State) (ik : Nat) : State :=
  let t := ((s.flushItem ik).dropItem ik).recount ik (s.teamOf ik)
  if (t.members (groupOf ik)).isEmpty then { t with groups := AMap.del t.groups (groupOf ik) } else t

/-- Whether an item at its word waits only for its end: at an EXIT, after KDEP, or after CANCELLED. -/
def Item.ending (it : Item) : Bool := it.wait? == some .ending
/-- The item's program is over: it ends when it may, and stays at its word until then (R106). -/
def State.beginEnd (s : State) (ik : Nat) : State :=
  if s.mayEnd ik then s.endItem ik else { s.setWait ik .ending with moved := true }
/-- EXIT. -/
def execExit (g : Guard) (s : State) : Host.Outcome State Fault Refusal :=
  .next (issueRaw g 8 (fun s0 t ik => do
    let (it, _) ← getItem s0 ik
    orWait (!it.ending || t.mayEnd ik)
    .ok (t.beginEnd ik)) s)
/-- Whether a held end may take effect at this boundary (R224): the item's team is resident, its group is neither halted
nor stopped nor asked to be, and no trap waits for the item. Pre-emption comes first where it has been asked. -/
def State.endsNow (s : State) (ik : Nat) : Bool :=
  let g := s.groupD (groupOf ik)
  let tk := s.teamOf ik
  (match AMap.find s.teams tk with | some t => t.core.isSome | none => false) &&
    g.halt.isNone && !g.haltReq && !g.stopped && !(s.mustLeave tk && s.groupQuiet (groupOf ik)) && !s.trapDue ik
/-- An item whose program is over ends (R106, R143, R225). -/
def execItemEnd (item : Nat) (s : State) : Host.Outcome State Fault Refusal :=
  .next (match s.item? item with
    | some it => if it.ending && s.mayEnd item && s.endsNow item then s.endItem item else s
    | none => s)

end Sys2Proof.Machine
end

