-- ==== Sys2Proof/Machine/Span.lean ====
section
/-! DEFINITION. Spans (R120 to R133): their forms, materialisation and cuts, joining, and an instruction executed once for
a span's whole range. -/

namespace Sys2Proof.Machine

/-! ## Entries and forms -/

/-- Key of span-table entry `e` of core `c`; keys from `savedSpan` on hold saved spans (R231). -/
def spanKey (c e : Nat) : Nat := c * 32 + e
def savedSpan : Nat := Config.cores * 32
def coreOfSpan (k : Nat) : Nat := k / 32
/-- Spans on core `c`. -/
def State.spansOn (s : State) (c : Nat) : AMap Span := AMap.range s.spans (c * 32) (c * 32 + 32)
/-- The lowest free entry of core `c`. -/
def State.freeSpan (s : State) (c : Nat) : Option Nat :=
  ((List.range 32).map (spanKey c)).find? (fun k => (AMap.find s.spans k).isNone)

/-- Base and stride of a form, and the form normalised (R121). -/
def Form.base : Form → W32
  | .u c => c
  | .a b _ => b
def Form.stride : Form → W32
  | .u _ => 0
  | .a _ s => s
def Form.isU : Form → Bool
  | .u _ => true
  | .a _ s => s == 0
def mkForm (b s : W32) : Form := if s = 0 then .u b else .a b s
/-- The value `d` places after the first item. -/
def Form.at (f : Form) (d : Nat) : W32 := f.base + f.stride * BitVec.ofNat 32 d
/-- A predicate form's value for item `k`; the form over [lo, hi) normalised. -/
def PForm.at (p : PForm) (k : Nat) : Bool :=
  match p with
  | .u b => b
  | .i f l => decide (f ≤ k) && decide (k < l)
def mkPForm (f l lo hi : Nat) : PForm :=
  let f := Nat.max f lo
  let l := Nat.min l hi
  if l ≤ f then .u false else if f = lo ∧ l = hi then .u true else .i f l
def PForm.clip (p : PForm) (lo hi : Nat) : PForm :=
  match p with
  | .u b => .u b
  | .i f l => mkPForm f l lo hi
/-- The form of a truth set over [lo, hi): U or I where it is one run, empty or full; none for M (R124). -/
def pformOf (t : Nat → Bool) (lo hi : Nat) : Option PForm :=
  let ks := ((List.range (hi - lo)).map (lo + ·)).filter t
  match ks with
  | [] => some (.u false)
  | f :: _ =>
    let l := f + ks.length
    if ks.getLastD f + 1 = l then some (mkPForm f l lo hi) else none

/-- The part [lo, hi) of a span. -/
def Span.part (e : Span) (lo hi : Nat) : Span :=
  { e with
    lo := lo
    hi := hi
    v := e.v.map (fun r => { r with form := mkForm (r.form.at (lo - e.lo)) r.form.stride })
    p := e.p.map (fun p => p.clip lo hi) }

/-- Item `k` of a span as it enters its group slot, in bundle `bid` (R127). -/
def Span.item (e : Span) (k bid : Nat) : Item :=
  { pc := e.pc
    v := e.v.map (fun r => ⟨r.form.at (k - e.lo), r.tag, r.claim⟩)
    p := BitVec.ofNat 8 (((List.range 8).map (fun j => if (e.p.getD j (.u (j == 0))).at k then 2 ^ j else 0)).sum)
    x := e.x
    h := e.h
    m := MRegs.zero
    skip := false
    bid := bid
    waits := e.waits
    pend := []
    cancel := e.cancel
    cancelled := false
    acqPoison := []
    full := [] }

/-- A span of items at their start (R122). -/
def Span.start (lk lo hi q quad age : Nat) (pc : W64) : Span :=
  { launch := lk, lo := lo, hi := hi, quad := quad, pc := pc
    v := List.replicate q ⟨.u 0, .full, none⟩
    p := .u true :: List.replicate 7 (.u false)
    x := List.replicate 4 (XReg.start q)
    g := List.replicate 64 Reg.zero
    h := HRegs.zero, fstat := 0, age := age, waiting := false, waits := [], cancel := false }

/-! ## Materialisation (R127) -/

/-- The span that holds item `i` of launch `lk`: on core `c`, or among `extra`, which have no entry. -/
def State.spanOf (s : State) (c : Nat) (extra : List Span) (lk i : Nat) : Option Span :=
  ((s.spansOn c).map (·.2) ++ extra).find? (fun e => e.launch == lk && decide (e.lo ≤ i) && decide (i < e.hi))
/-- Group slots for the groups of a resident team that gave theirs up. -/
def State.regainSlots (s : State) (tk : Nat) (need : List Nat) : Option State :=
  match AMap.find s.teams tk, need with
  | none, _ => none
  | some _, [] => some s
  | some t, j :: rest =>
    if (t.slots.getD j none).isSome then s.regainSlots tk rest
    else
      match takeSlots (s.slotsOn (t.core.getD 0) ((t.q0 + j) % 4)) t.quota 1 with
      | some (n :: _) =>
        ((s.updTeam tk (fun t => { t with slots := setAt t.slots j (some n) })).clearPages (t.core.getD 0)
          { t with slots := setAt (t.slots.map (fun _ => none)) j (some n) }).regainSlots tk rest
      | _ => none
termination_by structural need
/-- Puts a span in a free entry of core `c`; none without one. -/
def State.placePart (s : State) (c : Nat) (e : Span) : Option State :=
  (s.freeSpan c).map (fun k => { s with spans := AMap.put s.spans k { e with age := s.fresh }, fresh := s.fresh + 1 })
/-- The entry of core `c` whose span holds items of the launch both below `lo` and from `hi` on. -/
def State.around (s : State) (c lk lo hi : Nat) : Option (Nat × Span) :=
  (s.spansOn c).find? (fun e => e.2.launch == lk && decide (e.2.lo < lo) && decide (hi < e.2.hi))
/-- Items of [lo, hi) leave every span of core `c` of the launch; an emptied span frees its entry. A span that keeps items
on both sides needs a second entry; without one none leave. -/
def State.shrinkSpans (s : State) (c lk lo hi : Nat) : Option State :=
  let t := match s.around c lk lo hi with
    | some (_, e) => s.placePart c (e.part hi e.hi)
    | none => some s
  t.map (fun t => { t with spans := (t.spans.map (fun e =>
      if coreOfSpan e.1 = c ∧ e.2.launch = lk then
        if lo ≤ e.2.lo ∧ e.2.hi ≤ hi then []
        else if e.2.lo < lo ∧ lo < e.2.hi then [(e.1, e.2.part e.2.lo lo)]
        else if e.2.lo < hi ∧ hi < e.2.hi then [(e.1, e.2.part hi e.2.hi)]
        else [e]
      else [e])).flatten })
/-- The sticky flags that a group's items in spans have raised, those that have ended included (R56). -/
def State.groupFlags (s : State) (gk : Nat) : BitVec 5 :=
  let lk := launchOfGroup gk
  let lo := gk % 2 ^ 36 * 16
  (s.spansIn lk lo (lo + 16)).foldl (fun f e => f ||| e.2.fstat) (AMap.getD s.flagsLeft gk 0)
/-- The items of group `gk` enter its slot from the spans of core `c` and those of `extra`, with the uniform registers of
the leader's span and the flags of all of them (R127). -/
def State.enterGroup (s : State) (c : Nat) (extra : List Span) (gk : Nat) : State :=
  let lk := launchOfGroup gk
  let i0 := (gk % 2 ^ 36) * 16
  let l := (List.range 16).filterMap (fun p => (s.spanOf c extra lk (i0 + p)).map (fun e => (i0 + p, e)))
  match l with
  | [] => s
  | (_, e0) :: _ =>
    let bid := s.fresh
    let g := AMap.getD s.groups gk Group.start
    let g := { g with g := e0.g, fstat := l.foldl (fun f x => f ||| x.2.fstat) (g.fstat ||| s.groupFlags gk) }
    { s with
      fresh := s.fresh + 1
      flagsLeft := AMap.del s.flagsLeft gk
      groups := AMap.put s.groups gk g
      items := l.foldl (fun m x => AMap.put m (itemKey lk x.1) (x.2.item x.1 bid)) s.items }
/-- The team at item `base` of the launch takes its items out of the spans of core `c`, and out of `extra`; none where it
cannot be allocated. -/
def State.enterTeam (s : State) (c : Nat) (extra : List Span) (lk base : Nat) : Option State :=
  let T := s.teamSize lk
  let tk := teamKey lk base T
  let gs := (List.range (T / 16)).filter (fun j =>
    (List.range 16).any (fun p => (s.spanOf c extra lk (base + 16 * j + p)).isSome))
  let a := if (AMap.find s.teams tk).isSome then s.regainSlots tk gs else s.allocTeam lk base c
  a.bind (fun t =>
    (gs.foldl (fun u j => u.enterGroup c extra ((lk * 2 ^ 40 + base) / 16 + j)) t).shrinkSpans c lk base (base + T))
/-- Team `base` enters if it can and has items in a span. -/
def State.tryTeam (s : State) (c lk base : Nat) : State :=
  if (s.spansIn lk base (base + s.teamSize lk)).isEmpty then s
  else match s.enterTeam c [] lk base with
    | some t => { t with moved := true }
    | none => s
/-- Teams enter in ascending order, each that can be allocated (R127): once one cannot, no other of its launch can be
placed anew, and only teams that kept their resources enter. -/
def State.enterTeams (s : State) (c lk base hi : Nat) : Nat → State
  | 0 => s
  | n + 1 =>
    if hi ≤ base then s
    else
      match s.enterTeam c [] lk base with
      | some t => { t with moved := true }.enterTeams c lk (base + s.teamSize lk) hi n
      | none =>
        ((s.teamsOn c).filter (fun e => e.2.launch == lk && decide (base < e.2.base) && decide (e.2.base < hi))).foldl
          (fun t e => t.tryTeam c lk e.2.base) s
/-- Span `key` materialises at its instruction, as far as its teams can be allocated; what remains waits. -/
def State.materialise (s : State) (key : Nat) : State :=
  match AMap.find s.spans key with
  | none => s
  | some e =>
    let c := coreOfSpan key
    let T := s.teamSize e.launch
    let s := s.enterTeams c e.launch (e.lo - e.lo % T) e.hi 257
    { s with spans := s.spans.map (fun x => (x.1,
        if coreOfSpan x.1 = c ∧ x.2.launch = e.launch ∧ e.lo ≤ x.2.lo ∧ x.2.hi ≤ e.hi ∧ x.2.pc = e.pc then
          { x.2 with waiting := true } else x.2)) }
/-- A span waiting for team resources continues its materialisation. -/
def execMaterialisationResume (core entry : Nat) (s : State) : Host.Outcome State Fault Refusal :=
  .next (match AMap.find s.spans (spanKey core entry) with
    | some e => if e.waiting then s.materialise (spanKey core entry) else s
    | none => s)

/-! ## Cuts (R128) -/

/-- The span of entry `key` is cut at the ends of its guard's interval [f, l). Parts for which no entry is free materialise
by their teams; what remains is cut when it next issues. -/
def State.cut (s : State) (key f l : Nat) : State :=
  match AMap.find s.spans key with
  | none => s
  | some e =>
    let c := coreOfSpan key
    let ends := [e.lo] ++ (if e.lo < f then [f] else []) ++ (if l < e.hi then [l] else []) ++ [e.hi]
    match ends with
    | a :: b :: rest =>
      let s1 : State := { s with spans := AMap.put s.spans key (e.part a b), moved := true }
      let parts := match rest with
        | [] => []
        | [x] => [e.part b x]
        | x :: y :: _ => [e.part b x, e.part x y]
      match parts.foldl (fun t p => t.bind (fun t => t.placePart c p)) (some s1) with
      | some t => t
      | none =>
        let first := match s.freeSpan c, parts with
          | some _, _ :: p :: _ => p.lo
          | _, _ => b
        s.enterTeams c e.launch (first - first % s.teamSize e.launch) e.hi 257
    | _ => s

/-! ## What an instruction reads and writes in a span -/

/-- Value sources with their widths, predicate sources, and the register destination with its width. -/
structure Shape where
  srcs : List (Src × Nat)
  preds : List (BitVec 3)
  dst : Option (Dst × Nat)
  deriving DecidableEq, Repr
/-- The shape of a format-V word with the given widths. -/
def shV (f : VF) (dw aw bw cw : Nat) : Option Shape :=
  some ⟨[(f.a, aw), (f.b, bw), (f.c, cw)], [], if dw = 0 then none else some (f.d, dw)⟩
/-- The shape of a format-I word. -/
def shI (f : IF) (uses : Bool) (dst : Bool) : Option Shape :=
  let r := fun (n : Fld) => if f.u then Src.g (n.setWidth 6) else Src.v n
  some ⟨if uses then [(r f.a, 1)] else [], [],
    if dst then some (if f.u then .g (f.d.setWidth 6) else .v f.d, 1) else none⟩
/-- The shape of a word without operands. -/
def shNone : Option Shape := some ⟨[], [], none⟩

/-- The shape of an instruction that a span may execute once (R124, R126); none for one that always materialises. -/
def shape : Instr → Option Shape
  | .add f t | .sub f t | .sadd f t | .ssub f t | .mul f t | .mulh f t | .divq f t | .rem f t | .min f t | .max f t =>
    shV f (ITy.regs t) (ITy.regs t) (ITy.regs t) 0
  | .mad f t => shV f (ITy.regs t) (ITy.regs t) (ITy.regs t) (ITy.regs t)
  | .mulw f _ => shV f 2 1 1 0
  | .dot4 f _ _ _ | .permb f => shV f 1 1 1 1
  | .and f w | .or f w | .xor f w | .andn f w => shV f (wideRegs w) (wideRegs w) (wideRegs w) 0
  | .shl f w | .shr f w | .sha f w | .rol f w | .bext f w => shV f (wideRegs w) (wideRegs w) 1 0
  | .popc f w | .clz f w | .ctz f w => shV f 1 (wideRegs w) 0 0
  | .brev f w | .abs f w | .neg f w | .mov f w => shV f (wideRegs w) (wideRegs w) 0 0
  | .bins f w => shV f (wideRegs w) (wideRegs w) (wideRegs w) 1
  | .cmp f _ t => shV f 0 (ITy.regs t) (ITy.regs t) 0
  | .pand _ _ a b | .por _ _ a b | .pxor _ _ a b => some ⟨[], [a, b], none⟩
  | .pnot _ _ a => some ⟨[], [a], none⟩
  | .sel f w p => (shV f (wideRegs w) (wideRegs w) (wideRegs w) 0).map (fun s => { s with preds := [p] })
  | .movg f => shV f 1 1 0 0
  | .movs f sv => shV f (if sv = .item ∨ sv = .clock then 2 else 1) 0 0 0
  | .addi f | .andi f | .ori f | .xori f | .shli f | .shri f => shI f true true
  | .movi f => shI f false true
  | .cmpi f _ => shI f true false
  | .xset f _ => shV f 0 1 1 0
  | .xadd f _ => shV f 0 1 0 0
  | .xget f _ => shV f 1 0 0 0
  | .lea f _ => shV f 2 2 1 0
  | .fadd f _ | .fsub f _ | .fmul f _ | .fdiv f _ | .fmin f | .fmax f => shV f 1 1 1 0
  | .ffma f _ | .scac f _ => shV f 1 1 1 1
  | .fcmp f _ => shV f 0 1 1 0
  | .fclass f | .frcp f | .frsq f | .fsqrt f _ | .fexp2 f | .flog2 f | .ftanh f => shV f 1 1 0 0
  | .pfadd f _ _ | .pfmul f _ _ | .pfmin f _ | .pfmax f _ => shV f 1 1 1 0
  | .pfma f _ _ => shV f 1 1 1 1
  | .dadd f _ | .dmul f _ | .dmin f | .dmax f => shV f 2 2 2 0
  | .dfma f _ => shV f 2 2 2 2
  | .dcmp f _ => shV f 0 2 2 0
  | .cvt f dt st _ => shV f (FullTy.regs dt) (FullTy.regs st) 0 0
  | .pack f _ => shV f 1 1 1 0
  | .unpk f _ _ => shV f 1 1 0 0
  | .qnt f t _ | .dqnt f t => if t = .c4 then none else shV f 1 1 1 0
  | .bra _ _ => shNone
  | .brx _ t | .ret _ t => some ⟨[(.v t, 2)], [], none⟩
  | .call _ l _ => some ⟨[], [], some (.v l, 2)⟩
  | .nop _ | .yield _ | .ifence _ | .waitf _ _ | .prply _ | .sjoin _ | .regrp _ | .clrp _ => shNone
  | .tstp f => shV f 1 0 0 0
  | .spanq f => shV f 1 0 0 0
  | .srd _ d r => if r.toNat < 256 then some ⟨[], [], some (.v d, 1)⟩ else none
  | .swr _ a r => if r.toNat < 256 then some ⟨[(.v a, 1)], [], none⟩ else none
  | .ld f => some ⟨[(f.addr, 2)], [], match f.data with
      | .v n => some (.v n, Width.regs f.width)
      | .g n => some (.g n, Width.regs f.width)
      | .x k d => some (.x k d, Width.regs f.width)
      | .imm _ => none⟩
  | .fence _ _ _ => shNone
  | .cflush f | .cinv f | .pref f => some ⟨[(f.addr, 2)], [], none⟩
  | .movi64 _ u d _ => some ⟨[], [], some (if u then .g (d.setWidth 6) else .v d, 2)⟩
  | .addi64 _ u d a _ =>
    some ⟨[(if u then .g (a.setWidth 6) else .v a, 2)], [], some (if u then .g (d.setWidth 6) else .v d, 2)⟩
  | _ => none

/-- The forms of a source of `w` registers; none where an indexed reference does not resolve. -/
def Span.forms (e : Span) (q : Nat) (src : Src) (w : Nat) : Option (List Form) :=
  let at_ := fun (n : Nat) => (List.range w).map (fun i => (e.v.getD (n + i) ⟨.u 0, .full, none⟩).form)
  match src with
  | .v n => some (at_ n.toNat)
  | .g n => some ((List.range w).map (fun i => .u (e.g.getD (n.toNat + i) Reg.zero).val))
  | .x k d => (resolveIdx q { Item.start q 0 with x := e.x } k d (Nat.max w 1)).map at_
  | .imm n => some ((List.range w).map (fun i => .u (lo32 (n.signExtend 64 >>> (32 * i)))))
/-- The lane registers a destination names. -/
def Span.dstRegs (e : Span) (q : Nat) (d : Dst) (w : Nat) : List Nat :=
  match d with
  | .v n => (List.range w).map (n.toNat + ·)
  | .x k i => match resolveIdx q { Item.start q 0 with x := e.x } k i w with
    | some n => (List.range w).map (n + ·)
    | none => []
  | _ => []

/-! ## The form algebra (R124, R125) -/

/-- A result in span form: register forms, or a predicate form. -/
inductive SRes where
  | regs (l : List Form)
  | pred (d : BitVec 3) (p : PForm)
  deriving DecidableEq, Repr

def Form.add (x y : Form) : Form := mkForm (x.base + y.base) (x.stride + y.stride)
def Form.sub (x y : Form) : Form := mkForm (x.base - y.base) (x.stride - y.stride)
/-- A product, where one factor is U. -/
def Form.mul (x y : Form) : Option Form :=
  if x.isU then some (mkForm (x.base * y.base) (x.base * y.stride))
  else if y.isU then some (mkForm (x.base * y.base) (x.stride * y.base))
  else none
def Form.shl (x : Form) (n : Nat) : Form := mkForm (x.base <<< n) (x.stride <<< n)
/-- The value of a list of forms for the item `d` places after the first. -/
def formsVal (l : List Form) (d : Nat) : W64 := BitVec.ofNat 64 (l.foldr (fun f acc => (f.at d).toNat + 2 ^ 32 * acc) 0)
/-- A 32-bit integer type. -/
def ITy.narrow : ITy → Bool
  | .s32 | .z32 => true
  | _ => false
/-- A special value's form over [lo, hi) (R125); `u` is its value for the first item. -/
def specialForm (sv : Special) (lo hi T : Nat) (u : List Form) : Option (List Form) :=
  let one := lo / 16 == (hi - 1) / 16
  match sv with
  | .item => if lo / 2 ^ 32 = (hi - 1) / 2 ^ 32 then
      some [mkForm (BitVec.ofNat 32 lo) 1, .u (BitVec.ofNat 32 (lo / 2 ^ 32))] else none
  | .pos => if one then some [mkForm (BitVec.ofNat 32 (lo % 16)) 1] else none
  | .grp | .leader | .fstat => if one then some u else none
  | .team => if lo / T = (hi - 1) / T then some u else none
  | _ => some u

/-- The result of an instruction some of whose sources are not U; `fs` are the forms of its sources. None for M. -/
def algebra (i : Instr) (e : Span) (fs : List (List Form)) : Option SRes :=
  let a := (fs.getD 0 []).headD (.u 0)
  let b := (fs.getD 1 []).headD (.u 0)
  let c := (fs.getD 2 []).headD (.u 0)
  let one := fun (f : Form) => SRes.regs [f]
  let truth := fun (d : BitVec 3) (t : Nat → Bool) => (pformOf t e.lo e.hi).map (SRes.pred d)
  let pr := fun (p : BitVec 3) (k : Nat) => (e.p.getD p.toNat (.u true)).at k
  match i with
  | .add _ t => if ITy.narrow t then some (one (a.add b)) else none
  | .sub _ t => if ITy.narrow t then some (one (a.sub b)) else none
  | .addi f => some (one (a.add (.u f.imm)))
  | .mul _ t => if ITy.narrow t then (a.mul b).map one else none
  | .mad _ t => if ITy.narrow t && !(a.isU && b.isU) then (a.mul b).map (fun x => one (x.add c)) else none
  | .shl _ w => if !w && b.isU then some (one (a.shl (b.base.toNat % 32))) else none
  | .shli f => some (one (a.shl (f.imm.toNat % 32)))
  | .neg _ w => if w then none else some (one ((Form.u 0).sub a))
  | .mov _ _ => some (.regs (fs.getD 0 []))
  | .cmp f cnd t => truth (dstPred f.d) (fun k =>
      Cond.holds cnd (ITy.val t (formsVal (fs.getD 0 []) (k - e.lo))) (ITy.val t (formsVal (fs.getD 1 []) (k - e.lo))))
  | .cmpi f cnd => truth (f.d.setWidth 3) (fun k => CondI.holds cnd (a.at (k - e.lo)) f.imm)
  | .pand _ d x y => truth d (fun k => pr x k && pr y k)
  | .por _ d x y => truth d (fun k => pr x k || pr y k)
  | .pxor _ d x y => truth d (fun k => pr x k != pr y k)
  | .pnot _ d x => truth d (fun k => !pr x k)
  | .sel _ _ p => match e.p.getD p.toNat (.u true) with
    | .u t => some (.regs (if t then fs.getD 0 [] else fs.getD 1 []))
    | .i _ _ => none
  | _ => none

/-! ## Joining (R133) -/

/-- A span or a group that may join: its range, with its span entry or its group. -/
structure JUnit where
  lo : Nat
  hi : Nat
  span : Option (Nat × Span)
  grp : Option (Group × List (Nat × Item))
  deriving DecidableEq, Repr
/-- What joining members must have equal (item 3). -/
structure JKey where
  g : List Reg
  x : List XReg
  h : HRegs
  fstat : BitVec 5
  deriving DecidableEq, Repr
def JUnit.keys (s : State) (lk : Nat) (u : JUnit) : List JKey :=
  match u.span, u.grp with
  | some (_, e), _ =>
    let a := (lk * 2 ^ 40 + e.lo) / 16
    let b := (lk * 2 ^ 40 + e.hi - 1) / 16
    let key := fun (f : BitVec 5) => (⟨e.g, e.x, e.h, f⟩ : JKey)
    [key (s.groupFlags a), key (s.groupFlags b)] ++ if a + 1 < b then [key e.fstat] else []
  | _, some (g, l) => l.map (fun x => ⟨g.g, x.2.x, x.2.h, g.fstat⟩)
  | _, _ => []
def fullReg (r : Reg) : Bool := r.tag == .full
/-- Items 1, 4 and 5 for one unit; halted, stepped and trapped items do not join. -/
def JUnit.ok (s : State) (lk : Nat) (u : JUnit) : Bool :=
  let T := s.teamSize lk
  let free := s.teams.all (fun e => e.2.launch != lk || decide (e.2.base + T ≤ u.lo) || decide (u.hi ≤ e.2.base) ||
    (e.2.scrSize == 0 && e.2.bars.isEmpty && e.2.slotCount == 0 && e.2.tiles.isEmpty && !e.2.cbWritten &&
      !((s.core (e.2.core.getD 0)).bufs.any (fun b => b.2.team == e.1))))
  free && match u.span, u.grp with
  | some (_, e), _ => e.v.all (fun r => r.tag == .full) && e.g.all fullReg && e.waits.isEmpty && !e.cancel && !e.h.flag
  | _, some (g, l) =>
    l.length == u.hi - u.lo && g.inflight == 0 && g.exch.isEmpty && g.passes.isEmpty && g.halt.isNone && !g.haltReq &&
      !g.stepping && !g.stopped && g.g.all fullReg &&
      l.all (fun x => x.2.v.all fullReg && x.2.waits.isEmpty && x.2.pend.isEmpty && !x.2.cancel && !x.2.cancelled &&
        !x.2.skip && !x.2.h.flag && !x.2.m.mon)
  | _, _ => false
/-- Lane register `r` and predicate `j` of item `k` of a unit. -/
def JUnit.lane (u : JUnit) (r k : Nat) : W32 :=
  match u.span, u.grp with
  | some (_, e), _ => (e.v.getD r ⟨.u 0, .full, none⟩).form.at (k - e.lo)
  | _, some (_, l) => ((l.getD (k - u.lo) (0, Item.start 8 0)).2.reg r).val
  | _, _ => 0
def JUnit.predAt (u : JUnit) (j k : Nat) : Bool :=
  match u.span, u.grp with
  | some (_, e), _ => (e.p.getD j (.u false)).at k
  | _, some (_, l) => (l.getD (k - u.lo) (0, Item.start 8 0)).2.p.getLsbD j
  | _, _ => false
/-- Lane register `r` of a unit follows base `b` at item `lo` with stride `st`. -/
def JUnit.follows (u : JUnit) (r lo : Nat) (b st : W32) : Bool :=
  match u.span, u.grp with
  | some (_, e), _ =>
    let f := (e.v.getD r ⟨.u 0, .full, none⟩).form
    f.at (u.lo - e.lo) == b + st * BitVec.ofNat 32 (u.lo - lo) && (u.hi - u.lo == 1 || f.stride == st)
  | _, some (_, l) => l.all (fun x => (x.2.reg r).val == b + st * BitVec.ofNat 32 (indexOf x.1 - lo))
  | _, _ => false

/-- The spans of core `c` and the groups of launch `lk` on it that stand whole at `pc`, in ascending order. -/
def State.unitsAt (s : State) (c lk : Nat) (pc : W64) : List JUnit :=
  let sp := ((s.spansOn c).filter (fun e => e.2.launch == lk && e.2.pc == pc)).map
    (fun e => (⟨e.2.lo, e.2.hi, some e, none⟩ : JUnit))
  let gs := s.groups.filterMap (fun e =>
    if launchOfGroup e.1 = lk ∧ s.coreOf (e.1 * 16) = c then
      let l := AMap.range s.items (e.1 * 16) (e.1 * 16 + 16)
      match l.head?, l.getLast? with
      | some a, some b =>
        if l.all (fun x => x.2.pc == pc) then some (⟨indexOf a.1, indexOf b.1 + 1, none, some (e.2, l)⟩ : JUnit) else none
      | _, _ => none
    else none)
  sortBy (fun a b => decide (a.lo < b.lo)) (sp ++ gs)
/-- Contiguous runs of a sorted list of units. -/
def runsOf : List JUnit → List (List JUnit)
  | [] => []
  | u :: l =>
    match runsOf l with
    | (v :: r) :: rs => if u.hi = v.lo then (u :: v :: r) :: rs else [u] :: (v :: r) :: rs
    | rs => [u] :: rs

/-- The groups of a joined run leave their slots; a team without members is released unless its launch is co-resident. -/
def State.leaveGroup (s : State) (lk : Nat) (u : JUnit) : State :=
  match u.grp with
  | none => s
  | some (_, l) =>
    let gk := (lk * 2 ^ 40 + u.lo) / 16
    let T := s.teamSize lk
    let base := u.lo - u.lo % T
    let tk := teamKey lk base T
    let s : State := { s with
      items := l.foldl (fun m x => AMap.del m x.1) s.items
      groups := AMap.del s.groups gk }
    if cfgCores (s.cardOf lk).config then s.updTeam tk (fun t => { t with reserved := true })
    else
      let s := s.updTeam tk (fun t => { t with slots := setAt t.slots ((u.lo - base) / 16) none })
      let lo := itemKey lk base
      if (AMap.range s.items lo (lo + T)).isEmpty &&
          (AMap.range s.groups (lo / 16) ((lo + T) / 16)).all (fun e => e.2.inflight == 0) then s.releaseTeam tk
      else s
/-- A run of units joins into one span where R133 allows: what is tested together is a run that no gap divides, all or
nothing (log entry 53). Stores of the joining items that wait in the collector are performed first, so that the span has
none (R132). -/
def State.joinRun (s : State) (c lk : Nat) (pc : W64) (run : List JUnit) : State :=
  match run with
  | [] => s
  | u0 :: rest =>
    let lo := u0.lo
    let hi := (run.getLastD u0).hi
    let keys := (run.map (·.keys s lk)).flatten
    let key0 := keys.headD ⟨[], [], HRegs.zero, 0⟩
    let q := s.quotaOf lk
    let unitOf := fun (k : Nat) => (run.find? (fun u => decide (u.lo ≤ k) && decide (k < u.hi))).getD u0
    let form := fun (r : Nat) =>
      let b := u0.lane r lo
      let st := if hi - lo = 1 then 0 else (unitOf (lo + 1)).lane r (lo + 1) - b
      (b, st)
    let lanes := (List.range q).map form
    let preds := (List.range 8).map (fun j => if j = 0 then some (PForm.u true)
      else pformOf (fun k => (unitOf k).predAt j k) lo hi)
    let entry := match run.findSome? (·.span) with
      | some (k, e) => some (k, e.quad, e.age)
      | none => (s.freeSpan c).map (fun k => (k, s.quadOf (itemKey lk lo), s.fresh))
    let single := rest.isEmpty && u0.span.isSome
    if single || !run.all (fun u => u.ok s lk) || !keys.all (· == key0) ||
        !(List.range q).all (fun r => run.all (fun u => u.follows r lo (form r).1 (form r).2)) ||
        !preds.all (·.isSome) then s
    else
      match entry with
      | none => s
      | some (k, quad, age) =>
        let e : Span := { launch := lk, lo := lo, hi := hi, quad := quad, pc := pc
                          v := lanes.map (fun f => ⟨mkForm f.1 f.2, .full, none⟩)
                          p := preds.map (·.getD (.u false))
                          x := key0.x, g := key0.g, h := key0.h, fstat := key0.fstat, age := age, waiting := false
                          waits := [], cancel := false }
        let s : State := { s with
          fresh := s.fresh + 1
          moved := true
          spans := AMap.put (s.spans.filter (fun x => !run.any (fun u => u.span.any (fun y => y.1 == x.1)))) k e
          cur := { s.cur with items := s.cur.items.filter (fun ik => !run.any (fun u =>
            u.grp.any (fun g => g.2.any (fun x => x.1 == ik)))) } }
        let s := run.foldl (fun t u => match u.grp with
          | some (_, l) => l.foldl (fun t x => t.flushItem x.1) t
          | none => t) s
        run.foldl (fun t u => t.leaveGroup lk u) s
/-- The join test of R133 for launch `lk` on core `c` at `pc`. -/
def State.joinTest (s : State) (c lk : Nat) (pc : W64) : State :=
  (runsOf (s.unitsAt c lk pc)).foldl (fun t run => t.joinRun c lk pc run) s

/-! ## An instruction executed once for a span (R123, R126) -/

/-- Whether a live item of the first item's group stands below the span (R129), or one of the last item's group above
it. -/
def State.liveBelow (s : State) (e : Span) : Bool :=
  (List.range (e.lo % 16)).any (fun p => s.liveAt ((e.launch * 2 ^ 40 + e.lo) / 16) p)
def State.liveAbove (s : State) (e : Span) : Bool :=
  (List.range 16).any (fun p => decide (e.hi ≤ (e.hi - 1) / 16 * 16 + p) && s.liveAt ((e.launch * 2 ^ 40 + e.hi - 1) / 16) p)
/-- The first item of a team that materialises before a span's write to a uniform register: its first group has a leader
below the span, or its last group has items beyond it, which are to see the write (R51, R129). -/
def State.gTeam (s : State) (e : Span) : Option Nat :=
  let T := s.teamSize e.launch
  if s.liveBelow e then some (e.lo - e.lo % T)
  else if s.liveAbove e then some (e.hi - 1 - (e.hi - 1) % T)
  else none
/-- The predicate an instruction writes. -/
def predDst : Instr → Option (BitVec 3)
  | .cmp f _ _ => some (dstPred f.d)
  | .fcmp f _ | .dcmp f _ => some (dstPred f.d)
  | .cmpi f _ => some (f.d.setWidth 3)
  | .pand _ d _ _ | .por _ d _ _ | .pxor _ d _ _ | .pnot _ d _ => some d
  | _ => none
/-- What a span's word that reads or writes forms leaves: the span after the representative item `it` of group `g`. -/
def Span.after (e : Span) (q : Nat) (i : Instr) (sh : Shape) (res : Option SRes) (it : Item) (g : Group) : Span :=
  let dst := match sh.dst with | some (d, w) => e.dstRegs q d w | none => []
  let formAt := fun (j r : Nat) => match res with
    | some (.regs l) => l.getD j (.u 0)
    | _ => .u (it.reg r).val
  let v := (List.range dst.length).foldl (fun v j =>
    let r := dst.getD j 0
    setAt v r ⟨formAt j r, (it.reg r).tag, none⟩) e.v
  let p := match res, predDst i with
    | some (.pred d f), _ => if d = 0 then e.p else setAt e.p d.toNat f
    | _, some d => if d = 0 then e.p else setAt e.p d.toNat (.u (it.pred d))
    | _, none => e.p
  { e with pc := it.pc, v := v, p := p, x := it.x, g := g.g, h := it.h, fstat := g.fstat, waits := it.waits, waiting := false }
/-- Runs one instruction for span `key`: `run` is its meaning, on the first item as representative. -/
def State.runSpan (run : State → State) (s : State) (key : Nat) (e : Span) (i : Instr) (sh : Shape) : State :=
  let q := s.quotaOf e.launch
  let fs := sh.srcs.map (fun x => e.forms q x.1 x.2)
  if fs.any (·.isNone) then s.materialise key
  else
    let fs := fs.map (·.getD [])
    let notU := fs.any (fun l => l.any (fun f => !f.isU)) ||
      sh.preds.any (fun p => match e.p.getD p.toNat (.u true) with | .i _ _ => true | _ => false)
    let res := if notU then algebra i e fs else none
    let toG := match sh.dst with | some (.g _, _) => true | _ => false
    let aForm := match res with | some (.regs l) => l.any (fun f => !f.isU) | _ => false
    let gFirst := if toG then s.gTeam e else none
    if (notU && res.isNone) || (toG && aForm) then s.materialise key
    else if gFirst.isSome then
      match s.enterTeam (coreOfSpan key) [] e.launch (gFirst.getD 0) with
      | some t => { t with moved := true }
      | none => s
    else
      let ik := itemKey e.launch e.lo
      let gk := groupOf ik
      let flags := if e.lo / 16 = (e.hi - 1) / 16 then s.groupFlags gk else e.fstat
      let t : State := { s with
        items := AMap.put s.items ik (e.item e.lo 0)
        groups := AMap.put s.groups gk { Group.start with g := e.g, fstat := flags }
        cur := { s.cur with items := [ik] }
        trapped := [] }
      let u := run t
      if !u.trapped.isEmpty then s.materialise key
      else if !u.moved then s
      else
        match AMap.find u.items ik with
        | none => s
        | some it =>
          let g := u.groupD gk
          if it.waits.any (fun w => match w.2 with | .remote _ _ => true | _ => false) then s.materialise key
          else
            let res2 := match i with
              | .movs f sv => (specialForm sv e.lo e.hi (s.teamSize e.launch)
                  ((e.dstRegs q f.d (if sv = Special.item ∨ sv = Special.clock then 2 else 1)).map (fun r => Form.u (it.reg r).val))).map SRes.regs
              | _ => res
            let isM := match i with
              | .movs f _ => res2.isNone || (match f.d, res2 with
                  | .g _, some (.regs l) => l.any (fun x => !x.isU)
                  | _, _ => false)
              | _ => false
            if isM then s.materialise key
            else
              { u with
                items := AMap.del u.items ik
                groups := AMap.del u.groups gk
                spans := AMap.put u.spans key (e.after q i sh res2 it g)
                ops := u.ops.map (fun (o : Nat × Op) => if s.fresh ≤ o.1 then (o.1, { o.2 with lo := e.lo, hi := e.hi }) else o) }
/-- The flags of a span that ends stay with its first and its last group while these have other live items (R56). -/
def State.leaveFlags (s : State) (e : Span) : State :=
  [(e.launch * 2 ^ 40 + e.lo) / 16, (e.launch * 2 ^ 40 + e.hi - 1) / 16].foldl (fun (t : State) gk =>
    { t with flagsLeft :=
        if (List.range 16).any (t.liveAt gk) then AMap.put t.flagsLeft gk (AMap.getD t.flagsLeft gk 0 ||| e.fstat)
        else AMap.del t.flagsLeft gk }) s
/-- EXIT for a whole span (R130): its items' records are freed (R106), and what waited for them is counted again. -/
def State.exitSpan (s : State) (key : Nat) (e : Span) : State :=
  if e.v.any (fun r => r.tag == .empty) || anyEmpty e.g then s
  else
    let T := s.teamSize e.launch
    let s := ({ s with spans := AMap.del s.spans key, moved := true } : State).leaveFlags e
    let s := s.freeRecords (coreOfSpan key) (itemKey e.launch e.lo) (itemKey e.launch e.hi)
    let s := (s.updLaunch e.launch (fun l => { l with ended := l.ended + (e.hi - e.lo) })).lbarCheck e.launch
    s.cbars.foldl (fun t b =>
      if b.2.owner == some e.launch then
        (List.range ((e.hi - 1) / T + 1 - e.lo / T)).foldl (fun t i => t.cbarTeam b.1 (e.launch * 2 ^ 36 + (e.lo / T + i))) t
      else t) s
/-- Whether an instruction branches, so that a backward target is tested for joining (R133). -/
def Instr.branches : Instr → Bool
  | .bra _ _ | .brx _ _ | .call _ _ _ | .ret _ _ => true
  | _ => false
/-- The issue of the word of instruction `i`, `len` bytes long, with guard `g`, for span `key` (R123, R126, R128, R130);
`posDep` marks a position-dependent word, `legal` a legal one, `run` is the meaning. -/
def State.issueSpan (run : State → State) (s : State) (key : Nat) (i : Instr) (g : Guard) (len : Nat)
    (posDep legal : Bool) : State :=
  match AMap.find s.spans key with
  | none => s
  | some e =>
    if posDep then s.materialise key
    else
      match e.p.getD g.p.toNat (.u true) with
      | .i f l => s.cut key f l
      | .u b =>
        if b == g.neg then
          { s with spans := AMap.put s.spans key { e with pc := e.pc + BitVec.ofNat 64 len, waiting := false }, moved := true }
        else if !legal then s.materialise key
        else
          match i with
          | .exit _ => s.exitSpan key e
          | .sjoin _ =>
            let t := s.joinTest (coreOfSpan key) e.launch e.pc
            match AMap.find t.spans key with
            | some e2 => if e2.pc = e.pc then t.runSpan run key e2 i ⟨[], [], none⟩ else t
            | none => t
          | _ =>
            match shape i with
            | none => s.materialise key
            | some sh =>
              let t := s.runSpan run key e i sh
              match AMap.find t.spans key with
              | some e2 => if Instr.branches i && e2.pc.toNat ≤ e.pc.toNat then t.joinTest (coreOfSpan key) e.launch e2.pc else t
              | none => t

end Sys2Proof.Machine
end

