-- ==== Sys2Proof/Machine/Arrive.lean ====
section
/-! DEFINITION. What arrives at a register: values of loads, atomics and drains, and POISON with its record (R113, R131,
R160, R162, R216, R219, R228, R229). -/

namespace Sys2Proof.Machine

/-! ## Where an operation lands -/

/-- Keys of the items of an operation whose register `r` is EMPTY; for a uniform register, of the first positions of their
groups. -/
def State.landsAt (s : State) (o : Op) (r : RegRef) : List Nat :=
  let lo := itemKey o.launch o.lo
  let hi := itemKey o.launch o.hi
  match r with
  | .v n => ((AMap.range s.items lo hi).filter (fun e => (e.2.reg n).tag == .empty)).map (·.1)
  | .g n => ((AMap.range s.groups (lo / 16) ((hi + 15) / 16)).filter (fun e => (e.2.reg n).tag == .empty)).map (·.1 * 16)
/-- Register `r` of a span, as to its tag. -/
def Span.tagOf (e : Span) : RegRef → Tag
  | .v n => (e.v.getD n ⟨.u 0, .full, none⟩).tag
  | .g n => (e.g.getD n Reg.zero).tag
/-- Span entries of an operation whose register `r` is EMPTY. -/
def State.landsIn (s : State) (o : Op) (r : RegRef) : List Nat :=
  ((s.spansIn o.launch o.lo o.hi).filter (fun e => e.2.tagOf r == .empty)).map (·.1)
/-- A span's registers from `r` on take values, the same for all its items. -/
def Span.fill (e : Span) (r : RegRef) (vs : List W32) : Span :=
  (List.range vs.length).foldl (fun e i => match r with
    | .v n => { e with v := setAt e.v (n + i) ⟨.u (vs.getD i 0), .full, none⟩ }
    | .g n => { e with g := setAt e.g (n + i) ⟨vs.getD i 0, .full, none⟩ }) e
/-- The values reach the registers of every item and span of the operation. -/
def State.land (s : State) (o : Op) (d : DestR) (vs : List W32) : State :=
  let s := (s.landsAt o d.reg).foldl (fun t ik => t.setRegs ik d.reg vs) s
  (s.landsIn o d.reg).foldl (fun (t : State) k => { t with spans := AMap.upd t.spans k (·.fill d.reg vs) }) s

/-! ## Poison (R113, R228, R229) -/

/-- The free entry of the record table that has been free longest; one never used before has been free since reset. -/
def Core.freeRec (k : Core) : Option Nat :=
  let n := freeKey k.poison Config.poisonRecords 0
  if n < Config.poisonRecords then some n
  else ((sortBy (fun (a b : Nat × PRec) => decide (a.2.freed < b.2.freed)) (k.poison.filter (fun e => !e.2.held))).head?).map (·.1)
/-- What a failing access leaves in its record. -/
structure Failed where
  dst : DestR
  word : W64
  addr : W64
  pc : W64
  reason : Nat
  args : List W64
  acq : Bool
  deriving DecidableEq, Repr
/-- Whether a `POISON_FULL` of operation `num` waits for item `it`, or its handler has not returned: the operation does not
try again meanwhile (R229). -/
def Item.fullFor (it : Item) (num : Nat) : Bool := it.full.any (fun e => e.1 == num)
/-- The destination of item `ik` becomes POISON with a new record of operation `num`. With no entry free it stays EMPTY, and
the item takes POISON_FULL. `rec_` is the item that holds the record. -/
def State.takePoison (s : State) (num ik rec_ : Nat) (f : Failed) : State :=
  let c := s.coreOf rec_
  if (match s.item? rec_ with | some it => it.fullFor num | none => false) then s
  else match (s.core c).freeRec with
  | some n =>
    let r : PRec := { held := true, serial := s.fresh, item := rec_, slot := s.laneSlot rec_, word := f.word, addr := f.addr,
                      pc := f.pc, reason := f.reason, dst := f.dst, args := f.args, acq := f.acq, issued := num, freed := 0 }
    let s := s.updCore c (fun k => { k with poison := AMap.put k.poison n r })
    let x : Reg := ⟨BitVec.ofNat 32 n, .poison, some r.serial⟩
    let s := (List.range f.dst.n).foldl (fun t i => t.setReg ik (f.dst.reg.plus i) x) s
    let s := if f.acq then s.updItem rec_ (fun it => { it with acqPoison := it.acqPoison ++ [r.serial] }) else s
    { s with fresh := s.fresh + 1, moved := true }
  | none =>
    { (s.addPending rec_ ⟨cPFULL, 0, f.addr, 0⟩).updItem rec_ (fun it => { it with full := it.full ++ [(num, false)] }) with
        moved := true }

/-- The item that holds the record of a failing operation that lands at `ik`: the issuing one, else the leader. -/
def State.holder (s : State) (o : Op) (r : RegRef) (ik : Nat) : Nat :=
  match r with
  | .v _ => ik
  | .g _ => let k := itemKey o.launch o.lo; if (s.item? k).isSome && groupOf k == groupOf ik then k else (s.leader (groupOf ik)).getD ik
/-- A failing operation lands: spans that await it materialise, each item takes POISON, and the operation is over once
nothing awaits it (R131). -/
def State.landFail (s : State) (n : Nat) (o : Op) (f : Failed) : State :=
  let s := (s.landsIn o f.dst.reg).foldl (fun t k => t.materialise k) s
  let s := (s.landsAt o f.dst.reg).foldl (fun t ik => t.takePoison n ik (t.holder o f.dst.reg ik) f) s
  if (s.landsAt o f.dst.reg).isEmpty && (s.landsIn o f.dst.reg).isEmpty then
    { s with ops := AMap.del s.ops n, moved := true }
  else s

/-! ## Loads and atomics (R160, R162) -/

/-- Whether two loads fill one uniform register of one group, as the items of a bundle's load do. -/
def sameG (o p : Op) : Bool :=
  match o.kind, p.kind with
  | .load a, .load b =>
    (match a.dst.reg with | .g _ => true | .v _ => false) && a.dst == b.dst && o.launch == p.launch && o.lo / 16 == p.lo / 16
  | _, _ => false
/-- The parts of an arrived value: the bytes, extended to 32 bits where they are fewer (R45, R160). -/
def LoadOp.parts (l : LoadOp) : List W32 :=
  if 4 ≤ l.bytes then Sys2Proof.Machine.parts l.val.toNat l.dst.n
  else
    let w := 8 * l.bytes
    let v := l.val.toNat % 2 ^ w
    [if l.sext && decide (2 ^ (w - 1) ≤ v) then BitVec.ofNat 32 (v + 2 ^ 32 - 2 ^ w) else BitVec.ofNat 32 v]
/-- Whether what a load or atomic awaits has come: its line's data with every acknowledgement (R298), and the execution of a
far atomic at its home (R303). -/
def State.arrived (s : State) (o : Op) (l : LoadOp) : Bool :=
  !l.pend && (match l.want with
    | some line => !s.asking line (partyOf o.core line) false
    | none => true)
/-- A load or atomic completes. Loads of one bundle into a uniform register arrive in the order of their items, and the
register stays EMPTY until the last has. -/
def State.loadDone (s : State) (n : Nat) (o : Op) (l : LoadOp) : State :=
  let others := s.ops.filter (fun e => e.1 != n && sameG o e.2)
  if others.any (fun e => decide (e.1 < n)) || !s.arrived o l then s
  else
    let s := match l.fail with
      | some r => s.landFail n o ⟨l.dst, l.word, l.addr, o.pc, r, l.args, l.acq⟩
      | none => { (s.land o l.dst l.parts) with ops := AMap.del s.ops n, moved := true }
    if !others.isEmpty && (AMap.find s.ops n).isNone then s.setEmpty (itemKey o.launch o.lo) l.dst.reg l.dst.n else s
def execLoadCompletion (op : Nat) (s : State) : Host.Outcome State Fault Refusal :=
  .next (match AMap.find s.ops op with
    | some o => match o.kind with | .load l => s.loadDone op o l | _ => s
    | none => s)
def execAtomicCompletion (op : Nat) (s : State) : Host.Outcome State Fault Refusal :=
  .next (match AMap.find s.ops op with
    | some o => match o.kind with | .atomic l => s.loadDone op o l | _ => s
    | none => s)

/-! ## Drains to registers (R216, R219) -/

/-- An ADRN completes: its registers take the drained values, or POISON of reason 4 on a damaged row. -/
def State.adrnDone (s : State) (n : Nat) (o : Op) (c : DrC) (l : DrLane) (d : DestR) (word : W64) : State :=
  if !s.oldestOn n o (.adrn c l d word) then s
  else
    let tk := s.opTeam o
    let t := s.getTile tk c.tile.toNat
    if drainBad s tk c t l then
      s.landFail n o ⟨d, word, 0, o.pc, 4, [BitVec.ofNat 64 l.col, BitVec.ofNat 64 l.par], false⟩
    else
      let (img, s) := s.engineStore tk n [l.item] (parSlots c l.par)
      let s := s.sync [tokOp n] [tokTile tk c.tile.toNat]
      { (s.land o d (drainVals c img t l)) with ops := AMap.del s.ops n, moved := true }
def execAdrnCompletion (op : Nat) (s : State) : Host.Outcome State Fault Refusal :=
  .next (match AMap.find s.ops op with
    | some o => match o.kind with
      | .mtx (.adrn c l d w) => s.adrnDone op o c l d w
      | _ => s
    | none => s)

end Sys2Proof.Machine
end

