-- ==== Sys2Proof/Machine/Control.lean ====
section
/-! DEFINITION. Control flow, waiting and poison (majors 0x18 to 0x1C; R102 to R107, R116, R141 to R143), and the
re-forming of bundles (R134). PRPLY stands with the replays. -/

namespace Sys2Proof.Machine

/-! ## Branches (R103) -/

/-- A completed branch: the item goes to `pc`. -/
def State.jump (s : State) (ik : Nat) (pc : W64) : State :=
  { s.updItem ik (fun it => { it with pc := pc, skip := false }) with moved := true }
/-- The launch of an item that a branch has sent backward without a trap, and the address it is at (R133). -/
def sentBack (s0 s : State) (ik : Nat) : Option (Nat × W64) :=
  match s0.item? ik, s.item? ik with
  | some a, some b =>
    let went := a.h == b.h && a.m == b.m && !s.trapped.contains ik
    if went && decide (b.pc.toNat ≤ s0.cur.pc.toNat) then some (launchOf ik, b.pc) else none
  | _, _ => none
/-- The items a bundle's branch has sent backward are tested for joining at their targets (R133). -/
def joinTargets (s0 s : State) : State :=
  if s0.cur.span.isSome then s
  else (s.cur.items.filterMap (sentBack s0 s)).eraseDups.foldl (fun t x => t.joinTest s0.cur.core x.1 x.2) s
/-- The address `off` words from `pc`. -/
def target (pc : W64) (off : W32) : W64 := pc + 8 * off.signExtend 64

/-- BRA. -/
def execBra (g : Guard) (off : W32) (s : State) : Host.Outcome State Fault Refusal :=
  .next (joinTargets s (issueRaw g 8 (fun s0 t ik => .ok (t.jump ik (target s0.cur.pc off))) s))
/-- The body of BRX and RET. -/
def branchTo (t : Fld) (s0 s : State) (ik : Nat) : Ev State := do
  let (it, g) ← getItem s0 ik
  let a ← readE s0 ik it g t 2
  orTrap (a.toNat % 8 == 0) (addrTrap cMISALIGN 0 a)
  .ok (s.jump ik a)
def execBrx (g : Guard) (t : Fld) (s : State) : Host.Outcome State Fault Refusal :=
  .next (joinTargets s (issueRaw g 8 (branchTo t) s))
def execRet (g : Guard) (t : Fld) (s : State) : Host.Outcome State Fault Refusal :=
  .next (joinTargets s (issueRaw g 8 (branchTo t) s))
/-- CALL. -/
def execCall (g : Guard) (link : Fld) (off : W32) (s : State) : Host.Outcome State Fault Refusal :=
  .next (joinTargets s (issueRaw g 8 (fun s0 t ik => do
    let (it, gr) ← getItem s0 ik
    freeE it gr link 2
    .ok ((t.dest ik (.v link.toNat) 2 (s0.cur.pc + 8).toNat).jump ik (target s0.cur.pc off))) s))

/-! ## Waiting (R106, R107, R141) -/

/-- YIELD. -/
def execYield (g : Guard) (s : State) : Host.Outcome State Fault Refusal :=
  .next (issue g 8 (fun s0 t ik => do
    let _ ← getItem s0 ik
    .ok t) s)
/-- WAITF of `n` named sources. -/
def execWaitf (f : VF) (n : BitVec 2) (s : State) : Host.Outcome State Fault Refusal :=
  .next (issue f.g 8 (fun s0 t ik => do
    let (it, g) ← getItem s0 ik
    let q := s0.quotaOf (launchOf ik)
    if n = 0 then
      orWait (!anyEmpty it.v && !anyEmpty g.g)
      .ok t
    else
      let rs ← ([f.a, f.b, f.c].take n.toNat).mapM (fun src => srcRef q it src 1)
      orWait (!rs.any (fun r => match r with | some r => (regAt it g r).tag == .empty | none => false))
      .ok t) s)
/-- SJOIN (R133). -/
def execSjoin (g : Guard) (s : State) : Host.Outcome State Fault Refusal :=
  let joined := s.cur.items.foldl (fun t ik =>
    if t.cur.items.contains ik && (t.active g).contains ik then t.joinTest t.cur.core (launchOf ik) t.cur.pc else t) s
  .next (issue g 8 (fun s0 t ik => do
    let _ ← getItem s0 ik
    .ok t) (if s.cur.span.isSome then s else joined))
/-- MATZ: in a group it has no effect. -/
def execMatz (g : Guard) (s : State) : Host.Outcome State Fault Refusal :=
  .next (issue g 8 (fun s0 t ik => do
    let _ ← getItem s0 ik
    .ok t) s)
/-- Re-formings done by the quad of an item. -/
def State.reformsOf (s : State) (ik : Nat) : Nat := AMap.getD (s.core (s.coreOf ik)).reforms (s.quadOf ik) 0
/-- REGRP: holds the item until its quad's next re-forming. -/
def execRegrp (g : Guard) (s : State) : Host.Outcome State Fault Refusal :=
  .next (issueRaw g 8 (fun s0 t ik => do
    let (it, _) ← getItem s0 ik
    if s0.cur.span.isSome then .ok (t.advance ik 8)
    else
      match it.wait? with
      | some (.regrp n) => if n < t.reformsOf ik then .ok ((t.clearWait ik).advance ik 8) else .error .wait
      | _ => .ok (t.setWait ik (.regrp (t.reformsOf ik)))) s)
/-- SPANQ (R142). -/
def execSpanq (f : VF) (s : State) : Host.Outcome State Fault Refusal :=
  let form := match f.a with
    | .v n => match s.cur.span with
      | some k => match AMap.find s.spans k with
        | some e => 2 ^ 31 + k % 32 * 256 + (if (e.v.getD n.toNat ⟨.u 0, .full, none⟩).form.isU then 0 else 1)
        | none => 3
      | none => 3
    | _ => 3
  .next (issue f.g 8 (fun s0 t ik => do
    let (it, g) ← getItem s0 ik
    let q := s0.quotaOf (launchOf ik)
    orWait (!dstBusy q it g (s0.leads ik) f.d 1)
    match ← dstRef q it f.d 1 with
    | some r => .ok (t.dest ik r 1 form)
    | none => .ok t) s)

/-- Re-forming of the bundles of a quad (R134): a group that stands at one address is a bundle, the other items are packed
by team and address. Bundles hold at most 16 items. -/
def packBundles (bid : Nat) : List (List Nat) → List (Nat × Nat)
  | [] => []
  | l :: ls =>
    ((List.range l.length).map (fun i => (l.getD i 0, bid + i / 16))) ++ packBundles (bid + l.length / 16 + 1) ls
/-- The classes of a quad's items. -/
def State.bundleClasses (s : State) (core quad : Nat) : List (List Nat) :=
  let its := s.items.filter (fun e => s.coreOf e.1 == core && s.quadOf e.1 == quad)
  let whole := fun (gk : Nat) =>
    let m := its.filter (fun e => groupOf e.1 == gk)
    match m with
    | [] => false
    | e :: _ => m.all (fun x => x.2.pc == e.2.pc)
  let gks := (its.map (fun e => groupOf e.1)).eraseDups
  let byGroup := (gks.filter whole).map (fun gk => (its.filter (fun e => groupOf e.1 == gk)).map (·.1))
  let rest := its.filter (fun e => !whole (groupOf e.1))
  let keys := (rest.map (fun e => (s.teamOf e.1, e.2.pc))).eraseDups
  byGroup ++ keys.map (fun k => (rest.filter (fun e => s.teamOf e.1 == k.1 && e.2.pc == k.2)).map (·.1))
def execBundleReform (core quad : Nat) (s : State) : Host.Outcome State Fault Refusal :=
  let cls := s.bundleClasses core quad
  let ids := packBundles s.fresh cls
  let s : State := { s with
    items := s.items.map (fun e => (e.1, match ids.find? (fun x => x.1 == e.1) with
      | some x => { e.2 with bid := x.2 }
      | none => e.2))
    fresh := s.fresh + ((cls.map (fun l => l.length / 16 + 1)).sum)
    moved := true }
  .next (s.updCore core (fun k => { k with reforms := AMap.put k.reforms quad (AMap.getD k.reforms quad 0 + 1) }))

/-! ## Poison (R116) -/

/-- TSTP. -/
def execTstp (f : VF) (s : State) : Host.Outcome State Fault Refusal :=
  .next (issue f.g 8 (fun s0 t ik => do
    let (it, g) ← getItem s0 ik
    let q := s0.quotaOf (launchOf ik)
    orWait (!dstBusy q it g (s0.leads ik) f.d 1)
    let (_, p) ← readUse q it g f.a 1 f.wa
    match ← dstRef q it f.d 1 with
    | none => .ok t
    | some r =>
      let v := match p with
        | none => 0xFFFFFFFF
        | some i => i.toNat % 64 + (if recFreed s0 ik (i.toNat % 64) then 256 else 0)
      .ok (t.dest ik r 1 v)) s)
/-- CLRP. -/
def execClrp (f : VF) (s : State) : Host.Outcome State Fault Refusal :=
  .next (issue f.g 8 (fun s0 t ik => do
    let (it, g) ← getItem s0 ik
    let q := s0.quotaOf (launchOf ik)
    orWait (!dstBusy q it g (s0.leads ik) f.d 1)
    match ← dstRef q it f.d 1 with
    | none => .ok t
    | some r => if (regAt it g r).tag = .poison then .ok (t.dest ik r 1 0) else .ok t) s)

/-! ## The reorder unit (R143) -/

/-- Deposits a continuation's first range holds (R144). -/
def Launch.cap (l : Launch) : Nat := match l.cont with | some (_, len, _) => len / 16 | none => 0
/-- KDEP. -/
def execKdep (f : VF) (s : State) : Host.Outcome State Fault Refusal :=
  .next (issueRaw f.g 8 (fun s0 t ik => do
    let (it, g) ← getItem s0 ik
    if it.ending then
      orWait (t.mayEnd ik)
      .ok (t.endItem ik)
    else do
      let q := s0.quotaOf (launchOf ik)
      let k ← readUse q it g f.a 1 f.wa
      let p ← readUse q it g f.b 2 f.wb
      noPoison s0 ik (firstOf3 k.2 p.2 none)
      match AMap.find t.launches (launchOf ik) with
      | none => .error .wait
      | some l => do
        orTrap (l.card.cont != 0) (mkTrap cREORDER 1)
        orTrap (match l.cont with | some (_, _, m) => decide (2 ≤ m) | none => false) (mkTrap cREORDER 3)
        orTrap (decide (l.deposits.length < l.cap)) (mkTrap cREORDER 2)
        let t := t.updLaunch (launchOf ik) (fun l => { l with
          deposits := l.deposits ++ [((lo32 k.1).toNat % 65536, p.1, indexOf ik)] })
        .ok (t.beginEnd ik)) s)

end Sys2Proof.Machine
end

