-- ==== Sys2Proof/Machine/Copy.lean ====
section
/-! DEFINITION. The copy unit, the buffer table and TLD (R165 to R177, R198): majors 0x25 and 0x26, and the arrival of
chunks and lines. -/

namespace Sys2Proof.Machine

/-! ## Buffer entries (R165 to R167) -/

/-- A handle check (R167, R172): the entry, or reason 1, 2 or 3. -/
def getBuf (s : State) (ik h : Nat) : Ev Buf := do
  orTrap (decide (h ≤ 255)) (mkTrap cBUF 1)
  match AMap.find (s.core (s.coreOf ik)).bufs h with
  | none => .error (.trap (mkTrap cBUF 2))
  | some b => do
    orTrap (b.st != .draining) (mkTrap cBUF 2)
    orTrap (b.team == s.teamOf ik) (mkTrap cBUF 3)
    .ok b
/-- The entry full at once when its count has reached the target (R166). -/
def Buf.settle (b : Buf) : Buf :=
  if b.st = .filling ∧ b.target ≤ b.count then { b with st := .full, gen := b.gen + 1 } else b
/-- `n` bytes arrive at an entry. -/
def Buf.arrive (b : Buf) (n : Nat) : Buf :=
  if b.st = .draining then b else { b with count := Nat.min (b.count + n) 4294967295 }.settle
/-- Entry `h` of core `c` replaced. -/
def State.updBuf (s : State) (c h : Nat) (f : Buf → Buf) : State := s.updCore c (fun k => { k with bufs := AMap.upd k.bufs h f })
/-- Whether an outstanding operation of core `c` names buffer `h`. -/
def State.bufBusy (s : State) (c h : Nat) : Bool :=
  s.ops.any (fun e => e.2.core == c && match e.2.kind with | .copy x => x.buf == h | _ => false)
/-- The fault bit of an entry: some copy that names it is suspended. -/
def State.setBufFault (s : State) (c h : Nat) : State :=
  let f := s.ops.any (fun e => e.2.core == c && match e.2.kind with | .copy x => x.buf == h && x.suspended | _ => false)
  s.updBuf c h (fun b => { b with fault := f })

/-- BUFA: one entry for the bundle instruction, the lowest free one, with the `t` of its lowest item that completes (log
entry 57). -/
def execBufa (f : EF) (s : State) : Host.Outcome State Fault Refusal :=
  .next (issue f.g 8 (fun s0 t ik => do
    let (it, g) ← getItem s0 ik
    acqGate t ik
    freeE it g f.r 1
    let v ← readE s0 ik it g f.o1 1
    acquireGate t ik
    let c := t.coreOf ik
    match (t.core c).bufs.find? (fun e => decide (s0.fresh ≤ e.2.made)) with
    | some e => .ok (t.dest ik (.v f.r.toNat) 1 e.1)
    | none =>
      let h := freeKey (t.core c).bufs 256 0
      if h < 256 then
        let b : Buf := { st := .filling, team := t.teamOf ik, target := (lo32 v).toNat, count := 0, gen := 0, fault := false,
                         made := t.fresh, slices := [] }
        let t := t.updCore c (fun k => { k with bufs := AMap.put k.bufs h b.settle })
        .ok ({ t with fresh := t.fresh + 1 }.dest ik (.v f.r.toNat) 1 h)
      else .ok (t.dest ik (.v f.r.toNat) 1 0xFFFFFFFF)) s)
/-- BUFW: waits until the entry is full; a team's acquire of what was delivered. -/
def execBufw (f : EF) (s : State) : Host.Outcome State Fault Refusal :=
  .next (issue f.g 8 (fun s0 t ik => do
    let (it, g) ← getItem s0 ik
    acqGate t ik
    freeE it g f.r 1
    let h ← readE s0 ik it g f.o1 1
    acquireGate t ik
    let b ← getBuf t ik (lo32 h).toNat
    orWait (b.st == .full)
    .ok ((t.sync [tokBuf b.made] [ik]).dest ik (.v f.r.toNat) 1 b.gen.toNat)) s)
/-- State code of an entry (R176). -/
def BufSt.code : BufSt → Nat
  | .filling => 1
  | .full => 2
  | .draining => 3
/-- BUFQ. -/
def execBufq (f : EF) (tgt : Bool) (s : State) : Host.Outcome State Fault Refusal :=
  .next (issue f.g 8 (fun s0 t ik => do
    let (it, g) ← getItem s0 ik
    acqGate t ik
    freeE it g f.r 2
    let h ← readE s0 ik it g f.o1 1
    acquireGate t ik
    let h := (lo32 h).toNat
    orTrap (decide (h ≤ 255)) (mkTrap cBUF 1)
    match AMap.find (t.core (t.coreOf ik)).bufs h with
    | none => .ok (t.dest ik (.v f.r.toNat) 2 0)
    | some b => do
      orTrap (b.team == t.teamOf ik) (mkTrap cBUF 3)
      let hi := 65536 * b.gen.toNat + (if b.fault then 128 else 0) + b.st.code
      .ok (t.dest ik (.v f.r.toNat) 2 ((if tgt then b.target else b.count) + 2 ^ 32 * hi))) s)
/-- BUFF without `.rearm`. -/
def execBuff (f : EF) (s : State) : Host.Outcome State Fault Refusal :=
  .next (issue f.g 8 (fun s0 t ik => do
    let (it, g) ← getItem s0 ik
    acqGate t ik
    let h ← readE s0 ik it g f.o1 1
    acquireGate t ik
    let h := (lo32 h).toNat
    let _ ← getBuf t ik h
    let c := t.coreOf ik
    if t.bufBusy c h then .ok (t.updBuf c h (fun b => { b with st := .draining }))
    else .ok (t.updCore c (fun k => { k with bufs := AMap.del k.bufs h }))) s)
/-- BUFF `.rearm`, with a new target where `newT`. -/
def execBuffRearm (f : EF) (newT : Bool) (s : State) : Host.Outcome State Fault Refusal :=
  .next (issue f.g 8 (fun s0 t ik => do
    let (it, g) ← getItem s0 ik
    acqGate t ik
    let h ← readE s0 ik it g f.o1 1
    let v ← if newT then readE s0 ik it g f.o2 1 else .ok 0
    acquireGate t ik
    let h := (lo32 h).toNat
    let b ← getBuf t ik h
    orTrap (b.st == .full) (mkTrap cBUF 4)
    .ok (t.updBuf (t.coreOf ik) h (fun b =>
      { b with st := .filling, count := 0, target := if newT then (lo32 v).toNat else b.target }.settle))) s)

/-! ## Copies (R168 to R173) -/

/-- An operand that names a side of a transfer. -/
def readSide (s : State) (ik : Nat) (it : Item) (g : Group) (scr : Bool) (n : Fld) : Ev Side := do
  if scr then
    let v ← readE s ik it g n 1
    .ok (.scr (lo32 v).toNat)
  else
    let v ← readE s ik it g n 2
    .ok (.glob v)
/-- The lowest address of a shape and the one after its highest, as exact integers; none for an empty shape. -/
def extent (base : Nat) (rows rowBytes : Nat) (stride : Int) : Option (Int × Int) :=
  if rows = 0 ∨ rowBytes = 0 then none
  else
    let last : Int := base + ((rows : Int) - 1) * stride
    some (if last < base then last else base, (if last < base then (base : Int) else last) + rowBytes)
/-- The range checks of a side of the whole shape (R172). The trap names the base address of the side that fails, and the
destination is checked before the source (log entry 57). -/
def sideScr (s : State) (ik rows rowBytes : Nat) (stride : Int) : Side → Ev Unit
  | .scr o => match extent o rows rowBytes stride with
    | some (lo, hi) => orTrap (decide (0 ≤ lo) && decide (hi ≤ s.teamScr ik)) (memFault 5 (BitVec.ofNat 64 o))
    | none => .ok ()
  | .glob _ => .ok ()
def sideGlob (rows rowBytes : Nat) (stride : Int) : Side → Ev Unit
  | .glob a => match extent a.toNat rows rowBytes stride with
    | some (lo, hi) => orTrap (decide (0 ≤ lo) && decide (hi ≤ 2 ^ 64)) (memFault 1 a)
    | none => .ok ()
  | .scr _ => .ok ()

/-- Groups of a team that hold items (R168, R344). -/
def Team.held (t : Team) : Nat := (t.count + 15) / 16
/-- Slices the item's group has issued on buffer `h`. -/
def State.sliceNo (s : State) (ik h : Nat) : Nat :=
  match AMap.find (s.core (s.coreOf ik)).bufs h with | some b => AMap.getD b.slices (groupOf ik) 0 | none => 0
/-- The slice or transfer `x` of item `ik` joins the outstanding operations, the item's earlier stores performed. -/
def State.addCopy (s : State) (ik : Nat) (pc : W64) (x : CopyOp) : State :=
  (((s.flushItem ik).sync [ik] [tokOp s.fresh]).addOp ⟨s.coreOf ik, launchOf ik, indexOf ik, indexOf ik + 1, pc, .copy x⟩).2
/-- Whether an operation is a slice of copy `n` on buffer `h` of core `c` that has not started. -/
def Op.waitsOn (o : Op) (c h n : Nat) : Bool :=
  o.core == c && match o.kind with
    | .copy y => y.buf == h && y.kind == .cpy && !y.started && y.seq == n
    | _ => false
/-- A slice that has started. -/
def Op.startCopy (o : Op) : Op :=
  match o.kind with
  | .copy y => { o with kind := .copy { y with started := true } }
  | _ => o
/-- The copy to which slice `n` of the item's group on buffer `h` belongs starts when every group's slice has come (R168). -/
def State.startCopies (s : State) (ik h n : Nat) : State :=
  let need := match AMap.find s.teams (s.teamOf ik) with | some t => t.held | none => 1
  if (s.ops.filter (fun e => e.2.waitsOn (s.coreOf ik) h n)).length < need then s
  else { s with ops := s.ops.map (fun e => if e.2.waitsOn (s.coreOf ik) h n then (e.1, e.2.startCopy) else e) }
/-- A slice recorded on its buffer, where the copy is collective; another transfer starts at once. -/
def State.issueSlice (s : State) (ik : Nat) (pc : W64) (x : CopyOp) (collective : Bool) : State :=
  if collective then
    let n := s.sliceNo ik x.buf
    let t := s.updBuf (s.coreOf ik) x.buf (fun b => { b with slices := AMap.put b.slices (groupOf ik) (n + 1) })
    (t.addCopy ik pc { x with seq := n, started := false }).startCopies ik x.buf n
  else s.addCopy ik pc { x with started := true }

/-- Whether the item supplies its group's slice: it is the leader, and active in this bundle. -/
def suppliesSlice (s : State) (ik : Nat) : Bool := s.leader (groupOf ik) == some ik
/-- The issue of CPY and CPYW; `shape` reads row bytes, rows, source and destination strides. -/
def copyBody (f : EF) (dsp ssp : Bool) (ev : BitVec 3) (wide : Bool) (s0 s : State) (ik : Nat) : Ev State := do
  let (it, g) ← getItem s0 ik
  if !suppliesSlice s0 ik then .ok s
  else do
    acqGate s ik
    let h ← readE s0 ik it g f.r 1
    let dst ← readSide s0 ik it g dsp f.o1
    let src ← readSide s0 ik it g ssp f.o2
    let vs ← readEs s0 ik it g f.o3 (if wide then 4 else 1)
    acquireGate s ik
    let h := (lo32 h).toNat
    let _ ← getBuf s ik h
    let n := vs.getD 0 0
    let rows := if wide then (vs.getD 1 0).toNat else 1
    let ss : W32 := if wide then vs.getD 2 0 else 0
    let ds : W32 := if wide then vs.getD 3 0 else 0
    sideScr s ik rows n.toNat ds.toInt dst
    sideScr s ik rows n.toNat ss.toInt src
    sideGlob rows n.toNat ds.toInt dst
    sideGlob rows n.toNat ss.toInt src
    orTrap (decide (rows * n.toNat < 2 ^ 32)) (mkTrap cBUF 6)
    let s ← raiseInflight s ik
    .ok (s.issueSlice ik s0.cur.pc
      { kind := .cpy, buf := h, seq := 0, started := false, dst := dst, src := src, rowBytes := n.toNat, rows := rows,
        srcStride := ss.signExtend 64, dstStride := ds.signExtend 64, ix := .scr 0, done := [], cursor := 0, ev := ev,
        suspended := false } true)
def execCpy (f : EF) (dsp ssp : Bool) (ev : BitVec 3) (s : State) : Host.Outcome State Fault Refusal :=
  .next (issue f.g 8 (copyBody f dsp ssp ev false) s)
def execCpyw (f : EF) (dsp ssp : Bool) (ev : BitVec 3) (s : State) : Host.Outcome State Fault Refusal :=
  .next (issue f.g 8 (copyBody f dsp ssp ev true) s)

/-- TLD (R198). -/
def execTld (f : EF) (ssp : Bool) (ev : BitVec 3) (s : State) : Host.Outcome State Fault Refusal :=
  .next (issue f.g 8 (fun s0 t ik => do
    let (it, g) ← getItem s0 ik
    if !suppliesSlice s0 ik then .ok t
    else do
      acqGate t ik
      let h ← readE s0 ik it g f.r 1
      let sl ← readE s0 ik it g f.o1 1
      let src ← readSide s0 ik it g ssp f.o2
      let sh ← readE s0 ik it g f.o3 2
      acquireGate t ik
      let h := (lo32 h).toNat
      let _ ← getBuf t ik h
      let slot := (lo32 sl).toNat
      let first := (sh.extractLsb' 0 7).toNat
      let n := (sh.extractLsb' 8 7).toNat + 1
      let stride := hi32 sh
      mtx (decide (slot ≤ 31) && decide (first + n ≤ 128)) 5
      let tm ← getTeam t ik
      claimed tm [slot]
      sideScr t ik n 128 stride.toInt src
      sideGlob n 128 stride.toInt src
      let t ← raiseInflight t ik
      .ok (t.issueSlice ik s0.cur.pc
        { kind := .tld slot first, buf := h, seq := 0, started := false, dst := .scr 0, src := src, rowBytes := 128, rows := n,
          srcStride := stride.signExtend 64, dstStride := 0, ix := .scr 0, done := [], cursor := 0, ev := ev,
          suspended := false } false)) s)

/-- CPRPL: the slice or fabric command of a record resumes, and the record is freed (R173, R383). -/
def execCprpl (f : EF) (s : State) : Host.Outcome State Fault Refusal :=
  .next (issue f.g 8 (fun s0 t ik => do
    let (it, g) ← getItem s0 ik
    acqGate t ik
    let v ← readE s0 ik it g f.o1 1
    acquireGate t ik
    let c := t.coreOf ik
    let idx := (lo32 v).toNat
    match AMap.find (t.core c).copyRecs idx with
    | none => .error (.trap (mkTrap cBUF 5))
    | some r => do
      orTrap (r.team == t.teamOf ik) (mkTrap cBUF 5)
      let t := t.updCore c (fun k => { k with copyRecs := AMap.del k.copyRecs idx })
      match AMap.find t.ops r.op with
      | some o =>
        match o.kind with
        | .copy x =>
          let t : State := { t with ops := AMap.put t.ops r.op { o with kind := .copy { x with suspended := false } } }
          .ok (t.setBufFault c x.buf)
        | .tok x => .ok { t with ops := AMap.put t.ops r.op { o with kind := .tok { x with suspended := false } } }
        | _ => .ok t
      | none => .ok t) s)

/-! ## Arrivals -/

/-- The address of a side, `row` rows and `w` bytes on. -/
def Side.at (d : Side) (stride : W64) (row w : Nat) : Side :=
  match d with
  | .glob a => .glob (a + stride * BitVec.ofNat 64 row + BitVec.ofNat 64 w)
  | .scr o => .scr ((o : Int) + stride.toInt * row + w).toNat
def Side.addr : Side → W64
  | .glob a => a
  | .scr o => BitVec.ofNat 64 o
/-- Whether operation `n` belongs to the phase that waits for the merge of the one before it (R314, R361). -/
def State.phaseHeld (s : State) (j n : Nat) : Bool :=
  match AMap.find s.jobs j with | some job => job.merge && decide (job.mark ≤ n) | none => false

/-- The copy, or TLD, of operation `n` is over: its in-flight count falls, its records are freed, and an entry that drains
is freed behind it (R166, R168, R170). -/
def State.endCopy (s : State) (n : Nat) (o : Op) (x : CopyOp) : State :=
  let s : State := { s with ops := AMap.del s.ops n, moved := true }
  let s := s.lowerInflight (groupOf (itemKey o.launch o.lo))
  let s := s.updCore o.core (fun k => { k with copyRecs := k.copyRecs.filter (fun r => r.2.op != n) })
  let s := s.setBufFault o.core x.buf
  match AMap.find (s.core o.core).bufs x.buf with
  | some b => if b.st = .draining && !s.bufBusy o.core x.buf then
      s.updCore o.core (fun k => { k with bufs := AMap.del k.bufs x.buf }) else s
  | none => s
/-- A chunk's fault suspends the slice: a record is taken, the leader will trap; with no record free it tries again
(R171). -/
def State.suspendCopy (s : State) (n : Nat) (o : Op) (x : CopyOp) (a : W64) (reason : Nat) : State :=
  let r := freeKey (s.core o.core).copyRecs Config.copyFaultRecords 0
  if Config.copyFaultRecords ≤ r then s
  else
    let ik := itemKey o.launch o.lo
    let s : State := { s with ops := AMap.put s.ops n { o with kind := .copy { x with suspended := true } }, moved := true }
    let s := s.updCore o.core (fun k => { k with
      copyRecs := AMap.put k.copyRecs r ⟨n, s.teamOf ik, reason, a, o.pc⟩ })
    let s := s.setBufFault o.core x.buf
    match s.leader (groupOf ik) with
    | some l => s.addPending l ⟨cCOPY, BitVec.ofNat 32 (r + 256 * reason), a, o.pc⟩
    | none => s

/-- Bytes of a side as an engine reads them: the bytes, or the failing address with its reason, or a stall. -/
inductive EngRd where
  | ok (bs : List (BitVec 8)) (s : State)
  | fail (a : W64) (r : Nat)
  | stall
def State.sideRead (s : State) (c j ik : Nat) (ev : BitVec 3) (d : Side) (n : Nat) : EngRd :=
  match d with
  | .scr o =>
    match AMap.find s.teams (s.teamOf ik) with
    | some t =>
      match (t.scratchErr.filter (fun e => decide (o ≤ e) && decide (e < o + n))).min? with
      | some e => .fail (BitVec.ofNat 64 e) 4
      | none => .ok (t.scratch.readN o n) s
    | none => .stall
  | .glob a =>
    match s.engCheck c j false ev a n with
    | .fail p r => .fail p r
    | .stall => .stall
    | .ok => let r := s.engRead c j ev a n; .ok r.1 r.2
/-- What a write of `n` bytes to a side would meet. -/
def State.sideMeets (s : State) (c j : Nat) (ev : BitVec 3) (d : Side) (n : Nat) : EngCheck :=
  match d with
  | .scr _ => .ok
  | .glob a => s.engCheck c j true ev a n
/-- Of two failures of one chunk, the one at the lower address (R171). -/
def lowerFail (a : W64) (r : Nat) (k : EngCheck) : W64 × Nat :=
  match k with
  | .fail b q => if b < a then (b, q) else (a, r)
  | _ => (a, r)
/-- Bytes written to a side: the new state, or the failing address with its reason, or a stall. -/
def State.sideWrite (s : State) (c j ik : Nat) (ev : BitVec 3) (d : Side) (bs : List (BitVec 8)) : EngRd :=
  match d with
  | .scr o => .ok [] (s.scrWrite ik o bs)
  | .glob a =>
    match s.engCheck c j true ev a bs.length with
    | .fail p r => .fail p r
    | .stall => .stall
    | .ok =>
      let s := if s.touchesPhase j a bs.length then s.notePhase (s.teamOf ik) c else s
      .ok [] (s.engWrite c j ik ev a bs)

/-- What carries the arrivals of a buffer entry to those who find it full (R175). -/
def State.bufTok (s : State) (c h : Nat) : List Nat :=
  match AMap.find (s.core c).bufs h with | some b => [tokBuf b.made] | none => []
/-- The state after an engine has moved `n` bytes, or the slice suspended, or nothing; `meets` is what the destination
would meet. -/
def State.moveBytes (s : State) (num : Nat) (o : Op) (x : CopyOp) (src : Side) (n : Nat) (meets : EngCheck)
    (put : State → List (BitVec 8) → EngRd) (next : State → State) : State :=
  let ik := itemKey o.launch o.lo
  match s.sideRead o.core (jobOfLaunch o.launch) ik x.ev src n with
  | .stall => s
  | .fail a r => let p := lowerFail a r meets; s.suspendCopy num o x p.1 p.2
  | .ok bs s1 =>
    match put s1 bs with
    | .stall => s
    | .fail a r => s.suspendCopy num o x a r
    | .ok _ s2 => next ((s2.sync [tokOp num] (s2.bufTok o.core x.buf)).updBuf o.core x.buf (·.arrive n))

/-- The launch of an operation is cancelled. -/
def State.opCancelled (s : State) (o : Op) : Bool :=
  match AMap.find s.launches o.launch with | some l => l.canc | none => false
/-- The next chunk of a slice arrives (R169). -/
def State.copyChunk (s : State) (num : Nat) (o : Op) (x : CopyOp) : State :=
  let total := x.rowBytes * x.rows
  if s.opCancelled o || decide (total ≤ x.cursor) then s.endCopy num o x
  else
    let row := x.cursor / x.rowBytes
    let w := x.cursor % x.rowBytes
    let src := x.src.at x.srcStride row w
    let dst := x.dst.at x.dstStride row w
    let n := Nat.min (x.rowBytes - w) (4096 - src.addr.toNat % 4096)
    let ik := itemKey o.launch o.lo
    let j := jobOfLaunch o.launch
    s.moveBytes num o x src n (s.sideMeets o.core j x.ev dst n) (fun t bs => t.sideWrite o.core (jobOfLaunch o.launch) ik x.ev dst bs) (fun t =>
      let x2 := { x with cursor := x.cursor + n }
      let t : State := { t with ops := AMap.put t.ops num { o with kind := .copy x2 }, moved := true }
      if total ≤ x2.cursor then t.endCopy num o x2 else t)
/-- The next line of a TLD is written (R198). -/
def State.tldLine (s : State) (num : Nat) (o : Op) (x : CopyOp) (slot first : Nat) : State :=
  if s.opCancelled o then s.endCopy num o x
  else
    let i := x.cursor / 128
    let tk := s.opTeam o
    s.moveBytes num o x (x.src.at x.srcStride i 0) 128 .ok
      (fun t bs => .ok [] (t.slotWrite tk slot (128 * (first + i)) bs [tokOp num] (s.bufTok o.core x.buf))) (fun t =>
      let x2 := { x with cursor := x.cursor + 128 }
      let t : State := { t with ops := AMap.put t.ops num { o with kind := .copy x2 }, moved := true }
      if x.rows * 128 ≤ x2.cursor then t.endCopy num o x2 else t)

/-- A copy operation that may act: started, not suspended, of a phase that is not held. -/
def State.copyOf (s : State) (n : Nat) : Option (Op × CopyOp) :=
  match AMap.find s.ops n with
  | some o =>
    match o.kind with
    | .copy x => if x.started && !x.suspended && !s.phaseHeld (jobOfLaunch o.launch) n then some (o, x) else none
    | _ => none
  | none => none
def execCopyChunkArrival (op : Nat) (s : State) : Host.Outcome State Fault Refusal :=
  .next (match s.copyOf op with
    | some (o, x) => if x.kind = .cpy then s.copyChunk op o x else s
    | none => s)
def execTldLineWrite (op : Nat) (s : State) : Host.Outcome State Fault Refusal :=
  .next (match s.copyOf op with
    | some (o, x) => match x.kind with | .tld slot first => s.tldLine op o x slot first | _ => s
    | none => s)

/-- A cancelled launch abandons its copies, suspended ones and those not started among them (R170, R220). -/
def State.abandonCopies (s : State) (lk : Nat) : State :=
  s.ops.foldl (fun t e => if e.2.launch = lk then match e.2.kind with
    | .copy x => t.endCopy e.1 e.2 x
    | _ => t
    else t) s

end Sys2Proof.Machine
end

