-- ==== Sys2Proof/Machine/Debug.lean ====
section
/-! DEFINITION. The debug unit of a core: halting, resuming and stepping groups (R235, R236), event records, breakpoints
(R233, R241). -/

namespace Sys2Proof.Machine

/-- Whether `dlaunch` covers launch `lk`: all ones, or its identifier (R226). -/
def watched (k : Core) (lk : Nat) : Bool := k.dlaunch == 0xFFFFFFFF || k.dlaunch.toNat == lk % 2 ^ 24
/-- Whether group `n` of launch `lk` has an item on core `c`, materialised or in a span. -/
def State.groupOnCore (s : State) (c lk n : Nat) : Bool :=
  s.items.any (fun e => launchOf e.1 == lk && indexOf e.1 / 16 == n &&
      (match AMap.find s.teams (s.teamOf e.1) with | some t => t.core == some c | none => false)) ||
    (s.spansOn c).any (fun e => e.2.launch == lk && decide (e.2.lo / 16 ≤ n) && decide (n ≤ (e.2.hi - 1) / 16))
/-- The launch whose group the debug unit's command names, where it is found (R235). -/
def State.dbgLaunch (s : State) (c : Nat) : Option Nat :=
  let k := s.core c
  if k.dlaunch = 0xFFFFFFFF then none
  else ((s.launches.map (·.1)).filter (fun lk => lk % 2 ^ 24 == k.dlaunch.toNat && s.groupOnCore c lk k.dgrp.toNat)).head?
/-- Groups of a command: the group, or every group of its team that has items on the core. -/
def State.dbgGroups (s : State) (c lk n : Nat) (team : Bool) : List Nat :=
  let g := s.teamSize lk / 16
  let l := if team then (List.range g).map (n / g * g + ·) else [n]
  (l.filter (s.groupOnCore c lk)).map (lk * 2 ^ 36 + ·)
/-- The spans that hold items of a group materialise (R127). -/
def State.materialiseGroup (s : State) (c gk : Nat) : State :=
  let lk := launchOfGroup gk
  let lo := gk % 2 ^ 36 * 16
  (s.spansOn c).foldl (fun t e =>
    if e.2.launch == lk && decide (e.2.lo < lo + 16) && decide (lo < e.2.hi) then t.materialise e.1 else t) s
/-- A halt is asked of a group; one still in a span halts once it is materialised. -/
def State.askHalt (s : State) (c gk : Nat) : State :=
  let s := s.materialiseGroup c gk
  let g := s.groupD gk
  if g.halt.isSome then s else { s with groups := AMap.put s.groups gk { g with haltReq := true } }
/-- A group is resumed; a halt that a BREAK or WATCH caused sets the debug-skip flags of its items (R233). -/
def State.resumeGroup (s : State) (gk : Nat) : State :=
  let g := s.groupD gk
  let dbg := g.halt == some .brk || g.halt == some .watch
  let s := s.updGroup gk (fun g => { g with halt := none, haltReq := false, stepping := false })
  if dbg then (s.members gk).foldl (fun t ik => t.updItem ik (fun it => { it with skip := true })) s else s
/-- A step is asked of a halted group (R236). -/
def State.stepGroup (s : State) (gk : Nat) : State :=
  s.updGroup gk (fun g => if g.halt.isSome then { g with stepping := true } else g)

/-- A write of command `cmd` to `dcmd` on core `c` (R235). -/
def State.dcmd (s : State) (c cmd : Nat) : State :=
  match s.dbgLaunch c with
  | none => s.updCore c (fun k => { k with found := false })
  | some lk =>
    let n := (s.core c).dgrp.toNat
    let s := s.updCore c (fun k => { k with found := true })
    match cmd with
    | 1 => (s.dbgGroups c lk n false).foldl (fun t g => t.askHalt c g) s
    | 2 => (s.dbgGroups c lk n true).foldl (fun t g => t.askHalt c g) s
    | 3 => (s.dbgGroups c lk n false).foldl State.resumeGroup s
    | 4 => (s.dbgGroups c lk n true).foldl State.resumeGroup s
    | 5 => (s.dbgGroups c lk n false).foldl State.stepGroup s
    | _ => s
/-- A write of 1 to bit 0 of `dack` removes the posted record (R236). -/
def State.dack (s : State) (c : Nat) : State := s.updCore c (fun k => { k with events := k.events.drop 1 })

/-- A command's own step. -/
def dbgStep (s : State) : Host.Outcome State Fault Refusal := .next { s with moved := true }
def execDcmdHaltGroup (core : Nat) (s : State) : Host.Outcome State Fault Refusal := dbgStep (s.dcmd core 1)
def execDcmdHaltTeam (core : Nat) (s : State) : Host.Outcome State Fault Refusal := dbgStep (s.dcmd core 2)
def execDcmdResumeGroup (core : Nat) (s : State) : Host.Outcome State Fault Refusal := dbgStep (s.dcmd core 3)
def execDcmdResumeTeam (core : Nat) (s : State) : Host.Outcome State Fault Refusal := dbgStep (s.dcmd core 4)
def execDcmdStep (core : Nat) (s : State) : Host.Outcome State Fault Refusal := dbgStep (s.dcmd core 5)
def execDcmdNoOp (core : Nat) (s : State) : Host.Outcome State Fault Refusal := dbgStep (s.dcmd core 0)
def execDack (core : Nat) (s : State) : Host.Outcome State Fault Refusal := dbgStep (s.dack core)

/-- The groups of the bundle under way that a halt has been asked of halt where they stand (R224, R235). -/
def execGroupHalt (s : State) : Host.Outcome State Fault Refusal :=
  let gs := ((s.cur.items.map groupOf).eraseDups).filter (fun g => (s.groupD g).haltReq)
  .next (gs.foldl (fun t g => { t.haltGroup g .dcmd with moved := true }) s)

/-- The lowest enabled breakpoint of a core at `pc`, with its action (R233). -/
def bpHit (k : Core) (pc : W64) : Option (Nat × Bool) :=
  ((List.range 8).filterMap (fun i =>
    let b := k.bps.getD i 0
    if bit b 0 && (b >>> 3) == (pc >>> 3) then some (i, bit b 1) else none)).head?
/-- Breakpoint `n` fires for item `ik`: a trap to the monitor, or a halt of its group with a BREAK event (R233, R241). -/
def State.fireBreak (s : State) (ik n : Nat) (halt : Bool) : State :=
  match s.item? ik with
  | none => s
  | some it =>
    if halt then
      let gk := groupOf ik
      let there := (s.members gk).filter (fun k => match s.item? k with | some x => x.pc == it.pc | none => false)
      { ((s.haltGroup gk .brk).postEvent (s.coreOf ik)
          ⟨cBREAK, n, grpNo ik, it.pc, BitVec.ofNat 32 (65536 * posMask gk there), 0⟩) with moved := true }
    else s.takeTrap ik (mkTrap cBREAK n) it.pc
/-- Whether a breakpoint fires for an item now. -/
def State.breakAt (s : State) (ik : Nat) : Option (Nat × Bool) :=
  match s.item? ik with
  | none => none
  | some it =>
    let k := s.core (s.coreOf ik)
    if it.skip || !watched k (launchOf ik) then none else bpHit k it.pc
/-- A breakpoint fires for the items of the bundle under way. -/
def execBrk (s : State) : Host.Outcome State Fault Refusal :=
  .next (s.cur.items.foldl (fun t ik =>
    match t.breakAt ik with
    | some (n, h) => if (t.groupD (groupOf ik)).halt.isSome then t else t.fireBreak ik n h
    | none => t) s)

end Sys2Proof.Machine
end

