-- ==== Sys2Proof/Machine/Pages.lean ====
section
/-! DEFINITION. What firmware does with memory: frames of physical memory, page tables (R336, R337), and moving and cleaning
pages (R324, R338, R340). -/

namespace Sys2Proof.Machine

/-! ## Frames -/

/-- Granules of 64 KiB a die offers: its live memory without its eighth of the version store (R325). -/
def State.dieGranules (s : State) (die : Nat) : Nat := (s.liveBytes die - s.poolMiB * 2 ^ 17) / 65536
/-- The first granule number of a die. -/
def dieBase (die : Nat) : Nat := die * 2 ^ 20
/-- Whether the `n` granules from offset `b` of a die are free. -/
def State.framesFree (s : State) (die b n : Nat) : Bool :=
  decide (b + n ≤ s.dieGranules die) && !s.used.any (fun u => decide (dieBase die + b ≤ u) && decide (u < dieBase die + b + n))
/-- The lowest free run of `n` granules of a die, aligned to its length; its granule number. -/
def State.frameOn (s : State) (n die : Nat) : Option Nat :=
  let mine := s.used.filter (fun u => u / 2 ^ 20 == die)
  let cand := 0 :: mine.map (fun u => (u - dieBase die + 1 + n - 1) / n * n)
  ((cand.filter (fun b => s.framesFree die b n)).min?).map (dieBase die + ·)
/-- The first die that has a free run. -/
def State.frame (s : State) (n : Nat) : Option Nat := (List.range Config.dies).findSome? (s.frameOn n)
def State.takeFrames (s : State) (g n : Nat) : State := { s with used := (List.range n).map (g + ·) ++ s.used }
def State.giveFrames (s : State) (g n : Nat) : State :=
  { s with used := s.used.filter (fun u => !(decide (g ≤ u) && decide (u < g + n))) }
/-- Granules freed, their bytes and errors gone. -/
def State.wipe (s : State) (pa n : Nat) : State :=
  { s with
    mem := s.mem.filter (fun e => !(decide (pa ≤ e.1) && decide (e.1 < pa + n)))
    memErr := s.memErr.filter (fun p => !(decide (pa ≤ p) && decide (p < pa + n))) }

/-! ## Page tables -/

def State.putPte (s : State) (p : Nat) (e : W64) : State :=
  { s with ptes := if e = 0 then AMap.del s.ptes p else AMap.put s.ptes p e }
/-- HOME and FRAME of a physical address (R337). -/
def placeBits (pa : Nat) : W64 :=
  (BitVec.ofNat 64 (paDie pa)) <<< 55 ||| (BitVec.ofNat 64 (paOff pa / 65536 % 2 ^ 20)) <<< 16
def pointerPte (pa : Nat) : W64 := placeBits pa ||| 7
/-- A leaf: permissions RD, WR, EX, attribute, size. -/
def leafPte (pa : Nat) (rd wr ex : Bool) (attr size : BitVec 2) : W64 :=
  let b := fun (x : Bool) (n : Nat) => if x then (1#64 <<< n) else 0
  b rd 60 ||| b wr 61 ||| b ex 62 ||| (attr.setWidth 64 <<< 58) ||| placeBits pa ||| (size.setWidth 64 <<< 1) ||| 1
/-- A view page's entry (R334): FRAME names its version map entry by the low bits of its page number (log entry 20). -/
def viewPte (va : Nat) : W64 :=
  (1#64 <<< 63) ||| (1#64 <<< 60) ||| (1#64 <<< 58) ||| (BitVec.ofNat 64 (va / 65536 % 2 ^ 20) <<< 16) ||| 1
/-- An entry with its place, or its attribute, replaced. -/
def movePte (e : W64) (pa : Nat) : W64 := (e &&& 0xFC7FFFF00000FFFF) ||| placeBits pa
def attrPte (e : W64) (attr : BitVec 2) : W64 := (e &&& 0xF3FFFFFFFFFFFFFF) ||| (attr.setWidth 64 <<< 58)

/-- Bases of the tables below one of level `lvl`, that one included. -/
def State.tablesAt (s : State) : Nat → Nat → Nat → List Nat
  | 0, _, _ => []
  | n + 1, lvl, base =>
    base :: ((AMap.range s.ptes base (base + 4096)).map (fun p =>
      if bit p.2 0 && pteSize p.2 == 3 && decide (lvl < 5) then s.tablesAt n (lvl + 1) (pteFrame p.2) else [])).flatten
/-- Tables are freed with their entries. -/
def State.freeTables (s : State) (l : List Nat) : State :=
  l.foldl (fun t b => { t.giveFrames (b / 65536) 1 with ptes := t.ptes.filter (fun e => !(decide (b ≤ e.1) && decide (e.1 < b + 4096))) }) s
/-- The entry `e` put at `p` as a leaf; tables below that entry are freed. -/
def State.setLeaf (s : State) (p lvl : Nat) (e : W64) : State :=
  let x := s.pte p
  (if bit x 0 && pteSize x == 3 then s.freeTables (s.tablesAt 5 (lvl + 1) (pteFrame x)) else s).putPte p e
/-- The table that the entry at `p` points to, made where it lacks; none where no frame is free. -/
def State.nextTable (s : State) (p : Nat) : Option (State × Nat) :=
  let x := s.pte p
  if bit x 0 && pteSize x == 3 then some (s, pteFrame x)
  else (s.frame 1).map (fun g => ((s.takeFrames g 1).putPte p (pointerPte (g * 65536)), g * 65536))
/-- The leaf `e` of level `target` put at `va`, from the table at `base` of level `lvl` down; tables are made where they
lack, and none stands where no frame is free. -/
def State.putLeaf (s : State) (va target : Nat) (e : W64) : Nat → Nat → Nat → Option State
  | 0, _, _ => none
  | n + 1, lvl, base =>
    if lvl = target then some (s.setLeaf (base + 8 * pteIdx lvl va) lvl e)
    else (s.nextTable (base + 8 * pteIdx lvl va)).bind (fun r => r.1.putLeaf va target e n (lvl + 1) r.2)
/-- The leaf put in the tables of job `j`. -/
def State.mapLeaf (s : State) (j va : Nat) (e : W64) : Option State :=
  match AMap.find s.jobs j with
  | some b => s.putLeaf va (leafLevel (pteSize e)) e 5 1 b.root
  | none => none

/-- Leaves of every job that map frames in [lo, hi): job, address, place, entry. -/
def State.mappers (s : State) (lo hi : Nat) : List (Nat × Nat × Nat × W64) :=
  (s.jobs.map (fun j => ((s.leaves j.1).filter (fun l =>
    !bit l.2.2 63 && !bit l.2.2 3 && decide (pteFrame l.2.2 < hi) && decide (lo < pteFrame l.2.2 + leafBytes (pteSize l.2.2)))).map
      (fun l => (j.1, l)))).flatten
/-- Leaves of job `j` that touch addresses in [lo, hi). -/
def State.leavesIn (s : State) (j lo hi : Nat) : List (Nat × Nat × W64) :=
  (s.leaves j).filter (fun l => decide (l.1 < hi) && decide (lo < l.1 + leafBytes (pteSize l.2.2)))
/-- Whether addresses [lo, hi) of job `j` are free: no page, and no region of another device (R380). -/
def State.vaFree (s : State) (j lo hi : Nat) : Bool :=
  (s.leavesIn j lo hi).isEmpty &&
    (match AMap.find s.jobs j with
    | some b => b.gmap.all (fun r => decide ((r.1 + 1) * 2 ^ 30 ≤ lo) || decide (hi ≤ r.1 * 2 ^ 30))
    | none => false)

/-! ## Cleaning a page (R324, R338) -/

/-- Pending PHASE bytes of [lo, hi), with their cores ascending. -/
def State.pendRange (s : State) (lo hi : Nat) : List (Nat × Nat × BitVec 8) :=
  (s.cores.map (fun e => (AMap.range e.2.pend lo hi).map (fun b => (e.1, b.1, b.2)))).flatten
/-- Pending PHASE bytes of [lo, hi), the frame of address `va` of job `j`, are merged: the highest core's stand. None where
a copy on write finds no pool block. -/
def State.mergeRange (s : State) (j va lo hi : Nat) : Option State :=
  let r := (s.pendRange lo hi).foldl (fun (t : Option State) b =>
    t.bind (fun t =>
      let a := va + (b.2.1 - lo)
      if t.cowOk j a then some (t.writeHome j a b.2.1 [b.2.2]) else none)) (some s)
  r.map (fun t => { t with cores := t.cores.map (fun e => (e.1, { e.2 with
    pend := e.2.pend.filter (fun b => !(decide (lo ≤ b.1) && decide (b.1 < hi)))
    pendPool := e.2.pendPool.filter (fun p => !(decide (lo ≤ p * 4096) && decide (p * 4096 < hi))) })) })
/-- Whether every dirty PRIV line of [lo, hi) can go home: the pool has a block for each copy that this needs. -/
def State.privReady (s : State) (lo hi : Nat) : Bool :=
  s.cowRoom ((s.cores.map (fun e => (e.2.l1.filter (fun x =>
    decide (lo ≤ x.line * 128) && decide (x.line * 128 < hi) && x.code == aPRIV && !x.dirty.isEmpty)).map
      (fun x => (x.job, x.va)))).flatten)
/-- Waiting stores of a range performed and every copy recalled; none where it must wait. -/
def State.cleanRange (s : State) (lo hi : Nat) : Option State :=
  let s := s.flushRange lo hi
  if s.privReady lo hi then some (s.recallRange lo hi) else none

end Sys2Proof.Machine
end

