-- ==== Sys2Proof/Machine/Sched.lean ====
section
/-! DEFINITION. Cards, queues and launches (R342 to R360): checking and posting a card, counters, cancellation, dispatch of
teams, and the completion of a launch with its continuation (R144, R352). -/

namespace Sys2Proof.Machine

/-! ## Cards (R344 to R347) -/

/-- A field of `n` bytes at offset `o`. -/
def bytesAt (bs : List (BitVec 8)) (o n : Nat) : Nat := leNat ((bs.drop o).take n)
/-- An entry of a range table (R346), as it stands. -/
structure RawRng where
  base : Nat
  len : Nat
  mode : Nat
  zero : Nat
  deriving DecidableEq, Repr
def rawRng (bs : List (BitVec 8)) : RawRng :=
  let w := bytesAt bs 8 8
  ⟨bytesAt bs 0 8, w % 2 ^ 48, w / 2 ^ 48 % 4, w / 2 ^ 50⟩
/-- RCOUNT and RTAB of a card, and whether its table is read. -/
def rcountOf (bs : List (BitVec 8)) : Nat := bytesAt bs 0x28 8 % 32
def rtabOf (bs : List (BitVec 8)) : Nat := bytesAt bs 0x20 8
def readsTable (bs : List (BitVec 8)) : Bool := decide (rcountOf bs ≤ 16) && rtabOf bs % 16 == 0
/-- The card that bytes and a table describe. -/
def cardIn (bs : List (BitVec 8)) (tab : List RawRng) : CardC :=
  let w := fun (o : Nat) => BitVec.ofNat 64 (bytesAt bs o 8)
  { entry := w 0, handler := w 8, count := bytesAt bs 0x10 8 % 2 ^ 40, config := w 0x18, cont := w 0x30,
    wctr := BitVec.ofNat 32 (bytesAt bs 0x38 4), wval := w 0x40, graph := bytesAt bs 0x48 3,
    ranges := tab.map (fun r => ⟨r.base, r.len, BitVec.ofNat 2 r.mode⟩) }
/-- Teams of a card, and how many an empty core holds at once (R117, R118). -/
def teamsOf (c : CardC) : Nat := (c.count + cfgTeam c.config - 1) / cfgTeam c.config
def coreFit (c : CardC) : Nat :=
  if !teamFits c then 0
  else
    let by_ := fun (n top : Nat) => if n = 0 then 1024 else top / n
    ((4 * quadLimit (cfgQuota c.config) / groupsOf c).min (by_ (cfgScratch c.config) Config.scratchBytes)).min
      ((by_ (cfgBars c.config) Config.barriers).min (by_ (cfgSlots c.config) Config.tileSlots))
/-- Cores of a queue level, ascending (R348), and entries of its queue. -/
def QLevel.cores : QLevel → List Nat
  | .core c => [c]
  | .cluster k => (List.range 8).map (k * 8 + ·)
  | .die d => (List.range 48).map (d * 48 + ·)
  | .device => List.range Config.cores
def QLevel.entries : QLevel → Nat
  | .core _ => 64
  | .cluster _ => 256
  | .die _ => 1024
  | .device => 4096
def State.liveCores (s : State) (l : QLevel) : List Nat := l.cores.filter s.coreLive
/-- A malformed counter identifier (R343). -/
def badCounter (c : W32) : Bool := c.extractLsb' 24 6 != 0

/-- The status of R347: the first failing row. Rows 5 and 6 are checked for a queue level. -/
def State.cardStatus (s : State) (j : Nat) (bs : List (BitVec 8)) (tab : List RawRng) (lvl : Option QLevel) : Nat :=
  let c := cardIn bs tab
  let cnt := bytesAt bs 0x10 8
  let snap := match AMap.find s.jobs j with | some b => b.snapperm | none => false
  let rows : List (Nat × Bool) :=
    [(1, c.entry == 0 || c.entry.toNat % 8 != 0 || c.handler.toNat % 8 != 0),
     (2, decide (32 < cfgSlots c.config) || decide (1024 < cfgBars c.config) || decide (262144 < cfgScratch c.config) ||
        tab.any (fun r => r.mode == 0 || r.zero != 0)),
     (3, cnt % 2 ^ 40 == 0 || cnt / 2 ^ 40 != 0),
     (4, decide (16 < rcountOf bs) || rtabOf bs % 16 != 0 || c.cont.toNat % 128 != 0 || tab.any (fun r => r.len == 0)),
     (5, lvl.isSome && !teamFits c),
     (6, match lvl with
        | some l => cfgCores c.config && decide ((s.liveCores l).length * coreFit c < teamsOf c)
        | none => false),
     (7, bytesAt bs 0x28 8 / 32 != 0 || bytesAt bs 0x3C 4 != 0 || bytesAt bs 0x4B 53 != 0 || badCounter c.wctr ||
        c.config.toNat / 2 ^ 43 != 0),
     (8, cfgSnap c.config && !snap)]
  ((rows.find? (·.2)).map (·.1)).getD 0

/-! ## Plain reads of items and units (R355 to R357) -/

/-- What reading bytes comes to. -/
inductive PlainRd where
  | ok (bs : List (BitVec 8)) (s : State)
  | fail (a : W64) (r : Nat)
  | stall
/-- Whether some byte read lies on a PHASE page. -/
def State.readsPhase (s : State) (j : Nat) (a : W64) (n : Nat) : Bool :=
  (List.range n).any (fun i => match s.engXlat j (a + BitVec.ofNat 64 i) false with | .ok x => x.attr == aPHASE | _ => false)
/-- Whether a CINV that the item issued for a line of these bytes has not completed (R321). -/
def State.invBlocks (s : State) (ik : Option Nat) (j : Nat) (a : W64) (n : Nat) : Bool :=
  match ik with
  | none => false
  | some k => (List.range n).any (fun i => match s.engXlat j (a + BitVec.ofNat 64 i) false with
    | .ok x => s.invPending k (lineOf x.pa)
    | _ => false)
/-- `n` bytes read as core `c` reads them for job `j`, by item `ik` or by a unit; PHASE bytes wait for a merge (R361), an
item's line for its CINV. -/
def State.plainRead (s : State) (c j : Nat) (ik : Option Nat) (a : W64) (n : Nat) : PlainRd :=
  if (s.merging j && s.readsPhase j a n) || s.invBlocks ik j a n then .stall
  else
    match s.engCheck c j false 4 a n with
    | .ok => let r := s.engRead c j 4 a n; .ok r.1 r.2
    | .fail p r => .fail p r
    | .stall => .stall
/-- A card with its range table, read from memory; `edit` changes its bytes first. -/
inductive CardRd where
  | ok (bs : List (BitVec 8)) (tab : List RawRng) (s : State)
  | fail (a : W64) (r : Nat)
  | stall
def State.readCard (s : State) (c j : Nat) (ik : Option Nat) (a : W64) (edit : List (BitVec 8) → List (BitVec 8)) :
    CardRd :=
  match s.plainRead c j ik a 128 with
  | .fail p r => .fail p r
  | .stall => .stall
  | .ok bs s =>
    let bs := edit bs
    if !readsTable bs then .ok bs [] s
    else
      match s.plainRead c j ik (BitVec.ofNat 64 (rtabOf bs)) (16 * rcountOf bs) with
      | .fail p r => .fail p r
      | .stall => .stall
      | .ok t s => .ok bs ((List.range (rcountOf bs)).map (fun k => rawRng (t.drop (16 * k)))) s
/-- Bytes with a 64-bit field replaced. -/
def setField (bs : List (BitVec 8)) (o : Nat) (v : W64) : List (BitVec 8) := bs.take o ++ leBytes v.toNat 8 ++ bs.drop (o + 8)
/-- The trap of a failing access of a card, template or table. -/
def unitTrap (a : W64) (r : Nat) : Trap := if r = 6 then mkTrap cALIAS 0 else memFault r a

/-! ## Queues and counters (R343, R348, R349) -/

/-- The launch identifier after `n` that no live launch of the job holds. -/
def State.nextId (s : State) (j : Nat) : Nat → Nat → Nat
  | 0, n => n
  | fuel + 1, n =>
    let m := if n = 2 ^ 24 - 1 then 1 else n + 1
    match AMap.find s.launches (j * 2 ^ 24 + m) with
    | some l => if l.st = .done then m else s.nextId j fuel m
    | none => m
/-- Whether the queue of a level is full. -/
def State.queueFull (s : State) (l : QLevel) : Bool :=
  decide (l.entries ≤ (s.launches.filter (fun e => e.2.st == .queued && e.2.lvl == l)).length)
/-- A card is accepted (R349, R357): its launch waits in the queue. The identifier comes with the state. -/
def State.acceptCard (s : State) (j : Nat) (lvl : QLevel) (c : CardC) : Nat × State :=
  match AMap.find s.jobs j with
  | none => (0, s)
  | some b =>
    let id := s.nextId j (s.launches.length + 1) b.lastLaunch
    let l : Launch := { card := c, lvl := lvl, seq := s.fresh, phase := b.phase, st := .queued, next := 0, ended := 0,
                        canc := false, cfail := false, raised := none, holds := false, deposits := [], cont := none, lbar := [], lbarN := 0,
                        phb := [], phbN := 0, rver := none }
    let s : State := { s with launches := AMap.put s.launches (j * 2 ^ 24 + id) l, fresh := s.fresh + 1, moved := true }
    (id, s.updJob j (fun b => { b with lastLaunch := id }))

/-- Launches of job `j`. -/
def State.launchesOf (s : State) (j : Nat) : AMap Launch := AMap.range s.launches (j * 2 ^ 24) ((j + 1) * 2 ^ 24)
/-- Value and status image of a counter (R343, R359). -/
def State.counter (s : State) (j : Nat) (c : W32) : Nat × Nat :=
  let idx := (c.extractLsb' 0 24).toNat
  match AMap.find s.jobs j with
  | none => (0, 0)
  | some b =>
    let live := fun (f : Launch → Bool) => 4 * (if (s.launchesOf j).any (fun e => e.2.st != .done && f e.2) then 1 else 0)
    let flag := fun (x : Bool) => if x then 1 else 0
    match (c.extractLsb' 30 2).toNat with
    | 0 => match AMap.find s.launches (j * 2 ^ 24 + idx) with
      | some l => (l.ended, 8 * flag l.cfail + 4 * flag (l.st != .done) + 2 * flag (l.st == .done) + flag l.canc)
      | none => (0, 0)
    | 1 => if idx = 0 then (0, 0)
      else (AMap.getD b.graphs idx 0, live (fun l => l.card.graph == idx) + flag (b.cancGraphs.contains idx))
    | 2 => (AMap.getD b.phases idx 0, live (fun l => l.phase % 2 ^ 24 == idx) + flag (b.cancPhases.contains idx))
    | _ => if idx = 0 then (b.ctr, live (fun _ => true) + flag b.canc) else (0, 0)
/-- A saturating counter raised by one. -/
def satUp (n : Nat) : Nat := Nat.min (n + 1) (2 ^ 64 - 1)
/-- A launch is complete: its counter is final and DONE, and the other counters rise (R352); barriers it owned are reset
(R252). -/
def State.markDone (s : State) (lk : Nat) (cfail : Bool) : State :=
  match AMap.find s.launches lk with
  | none => s
  | some l =>
    let s := s.updLaunch lk (fun l => { l with st := .done, ended := l.card.count, next := l.card.count, cfail := cfail })
    let s := s.updJob (jobOfLaunch lk) (fun b =>
      let p := (b.phase - (if b.merge then 1 else 0)) % 2 ^ 24
      { b with
        graphs := if l.card.graph = 0 then b.graphs else AMap.put b.graphs l.card.graph (satUp (AMap.getD b.graphs l.card.graph 0))
        phases := AMap.put b.phases p (satUp (AMap.getD b.phases p 0))
        ctr := satUp b.ctr })
    { s.withdrawCBar lk with moved := true }

/-! ## Cancellation (R354) -/

/-- One launch is cancelled. -/
def State.cancelLaunch (s : State) (lk : Nat) : State :=
  match AMap.find s.launches lk with
  | none => s
  | some l =>
    if l.st = .done || l.canc then s
    else
      let s := s.updLaunch lk (fun l => { l with canc := true, deposits := [] })
      if l.st = .queued then s.markDone lk (l.card.cont != 0)
      else
        let s := s.updLaunch lk (fun l => { l with ended := l.ended + (l.card.count - l.next), next := l.card.count })
        let s : State := { s with
          items := s.items.map (fun e => if launchOf e.1 = lk then (e.1, { e.2 with cancel := !e.2.cancelled }) else e)
          spans := s.spans.map (fun e => if e.2.launch = lk then (e.1, { e.2 with cancel := true }) else e)
          mmacs := s.mmacs.filter (fun m => launchOfGroup m.grp != lk)
          moved := true }
        ((s.abandonCopies lk).withdrawCBar lk).lbarCheck lk
/-- The object of a counter is cancelled. -/
def State.cancelObj (s : State) (j : Nat) (c : W32) : State :=
  let idx := (c.extractLsb' 0 24).toNat
  let hit := fun (f : Launch → Bool) (s : State) => (s.launchesOf j).foldl (fun t e => if f e.2 then t.cancelLaunch e.1 else t) s
  match (c.extractLsb' 30 2).toNat with
  | 0 => s.cancelLaunch (j * 2 ^ 24 + idx)
  | 1 => if idx = 0 then s
    else hit (fun l => l.card.graph == idx) (s.updJob j (fun b => { b with cancGraphs := idx :: b.cancGraphs.filter (· != idx) }))
  | 2 => hit (fun l => l.phase % 2 ^ 24 == idx) (s.updJob j (fun b =>
      { b with cancPhases := idx :: b.cancPhases.filter (· != idx) }))
  | _ => if idx = 0 then hit (fun _ => true) (s.updJob j (fun b => { b with canc := true })) else s

/-! ## The instructions (R355 to R360) -/

/-- A load-like result of an instruction that wrote it at issue: it arrives as a load does (R53). -/
def State.startResult (s : State) (ik : Nat) (pc : W64) (r : RegRef) (v : Nat) (fail : Option Nat) (a : W64) (word : W64)
    (args : List W64) : State :=
  ((s.setEmpty ik r 1).addOp ⟨s.coreOf ik, launchOf ik, indexOf ik, indexOf ik + 1, pc,
    .load { dst := ⟨r, 1⟩, bytes := 4, sext := false, val := BitVec.ofNat 128 v, fail := fail, addr := a, acq := false,
            word := word, args := args, want := none, pend := false }⟩).2
/-- A uncorrectable error makes a result POISON at once (R355); with no record free the item takes POISON_FULL first. -/
def State.poisonNow (s : State) (ik : Nat) (f : Failed) : Option State :=
  let free := (s.core (s.coreOf ik)).freeRec.isSome
  let t := s.takePoison s.fresh ik ik f
  if free then some t else if t = s then none else some t

/-- CARD's effect, also as PRPLY reissues it: `args` are destination, template, COUNT and CONT values. -/
def cardRun (i : Instr) (cnt cont : Bool) (r : RegRef) (pc : W64) (args : List W64) (s : State) (ik : Nat) : Ev State := do
  let c := s.coreOf ik
  let j := jobOf ik
  let d := args.getD 0 0
  let t := args.getD 1 0
  let word := (encode i).headD 0
  let s := s.flushItem ik
  let edit := fun (bs : List (BitVec 8)) =>
    let bs := if cnt then setField bs 0x10 (args.getD 2 0) else bs
    if cont then setField bs 0x30 (args.getD 3 0) else bs
  match s.readCard c j (some ik) t edit with
  | .stall => .error .wait
  | .fail a r' => if r' = 4 then .ok (s.startResult ik pc r 0 (some 4) a word args) else .error (.trap (unitTrap a r'))
  | .ok bs tab s1 =>
    match s1.engCheck c j true 4 d 128 with
    | .stall => .error .wait
    | .fail a r' => .error (.trap (unitTrap a r'))
    | .ok => do
      let ph := s1.touchesPhase j d 128
      orWait (!(ph && s1.merging j))
      orWait (!((s1.engPlaces j d 128).any (fun p => p.2.2 == aSEQ) && s1.linePending ik))
      let s1 := if ph then s1.notePhase (s1.teamOf ik) c else s1
      let st := s1.cardStatus j bs tab none
      .ok ((s1.engWrite c j ik 4 d bs).startResult ik pc r st none 0 word args)
/-- CARD (R356). -/
def execCard (f : EF) (cnt cont : Bool) (s : State) : Host.Outcome State Fault Refusal :=
  .next (issue f.g 8 (fun s0 t ik => do
    let (it, g) ← getItem s0 ik
    acqGate t ik
    freeE it g f.r 1
    let d ← readE s0 ik it g f.o1 2
    let a ← readE s0 ik it g f.o2 2
    let vs ← if cnt || cont then readEs s0 ik it g f.o3 4 else .ok [0, 0, 0, 0]
    acquireGate t ik
    orTrap (d.toNat % 128 == 0) (addrTrap cMISALIGN 0 d)
    orTrap (a.toNat % 128 == 0) (addrTrap cMISALIGN 0 a)
    cardRun (.card f cnt cont) cnt cont (.v f.r.toNat) s0.cur.pc
      [d, a, pair (vs.getD 0 0) (vs.getD 1 0), pair (vs.getD 2 0) (vs.getD 3 0)] t ik) s)

/-- The queue level a POST names; none where operand 2 names no live core (R355). -/
def State.postLevel (s : State) (c : Nat) (lvl : PostLvl) (target : Nat) : Option QLevel :=
  match lvl with
  | .own => some (.core c)
  | .to => if s.coreLive target then some (.core target) else none
  | .clu => some (.cluster (clusterOf c))
  | .die => some (.die (dieOf c))
  | .dev => some .device
/-- POST's effect, also as PRPLY reissues it: `args` are the card address and the target core. -/
def postRun (i : Instr) (lvl : PostLvl) (r : RegRef) (pc : W64) (args : List W64) (s : State) (ik : Nat) : Ev (State × Bool) := do
  let c := s.coreOf ik
  let j := jobOf ik
  let a := args.getD 0 0
  match s.postLevel c lvl (argNat args) with
  | none => .error (.trap (mkTrap cSCHED 2))
  | some q =>
    let s := s.flushItem ik
    match s.readCard c j (some ik) a id with
    | .stall => .error .wait
    | .fail p r' =>
      if r' = 4 then
        match s.poisonNow ik ⟨⟨r, 2⟩, (encode i).headD 0, p, pc, 4, args, false⟩ with
        | some t => .ok (t, ((s.core c).freeRec).isSome)
        | none => .error .wait
      else .error (.trap (unitTrap p r'))
    | .ok bs tab s1 =>
      let st := s1.cardStatus j bs tab (some q)
      if st ≠ 0 then .ok (s1.dest ik r 2 (st + 2 ^ 32 * 0xFFFFFFFF), true)
      else do
        orWait (!s1.queueFull q)
        let (id, s2) := s1.acceptCard j q (cardIn bs tab)
        .ok (s2.dest ik r 2 (2 ^ 32 * id), true)
where
  argNat (args : List W64) : Nat := (lo32 (args.getD 1 0)).toNat
/-- POST (R357). -/
def execPost (f : EF) (lvl : PostLvl) (s : State) : Host.Outcome State Fault Refusal :=
  .next (issueRaw f.g 8 (fun s0 t ik => do
    let (it, g) ← getItem s0 ik
    acqGate t ik
    freeE it g f.r 2
    let a ← readE s0 ik it g f.o1 2
    let c ← if lvl = .to then readE s0 ik it g f.o2 1 else .ok 0
    acquireGate t ik
    orTrap (a.toNat % 128 == 0) (addrTrap cMISALIGN 0 a)
    let (u, done) ← postRun (.post f lvl) lvl (.v f.r.toNat) s0.cur.pc [a, c] t ik
    .ok (if done then u.advance ik 8 else u)) s)
/-- CNTW (R358). -/
def execCntw (f : EF) (s : State) : Host.Outcome State Fault Refusal :=
  .next (issue f.g 8 (fun s0 t ik => do
    let (it, g) ← getItem s0 ik
    acqGate t ik
    freeE it g f.r 2
    let c ← readE s0 ik it g f.o1 1
    let v ← readE s0 ik it g f.o2 2
    acquireGate t ik
    orTrap (!badCounter (lo32 c)) (mkTrap cSCHED 1)
    let n := (t.counter (jobOf ik) (lo32 c)).1
    orWait (decide (v.toNat ≤ n))
    .ok ((t.flushItem ik).dest ik (.v f.r.toNat) 2 n)) s)
/-- CNTQ (R359). -/
def execCntq (f : EF) (st : Bool) (s : State) : Host.Outcome State Fault Refusal :=
  .next (issue f.g 8 (fun s0 t ik => do
    let (it, g) ← getItem s0 ik
    acqGate t ik
    freeE it g f.r 2
    let c ← readE s0 ik it g f.o1 1
    acquireGate t ik
    orTrap (!badCounter (lo32 c)) (mkTrap cSCHED 1)
    let n := t.counter (jobOf ik) (lo32 c)
    .ok (t.dest ik (.v f.r.toNat) 2 (if st then n.2 else n.1))) s)
/-- CANCEL (R360). -/
def execCancel (f : EF) (s : State) : Host.Outcome State Fault Refusal :=
  .next (issue f.g 8 (fun s0 t ik => do
    let (it, g) ← getItem s0 ik
    acqGate t ik
    let c ← readE s0 ik it g f.o1 1
    acquireGate t ik
    orTrap (!badCounter (lo32 c)) (mkTrap cSCHED 1)
    .ok (t.cancelObj (jobOf ik) (lo32 c))) s)

/-! ## Eligibility and dispatch (R349, R350, R139, R323) -/

/-- Whether two ranges share a 256-byte granule. -/
def shareGranule (a b : Rng) : Bool :=
  decide (a.base / 256 ≤ (b.base + b.len - 1) / 256) && decide (b.base / 256 ≤ (a.base + a.len - 1) / 256)
/-- Whether a task waits for an earlier one of its graph: a shared granule that at least one of them writes. -/
def dependsOn (b a : Launch) : Bool :=
  a.card.graph == b.card.graph && b.card.graph != 0 && decide (a.seq < b.seq) && a.st != .done &&
    a.card.ranges.any (fun x => b.card.ranges.any (fun y => shareGranule x y && (bit x.mode 1 || bit y.mode 1)))
/-- Whether a launch with teams still to start is eligible. -/
def State.eligible (s : State) (lk : Nat) (l : Launch) : Bool :=
  let j := jobOfLaunch lk
  l.st != .done && !l.canc && decide (l.next < l.card.count) &&
    (match AMap.find s.jobs j with | some b => b.active | none => false) &&
    !(s.launchesOf j).any (fun e => dependsOn l e.2) &&
    (l.card.wval == 0 || decide (l.card.wval.toNat ≤ (s.counter j l.card.wctr).1))
/-- The order of eligible launches. -/
def launchBefore (a b : Nat × Launch) : Bool :=
  match a.2.raised, b.2.raised with
  | some x, some y => decide (x < y)
  | some _, none => true
  | none, some _ => false
  | none, none =>
    let p := cfgPrio a.2.card.config
    let q := cfgPrio b.2.card.config
    decide (q < p) || (p == q && decide (a.2.seq < b.2.seq))
def State.inOrder (s : State) : AMap Launch :=
  sortBy launchBefore (s.launches.filter (fun e => s.eligible e.1 e.2))

/-- Teams allocated one after another on core `c`, up to `n`: how many, and the state. -/
def State.allocMany (s : State) (lk base c : Nat) : Nat → Nat × State
  | 0 => (0, s)
  | n + 1 =>
    if (s.cardOf lk).count ≤ base then (0, s)
    else
      match s.allocTeam lk base c with
      | some t => let r := t.allocMany lk (base + s.teamSize lk) c n; (r.1 + 1, r.2)
      | none => (0, s)
/-- A span of a launch's next `n` teams put in a free entry of core `c`. -/
def State.startSpan (s : State) (lk c quad n : Nat) : Option State :=
  match AMap.find s.launches lk, s.freeSpan c with
  | some l, some k =>
    let hi := Nat.min (l.next + n * s.teamSize lk) l.card.count
    let e := Span.start lk l.next hi (s.quotaOf lk) quad s.fresh l.card.entry
    let s : State := { s with spans := AMap.put s.spans k e, fresh := s.fresh + 1 }
    some (s.updLaunch lk (fun l => { l with next := hi, st := .running, raised := none, holds := false }))
  | _, _ => none
/-- A co-resident launch admitted whole (R139): its teams allocated on the cores given, in order. -/
def State.admitAll (s : State) (lk quad : Nat) : List (Nat × Nat) → Option State
  | [] => match AMap.find s.launches lk with
    | some l => if l.card.count ≤ l.next then some s else none
    | none => none
  | (c, n) :: cs =>
    match AMap.find s.launches lk with
    | none => none
    | some l =>
      if l.card.count ≤ l.next then some s
      else
        let r := s.allocMany lk l.next c n
        if r.1 = 0 then s.admitAll lk quad cs
        else (r.2.startSpan lk c quad r.1).bind (fun t => t.admitAll lk quad cs)
/-- The cores a co-resident launch is spread over, from core `c` on, which takes at most `n` teams. -/
def State.spread (s : State) (l : Launch) (c n : Nat) : List (Nat × Nat) :=
  (c, n) :: ((s.liveCores l.lvl).filter (· != c)).map (fun k => (k, 1024))

/-- PRIV lines of the declared ranges of a launch in the L1 of core `c`. -/
def State.privLines (s : State) (j c : Nat) (rs : List Rng) : List Line :=
  (s.core c).l1.filter (fun x => x.code == aPRIV && x.job == j &&
    rs.any (fun r => decide (r.base / 256 * 256 ≤ x.va + 127) && decide (x.va ≤ (r.base + r.len - 1) / 256 * 256 + 255)))
/-- The lines written back, and dropped where `inval`; none where a copy on write finds no pool block. -/
def State.cleanRanges (s : State) (j c : Nat) (rs : List Rng) (inval : Bool) : Option State :=
  (s.privLines j c rs).foldl (fun (t : Option State) x =>
    t.bind (fun t => if t.lineReady c x.line then some (t.lineDone c x.line inval) else none)) (some s)
/-- Cores where spans of a launch stand. -/
def State.coresOfLaunch (s : State) (lk : Nat) : List Nat :=
  ((s.spans.filter (fun e => e.2.launch == lk && decide (e.1 < savedSpan))).map (fun e => coreOfSpan e.1)).eraseDups
/-- The PRIV lines of a launch's declared ranges leave every core that is to run its new teams (R323). -/
def State.cleanFor (s : State) (lk : Nat) (l : Launch) : Option State :=
  (s.coresOfLaunch lk).foldl (fun (t : Option State) c =>
    t.bind (fun t => t.cleanRanges (jobOfLaunch lk) c l.card.ranges true)) (some s)
/-- The continuation card as the reorder unit reads it when the first team starts (R144); none while the read stalls. A
card that cannot be read gives no capacity (log entry 56). -/
def State.readCont (s : State) (lk c : Nat) : Option State :=
  match AMap.find s.launches lk with
  | none => some s
  | some l =>
    if l.card.cont = 0 then some s
    else
      match s.readCard c (jobOfLaunch lk) none l.card.cont id with
      | .stall => none
      | .ok _ (r :: _) t => some (t.updLaunch lk (fun l => { l with cont := some (r.base, r.len, r.mode) }))
      | _ => some (s.updLaunch lk (fun l => { l with cont := some (0, 0, 0) }))

/-- Whether a launch can use core `c` now. -/
def State.canUse (s : State) (lk c : Nat) (l : Launch) : Bool :=
  l.lvl.cores.contains c && s.coreLive c && (s.freeSpan c).isSome &&
    (if cfgCores l.card.config then (s.admitAll lk 0 (s.spread l c 1024)).isSome else (s.allocTeam lk l.next c).isSome)
/-- Whether the order of R350 lets launch `lk` start teams on core `c`: no earlier launch can use it, and no co-resident
launch that comes before it, or did before it was raised, needs the core. -/
def State.mayStart (s : State) (lk c : Nat) (l : Launch) : Bool :=
  let el := s.inOrder
  let before := el.takeWhile (fun e => e.1 != lk)
  let held := (before ++ el.filter (fun e => e.2.holds)).any (fun m => m.1 != lk && cfgCores m.2.card.config &&
    m.2.lvl.cores.contains c && decide (cfgPrio l.card.config ≤ cfgPrio m.2.card.config))
  el.any (fun e => e.1 == lk) && !held && !before.any (fun e => s.canUse e.1 c e.2)
/-- Whether the scheduler starts teams at all (R369, R378): the compute dies are powered and cool enough. -/
def State.dispatching (s : State) : Bool := s.mgmt.mode == .normal && !s.mgmt.hot && s.mgmt.pstate != 3
/-- The teams a launch starts on core `c`. -/
def State.startTeams (s : State) (lk c n quad : Nat) (l : Launch) : Option State :=
  if cfgCores l.card.config then s.admitAll lk quad (s.spread l c n)
  else if (s.allocMany lk l.next c n).1 = n then s.startSpan lk c quad n
  else none
/-- A card starts `n` teams on a core, as a span bound to a quad. -/
def execTeamDispatch (seq core n quad : Nat) (s : State) : Host.Outcome State Fault Refusal :=
  .next (match s.launches.find? (fun e => e.2.seq == seq) with
    | none => s
    | some (lk, l) =>
      if !s.dispatching || n = 0 || 4 ≤ quad || !s.canUse lk core l || !s.mayStart lk core l ||
          decide (l.card.count < l.next + (n - 1) * s.teamSize lk + 1) then s
      else
        match ((if l.st = .queued then s.readCont lk core else some s).bind (fun t => t.startTeams lk core n quad l)).bind
            (fun t => t.cleanFor lk l) with
        | some u => { u with moved := true }
        | none => s)
/-- A card that has waited 2^20 cycles goes before the others (R350). -/
def execCardAgeEscalation (seq : Nat) (s : State) : Host.Outcome State Fault Refusal :=
  .next (match s.launches.find? (fun e => e.2.seq == seq) with
    | some (lk, l) =>
      if l.st = .queued && l.raised.isNone && s.eligible lk l then
        let before := (s.inOrder.takeWhile (fun e => e.1 != lk)).filter (fun e => cfgCores e.2.card.config)
        let s := before.foldl (fun t e => t.updLaunch e.1 (fun l => { l with holds := true })) s
        { s.updLaunch lk (fun l => { l with raised := some s.fresh }) with fresh := s.fresh + 1, moved := true }
      else s
    | none => s)
/-- A bundle or span that has waited long goes before the others (R137): `top` for 4,096 cycles. -/
def execIssueAgeEscalation (u : IUnit) (top : Bool) (s : State) : Host.Outcome State Fault Refusal :=
  .next (if s.raised.contains (u, top) then s else { s with raised := s.raised ++ [(u, top)], moved := true })

/-! ## Completion of a launch (R144, R352) -/

/-- Deposits of one key in ascending item index. -/
def depositsOf (l : List (Nat × W64 × Nat)) (k : Nat) : List (Nat × W64 × Nat) :=
  sortBy (fun a b => decide (a.2.2 < b.2.2)) (l.filter (fun d => d.1 == k))
/-- The records in the order in which they are written. -/
def reorder (l : List (Nat × W64 × Nat)) : List (Nat × W64) :=
  let ks := l.foldl (fun (m : List Nat) d => if m.contains d.1 then m else m ++ [d.1]) []
  let ks := sortBy (fun (a b : Nat) => decide (a < b)) ks
  let whole := fun (k : Nat) => let d := depositsOf l k; d.take (16 * (d.length / 16))
  let rest := fun (k : Nat) => let d := depositsOf l k; d.drop (16 * (d.length / 16))
  ((ks.map whole).flatten ++ (ks.map rest).flatten).map (fun d => (d.1, d.2.1))
/-- Bytes of a record. -/
def recBytes (d : Nat × W64) : List (BitVec 8) := leBytes (d.1 % 65536) 8 ++ leBytes d.2.toNat 8
/-- The records written from `a` on, at their homes, as core `c` for PHASE bytes. -/
def State.writeRecs (s : State) (c j : Nat) (a : W64) : List (BitVec 8) → State
  | [] => s
  | b :: bs =>
    let s := match s.engXlat j a true with
      | .ok x => if x.attr = aPRIV then s.writeHome j (vaOf a) x.pa [b] else s.writeAt c j (vaOf a) x.pa x.attr 4 [b]
      | .remote d => s.toDevice d j 0 a (.store 1 (b.setWidth 128))
      | _ => s
    s.writeRecs c j (a + 1) bs
/-- Whether every item has ended and no in-flight count is left. -/
def State.allEnded (s : State) (lk : Nat) (l : Launch) : Bool :=
  l.st == .running && decide (l.card.count ≤ l.ended) &&
    (AMap.range s.groups (lk * 2 ^ 36) ((lk + 1) * 2 ^ 36)).all (fun e => e.2.inflight == 0)
/-- The records and the continuation: the state, and whether CFAIL is set; none where it cannot be done yet. -/
def State.finishCont (s : State) (lk : Nat) (l : Launch) : Option (State × Bool) :=
  if l.card.cont = 0 then some (s, false)
  else if l.canc || l.deposits.isEmpty then some (s, true)
  else
    let c := (l.lvl.cores.head?).getD 0
    let j := jobOfLaunch lk
    let bs := ((reorder l.deposits).map recBytes).flatten
    let base := BitVec.ofNat 64 (match l.cont with | some x => x.1 | none => 0)
    match s.engCheck c j true 4 base bs.length with
    | .stall => none
    | _ =>
      if s.merging j && s.touchesPhase j base bs.length then none
      else
        let s := s.writeRecs c j base bs
        match s.readCard c j none l.card.cont (fun b => setField b 0x10 (BitVec.ofNat 64 l.deposits.length)) with
        | .stall => none
        | .fail _ _ => some (s, true)
        | .ok cb tab t =>
          if t.cardStatus j cb tab (some l.lvl) ≠ 0 then some (t, true)
          else if t.queueFull l.lvl then none
          else some ((t.acceptCard j l.lvl (cardIn cb tab)).2, false)
/-- A launch completes. -/
def execLaunchCompletion (launch : Nat) (s : State) : Host.Outcome State Fault Refusal :=
  .next (match AMap.find s.launches launch with
    | none => s
    | some l =>
      if !s.allEnded launch l then s
      else
        match (s.flushJob (jobOfLaunch launch)).finishCont launch l with
        | none => s
        | some (t, cfail) =>
          let t := t.cores.foldl (fun (u : Option State) e =>
            u.bind (fun u => u.cleanRanges (jobOfLaunch launch) e.1 l.card.ranges false)) (some t)
          match t with
          | some u => u.markDone launch cfail
          | none => s)

end Sys2Proof.Machine
end

