-- ==== Sys2Proof/Machine/Preempt.lean ====
section
/-! DEFINITION. Pre-emption and resumption of teams (R231, R232, R322, R351). A saved team keeps its entry in the team table
with no core; its buffer entries and poison records stand beside it, and the span parts of its items stand at keys of the
span table that belong to no core. -/

namespace Sys2Proof.Machine

/-! ## Stopping (R231) -/

/-- Whether a span may stop. -/
def Span.quiet (e : Span) : Bool := e.v.all (fun r => r.tag != .empty) && !anyEmpty e.g
/-- The team of a group. -/
def State.teamOfGroup (s : State) (gk : Nat) : Nat := s.teamOf (gk * 16)
/-- Group `gk` stops if it may. -/
def State.stopGroup (s : State) (gk : Nat) : State :=
  if !(s.groupD gk).stopped && s.groupQuiet gk then
    { (s.updGroup gk (fun g => { g with stopped := true })).updTeam (s.teamOfGroup gk) (fun t => { t with preempt := true })
        with moved := true }
  else s
/-- Keys of the groups of team `tk` that hold items. -/
def State.groupsOfTeam (s : State) (t : Team) : List Nat :=
  let lo := itemKey t.launch t.base / 16
  (AMap.range s.groups lo (lo + t.size / 16)).map (·.1)
/-- Span entries of core `c` with items [lo, hi) of a launch. -/
def State.spansFor (s : State) (c lk lo hi : Nat) : AMap Span :=
  (s.spansOn c).filter (fun e => e.2.launch == lk && decide (e.2.lo < hi) && decide (lo < e.2.hi))

/-! ## Leaving the core -/

/-- A span that reaches beyond both ends of a team's items needs a second entry when the team leaves: without one, what lies
above materialises. -/
def State.makeRoom (s : State) (c lk lo hi : Nat) : State :=
  match s.around c lk lo hi, s.freeSpan c with
  | some (_, e), none => s.enterTeams c lk hi e.hi 257
  | _, _ => s
/-- The part [lo, hi) of span `key` is saved; what stands outside it keeps its entry, or takes a free one. -/
def State.saveSpan (s : State) (key lo hi : Nat) : Option State :=
  match AMap.find s.spans key with
  | none => some s
  | some e =>
    let a := Nat.max lo e.lo
    let b := Nat.min hi e.hi
    let saved := AMap.put (AMap.del s.spans key) (savedSpan + s.fresh) (e.part a b)
    let left := decide (e.lo < a)
    let right := decide (b < e.hi)
    let c := coreOfSpan key
    let spans := if left then AMap.put saved key (e.part e.lo a)
      else if right then AMap.put saved key (e.part b e.hi) else saved
    let s : State := { s with spans := spans, fresh := s.fresh + 1, moved := true }
    if left && right then s.placePart c (e.part b e.hi) else some s
/-- Dirty PRIV lines of job `j` in the L1 of core `c` are written back and dropped; none while one cannot be (R322). -/
def State.dropPriv (s : State) (c j : Nat) (dirtyOnly : Bool) : Option State :=
  ((s.core c).l1.filter (fun x => x.code == aPRIV && x.job == j && (!dirtyOnly || !x.dirty.isEmpty))).foldl
    (fun (t : Option State) x =>
      t.bind (fun t => if t.lineReady c x.line then some (t.lineDone c x.line true) else none)) (some s)
/-- An item as it is saved: arrivals at a cluster barrier that have not completed, at a cluster product, and a wait for
re-forming are withdrawn (R249, R252). -/
def State.leaveItem (s : State) (it : Item) : Item :=
  { it with waits := it.waits.filter (fun w => match w.2 with
      | .cbar k gen => (s.cbarD k).gen != gen
      | .mmac _ => false
      | .regrp _ => false
      | _ => true) }
/-- Team `tk` leaves its core once all its groups have stopped and its spans may. -/
def State.leaveCore (s : State) (tk : Nat) : State :=
  match AMap.find s.teams tk with
  | none => s
  | some t =>
    match t.core with
    | none => s
    | some c =>
      let gs := s.groupsOfTeam t
      let sp := s.spansFor c t.launch t.base (t.base + t.size)
      if !gs.all (fun g => (s.groupD g).stopped) || !sp.all (·.2.quiet) then s
      else
        let saved := sp.foldl (fun (u : Option State) e => u.bind (fun u => u.saveSpan e.1 t.base (t.base + t.size))) (some s)
        match saved.bind (fun u => (u.flushJob (jobOfLaunch t.launch)).dropPriv c (jobOfLaunch t.launch) true) with
        | none => s
        | some u =>
          let lo := itemKey t.launch t.base
          let mine := fun (ik : Nat) => decide (lo ≤ ik) && decide (ik < lo + t.size)
          let k := u.core c
          let withdrawn := u.cbars.any (fun b => b.2.owner == some t.launch)
          let u2 : State := { u with
            items := u.items.map (fun e =>
              if mine e.1 || (withdrawn && launchOf e.1 == t.launch) then
                (e.1, if mine e.1 then u.leaveItem e.2 else
                  { e.2 with waits := e.2.waits.filter (fun w => match w.2 with
                      | .cbar b gen => (u.cbarD b).gen != gen
                      | _ => true) })
              else e)
            groups := u.groups.map (fun e => if gs.contains e.1 then (e.1, { e.2 with stopped := false }) else e)
            mmacs := u.mmacs.filter (fun m => !gs.contains m.grp)
            fresh := u.fresh + 1
            moved := true }
          let held := k.poison.filter (fun r => r.2.held && mine r.2.item)
          let bufs := k.bufs.filter (fun b => b.2.team == tk)
          let u3 := u2.updCore c (fun k => { k with
            poison := k.poison.map (fun r => if r.2.held && mine r.2.item then
              (r.1, { r.2 with held := false, freed := u.fresh }) else r)
            bufs := k.bufs.filter (fun b => b.2.team != tk) })
          (u3.updTeam tk (fun t => { t with core := none, preempt := false, savedBufs := bufs, savedRecs := held })).withdrawCBar
            t.launch
/-- A team that stands in spans only leaves its core once they may all stop: they are saved, its job's PRIV lines are
cleaned as at any departure (R322), and the records of its items, whose claims are gone (R133), are freed. -/
def State.leaveSpans (s : State) (tk : Nat) : State :=
  let lk := tk / 2 ^ 36
  let T := s.teamSize lk
  let b := tk % 2 ^ 36 * T
  match (s.spansIn lk b (b + T)).filter (fun x => decide (x.1 < savedSpan)) with
  | [] => s
  | x :: l =>
    let c := coreOfSpan x.1
    if !(x :: l).all (·.2.quiet) then s
    else
      let s := s.makeRoom c lk b (b + T)
      let saved := (x :: l).foldl (fun (u : Option State) e => u.bind (fun u => u.saveSpan e.1 b (b + T))) (some s)
      match saved.bind (fun u => (u.flushJob (jobOfLaunch lk)).dropPriv c (jobOfLaunch lk) true) with
      | none => s
      | some u => u.freeRecords c (itemKey lk b) (itemKey lk (b + T))
/-- Teams of a launch that are resident. -/
def State.teamsOfLaunch (s : State) (lk : Nat) : AMap Team := AMap.range s.teams (lk * 2 ^ 36) ((lk + 1) * 2 ^ 36)
/-- Every team that pre-emption of team `tk` takes: a co-resident launch is pre-empted whole (R351). -/
def State.preemptSet (s : State) (tk : Nat) : List Nat :=
  if cfgCores (s.cardOf (tk / 2 ^ 36)).config then (s.teamsOfLaunch (tk / 2 ^ 36)).map (·.1) else [tk]
/-- Pre-emption of a team is asked, and goes on: groups that may stop do, and a team whose groups all have leaves. -/
def State.preempt (s : State) (tk : Nat) : State :=
  match AMap.find s.teams tk with
  | none => s.leaveSpans tk
  | some t =>
    if t.core.isNone then s
    else
      let s := if t.preempt then s else { s.updTeam tk (fun t => { t with preempt := true }) with moved := true }
      (((s.groupsOfTeam t).foldl (fun u g => u.stopGroup g) s).makeRoom (t.core.getD 0) t.launch t.base
        (t.base + t.size)).leaveCore tk
/-- The scheduler pre-empts a team. -/
def execPreemptTeam (team : Nat) (s : State) : Host.Outcome State Fault Refusal :=
  .next ((s.preemptSet team).foldl (fun t k => t.preempt k) s)

/-! ## Resumption (R232) -/

/-- Slots for the groups `js` of a saved team placed on core `c` from quad `q0`. -/
def State.placeTeam (s : State) (tk c q0 : Nat) (t : Team) : Option State :=
  let js := (List.range t.slots.length).filter (fun j => (t.slots.getD j none).isSome)
  match firstFit (s.scrAreas c) t.scrSize Config.scratchBytes 256, firstFit (s.barAreas c) t.bars.length Config.barriers 1 with
  | some scr, some bar =>
    let free := t.slotCount == 0 || (s.slotAreas c).all (fun a =>
      decide (a.1 + a.2 ≤ t.slotBase) || decide (t.slotBase + t.slotCount ≤ a.1))
    let tiles := (t.tiles.map (fun e => tileGranules e.2.rows e.2.cols e.2.ty)).sum
    let bufs := t.savedBufs.all (fun b => (AMap.find (s.core c).bufs b.1).isNone)
    if !free || decide (256 < s.bankUsed c + tiles) || !bufs then none
    else
      let u := s.updTeam tk (fun t => { t with
        core := some c, q0 := q0, slots := t.slots.map (fun _ => none), scrBase := scr, barBase := bar, savedBufs := [] })
      (u.regainSlots tk js).map (fun u =>
        u.updCore c (fun k => { k with bufs := t.savedBufs.foldl (fun m b => AMap.put m b.1 b.2) k.bufs }))
  | _, _ => none
/-- The saved poison records take free entries of core `c`: the new number of each. -/
def State.placeRecs (s : State) (c : Nat) : List (Nat × PRec) → Option (List (Nat × Nat) × State)
  | [] => some ([], s)
  | (old, r) :: rest =>
    match (s.core c).freeRec with
    | none => none
    | some n =>
      let u := s.updCore c (fun k => { k with poison := AMap.put k.poison n { r with slot := s.laneSlot r.item } })
      (u.placeRecs c rest).map (fun x => ((old, n) :: x.1, x.2))
/-- A POISON register that names a saved record names its new entry. -/
def renameReg (ids : List (Nat × Nat)) (r : Reg) : Reg :=
  if r.tag = .poison then
    match ids.find? (fun x => x.1 == r.val.toNat % 64) with
    | some x => { r with val := BitVec.ofNat 32 x.2 }
    | none => r
  else r
/-- Saved spans of items [lo, hi) of a launch. -/
def State.savedSpans (s : State) (lk lo hi : Nat) : AMap Span :=
  (s.spansIn lk lo hi).filter (fun e => decide (savedSpan ≤ e.1))
/-- Saved spans of one team return to core `c`, in free entries; when none is free, the team's items materialise. -/
def State.placeSpans (s : State) (c : Nat) : AMap Span → Option State
  | [] => some s
  | e :: rest =>
    match (s.freeSpan c).isSome with
    | true => (({ s with spans := AMap.del s.spans e.1 } : State).placePart c e.2).bind (fun u => u.placeSpans c rest)
    | false =>
      let keys := e.1 :: rest.map (·.1)
      ({ s with spans := s.spans.filter (fun x => !keys.contains x.1) } : State).enterTeam c (e.2 :: rest.map (·.2))
        e.2.launch (e.2.lo - e.2.lo % s.teamSize e.2.launch)
/-- A team that holds PHASE writes of the current phase resumes only on the core where it wrote them (R232, R314). -/
def State.phaseCoreOk (s : State) (tk c : Nat) : Bool :=
  match AMap.find s.phaseCores tk with | some k => k == c | none => true
/-- Team `tk` is restored whole on core `c`. -/
def State.restoreTeam (s : State) (tk c q0 : Nat) (t : Team) : Option State :=
  if !s.phaseCoreOk tk c then none
  else
    (s.placeTeam tk c q0 t).bind (fun u =>
      (u.placeRecs c t.savedRecs).bind (fun x =>
        let lo := itemKey t.launch t.base
        let u := x.2
        let u : State := { u with
          items := u.items.map (fun e => if decide (lo ≤ e.1) && decide (e.1 < lo + t.size) then
            (e.1, { e.2 with v := e.2.v.map (renameReg x.1) }) else e)
          groups := u.groups.map (fun e => if decide (lo / 16 ≤ e.1) && decide (e.1 < (lo + t.size) / 16) then
            (e.1, { e.2 with g := e.2.g.map (renameReg x.1) }) else e)
          moved := true }
        let u := u.updTeam tk (fun t => { t with savedRecs := [] })
        (u.dropPriv c (jobOfLaunch t.launch) false).bind (fun u =>
          u.placeSpans c (u.savedSpans t.launch t.base (t.base + t.size)))))
/-- The saved teams of a list are restored, each on the first of the cores that takes it; all or none. -/
def State.restoreAll (s : State) (cores : List Nat) (q0 : Nat) : List (Nat × Team) → Option State
  | [] => some s
  | (tk, t) :: rest =>
    match cores.findSome? (fun c => s.restoreTeam tk c q0 t) with
    | some u => u.restoreAll cores q0 rest
    | none => none
/-- A saved team resumes on a core of its card's level (R348); the teams of a co-resident launch resume together. -/
def execResumeTeam (team core q0 : Nat) (s : State) : Host.Outcome State Fault Refusal :=
  let lk := team / 2 ^ 36
  let active := match AMap.find s.jobs (jobOfLaunch lk) with | some b => b.active | none => false
  let cores := match AMap.find s.launches lk with | some l => s.liveCores l.lvl | none => []
  .next (if !s.dispatching || !active || !cores.contains core || 4 ≤ q0 then s
    else
      match AMap.find s.teams team with
      | some t =>
        if t.core.isSome then s
        else
          let others := if cfgCores (s.cardOf lk).config then
            (s.teamsOfLaunch lk).filter (fun e => e.1 != team && e.2.core.isNone) else []
          let resident := cfgCores (s.cardOf lk).config && (s.teamsOfLaunch lk).any (fun e => e.2.core.isSome)
          if resident then s
          else ((s.restoreTeam team core q0 t).bind (fun u => u.restoreAll cores q0 others)).getD s
      | none =>
        let T := s.teamSize lk
        let b := team % 2 ^ 36 * T
        let l := s.savedSpans lk b (b + T)
        if l.isEmpty || !s.phaseCoreOk team core then s
        else match (s.dropPriv core (jobOfLaunch lk) false).bind (fun u => u.placeSpans core l) with
          | some u => { u with moved := true }
          | none => s)

end Sys2Proof.Machine
end

