-- ==== Sys2Proof/Machine/Sets.lean ====
section
/-! DEFINITION. How sets are held (R256 to R271): costs, chunks of the heap, churn and Evaluate, conversions, sharding,
algorithms and charges, and cost records. -/

namespace Sys2Proof.Machine

/-! ## Costs (R260) -/

/-- Maximal runs of consecutive keys of an ascending list. -/
def runCount : List Nat → Nat
  | [] => 0
  | [_] => 1
  | a :: b :: l => (if b = a + 1 then 0 else 1) + runCount (b :: l)
/-- The cost of a representation in bytes. -/
def costOf (r : Repr4) (l : List Nat) : Nat :=
  match l with
  | [] => 0
  | lo :: _ =>
    match r with
    | .bitmap => 8 * (l.getLastD lo / 64 - lo / 64 + 1)
    | .sorted => 4 * l.length
    | .runs => 8 * runCount l
    | .hash => 4 * 2 ^ (Nat.log2 (2 * l.length - 1) + 1)
/-- The cheapest form. -/
def cheapest (l : List Nat) : Repr4 :=
  let b := costOf .bitmap l
  let s := costOf .sorted l
  let r := costOf .runs l
  if r ≤ b ∧ r ≤ s then .runs else if b ≤ s then .bitmap else .sorted
def cheapCost (l : List Nat) : Nat := costOf (cheapest l) l
/-- Code of a representation. -/
def Repr4.code : Repr4 → Nat
  | .bitmap => 0
  | .sorted => 1
  | .runs => 2
  | .hash => 3
/-- Chunks of a cost (R259). -/
def chunksFor (c : Nat) : Nat := (c + 255) / 256
/-- A key put into an ascending list; a list of distinct keys in ascending order. -/
def insertKey (k : Nat) : List Nat → List Nat
  | [] => [k]
  | a :: l => if k < a then k :: a :: l else if k = a then a :: l else a :: insertKey k l
def keySet (l : List Nat) : List Nat := l.foldl (fun m k => insertKey k m) []

/-! ## The whole set (R268) -/

def SetD.keys (d : SetD) : List Nat := (d.shards.map (·.keys)).flatten
/-- The cost of the representations held. -/
def SetD.cost (d : SetD) : Nat := (d.shards.map (fun x => costOf x.repr x.keys)).sum
/-- The representation that most shards hold, the lower code winning a tie (R271). -/
def SetD.repr (d : SetD) : Repr4 :=
  let n := fun (r : Repr4) => (d.shards.filter (fun x => x.repr == r)).length
  [Repr4.sorted, .runs, .hash].foldl (fun b r => if n b < n r then r else b) .bitmap
/-- The conversions that exist. -/
def SetD.convs (d : SetD) : List Conv := d.conv.toList ++ d.shards.filterMap (·.conv)
/-- The shard of a key. -/
def SetD.shardOf (d : SetD) (k : Nat) : Nat := k / 2 ^ (32 - d.sbits)
/-- Keys cut by their top `s` bits. -/
def splitKeys (ks : List Nat) (s : Nat) : List (List Nat) :=
  (List.range (2 ^ s)).map (fun k => ks.filter (fun x => x / 2 ^ (32 - s) == k))
/-- The least number of shard bits for which every shard's cheapest form costs at most 2 MiB. -/
def minShards (ks : List Nat) : Nat :=
  ((List.range 8).map (· + 1)).find? (fun s => (splitKeys ks s).all (fun l => decide (cheapCost l ≤ 2097152))) |>.getD 8
/-- The parts in which contents are built directly. -/
def buildParts (ks : List Nat) : Nat × List (List Nat) :=
  if Config.shardLimit < cheapCost ks then (minShards ks, splitKeys ks (minShards ks)) else (0, [ks])

/-! ## Chunks (R259, R265) -/

def chunkSum (m : AMap Nat) : Nat := (m.map (·.2)).sum
def addChunks (a b : AMap Nat) : AMap Nat := b.foldl (fun m e => AMap.put m e.1 (AMap.getD m e.1 0 + e.2)) a
def subChunks (a b : AMap Nat) : AMap Nat :=
  (a.map (fun e => (e.1, e.2 - AMap.getD b e.1 0))).filter (fun e => e.2 != 0)
/-- `n` chunks taken from dies in the order given: those taken, and how many lack. -/
def drawChunks (free : Nat → Nat) : List Nat → Nat → AMap Nat × Nat
  | [], n => ([], n)
  | d :: ds, n =>
    let k := Nat.min n (free d)
    let r := drawChunks free ds (n - k)
    (if k = 0 then r.1 else AMap.put r.1 d k, r.2)
/-- Dies in the order in which an engine's requests are served. -/
def dieOrder (engine : Nat) : List Nat := (List.range Config.dies).map (fun i => (engine / Config.clusters + i) % Config.dies)
/-- Free chunks of a die. -/
def State.heapAt (s : State) (d : Nat) : Nat := AMap.getD s.heap d Config.heapChunksPerDie
/-- Chunks taken from the heap, and given back. -/
def State.takeHeap (s : State) (m : AMap Nat) : State :=
  { s with heap := m.foldl (fun h e => AMap.put h e.1 (s.heapAt e.1 - e.2)) s.heap }
def State.giveHeap (s : State) (m : AMap Nat) : State :=
  { s with
    heap := m.foldl (fun h e => AMap.put h e.1 (AMap.getD h e.1 Config.heapChunksPerDie + e.2)) s.heap
    heapFreed := s.heapFreed + chunkSum m }
/-- Chunks freed behind the outstanding operations that read them. -/
def State.freeBehind (s : State) (readers : List Nat) (m : AMap Nat) : State :=
  let rs := readers.filter (fun n => (AMap.find s.ops n).isSome)
  if rs.isEmpty then s.giveHeap m else { s with lateFree := s.lateFree ++ [(rs, m)] }
/-- Operation `n` completes: chunks that waited for it alone are freed. -/
def State.readDone (s : State) (n : Nat) : State :=
  let l := s.lateFree.map (fun e => (e.1.filter (· != n), e.2))
  (l.filter (fun e => e.1.isEmpty)).foldl (fun (t : State) e => t.giveHeap e.2)
    { s with lateFree := l.filter (fun e => !e.1.isEmpty) }
/-- What holds `m` comes to hold `need` chunks: the chunks then held and the state, or how many lack. Chunks no longer
needed go back at once, those of the dies served last first. -/
def State.resize (s : State) (engine : Nat) (m : AMap Nat) (need : Nat) : Except Nat (AMap Nat × State) :=
  let n := chunkSum m
  if n ≤ need then
    let (t, lack) := drawChunks s.heapAt (dieOrder engine) (need - n)
    if lack = 0 then .ok (addChunks m t, s.takeHeap t) else .error lack
  else
    let (t, _) := drawChunks (fun d => AMap.getD m d 0) (dieOrder engine).reverse (n - need)
    .ok (subChunks m t, s.giveHeap t)

/-! ## Evaluate (R262, R264, R268) -/

/-- The conversion that Evaluate schedules for a shard; `mutated` allows rule 1. -/
def Shard.next (x : Shard) (mutated : Bool) : Option Repr4 :=
  let n := x.keys.length
  let c := cheapest x.keys
  let cc := costOf c x.keys
  let h := costOf .hash x.keys
  if mutated && decide (2 ≤ x.churn) && decide (8 ≤ n) && x.repr != .hash && decide (h ≤ Config.shardLimit) then some .hash
  else if x.repr = .hash then (if x.churn = 0 ∧ 4 * cc < 3 * h then some c else none)
  else if c ≠ x.repr ∧ 4 * cc ≤ 3 * costOf x.repr x.keys then some c
  else none
/-- The shard bits that the set's size calls for, where they are to change. -/
def SetD.reshape (d : SetD) : Option Nat :=
  if d.sbits = 0 then (if Config.shardLimit < cheapCost d.keys then some (minShards d.keys) else none)
  else if (d.shards.map (fun x => cheapCost x.keys)).sum ≤ 1048576 then some 0
  else if d.shards.any (fun x => decide (Config.shardLimit < costOf x.repr x.keys)) then some (minShards d.keys)
  else none
def newConv (g : ConvTo) : Conv := ⟨g, .scheduled, 0, []⟩
/-- Evaluate for the shards in `touched`. -/
def SetD.evaluate (d : SetD) (touched : List Nat) (mutated : Bool) : SetD :=
  if d.conv.isSome then d
  else
    match (if d.shards.any (fun x => x.conv.isSome) then none else d.reshape) with
    | some k => { d with conv := some (newConv (.shards k)) }
    | none =>
      { d with shards := (List.range d.shards.length).filterMap (fun k => (d.shards[k]?).map (fun x =>
          if touched.contains k ∧ x.conv.isNone then { x with conv := (x.next mutated).map (fun r => newConv (.repr r)) }
          else x)) }

/-! ## Conversions (R263, R264, R267) -/

/-- Chunks the target of a conversion needs for contents. -/
def ConvTo.need (g : ConvTo) (ks : List Nat) : Nat :=
  match g with
  | .repr r => chunksFor (costOf r ks)
  | .shards 0 => chunksFor (cheapCost ks)
  | .shards s => ((splitKeys ks s).map (fun l => chunksFor (cheapCost l))).sum
/-- A conversion starts: it takes every chunk, or none and is deferred behind those already deferred. -/
def State.startConv (s : State) (engine : Nat) (c : Conv) (ks : List Nat) : Conv × State :=
  match s.resize engine [] (c.goal.need ks) with
  | .ok (m, t) => ({ c with st := .running, chunks := m }, t)
  | .error _ => ({ c with st := .deferred, seq := s.fresh, chunks := [] }, { s with fresh := s.fresh + 1 })
/-- A mutation is replayed onto a running conversion's target; one that needs a chunk which is not free defers it. -/
def State.replayConv (s : State) (engine : Nat) (c : Option Conv) (ks : List Nat) : Option Conv × State :=
  match c with
  | some c =>
    if c.st = .running then
      match s.resize engine c.chunks (c.goal.need ks) with
      | .ok (m, t) => (some { c with chunks := m }, t)
      | .error _ =>
        (some { c with st := .deferred, seq := s.fresh, chunks := [] }, { s.giveHeap c.chunks with fresh := s.fresh + 1 })
    else (some c, s)
  | none => (none, s)

/-- Set `idx` of job `j`, and the state with it replaced. -/
def State.setAt? (s : State) (j idx : Nat) : Option SetD := (AMap.find s.jobs j).bind (fun b => AMap.find b.sets idx)
def State.putSet (s : State) (j idx : Nat) (d : SetD) : State := s.updJob j (fun b => { b with sets := AMap.put b.sets idx d })
/-- The engine that serves the set as a whole. -/
def SetD.engine (d : SetD) : Nat := ((d.shards.head?).map (·.engine)).getD 0
/-- Shard `k` of a set replaced. -/
def SetD.putShard (d : SetD) (k : Nat) (x : Shard) : SetD := { d with shards := setAt d.shards k x }

/-- Shard bits of a conversion of the whole set that the rules still call for: none where a chunk that it would read is
damaged (R267). -/
def SetD.reshapeOk (d : SetD) : Option Nat := if d.shards.any (·.bad) then none else d.reshape
/-- The same of a conversion of a shard. -/
def Shard.nextOk (x : Shard) : Option Repr4 := if x.bad then none else x.next false
/-- A retry of one deferred conversion: it runs if the rules still call for one. -/
def State.retryOne (s : State) (j idx : Nat) (k : Option Nat) : State :=
  match s.setAt? j idx with
  | none => s
  | some d =>
    match k with
    | none =>
      match d.conv, d.reshapeOk with
      | some c, some b =>
        let r := s.startConv d.engine { c with goal := .shards b } d.keys
        r.2.putSet j idx { d with conv := some (if r.1.st = .deferred then c else r.1) }
      | _, _ => s.putSet j idx { d with conv := none }
    | some k =>
      match d.shards[k]? with
      | none => s
      | some x =>
        match x.conv, x.nextOk with
        | some c, some g =>
          let r := s.startConv x.engine { c with goal := .repr g } x.keys
          r.2.putSet j idx (d.putShard k { x with conv := some (if r.1.st = .deferred then c else r.1) })
        | _, _ => s.putSet j idx (d.putShard k { x with conv := none })
/-- The deferred conversions of the device, in the order in which they were deferred: job, set, shard. -/
def State.deferred (s : State) : List (Nat × Nat × Nat × Option Nat) :=
  let isDef := fun (c : Option Conv) => match c with | some c => if c.st = ConvSt.deferred then some c.seq else none | none => none
  let l := (s.jobs.map (fun b => (b.2.sets.map (fun e =>
    ((isDef e.2.conv).map (fun q => (q, b.1, e.1, (none : Option Nat)))).toList ++
    (List.range e.2.shards.length).filterMap (fun k =>
      (isDef ((e.2.shards[k]?).bind (·.conv))).map (fun q => (q, b.1, e.1, some k))))).flatten)).flatten
  sortBy (fun a b => decide (a.1 < b.1)) l
/-- What follows a step that began in `s` and has freed chunks (R267). -/
def State.retried (s t : State) : State :=
  if s.heapFreed < t.heapFreed then t.deferred.foldl (fun u e => u.retryOne e.2.1 e.2.2.1 e.2.2.2) t else t

/-- A scheduled conversion starts; one that would read a damaged chunk is abandoned. -/
def execConversionStart (job idx shard : Nat) (s : State) : Host.Outcome State Fault Refusal :=
  .next (match s.setAt? job idx with
    | none => s
    | some d =>
      let s1 : State := { s with moved := true }
      match d.conv with
      | some c =>
        if c.st ≠ .scheduled then s
        else if d.shards.any (·.bad) then s1.putSet job idx { d with conv := none }
        else
          let r := s1.startConv d.engine c d.keys
          r.2.putSet job idx { d with conv := some r.1 }
      | none =>
        match d.shards[shard]? with
        | none => s
        | some x =>
          match x.conv with
          | none => s
          | some c =>
            if c.st ≠ .scheduled then s
            else if x.bad then s1.putSet job idx (d.putShard shard { x with conv := none })
            else
              let r := s1.startConv x.engine c x.keys
              r.2.putSet job idx (d.putShard shard { x with conv := some r.1 }))

/-- Chunks of a pool dealt to new shards in order. -/
def dealChunks : List Nat → AMap Nat → List (AMap Nat)
  | [], _ => []
  | n :: ns, pool =>
    let t := (drawChunks (fun d => AMap.getD pool d 0) (List.range Config.dies) n).1
    t :: dealChunks ns (subChunks pool t)
/-- Churn of part `k` of a set cut by `s` bits: that of the shard it comes from (R263), the greatest where several are
merged (log entry 60). -/
def SetD.churnOf (d : SetD) (s k : Nat) : Nat :=
  let from_ := (List.range d.shards.length).filter (fun i =>
    if d.sbits ≤ s then i == k / 2 ^ (s - d.sbits) else i / 2 ^ (d.sbits - s) == k)
  (from_.map (fun i => ((d.shards[i]?).map (·.churn)).getD 0)).foldl Nat.max 0
/-- The set switched to its conversion's target, whose chunks become its own. -/
def SetD.switched (d : SetD) (c : Conv) : SetD :=
  match c.goal with
  | .shards s =>
    let parts := if s = 0 then [d.keys] else splitKeys d.keys s
    let ms := dealChunks (parts.map (fun l => chunksFor (cheapCost l))) c.chunks
    { d with
      sbits := s
      conv := none
      shards := (List.range parts.length).map (fun k =>
        let l := parts.getD k []
        { keys := l, repr := cheapest l, churn := d.churnOf s k, chunks := ms.getD k [], conv := none, engine := d.engine,
          readers := [], bad := false }) }
  | .repr _ => d
/-- A running conversion switches between two operations (R263 step 4). -/
def execConversionSwitch (job idx shard : Nat) (s : State) : Host.Outcome State Fault Refusal :=
  .next (match s.setAt? job idx with
    | none => s
    | some d =>
      let s1 : State := { s with moved := true }
      match d.conv with
      | some c =>
        if c.st ≠ .running then s
        else
          let d2 := d.switched c
          let d2 := d2.evaluate (List.range d2.shards.length) false
          let t := d.shards.foldl (fun t x => t.freeBehind x.readers x.chunks) (s1.putSet job idx d2)
          s.retried t
      | none =>
        match d.shards[shard]? with
        | none => s
        | some x =>
          match x.conv with
          | some c =>
            match c.goal with
            | .repr r =>
              if c.st ≠ .running then s
              else
                let y : Shard := { x with repr := r, chunks := c.chunks, conv := none, readers := [] }
                let d2 := (d.putShard shard y).evaluate [shard] false
                s.retried ((s1.putSet job idx d2).freeBehind x.readers x.chunks)
            | .shards _ => s
          | none => s)
/-- Placement moves a shard to another engine (R253, R255). -/
def execSetEngineChange (job idx shard engine : Nat) (s : State) : Host.Outcome State Fault Refusal :=
  .next (match s.setAt? job idx with
    | none => s
    | some d =>
      match d.shards[shard]? with
      | none => s
      | some x =>
        if Config.dies * Config.clusters ≤ engine then s
        else { s.putSet job idx (d.putShard shard { x with engine := engine }) with moved := true })

/-! ## Changing contents (R261, R267) -/

/-- The contents of shard `k` become `ks` by a mutation: its chunks, its churn, the replays, Evaluate; or the chunks that
lack. -/
def State.mutate (s : State) (d : SetD) (k : Nat) (x : Shard) (ks : List Nat) : Except Nat (SetD × State) :=
  match s.resize x.engine x.chunks (chunksFor (costOf x.repr ks)) with
  | .error n => .error n
  | .ok (m, s) =>
    let (c, s) := s.replayConv x.engine x.conv ks
    let d1 := d.putShard k { x with keys := ks, churn := Nat.min (x.churn + 1) 255, chunks := m, conv := c }
    let (c2, s) := s.replayConv d1.engine d1.conv d1.keys
    .ok (({ d1 with conv := c2 }).evaluate [k] true, s)
/-- Chunks for parts of a replaced set, each with the engine that serves it: from those the set held, then from the heap, in
the order of the engine's dies (R259). -/
def State.dealParts (s : State) : List (Nat × List Nat) → AMap Nat → List (AMap Nat) × AMap Nat × State
  | [], pool => ([], pool, s)
  | l :: ls, pool =>
    let n := chunksFor (cheapCost l.2)
    let (t, lack) := drawChunks (fun d => AMap.getD pool d 0) (dieOrder l.1) n
    let (u, _) := drawChunks s.heapAt (dieOrder l.1) lack
    let r := (s.takeHeap u).dealParts ls (subChunks pool t)
    (addChunks t u :: r.1, r.2.1, r.2.2)
/-- The set replaced by contents built directly; its conversions are abandoned, its damage is gone. Chunks it no longer
needs are freed behind their readers. -/
def State.replace (s : State) (d : SetD) (ks : List Nat) : Except Nat (SetD × State) :=
  let s := d.convs.foldl (fun (t : State) c => t.giveHeap c.chunks) s
  let (bits, parts) := buildParts ks
  let pool := d.shards.foldl (fun m x => addChunks m x.chunks) []
  let need := (parts.map (fun l => chunksFor (cheapCost l))).sum
  let free := ((List.range Config.dies).map s.heapAt).sum
  if chunkSum pool + free < need then .error (need - chunkSum pool - free)
  else
    let engine := fun (k : Nat) => ((d.shards[k]?).map (·.engine)).getD d.engine
    let (ms, left, s) := s.dealParts ((List.range parts.length).map (fun k => (engine k, parts.getD k []))) pool
    let shards := (List.range parts.length).map (fun k =>
      let l := parts.getD k []
      ({ keys := l, repr := cheapest l, churn := 0, chunks := ms.getD k [],  conv := none, engine := engine k, readers := [],
         bad := false } : Shard))
    let d2 : SetD := { d with sbits := bits, shards := shards, conv := none, damaged := false }
    .ok (d2, s.freeBehind ((d.shards.map (·.readers)).flatten) left)
/-- A reading operation `n` on the shards in `touched`: churn 0 (R261). -/
def SetD.noteRead (d : SetD) (n : Nat) (touched : List Nat) : SetD :=
  { d with shards := (List.range d.shards.length).filterMap (fun k => (d.shards[k]?).map (fun x =>
      if touched.contains k then { x with churn := 0, readers := n :: x.readers } else x)) }
def SetD.allShards (d : SetD) : List Nat := List.range d.shards.length

/-! ## Algorithms and charges (R269, R270) -/

/-- Operands of a binary operation. -/
inductive SetBin where | uni | int | dif
  deriving DecidableEq, Repr
/-- The result of a binary operation. -/
def SetBin.keys (o : SetBin) (a b : List Nat) : List Nat :=
  match o with
  | .uni => b.foldl (fun m k => insertKey k m) a
  | .int => a.filter b.contains
  | .dif => a.filter (fun k => !b.contains k)
/-- The code of a pair of representations. -/
def pairAlg (ra rb : Repr4) (na nb : Nat) : Nat :=
  match ra, rb with
  | .hash, .hash => 9
  | .hash, _ | _, .hash => 5
  | .bitmap, .bitmap => 1
  | .bitmap, .sorted | .sorted, .bitmap => 6
  | .bitmap, .runs | .runs, .bitmap => 7
  | .sorted, .sorted => if Nat.max na nb ≤ 16 * Nat.min na nb then 2 else 3
  | .sorted, .runs | .runs, .sorted => 8
  | .runs, .runs => 4
/-- The charge of one pair, neither operand sharded. -/
def pairCharge (o : SetBin) (ra : Repr4) (a : List Nat) (rb : Repr4) (b : List Nat) : Nat :=
  let w := fun (r : Repr4) (l : List Nat) => (costOf r l + 63) / 64
  let wa := w ra a
  let wb := w rb b
  let na := a.length
  let nb := b.length
  let both := wa + wb
  if a.isEmpty ∨ b.isEmpty then
    match o with
    | .uni => both
    | .int => 0
    | .dif => if b.isEmpty then wa else 0
  else
    let small := na ≤ nb
    let g := if small then na * (1 + Nat.log2 (nb / na)) else nb * (1 + Nat.log2 (na / nb))
    match o, pairAlg ra rb na nb with
    | .uni, _ => both
    | .int, 3 => (if small then wa else wb) + g
    | .dif, 3 => if small then wa + g else both
    | .int, 5 => if small then wa + na else wb + nb
    | .dif, 5 => wa + na
    | .int, 6 => if ra = .sorted then wa + na else wb + nb
    | .dif, 6 => if ra = .sorted then wa + na else both
    | _, _ => both
/-- The part of a set with key part `k` of `s` bits, with the representation that holds it. -/
def SetD.partAt (d : SetD) (s k : Nat) : Repr4 × List Nat :=
  match d.shards[k / 2 ^ (s - d.sbits)]? with
  | some x => (x.repr, if d.sbits = s then x.keys else x.keys.filter (fun y => y / 2 ^ (32 - s) == k))
  | none => (.runs, [])
/-- Code and charge of a binary operation; `rbits` are the shard bits of its result. -/
def binCost (o : SetBin) (a b : SetD) (rbits : Nat) : Nat × Nat :=
  if a.keys.isEmpty ∨ b.keys.isEmpty then
    (11, match o with
      | .uni => (a.cost + 63) / 64 + (b.cost + 63) / 64
      | .int => 0
      | .dif => if b.keys.isEmpty then (a.cost + 63) / 64 else 0)
  else
    let ab := Nat.max a.sbits b.sbits
    let s := if ab = 0 then rbits else ab
    if s = 0 then
      let x := a.partAt 0 0
      let y := b.partAt 0 0
      (pairAlg x.1 y.1 x.2.length y.2.length, pairCharge o x.1 x.2 y.1 y.2)
    else
      (10, ((List.range (2 ^ s)).map (fun k =>
        let x := a.partAt s k
        let y := b.partAt s k
        pairCharge o x.1 x.2 y.1 y.2)).sum)

/-! ## The cost record (R271) -/

/-- The record's fields. -/
structure CostRec where
  read : Nat
  shard : Bool
  defer : Bool
  conv : Bool
  repr : Nat
  repb : Nat
  repa : Nat
  alg : Nat
  deriving DecidableEq, Repr
def b2n (b : Bool) : Nat := if b then 1 else 0
def CostRec.word (r : CostRec) : W64 :=
  BitVec.ofNat 64 (2 ^ 32 * Nat.min r.read (2 ^ 32 - 1) + 4096 * b2n r.shard + 2048 * b2n r.defer + 1024 * b2n r.conv +
    256 * r.repr + 64 * r.repb + 16 * r.repa + r.alg)
def SetD.converting (d : SetD) : Bool := !d.convs.isEmpty
def SetD.deferring (d : SetD) : Bool := d.convs.any (fun c => c.st == .deferred)
def SetD.sharded (d : SetD) : Bool := d.sbits != 0
/-- The record of an operation on one set: before and after. -/
def oneRec (d t : SetD) (read : Nat) : W64 :=
  (CostRec.mk read (d.sharded || t.sharded) t.deferring t.converting t.repr.code 0 d.repr.code 0).word

/-! ## Handles (R256 to R258) -/

/-- The descriptor of an index that was never used. -/
def SetD.unused : SetD := ⟨1, true, 0, 0, [], none, false⟩
/-- Why handle `h` is invalid; `whole` says that its contents are read. -/
def State.handleBad (s : State) (j : Nat) (h : W64) (whole : Bool) : Option Nat :=
  let idx := (h.extractLsb' 0 24).toNat
  let d := (s.setAt? j idx).getD SetD.unused
  if h.extractLsb' 40 24 ≠ 0 then some 1
  else if idx = 0 then some 2
  else if d.tag ≠ h.extractLsb' 24 16 then some 4
  else if d.free then some 3
  else if whole && d.damaged then some 5
  else none
def idxOf (h : W64) : Nat := (h.extractLsb' 0 24).toNat
/-- The descriptor a new set takes: one never used, else the one free longest. -/
def Job.freeDesc (j : Job) : Option Nat :=
  if j.nextSet < Config.setDescriptors then some j.nextSet
  else ((sortBy (fun (a b : Nat × SetD) => decide (a.2.freed < b.2.freed)) (j.sets.filter (fun e => e.2.free))).head?).map (·.1)

end Sys2Proof.Machine
end

