-- ==== Sys2Proof/Machine/Phase.lean ====
section
/-! DEFINITION. The end of a phase: the merge of its PHASE writes and the release of the items at their PHBND (R300, R314,
R315, R361). -/

namespace Sys2Proof.Machine

/-- The PHASE pages of job `j`. -/
def State.phaseLeaves (s : State) (j : Nat) : List (Nat × Nat × W64) :=
  (s.leaves j).filter (fun l => !bit l.2.2 63 && !bit l.2.2 3 && pteAttr l.2.2 == aPHASE)
/-- Whether a side of a transfer of this shape touches one of the pages. -/
def sideTouches (ps : List (Nat × Nat × W64)) (d : Side) (rows rowBytes : Nat) (stride : W64) : Bool :=
  match d with
  | .scr _ => false
  | .glob a =>
    match extent (vaOf a) rows rowBytes stride.toInt with
    | some (lo, hi) => ps.any (fun p => decide ((p.1 : Int) < hi) && decide (lo < (p.1 : Int) + leafBytes (pteSize p.2.2)))
    | none => false
/-- Whether an operation issued in the ending phase may have a PHASE access left. -/
def phaseLeft (ps : List (Nat × Nat × W64)) (k : OpKind) : Bool :=
  match k with
  | .copy x =>
    (match x.kind with
    | .rgth => !ps.isEmpty
    | _ => sideTouches ps x.dst x.rows x.rowBytes x.dstStride || sideTouches ps x.src x.rows x.rowBytes x.srcStride)
  | .tok _ => !ps.isEmpty
  | .set c => !ps.isEmpty && c.ans.isNone && c.trap.isNone && (match c.ins with
    | .sbld _ _ _ | .senum _ _ _ => true
    | _ => false)
  | _ => false
/-- The pending bytes of a job's PHASE pages are merged; none while a copy on write finds no pool block. -/
def State.mergeJob (s : State) (j : Nat) : Option State :=
  (s.phaseLeaves j).foldl (fun (t : Option State) l =>
    t.bind (fun t => t.mergeRange j l.1 (pteFrame l.2.2) (pteFrame l.2.2 + leafBytes (pteSize l.2.2)))) (some s)
/-- The oldest PHBND that waits is released, and a phase that a later one ends begins to end. -/
def State.nextPhase (s : State) (j : Nat) : State :=
  match AMap.find s.jobs j with
  | none => s
  | some b =>
    match b.ending with
    | [] => s.updJob j (fun b => { b with merge := false })
    | lk :: rest =>
      let s := s.updLaunch lk (fun l => { l with phbN := l.phbN + 1 })
      s.updJob j (fun b =>
        if rest.isEmpty then { b with ending := [], merge := false }
        else { b with ending := rest, phase := b.phase + 1, mark := s.fresh })
/-- Whether job `j` is at a phase boundary with every PHASE access of the ending phase performed, but for those that wait
in collectors. -/
def State.atBoundary (s : State) (j : Nat) : Bool :=
  match AMap.find s.jobs j with
  | none => false
  | some b =>
    let ps := s.phaseLeaves j
    b.merge && !s.ops.any (fun e => decide (e.1 < b.mark) && jobOfLaunch e.2.launch == j && phaseLeft ps e.2.kind)
/-- The boundary is complete once every PHASE access of the ending phase is performed and merged; copies of the versions
that were published before are dropped (R300). -/
def State.endPhase (s : State) (job : Nat) : State :=
  if !s.atBoundary job then s
  else
    let old := fun (x : Line) => x.code == aPHASE && x.job == job
    match (s.flushJob job).mergeJob job with
    | none => s
    | some t =>
      let t : State := { t with
        cores := t.cores.map (fun e => (e.1, { e.2 with l1 := e.2.l1.filter (fun x => !old x) }))
        rdc := t.rdc.map (fun e => (e.1, e.2.filter (fun x => !old x)))
        phaseCores := t.phaseCores.filter (fun e => jobOfLaunch (e.1 / 2 ^ 36) != job)
        moved := true }
      t.nextPhase job

end Sys2Proof.Machine
end

