-- ==== Sys2Proof/Machine/Version.lean ====
section
/-! DEFINITION. Generations and their views (R325 to R334), attribute changes (R324, R335), migration, eviction and recall of
pages (R338 to R340). -/

namespace Sys2Proof.Machine

/-! ## SNAP (R331) -/

def State.job? (s : State) (j : Nat) : Option Job := AMap.find s.jobs j
/-- The number the job's next generation takes. -/
def Job.nextGen (b : Job) : Nat := (b.gens.map (·.1)).foldl Nat.max b.lastGen + 1
/-- What an item's SNAP needs before it issues. -/
def snapReady (f : EF) (s : State) (ik : Nat) : Ev Unit := do
  let (it, g) ← getItem s ik
  acqGate s ik
  freeE it g f.r 2
  acquireGate s ik
  orTrap (cfgSnap (s.cardOf (launchOf ik)).config) (mkTrap cVER 1)
  orWait (!s.merging (jobOf ik))
/-- SNAP: one generation for the items of the bundle that issue it. Writes that are performed from the issue on are left out
of its cut, but for PRIV bytes (log entry 15). -/
def State.snapFor (s : State) (f : EF) (pc : W64) (iks : List Nat) : State :=
  match iks with
  | [] => s
  | ik :: _ =>
    let j := jobOf ik
    match s.job? j with
    | none => s
    | some b =>
      let s := s.flushJob j
      let live := b.gens.length
      let (g, st) := if Config.liveGens ≤ live then (0, 1) else if 2 ^ 32 ≤ b.nextGen then (0, 2) else (b.nextGen, 0)
      let s := if st = 0 then s.updJob j (fun b => { b with gens := AMap.put b.gens g ⟨.fixing, 0, [], 0⟩ }) else s
      let ix := iks.map indexOf
      (s.addOp ⟨s.coreOf ik, launchOf ik, ix.foldl Nat.min (indexOf ik), ix.foldl Nat.max 0 + 1, pc,
        .snap (.v f.r.toNat) iks (BitVec.ofNat 32 g) (BitVec.ofNat 32 st)⟩).2
def execSnap (f : EF) (s : State) : Host.Outcome State Fault Refusal :=
  let ready := (s.active f.g).filter (fun ik => match snapReady f s ik with | .ok _ => true | .error _ => false)
  let pc := s.cur.pc
  let t := match issue f.g 8 (fun s0 t ik => do
      snapReady f s0 ik
      .ok (t.setEmpty ik (.v f.r.toNat) 2)) s with
    | u => u
  .next (t.snapFor f pc ready)
/-- The cut of a generation is fixed, its number given and its items told, in one step, in the order of the SNAPs. It has
the home's bytes of PRIV pages as they now stand. -/
def execSnapCompletion (op : Nat) (s : State) : Host.Outcome State Fault Refusal :=
  .next (match AMap.find s.ops op with
    | some o =>
      match o.kind with
      | .snap dst items g st =>
        let j := jobOfLaunch o.launch
        let before := s.ops.any (fun e => decide (e.1 < op) && jobOfLaunch e.2.launch == j &&
          (match e.2.kind with | .snap _ _ _ _ => true | _ => false))
        if before then s
        else
          let s := items.foldl (fun t ik =>
            if (t.item? ik).isSome then t.setRegs ik dst [g, st] else t) s
          let pages := ((s.leaves j).filter (fun l => !bit l.2.2 63)).map (fun l =>
            (List.range (leafBytes (pteSize l.2.2) / 65536)).map (l.1 / 65536 + ·))
          let s := if st = 0 then (s.updJob j (fun b => { b with
              lastGen := g.toNat
              gens := AMap.upd b.gens g.toNat (fun x => { x with st := .held, pages := pages.flatten }) })).dropVers j g.toNat
                (fun b => !s.fixesBlock j b) else s
          { s with ops := AMap.del s.ops op, moved := true }
      | _ => s
    | none => s)

/-! ## SNAPQ (R332) -/

def GenSt.code : GenSt → Nat
  | .fixing => 1
  | .held => 2
  | .draining => 3
  | .drained => 4
/-- Old versions of job `j` that generation `g` holds. -/
def State.versionsOf (s : State) (j g : Nat) : List Version := s.vers.filter (fun v => v.job == j && v.gens.contains g)
def State.genImage (s : State) (j g : Nat) : Nat × Nat :=
  match (s.job? j).bind (fun b => AMap.find b.gens g) with
  | none => (0, 0)
  | some x =>
    (GenSt.code x.st + 16 * x.tier + (if x.views = 0 then 0 else 256), Nat.min (s.versionsOf j g).length (2 ^ 32 - 1))
def execSnapq (f : EF) (s : State) : Host.Outcome State Fault Refusal :=
  .next (issue f.g 8 (fun s0 t ik => do
    let (it, g) ← getItem s0 ik
    acqGate t ik
    freeE it g f.r 2
    let n ← readE s0 ik it g f.o1 1
    acquireGate t ik
    let i := t.genImage (jobOf ik) (lo32 n).toNat
    .ok (t.dest ik (.v f.r.toNat) 2 (i.1 + 2 ^ 32 * i.2))) s)

/-! ## GVIEW (R333, R334) -/

/-- The generation `g` of a job, live. -/
def liveGen (s : State) (j g : Nat) : Ev Gen :=
  match (s.job? j).bind (fun b => AMap.find b.gens g) with
  | some x => .ok x
  | none => .error (.trap (mkTrap cVER 2))
/-- The limits of a range of `l` units of 64 KiB. -/
def viewRange (a : W64) (l : Nat) : Bool :=
  a.toNat % 65536 == 0 && l != 0 && decide (l ≤ 2 ^ 24) && decide (a.toNat + l * 65536 ≤ 2 ^ 57)
/-- View pages put one by one; none where no page table can be made. -/
def State.mapViews (s : State) (j g : Nat) : List (Nat × Nat) → Option State
  | [] => some s
  | (d, src) :: l =>
    match s.mapLeaf j d (viewPte d) with
    | some t => (t.updJob j (fun b => { b with viewMap := AMap.put b.viewMap (d / 65536) (g, src) })).mapViews j g l
    | none => none
def execGviewMap (f : EF) (s : State) : Host.Outcome State Fault Refusal :=
  .next (issue f.g 8 (fun s0 t ik => do
    let (it, gr) ← getItem s0 ik
    acqGate t ik
    freeE it gr f.r 1
    let n ← readE s0 ik it gr f.o1 1
    let ab ← readEs s0 ik it gr f.o2 4
    let l ← readE s0 ik it gr f.o3 1
    acquireGate t ik
    let j := jobOf ik
    let g := (lo32 n).toNat
    let L := (lo32 l).toNat
    let d := pair (ab.getD 0 0) (ab.getD 1 0)
    let src := pair (ab.getD 2 0) (ab.getD 3 0)
    let x ← liveGen t j g
    orTrap (viewRange d L && viewRange src L) (mkTrap cVER 3)
    orWait (x.st != .fixing)
    orTrap (t.vaFree j d.toNat (d.toNat + L * 65536)) (mkTrap cVER 3)
    let ps := (x.pages.filter (fun p => decide (src.toNat / 65536 ≤ p) && decide (p < src.toNat / 65536 + L))).map
      (fun p => (d.toNat + (p - src.toNat / 65536) * 65536, p * 65536))
    match t.mapViews j g ps with
    | none => .error .wait
    | some u =>
      let u := u.updJob j (fun b => { b with gens := AMap.upd b.gens g (fun y => { y with views := y.views + ps.length }) })
      .ok ((u.sweep j d.toNat (d.toNat + L * 65536)).dest ik (.v f.r.toNat) 1 ps.length)) s)
/-- The view pages of job `j` in [lo, hi). -/
def State.viewPages (s : State) (j lo hi : Nat) : List (Nat × Nat × W64) :=
  (s.leavesIn j lo hi).filter (fun l => bit l.2.2 63)
/-- View pages are unmapped. -/
def State.unmapViews (s : State) (j lo hi : Nat) : State :=
  let l := s.viewPages j lo hi
  let s := l.foldl (fun t x =>
    let t := t.putPte x.2.1 0
    t.updJob j (fun b =>
      let g := ((AMap.find b.viewMap (x.1 / 65536)).getD (0, 0)).1
      { b with
        viewMap := AMap.del b.viewMap (x.1 / 65536)
        gens := AMap.upd b.gens g (fun y => { y with views := y.views - 1 }) })) s
  s.sweep j lo hi
def execGviewUnmap (f : EF) (s : State) : Host.Outcome State Fault Refusal :=
  .next (issue f.g 8 (fun s0 t ik => do
    let (it, gr) ← getItem s0 ik
    acqGate t ik
    freeE it gr f.r 1
    let d ← readE s0 ik it gr f.o2 2
    let l ← readE s0 ik it gr f.o3 1
    acquireGate t ik
    let j := jobOf ik
    let L := (lo32 l).toNat
    orTrap (viewRange d L) (mkTrap cVER 3)
    orTrap ((t.viewPages j d.toNat (d.toNat + L * 65536)).length == L) (mkTrap cVER 5)
    .ok ((t.unmapViews j d.toNat (d.toNat + L * 65536)).dest ik (.v f.r.toNat) 1 L)) s)
/-- Generation `g` of job `j` is no longer live: old versions it alone needs are freed (R333, R341). -/
def State.freeGen (s : State) (j g : Nat) : State :=
  let s : State := { s.dropVers j g (fun _ => true) with mgmt := { s.mgmt with ltfull := false } }
  s.updJob j (fun b => { b with gens := AMap.del b.gens g })
def execGviewFree (f : EF) (s : State) : Host.Outcome State Fault Refusal :=
  .next (issue f.g 8 (fun s0 t ik => do
    let (it, gr) ← getItem s0 ik
    acqGate t ik
    freeE it gr f.r 1
    let n ← readE s0 ik it gr f.o1 1
    acquireGate t ik
    let j := jobOf ik
    let g := (lo32 n).toNat
    let x ← liveGen t j g
    orWait (x.st != .fixing)
    orTrap (x.views == 0) (mkTrap cVER 4)
    let own := ((t.versionsOf j g).filter (fun v => v.gens.all (· == g))).length
    .ok ((t.freeGen j g).dest ik (.v f.r.toNat) 1 (Nat.min own (2 ^ 32 - 1)))) s)

/-! ## Draining (R328) -/

/-- Room of lower tier `t` in blocks; CXL memory is at most 4 TiB (R367). -/
def tierRoom (t : Nat) : Nat := if t = 2 then Nat.min (Config.tierBlocks t) (2 ^ 30) else Config.tierBlocks t
/-- Old versions that stand in lower tier `t`. -/
def State.tierUsed (s : State) (t : Nat) : Nat :=
  (s.vers.filter (fun v => v.lower && v.gens.any (fun g =>
    match (s.job? v.job).bind (fun b => AMap.find b.gens g) with
    | some x => x.tier == t
    | none => false))).length
/-- Whether a generation holds an old version that is not yet in the lower tier. -/
def State.inPool (s : State) (j g : Nat) : Bool := (s.versionsOf j g).any (fun v => !v.lower)
/-- Whether a generation of the job older than `g` holds one. -/
def State.olderInPool (s : State) (j g : Nat) : Bool :=
  match s.job? j with
  | some b => b.gens.any (fun e => decide (e.1 < g) && s.inPool j e.1)
  | none => false
/-- Generations `gs` of job `j` after an old version of theirs has come to stand in lower tier `t`: the tier is named, and
one whose old versions all stand there is drained. -/
def State.nowLower (s : State) (j t : Nat) (gs : List Nat) : State :=
  s.updJob j (fun b => { b with gens := b.gens.map (fun e =>
    (e.1, if gs.contains e.1 then
      { e.2 with
        tier := if e.2.tier = 0 then t else e.2.tier
        st := if (e.2.st == .draining || e.2.st == .held) && !s.inPool j e.1 then .drained else e.2.st }
      else e.2)) })
/-- Firmware begins to drain the oldest generation that has something to drain, to a tier it chooses; a full lower tier
stops it. -/
def execGenerationDrainStart (job gen tier : Nat) (s : State) : Host.Outcome State Fault Refusal :=
  .next (match (s.job? job).bind (fun b => AMap.find b.gens gen) with
    | some x =>
      if x.st = .held && s.inPool job gen && !s.olderInPool job gen && !s.mgmt.ltfull && decide (1 ≤ tier) &&
          decide (tier ≤ 3) then
        { s.updJob job (fun b => { b with gens := AMap.upd b.gens gen (fun y =>
            { y with st := .draining, tier := if y.tier = 0 then tier else y.tier }) }) with moved := true }
      else s
    | none => s)
/-- The copy of one old version in the lower tier is complete: its pool block is free, and a generation all of whose old
versions stand there is drained. A tier without room stops draining, until a generation is freed. -/
def execGenerationDrainBlock (job gen block : Nat) (s : State) : Host.Outcome State Fault Refusal :=
  .next (match (s.job? job).bind (fun b => AMap.find b.gens gen), s.versionOf job block gen with
    | some x, some v =>
      if x.st ≠ .draining || v.lower || s.mgmt.ltfull || s.olderInPool job gen then s
      else if tierRoom x.tier ≤ s.tierUsed x.tier then { s with mgmt := { s.mgmt with ltfull := true }, moved := true }
      else
        ({ s with vers := s.vers.map (fun u => if u = v then { u with lower := true } else u), moved := true } :
          State).nowLower job x.tier v.gens
    | _, _ => s)

/-! ## ATTRSET (R324, R335) -/

/-- Accesses to every page that maps frames in [lo, hi) stall, or go on again. -/
def State.stallFrames (s : State) (lo hi : Nat) : State :=
  { s with stalled := s.stalled ++ (s.mappers lo hi).map (fun m => (m.1, m.2.1, leafBytes (pteSize m.2.2.2))) }
def State.resumeFrames (s : State) (lo hi : Nat) : State :=
  let l := (s.mappers lo hi).map (fun m => (m.1, m.2.1, leafBytes (pteSize m.2.2.2)))
  { s with stalled := s.stalled.filter (fun x => !l.contains x) }
/-- Whether a lower item of the item's team changes an attribute by the same word: items change pages in ascending index
(R335). -/
def State.attrBefore (s : State) (ik : Nat) (pc : W64) : Bool :=
  s.ops.any (fun e => e.2.pc == pc && match e.2.kind with
    | .attr k _ _ _ _ _ => decide (k < ik) && s.teamOf k == s.teamOf ik
    | _ => false)
def execAttrset (f : EF) (s : State) : Host.Outcome State Fault Refusal :=
  .next (issueRaw f.g 8 (fun s0 t ik => do
    let (it, gr) ← getItem s0 ik
    match it.wait? with
    | some (.attr _) => .error .wait
    | some .done => .ok ((t.clearWait ik).advance ik 8)
    | _ => do
      orTrap it.m.mon (mkTrap cPRIV 0)
      acqGate t ik
      freeE it gr f.r 1
      let a ← readE s0 ik it gr f.o1 2
      let n ← readE s0 ik it gr f.o2 1
      acquireGate t ik
      let code : BitVec 2 := n.setWidth 2
      match t.translate (jobOf ik) a with
      | .fail r => .error (.trap (memFault r a))
      | .remote _ => .error (.trap (memFault 1 a))
      | .stall => .error .wait
      | .ok x => do
        orTrap (!x.gv) (memFault 2 a)
        orWait (!t.attrBefore ik s0.cur.pc)
        let old := pteAttr x.pte
        if code = old then .ok ((t.dest ik (.v f.r.toNat) 1 code.toNat).advance ik 8)
        else
          let (n, u) := t.addOp ⟨t.coreOf ik, launchOf ik, indexOf ik, indexOf ik + 1, s0.cur.pc,
            .attr ik it.level (.v f.r.toNat) (BitVec.ofNat 64 x.va) code old⟩
          let u := u.stallFrames (x.pa - x.pa % x.size) (x.pa - x.pa % x.size + x.size)
          .ok (u.setWait ik (.attr n))) s)
/-- The attribute of a page switches once its accesses under the old one are performed and it is clean; the item's
ATTRSET is then complete. -/
def State.attrDone (s : State) (op : Nat) : State :=
  match AMap.find s.ops op with
    | some o =>
      match o.kind with
      | .attr ik lvl dst a code old =>
        let j := jobOfLaunch o.launch
        match s.leaf j (vaOf a) with
        | none => s
        | some (_, e) =>
          let lo := pteFrame e
          let hi := lo + leafBytes (pteSize e)
          match (s.cleanRange lo hi).bind (fun t => t.mergeRange j (vaOf a) lo hi) with
          | none => s
          | some t =>
            let t := t.resumeFrames lo hi
            let mine := (t.mappers lo hi).filter (fun m => m.1 == j)
            let t : State := { t with
              fat := (List.range ((hi - lo) / 65536)).foldl (fun m k => AMap.put m (lo / 65536 + k) code) t.fat
              ops := AMap.del t.ops op, moved := true }
            let t := mine.foldl (fun u m =>
              (u.putPte m.2.2.1 (attrPte m.2.2.2 code)).sweep j m.2.1 (m.2.1 + leafBytes (pteSize m.2.2.2))) t
            if (t.item? ik).isSome then (t.setRegs ik dst [old.setWidth 32]).goOn ik ⟨o.pc, lvl⟩ else t
      | _ => s
    | none => s

/-! ## Migration (R338) -/

/-- Bytes, errors and table entries of `n` bytes at `a` move to `b`. -/
def State.moveFrames (s : State) (a b n : Nat) : State :=
  let inA := fun (p : Nat) => decide (a ≤ p) && decide (p < a + n)
  let cells := (s.mem.filter (fun e => inA e.1)).map (fun e => (e.1 - a + b, e.2))
  let errs := (s.memErr.filter inA).map (fun p => p - a + b)
  let codes := (List.range (n / 65536)).map (fun k => AMap.getD s.fat (a / 65536 + k) 0)
  let s := (s.wipe a n).wipe b n
  { s with
    mem := cells.foldl (fun m e => Cells.write m e.1 e.2) s.mem
    memErr := s.memErr ++ errs
    fat := (List.range codes.length).foldl (fun m k => AMap.put m (b / 65536 + k) (codes.getD k 0)) s.fat
    used := (List.range (n / 65536)).map (b / 65536 + ·) ++
      s.used.filter (fun u => !(decide (a / 65536 ≤ u) && decide (u < (a + n) / 65536))) }
/-- The leaf of the page at address `va`, whole: its base, place and entry. -/
def State.pageAt (s : State) (j va : Nat) : Option (Nat × Nat × W64) :=
  (s.leaf j va).map (fun x => (va - va % leafBytes (pteSize x.2), x))
/-- The page in the `n` bytes of frames at `a` moves to the free frames at `b` (R338); none while its lines cannot be
recalled. -/
def State.migrate (s : State) (a b n : Nat) : Option State :=
  (s.cleanRange a (a + n)).map (fun t =>
    let ms := t.mappers a (a + n)
    let t := t.moveFrames a b n
    ms.foldl (fun u m =>
      (u.putPte m.2.2.1 (movePte m.2.2.2 (pteFrame m.2.2.2 - a + b))).sweep m.1 m.2.1 (m.2.1 + leafBytes (pteSize m.2.2.2))) t)
/-- Whether PHASE writes of [lo, hi) are pending, in a core or in its collector. -/
def State.phasePending (s : State) (lo hi : Nat) : Bool :=
  !(s.pendRange lo hi).isEmpty || s.cores.any (fun e => e.2.slots.any (fun b => b.2.reqs.any (fun r =>
    r.code == aPHASE && decide (lo ≤ r.pa) && decide (r.pa < hi))))
/-- Whether a page may move at all: no view page, not evicted, not moving already. -/
def State.movable (s : State) (j : Nat) (x : Nat × Nat × W64) : Bool :=
  !bit x.2.2 63 && !bit x.2.2 3 && !s.stalled.any (fun t => t.1 == j && t.2.1 == x.1)
/-- The state in which page `x` may migrate: a PHASE page at a phase boundary, after its merge (R338). -/
def State.readyToMove (s : State) (j : Nat) (x : Nat × Nat × W64) : Option State :=
  let a := pteFrame x.2.2
  let b := a + leafBytes (pteSize x.2.2)
  if pteAttr x.2.2 ≠ aPHASE then some s
  else if s.atBoundary j then (s.flushRange a b).mergeRange j x.1 a b
  else none
/-- Placement moves a page to a free frame of another die. -/
def execPageMigration (job va die frame : Nat) (s : State) : Host.Outcome State Fault Refusal :=
  .next (match s.pageAt job va with
    | none => s
    | some x =>
      let n := leafBytes (pteSize x.2.2)
      if !s.movable job x || 8 ≤ die || die == pteHome x.2.2 || frame % (n / 65536) ≠ 0 ||
          !s.framesFree die frame (n / 65536) then s
      else
        match (s.readyToMove job x).bind (fun t => t.migrate (pteFrame x.2.2) (die * 2 ^ 36 + frame * 65536) n) with
        | some t => { t with moved := true }
        | none => s)

/-! ## Eviction and recall (R340) -/

/-- Declared ranges of the running or queued tasks of a job that touch a page. -/
def touchesRange (va n : Nat) (l : Launch) : Bool :=
  l.card.ranges.any (fun r => decide (r.base < va + n) && decide (va < r.base + r.len))
/-- Lines of every cache in [lo, hi). -/
def State.cachedIn (s : State) (lo hi : Nat) : List Line :=
  ((s.cores.map (fun e => e.2.l1) ++ s.l2.map (·.2) ++ s.rdc.map (·.2)).flatten).filter (fun y =>
    decide (lo ≤ y.line * 128) && decide (y.line * 128 < hi))
/-- The victim order as a key, lowest first: kept for last, declared, next use nearer in queue order (R350), priority, last
use. The code pages of a running launch are its job's executable pages (log entry 34). -/
def State.victimKey (s : State) (j : Nat) (x : Nat × Nat × W64) : List Nat :=
  let n := leafBytes (pteSize x.2.2)
  let ls := s.launches.filter (fun e => e.2.st != .done)
  let uses := fun (e : Nat × Launch) => jobOfLaunch e.1 == j && touchesRange x.1 n e.2
  let runs := fun (e : Nat × Launch) => jobOfLaunch e.1 == j && e.2.st == .running
  let queue := sortBy launchBefore (ls.filter (fun e => e.2.st == .queued))
  let next := (queue.takeWhile (fun e => !uses e)).length
  let lines := s.cachedIn (pteFrame x.2.2) (pteFrame x.2.2 + n)
  [if ls.any (fun e => runs e && (uses e || bit x.2.2 62)) then 1 else 0, if ls.any uses then 1 else 0,
   queue.length - next, ((lines.map (fun y => y.prio.toNat)).min?).getD 0, ((lines.map (·.used)).max?).getD 0]
/-- Lists of the same length compared from the left. -/
def keyLt : List Nat → List Nat → Bool
  | a :: l, b :: m => decide (a < b) || (a == b && keyLt l m)
  | _, _ => false
/-- Whether a page may be evicted at all: no view page, not moving, no pending PHASE write, its frame mapped once, as every
frame is (R376: MAP takes free frames). -/
def State.evictable (s : State) (j : Nat) (x : Nat × Nat × W64) : Bool :=
  let n := leafBytes (pteSize x.2.2)
  let a := pteFrame x.2.2
  s.movable j x && !s.phasePending a (a + n) && (s.mappers a (a + n)).length == 1
/-- Page `x` goes to the lower tier, with the errors of its bytes, and its frames are free. -/
def State.evictPage (s : State) (job : Nat) (x : Nat × Nat × W64) : Option State :=
  let n := leafBytes (pteSize x.2.2)
  let a := pteFrame x.2.2
  let key := fun (p : Nat) => lowKey job (x.1 + (p - a))
  (s.cleanRange a (a + n)).map (fun t =>
    let cells := (t.mem.filter (fun e => decide (a ≤ e.1) && decide (e.1 < a + n))).map (fun e => (key e.1, e.2))
    let errs := (t.memErr.filter (fun p => decide (a ≤ p) && decide (p < a + n))).map key
    let t := ((t.wipe a n).giveFrames (a / 65536) (n / 65536)).putPte x.2.1 (x.2.2 ||| 8)
    let t := t.sweep job x.1 (x.1 + n)
    { t with lower := cells.foldl (fun m e => Cells.write m e.1 e.2) t.lower, lowerErr := errs ++ t.lowerErr, moved := true })
/-- Placement evicts the first page of the victim order to the lower tier. -/
def execPageEviction (job va : Nat) (s : State) : Host.Outcome State Fault Refusal :=
  .next (match s.pageAt job va with
    | none => s
    | some x =>
      let key := s.victimKey job x
      let better := s.jobs.any (fun b => (s.leaves b.1).any (fun y => s.evictable b.1 y && keyLt (s.victimKey b.1 y) key))
      if !s.evictable job x || better then s else (s.evictPage job x).getD s)
/-- An evicted page is brought back to a frame of a die; `ok` is false where it cannot be read back. -/
def execPageRecall (job va die frame : Nat) (ok : Bool) (s : State) : Host.Outcome State Fault Refusal :=
  .next (match s.pageAt job va with
    | none => s
    | some x =>
      let n := leafBytes (pteSize x.2.2)
      let low := lowKey job x.1
      let inLow := fun (p : Nat) => decide (low ≤ p) && decide (p < low + n)
      if bit x.2.2 63 || !bit x.2.2 3 || s.lowerBad.contains low then s
      else if !ok then { s with lowerBad := low :: s.lowerBad, moved := true }
      else if 8 ≤ die || frame % (n / 65536) ≠ 0 || !s.framesFree die frame (n / 65536) then s
      else
        let b := die * 2 ^ 36 + frame * 65536
        let cells := (s.lower.filter (fun e => inLow e.1)).map (fun e => (e.1 - low + b, e.2))
        let t := ((s.wipe b n).takeFrames (b / 65536) (n / 65536)).putPte x.2.1 (movePte (x.2.2 &&& 0xFFFFFFFFFFFFFFF7) b)
        let t := t.sweep job x.1 (x.1 + n)
        { t with
          mem := cells.foldl (fun m e => Cells.write m e.1 e.2) t.mem
          memErr := (t.lowerErr.filter inLow).map (fun p => p - low + b) ++ t.memErr
          lower := t.lower.filter (fun e => !inLow e.1)
          lowerErr := t.lowerErr.filter (fun p => !inLow p)
          fat := (List.range (n / 65536)).foldl (fun m k => AMap.put m (b / 65536 + k) (pteAttr x.2.2)) t.fat
          moved := true })

end Sys2Proof.Machine
end

