-- ==== Sys2Proof/Machine/Errors.lean ====
section
/-! DEFINITION. Errors and retirement (R304, R305, R295, R373), and the end of a job's time slice (R351). -/

namespace Sys2Proof.Machine

/-! ## Counting errors (R304) -/

/-- Units of a class (R373): cores, slices, channels, remote-data cache banks, die-to-die links. -/
def classSize : Nat → Nat
  | 0 | 1 | 2 => 384
  | 3 => 64
  | 4 => 56
  | _ => 0
def UnitRef.valid (u : UnitRef) : Bool := decide (u.idx < classSize u.cls)
/-- The die of a unit; a die-to-die link belongs to the die of its lower end. -/
def UnitRef.die (u : UnitRef) : Nat :=
  match u.cls with
  | 3 => u.idx / 8
  | 4 => u.idx / 7
  | _ => u.idx / 48
/-- An hour of `%clock` (R55). -/
def hour : Nat := 3600 * 1800000000
def State.updUnit (s : State) (cls idx : Nat) (f : UnitErr → UnitErr) : State :=
  { s with errs := AMap.put s.errs (unitKey cls idx) (f (s.unit cls idx)) }
/-- A corrected error at time `t`: the eight latest times are kept, and eight within an hour mark the fault lasting. -/
def UnitErr.corrected (u : UnitErr) (t : Nat) : UnitErr :=
  let ts := (t :: u.times).take 8
  { u with
    times := ts
    total := Nat.min (u.total + 1) 65535
    lasting := u.lasting || (ts.length == 8 && decide (t - ts.getLastD t ≤ hour)) }
/-- A unit has a corrected error. -/
def execCorrectedError (u : UnitRef) (s : State) : Host.Outcome State Fault Refusal :=
  .next (if UnitRef.valid u then { s.updUnit u.cls u.idx (fun e => e.corrected s.clock.toNat) with moved := true } else s)

/-- Running conversions of a set that read a chunk of its shard `k` are abandoned: their chunks are free again (R267). -/
def State.abandonConvs (s : State) (j idx k : Nat) : State :=
  match s.setAt? j idx with
  | none => s
  | some d =>
    let run := fun (c : Option Conv) => match c with | some c => if c.st = .running then some c else none | none => none
    let mine := (d.shards[k]?).bind (fun x => run x.conv)
    let s := ((run d.conv).toList ++ mine.toList).foldl (fun t c => t.giveHeap c.chunks) s
    let keep := fun (c : Option Conv) => if (run c).isSome then none else c
    let d2 := match d.shards[k]? with | some x => d.putShard k { x with conv := keep x.conv } | none => d
    s.putSet j idx { d2 with conv := keep d2.conv }
/-- What an uncorrectable error strikes (R157, R219, R267, R328). -/
def State.strike (s : State) : ErrAt → State
  | .none => s
  | .mem w => { s with memErr := s.memErr ++ ((List.range 8).map (8 * w + ·)).filter (fun p => !s.memErr.contains p) }
  | .scratch tk o => s.updTeam tk (fun t => { t with scratchErr := o :: t.scratchErr.filter (· != o) })
  | .slotByte tk slot o => s.updTeam tk (fun t =>
      { t with storeErr := (slot * Config.slotBytes + o) :: t.storeErr.filter (· != slot * Config.slotBytes + o) })
  | .tileRow tk k r => s.updTeam tk (fun t => { t with tiles := AMap.upd t.tiles k (fun x =>
      { x with damaged := r :: x.damaged.filter (· != r), faulty := r :: x.faulty.filter (· != r) }) })
  | .setChunk j idx k =>
    match s.setAt? j idx with
    | some d =>
      match d.shards[k]? with
      | some x => s.retried ((s.putSet j idx { d.putShard k { x with bad := true } with damaged := true }).abandonConvs j idx k)
      | none => s
    | none => s
  | .version j g b => { s with vers := s.vers.map (fun v =>
      if v.job = j ∧ v.block = b ∧ v.gens.contains g then { v with bad := true } else v) }
/-- A unit has an uncorrectable error: its fault is lasting, and the data becomes poison or damaged. -/
def execUncorrectableError (u : UnitRef) (at_ : ErrAt) (s : State) : Host.Outcome State Fault Refusal :=
  .next (if UnitRef.valid u then
      { (s.updUnit u.cls u.idx (fun e => { e with lasting := true, uncorr := true })).strike at_ with moved := true }
    else s)

/-! ## Retirement (R295, R305) -/

/-- The table at `b` stands at `nb` from now on: entries, pointers to it, and roots. -/
def State.moveTable (s : State) (b nb : Nat) : State :=
  let mine := AMap.range s.ptes b (b + 4096)
  let others := s.ptes.filter (fun e => !(decide (b ≤ e.1) && decide (e.1 < b + 4096)))
  let fix := fun (e : Nat × W64) =>
    if bit e.2 0 && pteSize e.2 == 3 && pteFrame e.2 == b then (e.1, pointerPte nb) else e
  let ptes := mine.foldl (fun m e => AMap.put m (e.1 - b + nb) (fix e).2) (others.map fix)
  let s : State := { s with
    ptes := ptes
    jobs := s.jobs.map (fun j => (j.1, if j.2.root = b then { j.2 with root := nb } else j.2)) }
  (s.giveFrames (b / 65536) 1).takeFrames (nb / 65536) 1
/-- A free run of granules on another die. -/
def State.frameOff (s : State) (die n : Nat) : Option Nat :=
  ((List.range Config.dies).filter (· != die)).findSome? (s.frameOn n)
/-- Placement moves every page and page table homed on a die to other dies, and to the lower tier where they have no room
for a page (R340); none while one cannot move. -/
def State.emptyDie (s : State) (die : Nat) : Option State :=
  let pages := (s.jobs.map (fun j => ((s.leaves j.1).filter (fun l =>
    !bit l.2.2 63 && !bit l.2.2 3 && pteHome l.2.2 == die)).map (fun l => (j.1, l)))).flatten
  let tables := ((s.jobs.map (fun j => s.tablesAt 5 1 j.2.root)).flatten).filter (fun b => paDie b == die)
  let s1 := pages.foldl (fun (t : Option State) x =>
    t.bind (fun t =>
      let n := leafBytes (pteSize x.2.2.2)
      if !t.movable x.1 x.2 then none
      else
        match t.frameOff die (n / 65536) with
        | some g => (t.readyToMove x.1 x.2).bind (fun t => t.migrate (pteFrame x.2.2.2) (g * 65536) n)
        | none => if t.evictable x.1 x.2 then t.evictPage x.1 x.2 else none)) (some s)
  tables.foldl (fun (t : Option State) b =>
    t.bind (fun t => (t.frameOff die 1).map (fun g => t.moveTable b (g * 65536)))) s1
/-- A unit marked lasting is retired: a slice or channel once its die is empty, the others at once. What a bank's die caches
leaves its remote-data cache first. -/
def State.retire (s : State) (cls idx : Nat) : State :=
  let set := fun (t : State) => t.updUnit cls idx (fun e => { e with retired := true })
  if cls = 1 ∨ cls = 2 then
    match s.emptyDie (idx / 48) with
    | some t =>
      let lo := idx / 48 * 2 ^ 36
      set (t.recallRange lo (lo + 2 ^ 36))
    | none => s
  else if cls = 3 then set (s.rdcEmpty (idx / 8))
  else set s
/-- The lasting units of the dies given that are not retired yet. -/
def State.toRetire (s : State) (dies : List Nat) : List (Nat × Nat) :=
  (s.errs.filter (fun e => e.2.lasting && !e.2.retired && dies.contains (UnitRef.die ⟨e.1 / 4096, e.1 % 4096⟩))).map
    (fun e => (e.1 / 4096, e.1 % 4096))
/-- The units whose job boundary has come are retired; one whose die cannot be emptied yet, as while its PHASE pages wait for
a phase boundary (R338), is retired when it can. -/
def State.retireDue (s : State) : State :=
  ((s.errs.filter (fun e => e.2.due && !e.2.retired)).map (·.1)).foldl (fun t k => t.retire (k / 4096) (k % 4096)) s
/-- A job boundary on dies. -/
def State.boundary (s : State) (dies : List Nat) : State :=
  ((s.toRetire dies).foldl (fun t u => t.updUnit u.1 u.2 (fun e => { e with due := true })) s).retireDue
/-- A phase boundary completes (R361). -/
def execPhaseBoundaryCompletion (job : Nat) (s : State) : Host.Outcome State Fault Refusal := .next (s.endPhase job).retireDue
/-- A page's attribute switches (R324). -/
def execAttrsetCompletion (op : Nat) (s : State) : Host.Outcome State Fault Refusal := .next (s.attrDone op).retireDue
/-- Dies on which a job has work: teams, spans or pages. -/
def State.diesOf (s : State) (j : Nat) : List Nat :=
  (List.range Config.dies).filter (fun d =>
    s.teams.any (fun e => jobOfLaunch e.2.launch == j && (match e.2.core with | some c => dieOf c == d | none => false)) ||
      s.spans.any (fun e => jobOfLaunch e.2.launch == j && decide (e.1 < savedSpan) && dieOf (coreOfSpan e.1) == d) ||
      (s.leaves j).any (fun l => !bit l.2.2 63 && !bit l.2.2 3 && pteHome l.2.2 == d))

/-! ## Time slices (R351) -/

/-- Keys of the teams of job `j` that stand on a core, in groups or in spans. -/
def State.placedTeams (s : State) (f : Nat → Bool) : List Nat :=
  let ts := (s.teams.filter (fun e => e.2.core.isSome && f (jobOfLaunch e.2.launch))).map (·.1)
  let sp := ((s.spans.filter (fun e => decide (e.1 < savedSpan) && f (jobOfLaunch e.2.launch))).map (fun e =>
    let T := s.teamSize e.2.launch
    (List.range ((e.2.hi - 1) / T + 1 - e.2.lo / T)).map (fun i => teamKey e.2.launch ((e.2.lo / T + i) * T) T))).flatten
  (ts ++ sp).eraseDups
/-- A job's slice ends and another's may begin: its teams are pre-empted, its cards stay queued, and units whose fault is
lasting are retired where it had work. A slice may also begin alone: after one that none followed, or whose job has ended. -/
def execSliceEnd (jobOut : Nat) (jobIn : Option Nat) (s : State) : Host.Outcome State Fault Refusal :=
  let ends := match AMap.find s.jobs jobOut with | some b => b.active | none => false
  let begins := match jobIn.bind (AMap.find s.jobs) with | some b => !b.active | none => false
  .next (if !ends && !begins then s
    else
      let dies := if ends then s.diesOf jobOut else []
      let s : State := { s with
        jobs := s.jobs.map (fun j => (j.1, { j.2 with
          weight := j.2.nextWeight
          active := if ends && j.1 == jobOut then false else if jobIn = some j.1 then true else j.2.active }))
        moved := true }
      if ends then ((s.placedTeams (· == jobOut)).foldl (fun t k => t.preempt k) s).boundary dies else s)

end Sys2Proof.Machine
end

