-- ==== Sys2Proof/Machine/Fabric.lean ====
section
/-! DEFINITION. The fabric: gathers, scatter-adds and bulk copies (R382 to R385), routing of work to expert replicas (R386 to
R388), accesses carried between devices (R380, R381), and links (R379). -/

namespace Sys2Proof.Machine

/-! ## Issue (R383, R384) -/

def fab (c : Bool) (r : Nat) : Ev Unit := orTrap c (mkTrap cFAB r)
/-- A global side of `n` bytes that wraps past 2^64. -/
def sideWraps (d : Side) (n : Nat) : Bool :=
  match d with
  | .glob a => decide (2 ^ 64 < a.toNat + n)
  | .scr _ => false
/-- A scratchpad offset that is not a multiple of 4. -/
def sideAligned : Side → Ev Unit
  | .scr o => orTrap (o % 4 == 0) (addrTrap cMISALIGN 0 (BitVec.ofNat 64 o))
  | .glob _ => .ok ()
/-- Sides as arguments of a command. -/
def Side.arg : Side → W64 := fun d => match d with
  | .glob a => a
  | .scr o => BitVec.ofNat 64 o
def sideOf (scr : Bool) (a : W64) : Side := if scr then .scr a.toNat else .glob a

/-- The operands of RGTH and RSCT: local side, table base, row bytes, count, index array. -/
structure RowArgs where
  loc : Side
  base : W64
  rb : Nat
  n : Nat
  ix : Side
  deriving DecidableEq, Repr
def readRows (s : State) (ik : Nat) (it : Item) (g : Group) (f : EF) (dsp isp : Bool) : Ev RowArgs := do
  let loc ← readSide s ik it g dsp f.o1
  let b ← readEs s ik it g f.o2 4
  let ix ← readSide s ik it g isp f.o3
  .ok ⟨loc, pair (b.getD 0 0) (b.getD 1 0), (b.getD 2 0).toNat, (b.getD 3 0).toNat, ix⟩
/-- The checks of their operands. -/
def rowChecks (s : State) (ik : Nat) (r : RowArgs) : Ev Unit := do
  fab (decide (4 ≤ r.rb) && decide (r.rb ≤ 65536) && r.rb % 4 == 0 && decide (r.n ≤ 65536)) 2
  fab (!sideWraps r.loc (r.n * r.rb) && !sideWraps r.ix (4 * r.n)) 3
  sideAligned r.loc
  sideAligned r.ix
  sideScr s ik r.n r.rb r.rb r.loc
  sideScr s ik r.n 4 4 r.ix

/-- RGTH. -/
def execRgth (f : EF) (dsp isp : Bool) (ev : BitVec 3) (s : State) : Host.Outcome State Fault Refusal :=
  .next (issue f.g 8 (fun s0 t ik => do
    let (it, g) ← getItem s0 ik
    acqGate t ik
    let h ← readE s0 ik it g f.r 1
    let r ← readRows s0 ik it g f dsp isp
    acquireGate t ik
    rowChecks t ik r
    let _ ← getBuf t ik (lo32 h).toNat
    let t ← raiseInflight t ik
    .ok (t.issueSlice ik s0.cur.pc
      { kind := .rgth, buf := (lo32 h).toNat, seq := 0, started := false, dst := r.loc, src := .glob r.base, rowBytes := r.rb,
        rows := r.n, srcStride := 0, dstStride := 0, ix := r.ix, done := [], cursor := 0, ev := ev, suspended := false } false)) s)
/-- RGET. -/
def execRget (f : EF) (dsp : Bool) (ev : BitVec 3) (s : State) : Host.Outcome State Fault Refusal :=
  .next (issue f.g 8 (fun s0 t ik => do
    let (it, g) ← getItem s0 ik
    acqGate t ik
    let h ← readE s0 ik it g f.r 1
    let dst ← readSide s0 ik it g dsp f.o1
    let a ← readE s0 ik it g f.o2 2
    let l ← readE s0 ik it g f.o3 1
    acquireGate t ik
    let n := (lo32 l).toNat
    fab (!sideWraps dst n && !sideWraps (.glob a) n) 3
    sideAligned dst
    sideScr t ik 1 n 0 dst
    let _ ← getBuf t ik (lo32 h).toNat
    let t ← raiseInflight t ik
    .ok (t.issueSlice ik s0.cur.pc
      { kind := .rget, buf := (lo32 h).toNat, seq := 0, started := false, dst := dst, src := .glob a, rowBytes := n, rows := 1,
        srcStride := 0, dstStride := 0, ix := .scr 0, done := [], cursor := 0, ev := ev, suspended := false } false)) s)
/-- A command with a token register is sent: its token goes EMPTY. -/
def State.sendTok (s : State) (ik : Nat) (pc : W64) (i : Instr) (r : Fld) (args : List W64) : State :=
  (((s.flushItem ik).setEmpty ik (.v r.toNat) 1).addOp ⟨s.coreOf ik, launchOf ik, indexOf ik, indexOf ik + 1, pc,
    .tok ⟨i, args, ⟨.v r.toNat, 1⟩, 0, false, (encode i).headD 0⟩⟩).2
/-- RSCT. -/
def execRsct (f : EF) (dsp isp : Bool) (ev : BitVec 3) (flt : Bool) (s : State) : Host.Outcome State Fault Refusal :=
  .next (issue f.g 8 (fun s0 t ik => do
    let (it, g) ← getItem s0 ik
    acqGate t ik
    freeE it g f.r 1
    let r ← readRows s0 ik it g f dsp isp
    acquireGate t ik
    rowChecks t ik r
    let t ← raiseInflight t ik
    .ok (t.sendTok ik s0.cur.pc (.rsct f dsp isp ev flt) f.r
      [r.loc.arg, r.base, BitVec.ofNat 64 r.rb, BitVec.ofNat 64 r.n, r.ix.arg])) s)
/-- RPUT. -/
def execRput (f : EF) (ssp : Bool) (ev : BitVec 3) (s : State) : Host.Outcome State Fault Refusal :=
  .next (issue f.g 8 (fun s0 t ik => do
    let (it, g) ← getItem s0 ik
    acqGate t ik
    freeE it g f.r 1
    let d ← readE s0 ik it g f.o1 2
    let src ← readSide s0 ik it g ssp f.o2
    let l ← readE s0 ik it g f.o3 1
    acquireGate t ik
    let n := (lo32 l).toNat
    fab (!sideWraps (.glob d) n && !sideWraps src n) 3
    sideAligned src
    sideScr t ik 1 n 0 src
    let t ← raiseInflight t ik
    .ok (t.sendTok ik s0.cur.pc (.rput f ssp ev) f.r [d, src.arg, BitVec.ofNat 64 n])) s)

/-! ## Effects (R383, R385) -/

/-- A fault suspends a command with its cursor at the failing row or byte: a copy fault record, and COPY_FAULT for the
issuing item. With no record free it tries again. -/
def State.suspendFab (s : State) (n : Nat) (o : Op) (k : OpKind) (a : W64) (reason : Nat) : State :=
  let r := freeKey (s.core o.core).copyRecs Config.copyFaultRecords 0
  if Config.copyFaultRecords ≤ r then s
  else
    let ik := itemKey o.launch o.lo
    let s : State := { s with ops := AMap.put s.ops n { o with kind := k }, moved := true }
    let s := s.updCore o.core (fun c => { c with copyRecs := AMap.put c.copyRecs r ⟨n, s.teamOf ik, reason, a, o.pc⟩ })
    let s := match k with | .copy x => s.setBufFault o.core x.buf | _ => s
    s.addPending ik ⟨cCOPY, BitVec.ofNat 32 (r + 256 * reason), a, o.pc⟩
/-- What a step of a fabric command comes to. -/
inductive FabRes where
  | ok (s : State)
  | fail (a : W64) (r : Nat)
  | stall
/-- Bytes moved from one side to another. Where both sides fail, the lower address is reported (R171). -/
def State.fabMove (s : State) (o : Op) (ev : BitVec 3) (src dst : Side) (n : Nat) : FabRes :=
  let j := jobOfLaunch o.launch
  let ik := itemKey o.launch o.lo
  match s.sideRead o.core j ik ev src n with
  | .stall => .stall
  | .fail a r => let p := lowerFail a r (s.sideMeets o.core j ev dst n); .fail p.1 p.2
  | .ok bs s1 =>
    match s1.sideWrite o.core j ik ev dst bs with
    | .stall => .stall
    | .fail a r => .fail a r
    | .ok _ s2 => .ok s2
/-- Index `k` of an index array. -/
def State.rowIndex (s : State) (o : Op) (ev : BitVec 3) (ix : Side) (k : Nat) : EngRd :=
  s.sideRead o.core (jobOfLaunch o.launch) (itemKey o.launch o.lo) ev (ix.at 0 0 (4 * k)) 4
/-- Row `k` of a gather arrives. -/
def State.gatherRow (s : State) (num : Nat) (o : Op) (x : CopyOp) (k : Nat) : State :=
  if s.opCancelled o || x.rows = 0 then s.endCopy num o x
  else if x.rows ≤ k ∨ x.done.contains k then s
  else
    let bad := fun (a : W64) (r : Nat) => s.suspendFab num o (.copy { x with suspended := true, cursor := k }) a r
    match s.rowIndex o x.ev x.ix k with
    | .stall => s
    | .fail a r => bad a r
    | .ok bs s1 =>
      let src := Side.glob (x.src.addr + BitVec.ofNat 64 (leNat bs * x.rowBytes))
      match s1.fabMove o x.ev src (x.dst.at 0 0 (k * x.rowBytes)) x.rowBytes with
      | .stall => s
      | .fail a r => bad a r
      | .ok t =>
        let x2 := { x with done := x.done ++ [k] }
        let t := (t.sync [tokOp num] (t.bufTok o.core x.buf)).updBuf o.core x.buf (·.arrive x.rowBytes)
        let t : State := { t with ops := AMap.put t.ops num { o with kind := .copy x2 }, moved := true }
        if x.rows ≤ x2.done.length then t.endCopy num o x2 else t
def execRgthRowArrival (op k : Nat) (s : State) : Host.Outcome State Fault Refusal :=
  .next (match s.copyOf op with
    | some (o, x) => if x.kind = .rgth then s.gatherRow op o x k else s
    | none => s)
/-- Bytes of a chunk of `left` bytes whose source stands at `a`: it ends at a multiple of 4 KiB (R169). -/
def chunkLen (left : Nat) (a : W64) : Nat := Nat.min left (4096 - a.toNat % 4096)
/-- The next bytes of an RGET arrive. -/
def State.getBytes (s : State) (num : Nat) (o : Op) (x : CopyOp) : State :=
  if s.opCancelled o || decide (x.rowBytes ≤ x.cursor) then s.endCopy num o x
  else
    let src := x.src.at 0 0 x.cursor
    let n := chunkLen (x.rowBytes - x.cursor) src.addr
    match s.fabMove o x.ev src (x.dst.at 0 0 x.cursor) n with
    | .stall => s
    | .fail a r => s.suspendFab num o (.copy { x with suspended := true }) a r
    | .ok t =>
      let x2 := { x with cursor := x.cursor + n }
      let t := (t.sync [tokOp num] (t.bufTok o.core x.buf)).updBuf o.core x.buf (·.arrive n)
      let t : State := { t with ops := AMap.put t.ops num { o with kind := .copy x2 }, moved := true }
      if x.rowBytes ≤ x2.cursor then t.endCopy num o x2 else t
def execRgetArrival (op : Nat) (s : State) : Host.Outcome State Fault Refusal :=
  .next (match s.copyOf op with
    | some (o, x) => if x.kind = .rget then s.getBytes op o x else s
    | none => s)

/-- A command with a token is over: its token is 0 and FULL, and the in-flight count falls. -/
def State.endTok (s : State) (n : Nat) (o : Op) (t : TokOp) : State :=
  let s : State := { s.land o t.dst [0] with ops := AMap.del s.ops n, moved := true }
  let s := s.updCore o.core (fun k => { k with copyRecs := k.copyRecs.filter (fun r => r.2.op != n) })
  s.lowerInflight (groupOf (itemKey o.launch o.lo))
/-- A command with a token that may act. -/
def State.tokOf (s : State) (n : Nat) : Option (Op × TokOp) :=
  match AMap.find s.ops n with
  | some o =>
    match o.kind with
    | .tok t =>
      if s.opCancelled o || (!t.suspended && !s.phaseHeld (jobOfLaunch o.launch) n) then some (o, t) else none
    | _ => none
  | none => none
/-- Why an element of a scatter-add row cannot be added: as an atomic (R162, R380), lowest address first. -/
def State.scatBytes (s : State) (c j : Nat) (a : W64) : Nat → EngCheck
  | 0 => .ok
  | n + 1 =>
    match s.engXlat j a true with
    | .fail r => .fail a r
    | .stall => .stall
    | .remote _ => s.scatBytes c j (a + 1) n
    | .ok x =>
      if x.attr = aPHASE then .fail a 7
      else if (s.readAt c j none x 1).2 then .fail a 4
      else s.scatBytes c j (a + 1) n
/-- The check of a row, which also waits for the pool blocks that its writes need (R327). -/
def State.scatCheck (s : State) (c j : Nat) (ev : BitVec 3) (a : W64) (n : Nat) : EngCheck :=
  match s.scatBytes c j a n with
  | .ok => if s.poolFits (s.poolNeed c j ev (s.engPlaces j a n)) then .ok else .stall
  | r => r
/-- An element's bytes, which an atomic reads, in a state where their line stands at its home (R303). -/
def State.elemAt (s : State) (c j : Nat) (a : W64) : List (BitVec 8) :=
  (List.range 4).map (fun i => match s.engXlat j (a + BitVec.ofNat 64 i) true with
    | .ok x => (s.readAt c j none x 1).1.getD 0 0
    | _ => 0)
/-- A value added to the element at `a`: an atomic of this device, or of the device that owns the address. An element of
a SEQ or REL page is added at its home, every copy recalled; one of a PRIV page in the core's L1 (R303). -/
def State.addElem (s : State) (o : Op) (ev : BitVec 3) (op : AOp) (a : W64) (v : Nat) : State :=
  let j := jobOfLaunch o.launch
  let ik := itemKey o.launch o.lo
  match s.engXlat j a true with
  | .remote d => s.toDevice d j ik a (.atom op 4 false (BitVec.ofNat 64 v) 0)
  | .ok x =>
    let s := if x.attr = aPRIV then s else s.recallLine (lineOf x.pa)
    let bs := leBytes (atomNew op 4 false (leNat (s.elemAt o.core j a)) v 0) 4
    if x.attr = aPRIV ∨ vaOf a % 4 ≠ 0 then s.engWrite o.core j ik ev a bs else s.writeHome j (vaOf a) x.pa bs
  | _ => s
/-- The elements `vs` added from address `a` on. -/
def State.scatter (s : State) (o : Op) (ev : BitVec 3) (op : AOp) (a : W64) : List Nat → State
  | [] => s
  | v :: vs => (s.addElem o ev op a v).scatter o ev op (a + 4) vs
/-- 32-bit elements of bytes. -/
def words4 : List (BitVec 8) → List Nat
  | a :: b :: c :: d :: l => leNat [a, b, c, d] :: words4 l
  | _ => []
/-- The next row of a scatter-add is applied; behind the last one the command is over. -/
def State.scatRow (s : State) (num : Nat) (o : Op) (t : TokOp) (dsp isp : Bool) (ev : BitVec 3) (flt : Bool) : State :=
  let loc := sideOf dsp (t.args.getD 0 0)
  let base := t.args.getD 1 0
  let rb := (t.args.getD 2 0).toNat
  let n := (t.args.getD 3 0).toNat
  let ix := sideOf isp (t.args.getD 4 0)
  let j := jobOfLaunch o.launch
  if s.opCancelled o || decide (n ≤ t.cursor) then s.endTok num o t
  else
    let bad := fun (a : W64) (r : Nat) => s.suspendFab num o (.tok { t with suspended := true }) a r
    match s.rowIndex o ev ix t.cursor with
    | .stall => s
    | .fail a r => bad a r
    | .ok bs s1 =>
      let row := base + BitVec.ofNat 64 (leNat bs * rb)
      match s1.sideRead o.core j (itemKey o.launch o.lo) ev (loc.at 0 0 (t.cursor * rb)) rb with
      | .stall => s
      | .fail a r => bad a r
      | .ok vs s2 =>
        match s2.scatCheck o.core j ev row rb with
        | .stall => s
        | .fail a r => bad a r
        | .ok =>
          let u := s2.scatter o ev (if flt then .fadd else .add) row (words4 vs)
          let t2 := { t with cursor := t.cursor + 1 }
          let u : State := { u with ops := AMap.put u.ops num { o with kind := .tok t2 }, moved := true }
          if n ≤ t2.cursor then u.endTok num o t2 else u
def execRsctCompletion (op : Nat) (s : State) : Host.Outcome State Fault Refusal :=
  .next (match s.tokOf op with
    | some (o, t) => match t.ins with
      | .rsct _ dsp isp ev flt => s.scatRow op o t dsp isp ev flt
      | _ => s
    | none => s)
/-- The next bytes of an RPUT are written; behind the last ones the command is over. -/
def State.putChunk (s : State) (num : Nat) (o : Op) (t : TokOp) (ssp : Bool) (ev : BitVec 3) : State :=
  let n := (t.args.getD 2 0).toNat
  if s.opCancelled o || decide (n ≤ t.cursor) then s.endTok num o t
  else
    let src := (sideOf ssp (t.args.getD 1 0)).at 0 0 t.cursor
    let k := chunkLen (n - t.cursor) src.addr
    match s.fabMove o ev src ((Side.glob (t.args.getD 0 0)).at 0 0 t.cursor) k with
    | .stall => s
    | .fail a r => s.suspendFab num o (.tok { t with suspended := true }) a r
    | .ok u =>
      let t2 := { t with cursor := t.cursor + k }
      let u : State := { u with ops := AMap.put u.ops num { o with kind := .tok t2 }, moved := true }
      if n ≤ t2.cursor then u.endTok num o t2 else u
def execRputCompletion (op : Nat) (s : State) : Host.Outcome State Fault Refusal :=
  .next (match s.tokOf op with
    | some (o, t) => match t.ins with
      | .rput _ ssp ev => s.putChunk op o t ssp ev
      | _ => s
    | none => s)

/-! ## Experts (R386 to R388) -/

/-- ROUTE. -/
def execRoute (f : EF) (s : State) : Host.Outcome State Fault Refusal :=
  .next (issue f.g 8 (fun s0 t ik => do
    let (it, g) ← getItem s0 ik
    acqGate t ik
    freeE it g f.r 4
    let x ← readE s0 ik it g f.o1 1
    let h ← readE s0 ik it g f.o2 1
    acquireGate t ik
    let e := (lo32 x).toNat
    fab (decide (e ≤ 4095)) 1
    let j := jobOf ik
    match AMap.find t.jobs j with
    | none => .error .wait
    | some b =>
      let reps := ((AMap.find b.experts e).map (·.reps)).getD []
      let ver := b.rver % 65536 * 65536
      let v := match reps[(lo32 h).toNat * reps.length / 2 ^ 32]? with
        | some p => p.dev + 2 ^ 32 * (p.core + ver) + 2 ^ 64 * p.base.toNat
        | none => 0xFFFFFFFF + 2 ^ 32 * ver
      let t := t.updJob j (fun b => { b with experts := AMap.upd b.experts e (fun y => { y with routes := y.routes + 1 }) })
      let t := t.updLaunch (launchOf ik) (fun l => { l with rver := some ((l.rver.map (Nat.min b.rver)).getD b.rver) })
      .ok (t.dest ik (.v f.r.toNat) 4 v)) s)
/-- Copies of removed replicas that no live launch can still use are given up. -/
def State.pruneKept (s : State) (j : Nat) : State :=
  let ls := (AMap.range s.launches (j * 2 ^ 24) ((j + 1) * 2 ^ 24)).filter (fun e => e.2.st != .done)
  s.updJob j (fun b => { b with kept := b.kept.filter (fun k =>
    ls.any (fun e => match e.2.rver with | some v => decide (v < k.2.2) | none => false)) })
/-- The end of a window of 1 ms: counts start again, and one expert whose count has reached the job's threshold may get a
replica, whose copy then begins. -/
def execRouteWindowEnd (job : Nat) (choice : Option (Nat × Nat × Nat × Nat)) (s : State) :
    Host.Outcome State Fault Refusal :=
  .next (match AMap.find s.jobs job with
    | none => s
    | some b =>
      let s := match choice with
        | some (e, dev, core, base) =>
          match AMap.find b.experts e with
          | some x =>
            if decide (b.thresh ≤ x.routes) && !x.reps.isEmpty && decide (x.reps.length < 16) && x.copy.isNone &&
                decide (dev < 2 ^ 21) && decide (core < Config.cores) then
              let y : Expert := { x with copy := some ⟨dev, core, BitVec.ofNat 64 base⟩ }
              s.updJob job (fun b => { b with experts := AMap.put b.experts e y })
            else s
          | none => s
        | none => s
      let s := s.updJob job (fun b => { b with experts := b.experts.map (fun e => (e.1, { e.2 with routes := 0 })) })
      { s.pruneKept job with moved := true })
/-- The copy of an expert's weights is complete: the replica joins the table at a new version. -/
def execReplicaCopyComplete (job expert : Nat) (s : State) : Host.Outcome State Fault Refusal :=
  .next (match (AMap.find s.jobs job).bind (fun b => AMap.find b.experts expert) with
    | none => s
    | some x =>
      match x.copy, x.reps with
      | some r, p :: _ =>
        match s.engCheck r.core job false 4 p.base x.wlen, s.engCheck r.core job true 4 r.base x.wlen with
        | .ok, .ok =>
          let rd := s.engRead r.core job 4 p.base x.wlen
          let t := rd.2.engWrite r.core job 0 4 r.base rd.1
          { t.updJob job (fun b => { b with
              rver := b.rver + 1
              experts := AMap.upd b.experts expert (fun y => { y with reps := y.reps ++ [r], copy := none }) }) with
            moved := true }
        | .stall, _ => s
        | _, .stall => s
        | _, _ =>
          { s.updJob job (fun b => { b with experts := AMap.upd b.experts expert (fun y => { y with copy := none }) }) with
            moved := true }
      | _, _ => s)
/-- Placement removes an added replica. -/
def execReplicaRemoved (job expert idx : Nat) (s : State) : Host.Outcome State Fault Refusal :=
  .next (match (AMap.find s.jobs job).bind (fun b => AMap.find b.experts expert) with
    | none => s
    | some x =>
      match idx, x.reps[idx]? with
      | 0, _ => s
      | _, none => s
      | _, some r =>
        let s := s.updJob job (fun b => { b with
          rver := b.rver + 1
          kept := b.kept ++ [(expert, r, b.rver + 1)]
          experts := AMap.upd b.experts expert (fun y => { y with reps := y.reps.eraseIdx idx }) })
        { s.pruneKept job with moved := true })

/-! ## Accesses between devices (R380, R381) -/

/-- Whether a page permits an access that another device carries here: a read, or a write, or for CFLUSH and CINV either
(R158). -/
def Xlat.permits (x : Xlat) : RemoteOp → Bool
  | .load _ => x.rd
  | .store _ _ | .atom _ _ _ _ _ => x.wr
  | .line _ => x.rd || x.wr
/-- An access that another device carries here is performed at its line's home, every copy recalled, and answered; none
where it must wait (R380, R381). CFLUSH and CINV find no copy that they could write back or drop. -/
def State.carried (s : State) (job : Nat) (a : W64) (op : RemoteOp) : Option (State × RemoteAns) :=
  match s.translate job a with
  | .stall => none
  | .fail r => some (s, .fail r (s.seqPage job a))
  | .remote _ => some (s, .fail 1 false)
  | .ok x =>
    let seq := x.attr == aSEQ
    if !x.permits op then some (s, .fail 2 seq)
    else if s.aliased x then some (s, .trap cALIAS)
    else if x.attr = aPHASE ∨ x.attr = aPRIV then some (s, .fail 3 false)
    else
      let s := (s.flushRange (lineOf x.pa * 128) (lineOf x.pa * 128 + 128)).recallLine (lineOf x.pa)
      match op with
      | .line _ => some (s, .data 0 seq)
      | .load n =>
        let r := s.readAt 0 job none x n
        if r.2 then some (s, .fail 4 seq) else some (s, .data (BitVec.ofNat 128 (leNat r.1)) seq)
      | .store n v =>
        if !s.cowOk job (vaOf a) then none
        else some (s.writeHome job (vaOf a) x.pa (leBytes v.toNat n), .data 0 seq)
      | .atom op n sg v e =>
        if !s.cowOk job (vaOf a) then none
        else
          let r := s.readAt 0 job none x n
          if r.2 then some (s, .fail 4 seq)
          else
            let old := leNat r.1
            some (s.writeHome job (vaOf a) x.pa (leBytes (atomNew op n sg old v.toNat e.toNat) n),
              .data (BitVec.ofNat 128 old) seq)
def execRemoteAccessRequest (dev req job : Nat) (addr : W64) (op : RemoteOp) (s : State) :
    Host.Outcome State Fault Refusal :=
  .next (match s.carried job addr op with
    | some (t, ans) => { t with fabAns := t.fabAns ++ [⟨dev, req, ans⟩], moved := true }
    | none => s)
/-- Another device answers message `op`: the item that waits for it goes on with the answer. -/
def execRemoteResponse (op : Nat) (a : RemoteAns) (s : State) : Host.Outcome State Fault Refusal :=
  .next (match s.fabOut.find? (fun m => m.id == op) with
    | none => s
    | some m =>
      let got := fun (w : Spot × Wait) => match w.2 with
        | .remote id none => if id = op then (w.1, Wait.remote id (some a)) else w
        | _ => w
      let t := s.updItem m.item (fun it => { it with waits := it.waits.map got })
      { t with fabOut := t.fabOut.filter (fun x => x.id != op), moved := true })

/-! ## Links (R379) -/

/-- A flit is sent again: nothing else happens. -/
def execFlitCrcFail (_link : Nat) (s : State) : Host.Outcome State Fault Refusal := .next { s with moved := true }
/-- A link is out of routing. -/
def execLinkFail (link : Nat) (lost : List Nat) (s : State) : Host.Outcome State Fault Refusal :=
  .next { s with
    linksDown := if s.linksDown.contains link then s.linksDown else link :: s.linksDown
    unreach := s.unreach ++ lost.filter (fun d => !s.unreach.contains d)
    moved := true }

end Sys2Proof.Machine
end

