-- ==== Sys2Proof/Machine/Fetch.lean ====
section
/-! DEFINITION. What happens at an instruction boundary besides an instruction (R224): the fetch of a word and its failure
(R104, R105), a word that encodes no instruction (R38 to R41), and the asynchronous traps that wait (R224, R225). -/

namespace Sys2Proof.Machine

/-! ## Fetching (R104, R105) -/

/-- What the fetch of a word answers: the word and, for a format-L first word, the next one; the reason it fails; or a
stall. -/
inductive Fetched where
  | word (w w2 : W64)
  | fail (reason : Nat)
  | stall
  deriving DecidableEq, Repr
/-- Eight bytes of code at a translated address; none where one was read with an error. -/
def State.codeWord (s : State) (j : Nat) (x : Xlat) : Option W64 :=
  let r := s.readAt 0 j none x 8
  if r.2 then none else some (BitVec.ofNat 64 (leNat r.1))
/-- The word at `pc` for job `j`. A page of another device's memory has no translation to fetch through (log entry 32), and an error
in the second word of a long form fails the fetch of its first word (log entry 56). -/
def State.fetch (s : State) (j : Nat) (pc : W64) : Fetched :=
  match s.translate j pc with
  | .stall => .stall
  | .fail r => .fail (if r = 4 then 4 else 1)
  | .remote _ => .fail 1
  | .ok x =>
    if !x.ex then .fail 2
    else if x.attr = aPHASE ∨ x.attr = aPRIV then .fail 3
    else
      match s.codeWord j x with
      | none => .fail 4
      | some w =>
        if majorOf w = 0x3F ∧ pc.toNat % 16 = 0 then
          match s.codeWord j { x with pa := x.pa + 8 } with
          | some w2 => .word w w2
          | none => .fail 4
        else .word w 0
/-- The instruction a fetched word encodes at `pc` for quota `q`; none for an illegal word (R38). -/
def legalWord (q : Nat) (pc w w2 : W64) : Option Instr :=
  match decode w w2 with
  | .ok i => if wf q pc i then some i else none
  | .error _ => none
/-- The L1 instruction cache of a core holds the line at `pc`: 64 KiB of lines, the newest first (R105). -/
def State.noteFetch (s : State) (c j : Nat) (pc : W64) : State :=
  match s.translate j pc with
  | .ok x => s.updCore c (fun k =>
      { k with icache := (lineOf x.pa :: k.icache.filter (· != lineOf x.pa)).take 512 })
  | _ => s

/-- The trap of a failed fetch. -/
def fetchTrap (reason : Nat) (pc : W64) : Trap := addrTrap cFETCH reason pc
/-- The items of the bundle under way trap where their fetch fails, whatever their guards would be. -/
def execFetchFault (s : State) : Host.Outcome State Fault Refusal :=
  .next (s.cur.items.foldl (fun t ik =>
    match s.fetch (jobOf ik) s.cur.pc with
    | .fail r => t.takeTrap ik (fetchTrap r s.cur.pc) s.cur.pc
    | _ => t) s)

/-! ## Illegal words (R39 to R41) -/

/-- The word `w` encodes no instruction here: items whose guard is false pass it, the others trap. -/
def execIllegalWordIssue (w : W64) (s : State) : Host.Outcome State Fault Refusal :=
  let g := guardOf w
  let s1 := (s.inactive g).foldl (fun t ik =>
    (if posDependent w then t.passWord ik s.cur.pc else t).advance ik (wordLen w)) s
  .next ((s.active g).foldl (fun t ik => t.takeTrap ik (mkTrap cILL 0) s.cur.pc) s1)

/-! ## Asynchronous traps (R224, R225) -/

/-- CANCELLED (R225): the launch handler runs where the card names one and the item is in no handler; ERET from it ends
the item. Else the item's program is over. Either way the item comes back to no word it waited at. -/
def State.takeCancelled (s : State) (ik : Nat) (it : Item) : State :=
  let s := s.updItem ik (fun it => { it with cancelled := true, waits := [] })
  if (s.cardOf (launchOf ik)).handler ≠ 0 ∧ !it.h.flag then s.takeTrap ik (mkTrap cCANC 0) it.pc
  else s.beginEnd ik
/-- The first operation whose `POISON_FULL` waits has it taken (R229). -/
def markTaken : List (Nat × Bool) → List (Nat × Bool)
  | [] => []
  | (n, true) :: l => (n, true) :: markTaken l
  | (n, false) :: l => (n, true) :: l
/-- The trap that waits first is taken, CANCELLED last. -/
def State.takePending (s : State) (ik : Nat) : State :=
  match s.item? ik with
  | none => s
  | some it =>
    match it.pend with
    | t :: rest => (s.updItem ik (fun it => { it with
        pend := rest
        full := if t.cause = cPFULL then markTaken it.full else it.full })).takeTrap ik t it.pc
    | [] => s.takeCancelled ik it
/-- The items of the bundle under way that an asynchronous trap waits for take it. -/
def execPendingTrapTaken (s : State) : Host.Outcome State Fault Refusal :=
  .next (s.cur.items.foldl (fun t ik => if t.trapDue ik then t.takePending ik else t) s)

end Sys2Proof.Machine
end

