-- ==== Sys2Proof/Machine/Window.lean ====
section
/-! DEFINITION. The management window: its registers (R368, R369, R373), starts and reloads (R370 to R372), submission
(R374), the host link (R367), power and coolant (R378). -/

namespace Sys2Proof.Machine

def State.updMgmt (s : State) (f : Mgmt → Mgmt) : State := { s with mgmt := f s.mgmt }

/-! ## Reads (R368, R369, R372, R373, R375) -/

def DevMode.code : DevMode → Nat
  | .starting => 0
  | .normal => 1
  | .minimal => 2
  | .reloading => 3
def flagN (b : Bool) (n : Nat) : Nat := if b then 2 ^ n else 0
def Mgmt.devstat (m : Mgmt) : Nat :=
  DevMode.code m.mode * 2 ^ 30 + flagN m.ltfull 29 + m.pstate.toNat * 2 ^ 27 + m.fails.toNat * 2 ^ 25 + m.svn.toNat
/-- `errdat` for the unit that `errsel` names. -/
def State.errdat (s : State) : Nat :=
  let sel := s.mgmt.errsel.toNat
  let cls := sel / 4096
  let idx := sel % 4096
  if classSize cls ≤ idx then 0
  else
    let u := s.unit cls idx
    let win := (u.times.filter (fun t => decide (s.clock.toNat - t ≤ hour))).length
    flagN u.lasting 31 + flagN u.retired 30 + flagN u.uncorr 29 + win * 2 ^ 16 + u.total
/-- A failure record as four words, lowest first. -/
def FailRec.word (r : FailRec) (k : Nat) : W32 :=
  match k with
  | 0 => r.start
  | 1 => BitVec.ofNat 32 (r.reason.toNat + r.die.toNat * 256 + r.unit.toNat * 65536)
  | 2 => lo32 r.detail
  | _ => hi32 r.detail
/-- Doorbell bits of word `k`. -/
def State.bells (s : State) (k : Nat) : Nat := ((List.range 32).map (fun b => flagN (s.core (32 * k + b)).bell b)).sum
/-- Whether an access at a byte offset acts in the present mode (R370). -/
def Mgmt.acts (m : Mgmt) (off : Nat) : Bool :=
  m.mode != .minimal || [0x0, 0x8, 0xC, 0x10, 0x14, 0x18, 0x1C].contains off || (decide (0x20 ≤ off) && decide (off < 0xA0))
/-- What a read of `bytes` bytes of the window answers: 0 but for an aligned 32-bit access. -/
def State.windowRead (s : State) (off bytes : Nat) : W32 :=
  let m := s.mgmt
  if bytes ≠ 4 || off % 4 ≠ 0 || !m.acts off then 0
  else if off = 0x0 then BitVec.ofNat 32 m.devstat
  else if off = 0x4 then m.pstate.setWidth 32
  else if off = 0x8 then m.errsel.setWidth 32
  else if off = 0xC then BitVec.ofNat 32 s.errdat
  else if off = 0x10 then lo32 m.imgaddr
  else if off = 0x14 then hi32 m.imgaddr
  else if off = 0x18 then m.imglen
  else if 0x20 ≤ off ∧ off < 0xA0 then
    match m.failrec[(off - 0x20) / 16]? with
    | some r => r.word ((off - 0x20) / 4 % 4)
    | none => 0
  else if 0x100 ≤ off ∧ off < 0x130 then BitVec.ofNat 32 (s.bells ((off - 0x100) / 4))
  else if off = 0x20C then m.substat
  else if 0x304 ≤ off ∧ off < 0x344 then (if m.mode = .normal then m.jarg.getD ((off - 0x304) / 4) 0 else 0)
  else if off = 0x344 then (if m.mode = .normal then BitVec.ofNat 32 (flagN m.busy 31 + m.jstat.toNat) else 0)
  else if 0x10000 ≤ off ∧ off < 0x10000 + 64 * 384 then
    BitVec.ofNat 32 (leNat ((s.core ((off - 0x10000) / 64)).mbox.readN ((off - 0x10000) % 64) 4))
  else 0

/-! ## Writes (R368) -/

/-- A write to a register of the window that has no step of its own; one that is not an aligned 32-bit access changes no
register. -/
def execRegisterWrite (off : Nat) (w : WinWrite) (s : State) : Host.Outcome State Fault Refusal :=
  let s : State := { s with moved := true }
  let val := w.val
  .next (if w.bytes ≠ 4 || off % 4 ≠ 0 || !s.mgmt.acts off then s
    else if off = 0x8 then s.updMgmt (fun m => { m with errsel := val.setWidth 16 })
    else if off = 0x10 then s.updMgmt (fun m => { m with imgaddr := pair val (hi32 m.imgaddr) })
    else if off = 0x14 then s.updMgmt (fun m => { m with imgaddr := pair (lo32 m.imgaddr) val })
    else if off = 0x18 then s.updMgmt (fun m => { m with imglen := val })
    else if off = 0x200 then s.updMgmt (fun m => { m with subjob := val.setWidth 6 })
    else if off = 0x204 then s.updMgmt (fun m => { m with subaddr := pair val (hi32 m.subaddr) })
    else if 0x304 ≤ off ∧ off < 0x344 ∧ s.mgmt.mode = .normal then
      s.updMgmt (fun m => { m with jarg := setAt m.jarg ((off - 0x304) / 4) val })
    else s)
/-- A write to word `word` of the doorbell register: a 1 clears the core's doorbell. -/
def execDoorbell (word : Nat) (val : W32) (s : State) : Host.Outcome State Fault Refusal :=
  let s : State := { s with moved := true }
  .next (if s.mgmt.mode = .minimal ∨ 12 ≤ word then s
    else (List.range 32).foldl (fun t b =>
      if val.getLsbD b then t.updCore (32 * word + b) (fun k => { k with bell := false }) else t) s)

/-! ## Starts (R370, R372) -/

/-- A failure record, newest first. -/
def State.record (s : State) (reason : Nat) (detail unit die : Nat) : State :=
  s.updMgmt (fun m => { m with failrec := (⟨BitVec.ofNat 64 detail, BitVec.ofNat 16 unit, BitVec.ofNat 8 die,
    BitVec.ofNat 8 reason, BitVec.ofNat 32 m.starts⟩ :: m.failrec).take 8 })
/-- The compute dies lose power: DRAM contents and what the dies hold are lost (R370, R378, log entry 40). -/
def State.unpower (s : State) : State :=
  { s with mem := [], memErr := [], cores := [], tlb2 := [], dir := [], coh := [], gathers := [], wbufs := [], rdc := [],
           l2 := [], mgmt := { s.mgmt with pstate := 3 } }
/-- A failed start: a record, and minimal mode, in which the compute dies are unpowered, at the third, or at once where it came
from a reload (R371). -/
def State.failStart (s : State) (reason : Nat) (detail unit die : Nat) : State :=
  let n := if s.mgmt.mode = .reloading then 3 else Nat.min (s.mgmt.fails.toNat + 1) 3
  let t := (s.record reason detail unit die).updMgmt (fun m =>
    { m with running := false, fails := BitVec.ofNat 2 n, mode := if n = 3 then .minimal else .starting })
  if n = 3 then t.unpower else t
/-- The version store that firmware sizes, in MiB: 4 to 96 GiB, by default 1/16 of the live memory (R325). -/
def State.poolOf (s : State) (g : Nat) : Nat :=
  if 4 ≤ g ∧ g ≤ 96 then 1024 * g else 64 * ((List.range Config.dies).map (fun d => (s.live d).length)).sum
/-- The steps of a start up to the image's run; each check that fails ends it, as does an error in system-die memory. -/
def State.start (s : State) (b : BootIn) : State :=
  let s := s.updMgmt (fun m => { m with starts := m.starts + 1, meas := 0 })
  let img := s.mgmt.imgStore
  let memBad := fun (t : State) => t.failStart 0x08 0 0xFFFF 0xFF
  if b.sysMemBad = some 0 then memBad s
  else if !b.loaderOk then s.failStart 0x01 0 0xFFFF 0xFF
  else
    let s := s.updMgmt (fun m => { m with meas := Config.measure m.meas b.loaderDigest })
    if b.sysMemBad = some 1 then memBad s
    else if !Config.imageSigned img then s.failStart 0x02 0 0xFFFF 0xFF
    else if (Config.imageSvn img).toNat < s.mgmt.minSvn.toNat then s.failStart 0x03 0 0xFFFF 0xFF
    else
      let s := s.updMgmt (fun m => { m with
        minSvn := Config.imageSvn img, svn := Config.imageSvn img, meas := Config.measure m.meas (Config.imageDigest img) })
      if b.sysMemBad = some 2 then memBad s
      else
        match b.dramBad, b.powerBad with
        | some ch, _ => s.failStart 0x04 ch (0x2000 + ch) (ch / 48)
        | none, some d => s.failStart 0x05 0 0xFFFF d
        | none, none =>
          if b.sysMemBad.isSome then memBad s
          else
            let s := s.boundary (List.range Config.dies)
            let s : State := { s with poolMiB := s.poolOf b.poolGiB }
            s.updMgmt (fun m => { m with
              running := true, pstate := if m.pstate = 3 then (if m.holdP1 then 1 else 0) else m.pstate })
/-- A start runs. -/
def execDeviceStart (b : BootIn) (s : State) : Host.Outcome State Fault Refusal :=
  .next (if s.mgmt.mode = .starting ∧ !s.mgmt.running then { s.start b with moved := true } else s)
/-- The image reports ready. -/
def execReadyReport (s : State) : Host.Outcome State Fault Refusal :=
  .next (if s.mgmt.running then
      { s.updMgmt (fun m => { m with running := false, fails := 0, mode := .normal }) with moved := true }
    else s)
/-- No report within 120 s. -/
def execStartTimeout (s : State) : Host.Outcome State Fault Refusal :=
  .next (if s.mgmt.running then { s.failStart 0x06 0 0xFFFF 0xFF with moved := true } else s)

/-! ## Reload (R371) -/

/-- Whether `n` bytes of host memory from `a` can be accessed. -/
def State.hostOk (s : State) (a n : Nat) : Bool :=
  decide (a + n ≤ 2 ^ 64) && s.hostHoles.all (fun h => decide (h.1 + h.2 ≤ a) || decide (a + n ≤ h.1) || h.2 == 0 || n == 0)
/-- A write to `reload`. `image` is what the start of the new image meets; none where the copy cannot be made. -/
def execReload (val : W32) (image : Option BootIn) (s : State) : Host.Outcome State Fault Refusal :=
  let s : State := { s with moved := true }
  let m := s.mgmt
  .next (if !val.getLsbD 0 || !(m.mode == .minimal || (m.mode == .normal && s.jobs.isEmpty)) then s
    else
      let s := s.updMgmt (fun m => { m with mode := .reloading, running := false })
      match image, s.hostOk m.imgaddr.toNat m.imglen.toNat with
      | some b, true =>
        { (s.updMgmt (fun m => { m with imgStore := s.host.readN m.imgaddr.toNat m.imglen.toNat })).start b with moved := true }
      | _, _ => (s.updMgmt (fun m => { m with mode := .minimal, fails := 3 })).unpower)

/-! ## Power and coolant (R378) -/

/-- A write to `power`. -/
def execPower (val : W32) (s : State) : Host.Outcome State Fault Refusal :=
  let s : State := { s with moved := true }
  let r : BitVec 2 := val.setWidth 2
  .next (if s.mgmt.mode = .minimal ∨ (r = 3 ∧ !s.jobs.isEmpty) then s
    else
      let s := s.updMgmt (fun m => { m with preq := r, pstate := if r = 0 ∧ m.holdP1 then 1 else r })
      if r = 3 then s.unpower else s)
/-- The coolant outlet temperature, in tenths of a degree, is above a limit: 65 degrees hold P1, 75 stop dispatch and
pre-empt every team. -/
def execCoolantLimit (t : Nat) (s : State) : Host.Outcome State Fault Refusal :=
  .next (if t ≤ 650 then s
    else
      let s := s.updMgmt (fun m => { m with holdP1 := true, pstate := if m.pstate = 0 then 1 else m.pstate })
      let s : State := { s with moved := true }
      if t ≤ 750 then s
      else if s.mgmt.running then s.failStart 0x07 t 0xFFFF 0xFF
      else if s.mgmt.hot then s
      else
        let s := (s.record 0x07 t 0xFFFF 0xFF).updMgmt (fun m => { m with hot := true })
        (s.placedTeams (fun _ => true)).foldl (fun u k => u.preempt k) s)
/-- The temperature is back at or below a limit. -/
def execCoolantBelowLimit (t : Nat) (s : State) : Host.Outcome State Fault Refusal :=
  .next (if 750 < t then s
    else
      let s := s.updMgmt (fun m => { m with hot := false })
      let s := if t ≤ 650 then s.updMgmt (fun m => { m with holdP1 := false, pstate := if m.holdP1 ∧ m.pstate ≠ 3 then m.preq else m.pstate })
        else s
      { s with moved := true })
/-- The host port links (R367). -/
def execHostLinkNegotiation (cxl : Bool) (rate width : Nat) (s : State) : Host.Outcome State Fault Refusal :=
  .next { s.updMgmt (fun m => { m with cxl := cxl, linkRate := Nat.min rate 7, linkWidth := Nat.min width 16 }) with
    moved := true }

end Sys2Proof.Machine
end

