-- ==== Sys2Proof/Machine/Jobs.lean ====
section
/-! DEFINITION. Jobs from the host: submission of cards (R374) and the job-control commands (R375 to R377). -/

namespace Sys2Proof.Machine

/-! ## Bytes of a job at their homes (R376) -/

/-- What a byte of a job's memory is for the host. -/
inductive HomeX where
  | ok (x : Xlat)
  | no
  | stall
  deriving DecidableEq, Repr
def State.homeX (s : State) (j : Nat) (a : W64) : HomeX :=
  match s.translate j a with
  | .ok x => .ok x
  | .stall => .stall
  | _ => .no
/-- One byte as it stands at its home: the published version of PHASE bytes, a generation's of a view page. -/
def State.homeByte (s : State) (j : Nat) (a : W64) : BitVec 8 × State :=
  match s.translate j a with
  | .ok x =>
    let r := if x.gv then s.viewByte j (vaOf a) else (s.mem.read x.pa, s.memErr.contains x.pa)
    if r.2 then (Config.damagedByte s.free, { s with free := s.free + 1 }) else (r.1, s)
  | _ => (Config.damagedByte s.free, { s with free := s.free + 1 })
def State.homeBytes (s : State) (j : Nat) (a : W64) : Nat → List (BitVec 8) × State
  | 0 => ([], s)
  | n + 1 =>
    let r := s.homeByte j a
    let t := r.2.homeBytes j (a + 1) n
    (r.1 :: t.1, t.2)
/-- What every byte of a range allows. -/
inductive RangeOk where | ok | stall | no
  deriving DecidableEq, Repr
def State.homeRange (s : State) (j : Nat) (a : W64) (f : Xlat → RangeOk) : Nat → RangeOk
  | 0 => .ok
  | n + 1 =>
    match s.homeX j a with
    | .no => .no
    | .stall => match s.homeRange j (a + 1) f n with | .no => .no | _ => .stall
    | .ok x =>
      match f x with
      | .ok => s.homeRange j (a + 1) f n
      | r => match s.homeRange j (a + 1) f n with | .no => .no | _ => r

/-! ## Submission (R374) -/

/-- The card at `a` is posted to the device queue of job `j`, and `substat` told; none while a page of the card stalls. -/
def State.submit (s : State) (j : Nat) (a : W64) : Option State :=
  let answer := fun (t : State) (v : W32) => some (t.updMgmt (fun m => { m with substat := v }))
  let open_ := fun (t : State) => answer { t with free := t.free + 1 } (Config.freeStatus t.free)
  let readable := fun (x : Xlat) => if x.rd then RangeOk.ok else RangeOk.no
  if (AMap.find s.jobs j).isNone then answer s 9
  else if a.toNat % 128 ≠ 0 then open_ s
  else
    match s.homeRange j a readable 128 with
    | .stall => none
    | .no => open_ s
    | .ok =>
      let (bs, t) := s.homeBytes j a 128
      let rt := BitVec.ofNat 64 (rtabOf bs)
      let n := if readsTable bs then rcountOf bs else 0
      match t.homeRange j rt readable (16 * n) with
      | .stall => none
      | .no => open_ s
      | .ok =>
        let (tb, t) := t.homeBytes j rt (16 * n)
        let tab := (List.range n).map (fun k => rawRng (tb.drop (16 * k)))
        let st := t.cardStatus j bs tab (some .device)
        if st ≠ 0 then answer t (BitVec.ofNat 32 st)
        else if t.queueFull .device then answer t 10
        else answer (t.acceptCard j .device (cardIn bs tab)).2 0
/-- A write to `subaddrh` posts a card to the device queue of the job that `subjob` names, behind those that still wait. -/
def execSubmit (hi : W32) (s : State) : Host.Outcome State Fault Refusal :=
  let s : State := { s with moved := true }
  let a := pair (lo32 s.mgmt.subaddr) hi
  let j := s.mgmt.subjob.toNat
  .next (if s.mgmt.mode = .minimal then s
    else
      let s := s.updMgmt (fun m => { m with subaddr := a })
      let wait := s.updMgmt (fun m => { m with subWait := m.subWait ++ [(j, a)] })
      if s.mgmt.subWait.isEmpty then (s.submit j a).getD wait else wait)
/-- The oldest submission that waits is posted, if it can be. -/
def State.retrySubmit (s : State) : State :=
  match s.mgmt.subWait with
  | [] => s
  | (j, a) :: l =>
    match (s.updMgmt (fun m => { m with subWait := l })).submit j a with
    | some t => { t with moved := true }
    | none => s

/-! ## Records in host memory (R377) -/

/-- A field of `n` bits from bit `lo` of the 64-bit word at offset `o`. -/
def fld (bs : List (BitVec 8)) (o lo n : Nat) : Nat := bytesAt bs o 8 / 2 ^ lo % 2 ^ n
/-- A mapping record. -/
structure MapRec where
  vbase : Nat
  len : Nat
  attr : BitVec 2
  rd : Bool
  wr : Bool
  ex : Bool
  size : BitVec 2
  owner : Nat
  init : Nat
  rest : Bool
  deriving DecidableEq, Repr
def mapRec (bs : List (BitVec 8)) : MapRec :=
  { vbase := bytesAt bs 0 8, len := fld bs 8 0 24 * 65536, attr := BitVec.ofNat 2 (fld bs 8 24 2), rd := fld bs 8 26 1 == 1,
    wr := fld bs 8 27 1 == 1, ex := fld bs 8 28 1 == 1, size := BitVec.ofNat 2 (fld bs 8 29 2), owner := fld bs 8 32 21,
    init := bytesAt bs 16 8, rest := fld bs 8 31 1 == 0 && fld bs 8 53 11 == 0 && bytesAt bs 24 8 == 0 }
/-- Whether a record is well formed on the device `dev`. -/
def MapRec.ok (r : MapRec) (dev : Nat) : Bool :=
  let p := leafBytes r.size
  r.rest && r.size != 3 && r.len != 0 && r.vbase % p == 0 && r.len % p == 0 && decide (r.vbase + r.len ≤ 2 ^ 57) &&
    (r.owner == dev || (r.vbase % 2 ^ 30 == 0 && r.len % 2 ^ 30 == 0))
def MapRec.meets (a b : MapRec) : Bool := decide (a.vbase < b.vbase + b.len) && decide (b.vbase < a.vbase + a.len)
/-- Whether no two records overlap. -/
def recsApart : List MapRec → Bool
  | [] => true
  | r :: l => !l.any r.meets && recsApart l
/-- A routing record. -/
structure RouteRec where
  expert : Nat
  dev : Nat
  core : Nat
  base : Nat
  wlen : Nat
  rest : Bool
  deriving DecidableEq, Repr
def routeRec (bs : List (BitVec 8)) : RouteRec :=
  { expert := fld bs 0 0 12, dev := fld bs 0 32 21, core := fld bs 8 0 9, base := bytesAt bs 16 8, wlen := fld bs 24 0 48,
    rest := fld bs 0 12 20 == 0 && fld bs 0 53 11 == 0 && fld bs 8 9 55 == 0 && fld bs 24 48 16 == 0 }
def RouteRec.ok (r : RouteRec) : Bool := r.rest && decide (r.core < Config.cores) && r.wlen != 0
/-- `n` records of 32 bytes. -/
def recs {α : Type} (f : List (BitVec 8) → α) (bs : List (BitVec 8)) (n : Nat) : List α :=
  (List.range n).map (fun k => f ((bs.drop (32 * k)).take 32))

/-! ## Mappings -/

/-- Bytes of host memory from `a` on put at `pa`. -/
def State.fill (s : State) (a pa n : Nat) : State :=
  let cells := (AMap.range s.host a (a + n)).map (fun e => (e.1 - a + pa, e.2))
  { s with mem := cells.foldl (fun m e => Cells.write m e.1 e.2) s.mem }
/-- Page `va` of a local record: frames, fill, frame attribute, entry. -/
def State.mapPage (s : State) (j : Nat) (r : MapRec) (va : Nat) : Option State :=
  let n := leafBytes r.size
  (s.frame (n / 65536)).bind (fun g =>
    let s := (s.takeFrames g (n / 65536)).wipe (g * 65536) n
    let s := if r.init = 0 then s else s.fill (r.init + (va - r.vbase)) (g * 65536) n
    let s : State := { s with fat := (List.range (n / 65536)).foldl (fun m k => AMap.put m (g + k) r.attr) s.fat }
    s.mapLeaf j va (leafPte (g * 65536) r.rd r.wr r.ex r.attr r.size))
/-- A record's range joins the job: local pages, or regions of another device. -/
def State.mapOne (s : State) (j : Nat) (r : MapRec) : Option State :=
  if r.owner = s.devId.toNat then
    (List.range (r.len / leafBytes r.size)).foldl (fun (t : Option State) k =>
      t.bind (fun t => t.mapPage j r (r.vbase + k * leafBytes r.size))) (some s)
  else
    some (s.updJob j (fun b => { b with gmap := (List.range (r.len / 2 ^ 30)).foldl (fun m k =>
      AMap.put m (r.vbase / 2 ^ 30 + k) r.owner) b.gmap }))
/-- The records of a command join the job, all or none; the status. -/
def State.mapAll (s : State) (j : Nat) (rs : List MapRec) : Nat × State :=
  if !rs.all (fun r => r.ok s.devId.toNat) || !recsApart rs ||
      !rs.all (fun r => s.vaFree j r.vbase (r.vbase + r.len)) then (3, s)
  else if !rs.all (fun r => r.owner != s.devId.toNat || r.init == 0 || s.hostOk r.init r.len) then (2, s)
  else
    match rs.foldl (fun (t : Option State) r => t.bind (fun t => t.mapOne j r)) (some s) with
    | some t => (0, t)
    | none => (4, s)
/-- Whether [a, a + n) lies wholly on REL or SEQ pages of the job, or in regions of other devices. -/
def State.weightsMapped (s : State) (j a : Nat) (n : Nat) : Nat → Bool
  | 0 => n == 0
  | fuel + 1 =>
    if n = 0 then true
    else if 2 ^ 57 ≤ a then false
    else
      let go := fun (hi : Nat) => s.weightsMapped j hi (n - (hi - a)) fuel
      match (AMap.find s.jobs j).bind (fun b => AMap.find b.gmap (a / 2 ^ 30)) with
      | some _ => go ((a / 2 ^ 30 + 1) * 2 ^ 30)
      | none =>
        match s.leaf j a with
        | some (_, e) =>
          if bit e 63 || !(pteAttr e == aREL || pteAttr e == aSEQ) then false
          else go (a - a % leafBytes (pteSize e) + leafBytes (pteSize e))
        | none => false

/-! ## Commands (R376) -/

/-- How far a command has come: it must wait, or it is done, with its status and results. -/
inductive JobRes where
  | wait
  | done (s : State) (status : Nat) (res : List (Nat × W32))
/-- Argument pairs and words. -/
def argPair (l : List W32) (k : Nat) : Nat := (pair (l.getD k 0) (l.getD (k + 1) 0)).toNat
def argWord (l : List W32) (k : Nat) : Nat := (l.getD k 0).toNat
def fails (s : State) (st : Nat) : JobRes := .done s st []

/-- A job without anything, whose page table stands at `root`. -/
def newJob (root weight : Nat) (snap : Bool) (thresh : Nat) : Job :=
  { weight := weight, nextWeight := weight, snapperm := snap, thresh := if thresh = 0 then 65536 else thresh, active := true,
    phase := 0, lastLaunch := 0, graphs := [], phases := [], ctr := 0, cancGraphs := [], cancPhases := [], canc := false,
    lastGen := 0, gens := [], sets := [], nextSet := 1, experts := [], rver := 1, kept := [], gmap := [], viewMap := [],
    root := root, ending := [], merge := false, mark := 0 }
/-- Routing records set the table of a new job. -/
def State.setRoutes (s : State) (j : Nat) (rs : List RouteRec) : State :=
  s.updJob j (fun b => { b with experts := rs.foldl (fun m r =>
    AMap.put m r.expert ⟨[⟨r.dev, r.core, BitVec.ofNat 64 r.base⟩], r.wlen, 0, none⟩) b.experts })
/-- A job descriptor. -/
structure JobDesc where
  monvec : Nat
  mapa : Nat
  mapn : Nat
  weight : Nat
  snap : Bool
  rta : Nat
  rtn : Nat
  thresh : Nat
  rest : Bool
  deriving DecidableEq, Repr
def jobDesc (d : List (BitVec 8)) : JobDesc :=
  { monvec := bytesAt d 0 8, mapa := bytesAt d 8 8, mapn := fld d 16 0 16, weight := fld d 16 16 8, snap := fld d 16 24 1 == 1,
    rta := bytesAt d 24 8, rtn := fld d 32 0 13, thresh := fld d 32 32 32,
    rest := fld d 16 25 39 == 0 && fld d 32 13 19 == 0 && (d.drop 40).all (· == 0) }
def JobDesc.ok (d : JobDesc) : Bool :=
  d.monvec != 0 && d.monvec % 8 == 0 && d.mapa % 32 == 0 && d.weight != 0 && d.rta % 32 == 0 && decide (d.rtn ≤ 4096) && d.rest
/-- The job without its mappings and routes: its table stands at granule `g`. -/
def State.withJob (s : State) (j g : Nat) (d : JobDesc) : State :=
  { (s.takeFrames g 1).wipe (g * 65536) 65536 with
    jobs := AMap.put s.jobs j (newJob (g * 65536) d.weight d.snap d.thresh) }
/-- The routing records and the monitor entry join the job, whose mappings stand in `t`. -/
def State.finishCreate (s t : State) (j : Nat) (d : JobDesc) (rs : List RouteRec) : JobRes :=
  let fuel := (t.leaves j).length + ((AMap.find t.jobs j).map (fun b => b.gmap.length)).getD 0 + 1
  if !rs.all RouteRec.ok || !(rs.map (·.expert)).Nodup || !rs.all (fun r => t.weightsMapped j r.base r.wlen fuel) then fails s 3
  else .done ((List.range Config.cores).foldl (fun u c =>
    u.updCore c (fun k => { k with mvec := AMap.put k.mvec j (BitVec.ofNat 64 d.monvec) })) (t.setRoutes j rs)) 0 []
/-- CREATE. -/
def runCreate (s : State) (j : Nat) (arg : List W32) : JobRes :=
  let a := argPair arg 0
  let d := jobDesc (s.host.readN a 64)
  if (AMap.find s.jobs j).isSome then fails s 1
  else if a % 64 ≠ 0 then fails s 3
  else if !s.hostOk a 64 then fails s 2
  else if !d.ok then fails s 3
  else if !s.hostOk d.mapa (32 * d.mapn) || !s.hostOk d.rta (32 * d.rtn) then fails s 2
  else
    match s.frame 1 with
    | none => fails s 4
    | some g =>
      let r := (s.withJob j g d).mapAll j (recs mapRec (s.host.readN d.mapa (32 * d.mapn)) d.mapn)
      if r.1 ≠ 0 then fails s r.1
      else s.finishCreate r.2 j d (recs routeRec (s.host.readN d.rta (32 * d.rtn)) d.rtn)
/-- MAP. -/
def runMap (s : State) (j : Nat) (arg : List W32) : JobRes :=
  let a := argPair arg 0
  let n := argWord arg 2
  if a % 32 ≠ 0 || decide (65535 < n) then fails s 3
  else if !s.hostOk a (32 * n) then fails s 2
  else
    let (st, t) := s.mapAll j (recs mapRec (s.host.readN a (32 * n)) n)
    if st ≠ 0 then fails s st else .done t 0 []
/-- Of the generations that lack the block of `va`, those whose cut is fixed: one still in fixing holds the pages mapped at
its completion (R329). -/
def State.lackingFixed (s : State) (j va : Nat) : List Nat :=
  (s.lacking j (va / 4096)).filter (fun g => match (s.job? j).bind (fun b => AMap.find b.gens g) with
    | some x => x.st != .fixing
    | none => false)
/-- Generations in fixing have nothing of a page that leaves the job. -/
def State.dropFixing (s : State) (j lo hi : Nat) : State :=
  match s.job? j with
  | none => s
  | some b => (b.gens.filter (fun e => e.2.st == .fixing)).foldl (fun t e =>
      t.dropVers j e.1 (fun k => decide (lo ≤ 4096 * k) && decide (4096 * k < hi))) s
/-- The blocks of a page that generations need are kept before its frames go (R327, R329), those of an evicted page in the
lower tier where they stand (log entry 34); none without a pool block. -/
def State.keepPage (s : State) (j : Nat) (l : Nat × Nat × W64) : Option State :=
  let live := match AMap.find s.jobs j with | some b => !b.gens.isEmpty | none => false
  if !live then some s
  else
    ((List.range (leafBytes (pteSize l.2.2) / 4096)).foldl (fun (t : Option State) k =>
      t.bind (fun t =>
        let va := l.1 + 4096 * k
        let gs := t.lackingFixed j va
        if gs.isEmpty then some t
        else if bit l.2.2 3 then
          let low := lowKey j va
          let data := (AMap.range t.lower low (low + 4096)).map (fun e => (e.1 - low, e.2))
          let bad := t.lowerBad.contains (lowKey j l.1) || t.lowerErr.any (fun p => decide (low ≤ p) && decide (p < low + 4096))
          some (({ t with vers := t.vers ++ [⟨j, va / 4096, gs, data, true, bad⟩] } : State).nowLower j 1 gs)
        else if t.poolFits 1 then some (t.copyBlock j va (pteFrame l.2.2 + 4096 * k) gs) else none)) (some s)).map (fun t =>
      t.dropFixing j l.1 (l.1 + leafBytes (pteSize l.2.2)))
/-- A page leaves the job, and its frames or lower-tier bytes are freed; `keep` whether generations still need it. -/
def State.dropPage (s : State) (j : Nat) (l : Nat × Nat × W64) (keep : Bool) : Option State :=
  let n := leafBytes (pteSize l.2.2)
  let a := pteFrame l.2.2
  if bit l.2.2 3 then
    (if keep then s.keepPage j l else some s).map (fun t =>
      let low := lowKey j l.1
      { (t.putPte l.2.1 0).sweep j l.1 (l.1 + n) with
        lower := t.lower.filter (fun e => !(decide (low ≤ e.1) && decide (e.1 < low + n)))
        lowerBad := t.lowerBad.filter (· != low)
        lowerErr := t.lowerErr.filter (fun p => !(decide (low ≤ p) && decide (p < low + n))) })
  else
    (s.cleanRange a (a + n)).bind (fun t =>
      (if keep then t.keepPage j l else some t).map (fun t =>
        let t := ((t.putPte l.2.1 0).sweep j l.1 (l.1 + n)).wipe a n
        let t := t.giveFrames (a / 65536) (n / 65536)
        { t with cores := t.cores.map (fun e => (e.1, { e.2 with
          pend := e.2.pend.filter (fun b => !(decide (a ≤ b.1) && decide (b.1 < a + n)))
          pendPool := e.2.pendPool.filter (fun p => !(decide (a ≤ p * 4096) && decide (p * 4096 < a + n))) })) }))
/-- UNMAP. -/
def runUnmap (s : State) (j : Nat) (arg : List W32) : JobRes :=
  let a := argPair arg 0
  let n := argWord arg 2
  let hi := a + n * 65536
  if a % 65536 ≠ 0 || n = 0 || decide (2 ^ 24 ≤ n) || decide (2 ^ 57 < hi) then fails s 3
  else
    let ls := s.leavesIn j a hi
    if ls.any (fun l => decide (l.1 < a) || decide (hi < l.1 + leafBytes (pteSize l.2.2)) || bit l.2.2 63) then fails s 3
    else if ls.any (fun l => s.stalled.any (fun x => x.1 == j && x.2.1 == l.1)) then .wait
    else
      match ls.foldl (fun (t : Option State) l => t.bind (fun t => t.dropPage j l true)) (some s) with
      | some t => .done t 0 []
      | none => .wait
/-- Whether a launch of the job is running. -/
def State.jobRuns (s : State) (j : Nat) : Bool := (s.launchesOf j).any (fun e => e.2.st == .running)
/-- Bytes written to a job's memory at their homes, tracked copies recalled (R297). -/
def State.homeWrite (s : State) (j : Nat) (a : W64) : List (BitVec 8) → State
  | [] => s
  | b :: bs =>
    let s := match s.translate j a with
      | .ok x => (if x.attr = aSEQ ∨ x.attr = aREL then s.recallLine (lineOf x.pa) else s).writeHome j (vaOf a) x.pa [b]
      | _ => s
    s.homeWrite j (a + 1) bs
/-- COPYIN, once the pool has a block for each copy that its writes need first. -/
def runCopyin (s : State) (j : Nat) (arg : List W32) : JobRes :=
  let src := argPair arg 0
  let dst := BitVec.ofNat 64 (argPair arg 2)
  let n := argWord arg 4
  if !s.hostOk src n then fails s 2
  else
    match s.homeRange j dst (fun x => if x.gv || !x.wr || (x.attr == aPHASE && s.jobRuns j) then .no else .ok) n with
    | .no => fails s 5
    | .stall => .wait
    | .ok =>
      if !s.cowRoom ((List.range n).map (fun i => (j, vaOf (dst + BitVec.ofNat 64 i)))) then .wait
      else .done (s.homeWrite j dst (s.host.readN src n)) 0 []
/-- How many of `n` bytes of host memory from `a` on can be accessed before the first that cannot. -/
def State.hostReach (s : State) (a n : Nat) : Nat :=
  (((s.hostHoles.filter (fun h => decide (h.2 ≠ 0) && decide (a < h.1 + h.2))).map (fun h => h.1 - a)).foldl Nat.min
    (Nat.min n (2 ^ 64 - a)))
/-- COPYOUT: a host error met partway leaves what has been written. -/
def runCopyout (s : State) (j : Nat) (arg : List W32) : JobRes :=
  let src := BitVec.ofNat 64 (argPair arg 0)
  let dst := argPair arg 2
  let n := argWord arg 4
  match s.homeRange j src (fun x => if x.rd then .ok else .no) n with
  | .no => fails s 5
  | .stall => .wait
  | .ok =>
    let (bs, t) := s.homeBytes j src n
    .done { t with host := t.host.writeN dst (bs.take (s.hostReach dst n)) } (if s.hostOk dst n then 0 else 2) []
/-- SETW. -/
def runSetw (s : State) (j : Nat) (arg : List W32) : JobRes :=
  let w := argWord arg 0 % 256
  if w = 0 then fails s 3 else .done (s.updJob j (fun b => { b with nextWeight := w })) 0 []
/-- COUNT. -/
def doCount (s : State) (j : Nat) (arg : List W32) : JobRes :=
  let c := arg.getD 0 0
  if badCounter c then fails s 3
  else
    let r := s.counter j c
    .done s 0 [(1, BitVec.ofNat 32 r.1), (2, BitVec.ofNat 32 (r.1 / 2 ^ 32)), (3, BitVec.ofNat 32 r.2)]
/-- Everything a job holds is freed. -/
def State.freeJob (s : State) (j : Nat) (b : Job) : Option State :=
  let mine := fun (lk : Nat) => jobOfLaunch lk == j
  let s := (s.teams.filter (fun e => mine e.2.launch)).foldl (fun t e => t.releaseTeam e.1) s
  let s := b.sets.foldl (fun t d =>
    let t := d.2.shards.foldl (fun u x =>
      (match x.conv with | some c => u.giveHeap c.chunks | none => u).giveHeap x.chunks) t
    match d.2.conv with | some c => t.giveHeap c.chunks | none => t) s
  let s := (b.gens.map (·.1)).foldl (fun t g => t.freeGen j g) (s.unmapViews j 0 (2 ^ 57))
  ((s.leaves j).foldl (fun (t : Option State) l => t.bind (fun t => t.dropPage j l false)) (some s)).map (fun t =>
    let t := t.freeTables (t.tablesAt 5 1 b.root)
    { t with
      jobs := AMap.del t.jobs j
      launches := t.launches.filter (fun e => !mine e.1)
      items := t.items.filter (fun e => jobOf e.1 != j)
      groups := t.groups.filter (fun e => !mine (launchOfGroup e.1))
      spans := t.spans.filter (fun e => !mine e.2.launch)
      ops := t.ops.filter (fun e => !mine e.2.launch)
      stalled := t.stalled.filter (fun x => x.1 != j)
      cores := t.cores.map (fun e => (e.1, { e.2 with
        mvec := AMap.del e.2.mvec j
        l1 := e.2.l1.filter (fun x => !(x.job == j && (x.code == aPHASE || x.code == aPRIV))) }))
      rdc := t.rdc.map (fun e => (e.1, e.2.filter (fun x => !(x.job == j && x.code == aPHASE)))) })
/-- DESTROY, once every launch has completed; the end of the job is a job boundary (R305). -/
def runDestroy (s : State) (j : Nat) : JobRes :=
  match AMap.find s.jobs j with
  | none => fails s 1
  | some b =>
    if (s.launchesOf j).any (fun e => e.2.st != .done) then .wait
    else
      let dies := s.diesOf j
      match s.freeJob j b with
      | some t => .done ((s.retried t).boundary dies) 0 []
      | none => .wait

/-- A running command: its code, job and arguments. -/
def State.runJob (s : State) (w : W32) (arg : List W32) : JobRes :=
  let j := w.toNat / 256 % 64
  let resident := (AMap.find s.jobs j).isSome
  match w.toNat % 256 with
  | 1 => runCreate s j arg
  | 2 => if resident then runMap s j arg else fails s 1
  | 3 => if resident then runUnmap s j arg else fails s 1
  | 4 => if resident then runCopyin s j arg else fails s 1
  | 5 => if resident then runCopyout s j arg else fails s 1
  | 6 => if resident then runSetw s j arg else fails s 1
  | 7 => if resident then doCount s j arg else fails s 1
  | 8 => runDestroy s j
  | _ => fails s 6
/-- A write of `w` to `jcmd` starts a command, in normal mode and while none runs (R375). -/
def State.jcmdWrite (s : State) (w : W32) (is : Nat → Bool) : State :=
  if !is (w.toNat % 256) then s
  else if s.mgmt.mode ≠ .normal || s.mgmt.busy then { s with moved := true }
  else { s.updMgmt (fun m => { m with busy := true, jcmd := some (w, m.jarg) }) with moved := true }
def execCreate (w : W32) (s : State) : Host.Outcome State Fault Refusal := .next (s.jcmdWrite w (· == 1))
def execMap (w : W32) (s : State) : Host.Outcome State Fault Refusal := .next (s.jcmdWrite w (· == 2))
def execUnmap (w : W32) (s : State) : Host.Outcome State Fault Refusal := .next (s.jcmdWrite w (· == 3))
def execCopyin (w : W32) (s : State) : Host.Outcome State Fault Refusal := .next (s.jcmdWrite w (· == 4))
def execCopyout (w : W32) (s : State) : Host.Outcome State Fault Refusal := .next (s.jcmdWrite w (· == 5))
def execSetw (w : W32) (s : State) : Host.Outcome State Fault Refusal := .next (s.jcmdWrite w (· == 6))
def execCount (w : W32) (s : State) : Host.Outcome State Fault Refusal := .next (s.jcmdWrite w (· == 7))
/-- DESTROY cancels the job's launches when it starts. -/
def execDestroy (w : W32) (s : State) : Host.Outcome State Fault Refusal :=
  let t := s.jcmdWrite w (· == 8)
  .next (if !s.mgmt.busy && t.mgmt.busy then t.cancelObj (w.toNat / 256 % 64) 0xC0000000 else t)
def execUnknownJobCommand (w : W32) (s : State) : Host.Outcome State Fault Refusal :=
  .next (s.jcmdWrite w (fun c => c == 0 || decide (8 < c)))
/-- The running command finishes, if it can; one that a reload has interrupted waits for normal mode (R375, log entry 63). -/
def execJobCommandFinish (s : State) : Host.Outcome State Fault Refusal :=
  .next (match (if s.mgmt.mode = .normal then s.mgmt.jcmd else none) with
    | none => s
    | some (w, arg) =>
      match s.runJob w arg with
      | .wait => s
      | .done t st res =>
        { t.updMgmt (fun m => { m with
            busy := false, jcmd := none, jstat := BitVec.ofNat 8 st
            jarg := res.foldl (fun l r => setAt l r.1 r.2) m.jarg }) with moved := true })

end Sys2Proof.Machine
end

