-- ==== Sys2Proof/Machine/SetCmds.lean ====
section
/-! DEFINITION. The set and order commands (R272 to R290): issue, acceptance, completion, and SWAIT. -/

namespace Sys2Proof.Machine

/-! ## Issue (R273, R274) -/

/-- Registers read by a command as 64-bit argument values: a pair of registers makes one. -/
def pairUp : List W32 → List W64
  | a :: b :: l => pair a b :: pairUp l
  | [a] => [a.setWidth 64]
  | [] => []
/-- Whether the arrays [a, a + n) of elements at 4-byte steps lie apart. -/
def apart (a na b nb : Nat) : Bool := decide (na = 0) || decide (nb = 0) || decide (a + 4 * na ≤ b) || decide (b + 4 * nb ≤ a)
def allApart : List (Nat × Nat) → Bool
  | [] => true
  | x :: l => l.all (fun y => apart x.1 x.2 y.1 y.2) && allApart l
/-- Whether the outputs, the arrays after the first two, lie apart from each other and from the inputs (R290). -/
def outApart (l : List (Nat × Nat)) : Bool :=
  allApart (l.drop 2) && (l.drop 2).all (fun x => (l.take 2).all (fun y => apart x.1 x.2 y.1 y.2))
/-- The checks of an order command (R285): counts within limits, then aligned offsets, then arrays within the scratchpad,
then no overlap. `arrs` are the arrays with their lengths; `sep` says whether those that must lie apart do. -/
def ordCheck (s : State) (ik : Nat) (lim : Bool) (arrs : List (Nat × Nat)) (sep : Bool) : Ev Unit := do
  orTrap lim (mkTrap cORD 1)
  match arrs.find? (fun x => x.1 % 4 != 0) with
  | some x => .error (.trap (addrTrap cMISALIGN 0 (BitVec.ofNat 64 x.1)))
  | none =>
    match arrs.find? (fun x => decide (s.teamScr ik < x.1 + 4 * x.2)) with
    | some x => .error (.trap (memFault 5 (BitVec.ofNat 64 x.1)))
    | none => orTrap sep (mkTrap cORD 2)
/-- Low and high halves of an argument. -/
def argLo (l : List W64) (i : Nat) : Nat := (lo32 (l.getD i 0)).toNat
def argHi (l : List W64) (i : Nat) : Nat := (hi32 (l.getD i 0)).toNat
/-- The checks of a set command's memory side of `n` bytes. -/
def sideCheck (s : State) (ik : Nat) (scr : Bool) (a : W64) (n : Nat) : Ev Unit := do
  orTrap (a.toNat % 4 == 0) (addrTrap cMISALIGN 0 a)
  if scr then orTrap (decide (a.toNat + n ≤ s.teamScr ik)) (memFault 5 a)
  else orTrap (decide (a.toNat + n ≤ 2 ^ 64)) (memFault 1 a)
/-- The arrays of TOPK, SELB and MRGK: offsets of keys and payloads, in and out, with `n` and `k` elements. -/
def arrays (args : List W64) (n k : Nat) : List (Nat × Nat) :=
  [(argLo args 0, n), (argHi args 0, n), (argLo args 1, k), (argHi args 1, k)]
/-- The issue-time checks of a command on its arguments. -/
def cmdCheck (s : State) (ik : Nat) (i : Instr) (args : List W64) : Ev Unit :=
  match i with
  | .sbld _ ssp _ => sideCheck s ik ssp (args.getD 1 0) (4 * argLo args 2)
  | .senum _ dsp _ => sideCheck s ik dsp (args.getD 1 0) (4 * argHi args 2)
  | .sortk _ _ =>
    let n := argLo args 2
    let l := [(argLo args 0, n), (argLo args 1, n)]
    ordCheck s ik (decide (n ≤ 4096)) l (allApart l)
  | .topk _ _ =>
    let l := arrays args (argLo args 2) (argHi args 2)
    ordCheck s ik (decide (argLo args 2 ≤ 32768) && decide (argHi args 2 ≤ 4096)) l (allApart l)
  | .selb _ _ =>
    let l := arrays args (argLo args 2) (argLo args 2)
    ordCheck s ik (decide (argLo args 2 ≤ 32768) && decide (argHi args 2 ≤ 4096)) l (allApart l)
  | .srch _ _ => ordCheck s ik (decide (argLo args 1 ≤ 65536)) [(argLo args 0, argLo args 1)] true
  | .mrgk _ _ =>
    let n := argLo args 2 + argHi args 2
    let l := arrays args n n
    ordCheck s ik (decide (n ≤ 32768)) l (outApart l)
  | _ => .ok ()

/-- A command sent to the engine, with its result registers EMPTY; also what PRPLY reissues. -/
def State.sendCmd (s : State) (ik : Nat) (pc : W64) (i : Instr) (args : List W64) (d : DestR) (word : W64) : State :=
  ((s.setEmpty ik d.reg d.n).addOp ⟨s.coreOf ik, launchOf ik, indexOf ik, indexOf ik + 1, pc,
    .set ⟨i, s.tick, args, d, none, none, word⟩⟩).2
/-- What item `ik` does before its command is counted: the operands read and the checks made (R273). -/
def cmdArgs (i : Instr) (f : EF) (n : Nat) (ops : List (Fld × Nat)) (s0 t : State) (ik : Nat) : Ev (List W64) := do
  let (it, g) ← getItem s0 ik
  acqGate t ik
  freeE it g f.r n
  let vs ← ops.mapM (fun x => readEs s0 ik it g x.1 x.2)
  acquireGate t ik
  let args := (vs.map pairUp).flatten
  cmdCheck t ik i args
  .ok args
/-- Whether a lower item of the bundle waits for its group's count to fall: the later items split off with it (R273). -/
def countHolds (i : Instr) (f : EF) (n : Nat) (ops : List (Fld × Nat)) (s0 t : State) (ik : Nat) : Bool :=
  (s0.active f.g).any (fun k => decide (k < ik) && !t.cur.items.contains k && decide (63 ≤ t.inflightRes (groupOf k)) &&
    match cmdArgs i f n ops s0 t k with | .ok _ => true | .error _ => false)
/-- The issue of a command: its result field `r` of `n` registers, and its operand fields with their widths. -/
def execCmd (i : Instr) (f : EF) (n : Nat) (ops : List (Fld × Nat)) (s : State) : Host.Outcome State Fault Refusal :=
  .next (issue f.g 8 (fun s0 t ik => do
    orWait (!countHolds i f n ops s0 t ik)
    let args ← cmdArgs i f n ops s0 t ik
    let t ← raiseInflight t ik
    .ok ((t.flushItem ik).sendCmd ik s0.cur.pc i args ⟨.v f.r.toNat, n⟩ ((encode i).headD 0))) s)

def execSnew (f : EF) (s : State) : Host.Outcome State Fault Refusal := execCmd (.snew f) f 4 [] s
def execSfree (f : EF) (s : State) : Host.Outcome State Fault Refusal := execCmd (.sfree f) f 2 [(f.o1, 2)] s
def execSbld (f : EF) (ssp : Bool) (ev : BitVec 3) (s : State) : Host.Outcome State Fault Refusal :=
  execCmd (.sbld f ssp ev) f 2 [(f.o1, 2), (f.o2, if ssp then 1 else 2), (f.o3, 1)] s
def execSenum (f : EF) (dsp : Bool) (ev : BitVec 3) (s : State) : Host.Outcome State Fault Refusal :=
  execCmd (.senum f dsp ev) f 4 [(f.o1, 2), (f.o2, if dsp then 1 else 2), (f.o3, 2)] s
def execSins (f : EF) (s : State) : Host.Outcome State Fault Refusal := execCmd (.sins f) f 4 [(f.o1, 2), (f.o2, 1)] s
def execSdel (f : EF) (s : State) : Host.Outcome State Fault Refusal := execCmd (.sdel f) f 4 [(f.o1, 2), (f.o2, 1)] s
def execShas (f : EF) (s : State) : Host.Outcome State Fault Refusal := execCmd (.shas f) f 4 [(f.o1, 2), (f.o2, 1)] s
def execScard (f : EF) (s : State) : Host.Outcome State Fault Refusal := execCmd (.scard f) f 4 [(f.o1, 2)] s
def execSrep (f : EF) (s : State) : Host.Outcome State Fault Refusal := execCmd (.srep f) f 4 [(f.o1, 2)] s
/-- SCOST: the width of operand 2 follows the operation (R282). -/
def execScost (f : EF) (op : CostOp) (s : State) : Host.Outcome State Fault Refusal :=
  execCmd (.scost f op) f 4 ((f.o1, 2) :: match op with
    | .sins | .sdel | .shas => [(f.o2, 1)]
    | .scard | .senum => []
    | _ => [(f.o2, 2)]) s
def execSuni (f : EF) (s : State) : Host.Outcome State Fault Refusal :=
  execCmd (.suni f) f 2 [(f.o1, 2), (f.o2, 2), (f.o3, 2)] s
def execSint (f : EF) (s : State) : Host.Outcome State Fault Refusal :=
  execCmd (.sint f) f 2 [(f.o1, 2), (f.o2, 2), (f.o3, 2)] s
def execSdif (f : EF) (s : State) : Host.Outcome State Fault Refusal :=
  execCmd (.sdif f) f 2 [(f.o1, 2), (f.o2, 2), (f.o3, 2)] s
def execSintc (f : EF) (s : State) : Host.Outcome State Fault Refusal := execCmd (.sintc f) f 4 [(f.o1, 2), (f.o2, 2)] s
def execSortk (f : EF) (c : OrdC) (s : State) : Host.Outcome State Fault Refusal :=
  execCmd (.sortk f c) f 1 [(f.o1, 1), (f.o2, 1), (f.o3, 1)] s
def execTopk (f : EF) (c : OrdC) (s : State) : Host.Outcome State Fault Refusal :=
  execCmd (.topk f c) f 2 ([(f.o1, 4), (f.o2, 2)] ++ if c.thr then [(f.o3, 4)] else []) s
def execSelb (f : EF) (c : OrdC) (s : State) : Host.Outcome State Fault Refusal :=
  execCmd (.selb f c) f 2 [(f.o1, 4), (f.o2, 2)] s
def execSrch (f : EF) (c : OrdC) (s : State) : Host.Outcome State Fault Refusal :=
  execCmd (.srch f c) f 1 [(f.o1, 1), (f.o2, 1), (f.o3, 1)] s
def execMrgk (f : EF) (c : OrdC) (s : State) : Host.Outcome State Fault Refusal :=
  execCmd (.mrgk f c) f 1 [(f.o1, 4), (f.o2, 2)] s

/-- Whether group `gk` has a set or order command outstanding that was numbered below `n`. -/
def State.cmdBefore (s : State) (gk n : Nat) : Bool :=
  s.ops.any (fun e => decide (e.1 < n) && groupOf (itemKey e.2.launch e.2.lo) == gk &&
    match e.2.kind with | .set _ => true | _ => false)
/-- SWAIT (R284). -/
def execSwait (g : Guard) (s : State) : Host.Outcome State Fault Refusal :=
  .next (issueRaw g 8 (fun s0 t ik => do
    let (it, _) ← getItem s0 ik
    acqGate t ik
    match it.wait? with
    | some (.before n) => if t.cmdBefore (groupOf ik) n then .error .wait else .ok (((t.flushItem ik).clearWait ik).advance ik 8)
    | _ =>
      if t.cmdBefore (groupOf ik) t.fresh then .ok (t.setWait ik (.before t.fresh)) else .ok ((t.flushItem ik).advance ik 8)) s)

/-! ## Acceptance (R266, R273) -/

/-- What an acceptance comes to: a new state with the answer, a fault, or a stall of the memory side. -/
inductive Acc where
  | ok (s : State) (a : CmdAns)
  | trap (t : Trap)
  | stall
/-- An answer without failure. -/
def ansOf (r : W64) (v : Nat) : CmdAns := ⟨r, BitVec.ofNat 64 v, none⟩
/-- The answer of a command whose memory side failed (R274). -/
def ansFail (a : W64) (r : Nat) : CmdAns := ⟨0, 0, some (if r = 6 then 2 else r, a)⟩
/-- Handles of a command: field, handle, and whether its contents are read. -/
def handlesOf (i : Instr) (a : List W64) : List (Nat × W64 × Bool) :=
  let h := fun k => a.getD k 0
  match i with
  | .sfree _ | .sbld _ _ _ | .srep _ => [(1, h 0, false)]
  | .senum _ _ _ | .sins _ | .sdel _ | .shas _ | .scard _ => [(1, h 0, true)]
  | .scost _ op => match op with
    | .suni | .sint | .sdif | .sintc => [(1, h 0, false), (2, h 1, false)]
    | _ => [(1, h 0, false)]
  | .suni _ | .sint _ | .sdif _ => [(1, h 0, false), (2, h 1, true), (3, h 2, true)]
  | .sintc _ => [(1, h 0, true), (2, h 1, true)]
  | _ => []
/-- The first invalid handle's trap (R258). -/
def State.handleTrap (s : State) (j : Nat) (pc : W64) (l : List (Nat × W64 × Bool)) : Option Trap :=
  l.findSome? (fun x => (s.handleBad j x.2.1 x.2.2).map (fun r => ⟨cSETH, BitVec.ofNat 32 (r + 256 * x.1), x.2.1, pc⟩))
/-- The trap of a full heap (R267). -/
def heapTrap (h pc : W64) (lack : Nat) : Trap := ⟨cHEAP, BitVec.ofNat 32 (Nat.min lack 65535), h, pc⟩

/-- SNEW (R276). -/
def accNew (s : State) (o : Op) : Acc :=
  let j := jobOfLaunch o.launch
  match AMap.find s.jobs j with
  | none => .stall
  | some b =>
    match b.freeDesc with
    | none => .ok s (ansOf 0 0)
    | some idx =>
      let tag := ((AMap.find b.sets idx).map (·.tag)).getD 1
      let d : SetD := { tag := tag, free := false, freed := 0, sbits := 0, conv := none, damaged := false,
                        shards := [⟨[], .runs, 0, [], none, clusterOf o.core, [], false⟩] }
      let s := s.updJob j (fun b => { b with nextSet := Nat.max b.nextSet (idx + 1) })
      .ok (s.putSet j idx d) (ansOf (oneRec d d 0) (2 ^ 24 * tag.toNat + idx))
/-- SFREE (R277). -/
def accFree (s : State) (o : Op) (h : W64) (d : SetD) : Acc :=
  let j := jobOfLaunch o.launch
  let tag : BitVec 16 := if d.tag = 65535 then 1 else d.tag + 1
  let s1 := s.putSet j (idxOf h) { SetD.unused with tag := tag, freed := s.fresh }
  let s1 : State := { s1 with fresh := s1.fresh + 1 }
  let s1 := d.convs.foldl (fun (t : State) c => t.giveHeap c.chunks) s1
  let s1 := d.shards.foldl (fun t x => t.freeBehind x.readers x.chunks) s1
  .ok s1 (ansOf (CostRec.mk 0 d.sharded false false 0 0 d.repr.code 0).word 0)
/-- The keys of a byte list. -/
def keysOf : List (BitVec 8) → List Nat
  | a :: b :: c :: d :: l => leNat [a, b, c, d] :: keysOf l
  | _ => []
/-- SBLD (R278). -/
def accBld (s : State) (o : Op) (h : W64) (d : SetD) (ssp : Bool) (ev : BitVec 3) (a : W64) (n : Nat) :
    Acc :=
  let j := jobOfLaunch o.launch
  let side := if ssp then Side.scr a.toNat else .glob a
  match s.sideRead o.core j (itemKey o.launch o.lo) ev side (4 * n) with
  | .stall => .stall
  | .fail _ r => .ok s (ansFail a r)
  | .ok bs s1 =>
    match s1.replace d (keySet (keysOf bs)) with
    | .error lack => .trap (heapTrap h o.pc lack)
    | .ok (d2, s2) => .ok (s2.putSet j (idxOf h) d2) (ansOf (oneRec d d2 ((4 * n + 63) / 64)) 0)
/-- SENUM (R279). -/
def accEnum (s : State) (o : Op) (num : Nat) (h : W64) (d : SetD) (dsp : Bool) (ev : BitVec 3) (a : W64) (k0 cap : Nat) :
    Acc :=
  let j := jobOfLaunch o.launch
  let ks := d.keys.filter (fun k => decide (k0 ≤ k))
  let out := ks.take cap
  let side := if dsp then Side.scr a.toNat else .glob a
  let bs := (out.map (fun k => leBytes k 4)).flatten
  let last := d.shardOf (out.getLastD k0)
  let touched := (List.range (last + 1 - d.shardOf k0)).map (d.shardOf k0 + ·)
  let d2 := (d.noteRead num touched).evaluate touched false
  match s.sideWrite o.core j (itemKey o.launch o.lo) ev side bs with
  | .stall => .stall
  | .fail _ r => .ok (s.putSet j (idxOf h) d2) (ansFail a r)
  | .ok _ s1 =>
    .ok (s1.putSet j (idxOf h) d2)
      (ansOf (oneRec d d2 ((d.cost + 63) / 64)) (out.length + if out.length < ks.length then 2 ^ 32 else 0))
/-- SINS and SDEL (R280). -/
def accMut (s : State) (o : Op) (num : Nat) (h : W64) (d : SetD) (k : Nat) (ins : Bool) : Acc :=
  let j := jobOfLaunch o.launch
  let i := d.shardOf k
  match d.shards[i]? with
  | none => .stall
  | some x =>
    let has := x.keys.contains k
    let ks := if ins then insertKey k x.keys else x.keys.filter (· != k)
    let y : Shard := { x with readers := num :: x.readers }
    match s.mutate d i y ks with
    | .error lack => .trap (heapTrap h o.pc lack)
    | .ok (d2, s1) => .ok (s1.putSet j (idxOf h) d2) (ansOf (oneRec d d2 1) (b2n (has != ins)))
/-- A reading query on the shards in `touched`, with its charge and value. -/
def accRead (s : State) (o : Op) (num : Nat) (h : W64) (d : SetD) (touched : List Nat) (read v : Nat) : Acc :=
  let d2 := (d.noteRead num touched).evaluate touched false
  .ok (s.putSet (jobOfLaunch o.launch) (idxOf h) d2) (ansOf (oneRec d d2 read) v)
/-- SREP's image (R281). -/
def repImage (d : SetD) : Nat :=
  256 * d.sbits + 64 * b2n d.damaged + 32 * b2n d.deferring + 16 * b2n d.converting + 8 * b2n d.sharded + d.repr.code
/-- SCOST's prediction (R282). -/
def predict (op : CostOp) (d : SetD) (b : SetD) : W64 :=
  let one := fun (n : Nat) => (CostRec.mk n d.sharded false false 0 0 d.repr.code 0).word
  let two := fun (o : SetBin) =>
    let c := binCost o d b 0
    (CostRec.mk c.2 (d.sharded || b.sharded) false false 0 b.repr.code d.repr.code c.1).word
  match op with
  | .sins | .sdel | .shas => one 1
  | .scard => one 0
  | .senum => one ((d.cost + 63) / 64)
  | .suni => two .uni
  | .sint | .sintc => two .int
  | .sdif => two .dif
/-- The operands `a` and `b` of a binary operation read, and evaluated unless they are the set `except`. -/
def State.readPair (s : State) (j num ia ib : Nat) (except : Option Nat) : State :=
  let go := fun (s : State) (i : Nat) =>
    match s.setAt? j i with
    | some d => if except = some i then s else s.putSet j i (d.evaluate d.allShards false)
    | none => s
  let note := fun (s : State) (i : Nat) =>
    match s.setAt? j i with
    | some d => s.putSet j i (d.noteRead num d.allShards)
    | none => s
  let s := note s ia
  let s := if ib = ia then s else note s ib
  let s := go s ia
  if ib = ia then s else go s ib
/-- SUNI, SINT and SDIF (R283). -/
def accBin (s : State) (o : Op) (num : Nat) (op : SetBin) (hd ha hb : W64) (a b : SetD) : Acc :=
  let j := jobOfLaunch o.launch
  let ks := op.keys a.keys b.keys
  let c := binCost op a b (buildParts ks).1
  let s1 := s.readPair j num (idxOf ha) (idxOf hb) (some (idxOf hd))
  match s1.setAt? j (idxOf hd) with
  | none => .stall
  | some d =>
    match s1.replace d ks with
    | .error lack => .trap (heapTrap hd o.pc lack)
    | .ok (d2, s2) =>
      .ok (s2.putSet j (idxOf hd) d2) (ansOf (CostRec.mk c.2 (a.sharded || b.sharded || d2.sharded) d2.deferring d2.converting
        d2.repr.code b.repr.code a.repr.code c.1).word 0)
/-- SINTC. -/
def accIntc (s : State) (o : Op) (num : Nat) (ha hb : W64) (a b : SetD) : Acc :=
  let c := binCost .int a b 0
  .ok (s.readPair (jobOfLaunch o.launch) num (idxOf ha) (idxOf hb) none)
    (ansOf (CostRec.mk c.2 (a.sharded || b.sharded) false false 0 b.repr.code a.repr.code c.1).word
      (SetBin.int.keys a.keys b.keys).length)

/-- The effect of a command at acceptance, once its handles are valid. -/
def accept (s : State) (n : Nat) (o : Op) (c : SetOp) : Acc :=
  let j := jobOfLaunch o.launch
  let h := fun k => c.args.getD k 0
  let d := fun k => (s.setAt? j (idxOf (h k))).getD SetD.unused
  match c.ins with
  | .snew _ => accNew s o
  | .sfree _ => accFree s o (h 0) (d 0)
  | .sbld _ ssp ev => accBld s o (h 0) (d 0) ssp ev (h 1) (argLo c.args 2)
  | .senum _ dsp ev => accEnum s o n (h 0) (d 0) dsp ev (h 1) (argLo c.args 2) (argHi c.args 2)
  | .sins _ => accMut s o n (h 0) (d 0) (argLo c.args 1) true
  | .sdel _ => accMut s o n (h 0) (d 0) (argLo c.args 1) false
  | .shas _ =>
    let k := argLo c.args 1
    accRead s o n (h 0) (d 0) [(d 0).shardOf k] 1 (b2n ((d 0).keys.contains k))
  | .scard _ => accRead s o n (h 0) (d 0) (d 0).allShards 0 (d 0).keys.length
  | .srep _ => .ok s (ansOf (oneRec (d 0) (d 0) 0) (repImage (d 0) + 2 ^ 32 * (d 0).cost))
  | .scost _ op => .ok s ⟨oneRec (d 0) (d 0) 0, predict op (d 0) (d 1), none⟩
  | .suni _ => accBin s o n .uni (h 0) (h 1) (h 2) (d 1) (d 2)
  | .sint _ => accBin s o n .int (h 0) (h 1) (h 2) (d 1) (d 2)
  | .sdif _ => accBin s o n .dif (h 0) (h 1) (h 2) (d 1) (d 2)
  | .sintc _ => accIntc s o n (h 0) (h 1) (d 0) (d 1)
  | _ => .ok s (ansOf 0 0)

/-- Operation `n` of kind `.set`, where it is one. -/
def State.setOp? (s : State) (n : Nat) : Option (Op × SetOp) :=
  match AMap.find s.ops n with
  | some o => match o.kind with | .set c => some (o, c) | _ => none
  | none => none
/-- Whether an earlier command has not been accepted that goes first: one of the same item (R254), or one that a lower item
of the same bundle issued with it (R273). -/
def State.behind (s : State) (n : Nat) (o : Op) (c : SetOp) : Bool :=
  s.ops.any (fun e => decide (e.1 < n) && match e.2.kind with
    | .set b => b.ans.isNone && b.trap.isNone &&
      ((e.2.launch == o.launch && e.2.lo == o.lo) || (b.batch == c.batch && e.2.core == o.core))
    | _ => false)
/-- A command that leaves its registers holding these values and is over. -/
def State.endCmd (s : State) (n : Nat) (o : Op) (c : SetOp) (vs : List W32) : State :=
  let s := s.land o c.dst (vs.take c.dst.n)
  let s : State := { s.landed o with ops := AMap.del s.ops n, moved := true }
  s.readDone n
/-- The serving engine accepts a command, or discards one of a cancelled launch. -/
def execSetCommandAcceptance (op : Nat) (s : State) : Host.Outcome State Fault Refusal :=
  .next (match s.setOp? op with
    | none => s
    | some (o, c) =>
      if c.ans.isSome || c.trap.isSome then s
      else if s.opCancelled o then s.endCmd op o c [0, 0, 0, 0]
      else if s.behind op o c || s.phaseHeld (jobOfLaunch o.launch) op then s
      else
        let put := fun (t : State) (c : SetOp) =>
          ({ t with ops := AMap.put t.ops op { o with kind := .set c }, moved := true } : State)
        match s.handleTrap (jobOfLaunch o.launch) o.pc (handlesOf c.ins c.args) with
        | some t => put s { c with trap := some t }
        | none =>
          match accept s op o c with
          | .stall => s
          | .trap t => put s { c with trap := some t }
          | .ok t a => s.retried (put t { c with ans := some a }))

/-! ## The order commands (R67, R285 to R290) -/

/-- `Ord32` (R67). -/
def ord32 (c : OrdC) (k : Nat) : Nat :=
  match c.ty with
  | .z32 => k
  | .s32 => Nat.xor k 0x80000000
  | .f32 =>
    let mag := k % 0x80000000
    if 0x7F800000 < mag then (if c.nanlow then 0 else 0xFFFFFFFF)
    else if k = 0x80000000 then 0x80000000
    else if k < 0x80000000 then k + 0x80000000 else 0xFFFFFFFF - k
/-- An element: key, payload and input position. -/
structure Elem where
  key : Nat
  pay : Nat
  pos : Nat
  deriving DecidableEq, Repr
/-- `Before` (R285). -/
def Elem.before (c : OrdC) (rev : Bool) (x y : Elem) : Bool :=
  let a := ord32 c x.key
  let b := ord32 c y.key
  if a ≠ b then (if rev then decide (b < a) else decide (a < b))
  else if x.pay ≠ y.pay then decide (x.pay < y.pay)
  else decide (x.pos < y.pos)
/-- A sort by merging lists that are in order. -/
def mergeBy (c : OrdC) (rev : Bool) : Nat → List Elem → List Elem → List Elem
  | 0, a, b => a ++ b
  | _ + 1, [], b => b
  | _ + 1, a, [] => a
  | n + 1, x :: a, y :: b =>
    if y.before c rev x then y :: mergeBy c rev n (x :: a) b else x :: mergeBy c rev n a (y :: b)
/-- Pairs of neighbouring lists merged. -/
def mergePass (c : OrdC) (rev : Bool) : List (List Elem) → List (List Elem)
  | a :: b :: l => mergeBy c rev (a.length + b.length) a b :: mergePass c rev l
  | l => l
def mergeAll (c : OrdC) (rev : Bool) : Nat → List (List Elem) → List Elem
  | 0, l => l.flatten
  | n + 1, l => mergeAll c rev n (mergePass c rev l)
/-- The elements in the order `Before`. -/
def sortElems (c : OrdC) (rev : Bool) (l : List Elem) : List Elem := mergeAll c rev 17 (l.map (fun x => [x]))
/-- Elements `i` on of an array pair, from their bytes. -/
def elems : Nat → List Nat → List Nat → List Elem
  | i, k :: ks, p :: ps => ⟨k, p, i⟩ :: elems (i + 1) ks ps
  | _, _, _ => []
/-- TOPK's result: the elements written, vD and vE. -/
def topkRes (c : OrdC) (l : List Elem) (k : Nat) (thr : Option Elem) : List Elem × Nat × Nat :=
  let rank := Elem.before c (!c.rev)
  let cand := match thr with | some t => l.filter (fun x => rank t x) | none => l
  let out := (sortElems c (!c.rev) cand).take k
  (out, out.length, match out.getLast? with | some x => x.pos | none => 0xFFFFFFFF)
/-- SELB's result. -/
def bucketOf (c : OrdC) (x : Elem) : Nat :=
  let b := ord32 c x.key / 16777216
  if c.rev then 255 - b else b
def selbRes (c : OrdC) (l : List Elem) (k : Nat) : List Elem × Nat × Nat :=
  if k = 0 then ([], 0, 0xFFFFFFFF)
  else
    let count := fun (b : Nat) => (l.filter (fun x => decide (b ≤ bucketOf c x))).length
    let b := ((List.range 256).reverse.find? (fun b => decide (k ≤ count b))).getD 0
    let out := l.filter (fun x => decide (b ≤ bucketOf c x))
    (out, out.length, if c.rev then 255 - b else b)
/-- SRCH's binary search. -/
def srchRes (c : OrdC) (a : List Nat) (x : Nat) : Nat → Nat → Nat → Nat
  | 0, lo, _ => lo
  | n + 1, lo, hi =>
    if lo < hi then
      let mid := (lo + hi) / 2
      let y := ord32 c (a.getD mid 0)
      let go := if c.rev then decide (y ≤ ord32 c x) else decide (y < ord32 c x)
      if go then srchRes c a x n (mid + 1) hi else srchRes c a x n lo mid
    else lo
/-- MRGK's merge: B's head goes first only where it comes before A's. -/
def mrgkRes (c : OrdC) (na : Nat) (l : List Elem) : List Elem := mergeBy c c.rev l.length (l.take na) (l.drop na)

/-- The words of an array of the team's scratchpad, or that a byte read is damaged. -/
def State.scrWords (s : State) (ik o n : Nat) : List Nat × Bool :=
  let r := s.scrRead ik o (4 * n)
  (keysOf r.1, r.2)
/-- Elements written to output arrays. -/
def State.putElems (s : State) (ik kofs pofs : Nat) (l : List Elem) : State :=
  let bytes := fun (f : Elem → Nat) => (l.map (fun x => leBytes (f x) 4)).flatten
  (s.scrWrite ik kofs (bytes (·.key))).scrWrite ik pofs (bytes (·.pay))
/-- The offset of the input array of an order command that holds a damaged byte. -/
def State.badInput (s : State) (ik : Nat) (c : SetOp) : Nat :=
  let a := c.args
  let l := match c.ins with
    | .sortk _ _ => [(argLo a 0, argLo a 2), (argLo a 1, argLo a 2)]
    | .topk _ _ | .selb _ _ => [(argLo a 0, argLo a 2), (argHi a 0, argLo a 2)]
    | .srch _ _ => [(argLo a 0, argLo a 1)]
    | .mrgk _ _ => [(argLo a 0, argLo a 2 + argHi a 2), (argHi a 0, argLo a 2 + argHi a 2)]
    | _ => []
  ((l.find? (fun x => (s.scrWords ik x.1 x.2).2)).map (·.1)).getD 0
/-- The effect of an order command: its outputs and result words, or none where an input byte is damaged. -/
def State.orderEffect (s : State) (ik : Nat) (c : SetOp) : Option (State × List Nat) :=
  let a := c.args
  let ins := fun (ko po n : Nat) =>
    let k := s.scrWords ik ko n
    let p := s.scrWords ik po n
    if k.2 || p.2 then none else some (elems 0 k.1 p.1)
  match c.ins with
  | .sortk _ oc =>
    let n := argLo a 2
    (ins (argLo a 0) (argLo a 1) n).map (fun l => (s.putElems ik (argLo a 0) (argLo a 1) (sortElems oc oc.rev l), [n]))
  | .topk _ oc =>
    let thr := if oc.thr then some (Elem.mk (argLo a 3) (argHi a 3) (argLo a 4)) else none
    (ins (argLo a 0) (argHi a 0) (argLo a 2)).map (fun l =>
      let r := topkRes oc l (argHi a 2) thr
      (s.putElems ik (argLo a 1) (argHi a 1) r.1, [r.2.1, r.2.2]))
  | .selb _ oc =>
    (ins (argLo a 0) (argHi a 0) (argLo a 2)).map (fun l =>
      let r := selbRes oc l (argHi a 2)
      (s.putElems ik (argLo a 1) (argHi a 1) r.1, [r.2.1, r.2.2]))
  | .srch _ oc =>
    let n := argLo a 1
    let k := s.scrWords ik (argLo a 0) n
    if k.2 then none else some (s, [srchRes oc k.1 (argLo a 2) (n + 1) 0 n])
  | .mrgk _ oc =>
    let n := argLo a 2 + argHi a 2
    (ins (argLo a 0) (argHi a 0) n).map (fun l =>
      (s.putElems ik (argLo a 1) (argHi a 1) (mrgkRes oc (argLo a 2) l), [n]))
  | _ => some (s, [])
/-- Whether a command is one of major 0x33. -/
def isOrder : Instr → Bool
  | .sortk _ _ | .topk _ _ | .selb _ _ | .srch _ _ | .mrgk _ _ => true
  | _ => false

/-! ## Completion -/

/-- A failing command's result goes POISON with a record whose address is that of the side that failed (log entry 56); the
command is over once it has. -/
def State.failCmd (s : State) (n : Nat) (o : Op) (c : SetOp) (a : W64) (reason : Nat) : State :=
  let t := s.landFail n o ⟨c.dst, c.word, a, o.pc, reason, c.args, false⟩
  if (AMap.find t.ops n).isNone then (t.landed o).readDone n else t
/-- An accepted command completes. -/
def execSetCommandCompletion (op : Nat) (s : State) : Host.Outcome State Fault Refusal :=
  .next (match s.setOp? op with
    | none => s
    | some (o, c) =>
      let ik := itemKey o.launch o.lo
      match c.trap, c.ans with
      | some t, _ => s.retried ((s.endCmd op o c [0, 0, 0, 0]).addPending ik t)
      | none, none => s
      | none, some a =>
        match a.fail with
        | some (r, p) => s.retried (s.failCmd op o c p r)
        | none =>
          if isOrder c.ins then
            match s.orderEffect ik c with
            | some (t, vs) => t.endCmd op o c (vs.map (BitVec.ofNat 32))
            | none => s.failCmd op o c (BitVec.ofNat 64 (s.badInput ik c)) 4
          else s.retried (s.endCmd op o c [lo32 a.record, hi32 a.record, lo32 a.value, hi32 a.value]))

end Sys2Proof.Machine
end

