-- ==== Sys2Proof/Machine/System.lean ====
section
/-! DEFINITION. Major 0x00: system calls, returns, system registers, the debug mailbox and IFENCE (R38, R106, R109 to R112,
R115, R223, R226, R227, R237). -/

namespace Sys2Proof.Machine

/-- NOP. -/
def execNop (g : Guard) (s : State) : Host.Outcome State Fault Refusal :=
  .next (issue g 8 (fun s0 t ik => do
    let _ ← getItem s0 ik
    .ok t) s)

/-- SVC, BKPT and TRAP: each active item traps (R109). -/
def execTrapWord (g : Guard) (cause : Nat) (imm : W32) (s : State) : State :=
  issueRaw g 8 (fun _ _ _ => .error (.trap ⟨cause, imm, 0, 0⟩)) s
def execSvc (g : Guard) (imm : W32) (s : State) : Host.Outcome State Fault Refusal := .next (execTrapWord g cSVC imm s)
def execBkpt (g : Guard) (imm : W32) (s : State) : Host.Outcome State Fault Refusal := .next (execTrapWord g cBKPT imm s)
def execTrap (g : Guard) (imm : W32) (s : State) : Host.Outcome State Fault Refusal := .next (execTrapWord g cTRAP imm s)

/-- ERET (R110, R223); from the handler of a cancelled item it ends the item (R225). -/
def execEret (g : Guard) (s : State) : Host.Outcome State Fault Refusal :=
  .next (issueRaw g 8 (fun s0 t ik => do
    let (it, _) ← getItem s0 ik
    if it.ending then
      orWait (t.mayEnd ik)
      .ok (t.endItem ik)
    else if it.cancelled && it.h.flag && !it.m.mon then .ok (t.beginEnd ik)
    else
      match eretItem it with
      | some it2 => .ok (t.updItem ik (fun _ => it2))
      | none => .error (.trap (mkTrap cILL 0))) s)

/-- IFENCE: the item's later fetches read memory as it stands, its own earlier stores performed (R115). -/
def execIfence (g : Guard) (s : State) : Host.Outcome State Fault Refusal :=
  .next (issue g 8 (fun s0 t ik => do
    let _ ← getItem s0 ik
    .ok ((t.flushItem ik).updCore (t.coreOf ik) (fun k => { k with icache := [] }))) s)

/-! ## System registers -/

/-- A poison record a core's `psel` names. -/
def Core.selected (k : Core) : Option PRec := AMap.find k.poison k.psel.toNat
/-- Whether the destination of a record still holds its claim: every register of it. -/
def State.claims (s : State) (r : PRec) : Bool :=
  match s.item? r.item with
  | some it => (regsAt it (s.groupD (groupOf r.item)) r.dst.reg r.dst.n).all (fun x => x.claim == some r.serial)
  | none => false
/-- `pstat` (R230). -/
def State.pstat (s : State) (c : Nat) : Nat :=
  match (s.core c).selected with
  | some r => (if r.held then 2 ^ 31 else 0) + (if r.held && s.claims r then 2 ^ 30 else 0) + r.reason % 8 * 2 ^ 27 + r.slot % 4096
  | none => 0
/-- The posted event record. -/
def Core.event (k : Core) : DbgEvent := k.events.headD ⟨0, 0, 0, 0, 0, 0⟩

/-- The value SRD reads of a monitor system register (R226). -/
def State.monReg (s : State) (ik : Nat) (it : Item) (n : Nat) : W32 :=
  let c := s.coreOf ik
  let k := s.core c
  let mv := s.mvecOf c (jobOf ik)
  let rec_ := fun (f : PRec → W64) => match k.selected with | some r => f r | none => 0
  let ev := k.event
  match n with
  | 0x100 => it.m.cause
  | 0x101 => lo32 it.m.pc
  | 0x102 => hi32 it.m.pc
  | 0x103 => lo32 it.m.addr
  | 0x104 => hi32 it.m.addr
  | 0x105 => it.m.info
  | 0x106 => ofBool32 it.m.mon + 2 * ofBool32 it.m.fromh + 4 * ofBool32 it.m.noh
  | 0x110 => lo32 mv
  | 0x111 => hi32 mv
  | 0x140 => BitVec.ofNat 32 k.window
  | 0x150 => k.psel.setWidth 32
  | 0x151 => BitVec.ofNat 32 (s.pstat c)
  | 0x152 => lo32 (rec_ (·.addr))
  | 0x153 => hi32 (rec_ (·.addr))
  | 0x154 => lo32 (rec_ (·.pc))
  | 0x155 => hi32 (rec_ (·.pc))
  | 0x156 => lo32 (rec_ (·.word))
  | 0x157 => hi32 (rec_ (·.word))
  | 0x180 => k.dlaunch
  | 0x181 => k.dgrp
  | 0x183 => ofBool32 (!k.events.isEmpty) + 2 * ofBool32 k.found + 4 * ofBool32 k.bell
  | 0x188 => BitVec.ofNat 32 (ev.cause + 256 * ev.num)
  | 0x189 => ev.grp
  | 0x18A => lo32 ev.pc
  | 0x18B => hi32 ev.pc
  | 0x18C => ev.mask
  | 0x18D => ev.br
  | n =>
    if 0x160 ≤ n ∧ n < 0x170 then
      let b := k.bps.getD ((n - 0x160) / 2) 0
      if n % 2 = 0 then lo32 b else hi32 b
    else if 0x170 ≤ n ∧ n < 0x17C then
      let w := k.wps.getD ((n - 0x170) / 3) ⟨0, 0, 0⟩
      if (n - 0x170) % 3 = 0 then w.s else if (n - 0x170) % 3 = 1 then w.e else w.c
    else 0
/-- The value of an item register (R112). -/
def itemReg (it : Item) (n : Nat) : W32 :=
  match n with
  | 0 => it.h.cause
  | 1 => lo32 it.h.pc
  | 2 => hi32 it.h.pc
  | 3 => lo32 it.h.addr
  | 4 => hi32 it.h.addr
  | 5 => it.h.info
  | 6 => ofBool32 it.h.flag
  | 7 => lo32 it.h.lpc
  | 8 => hi32 it.h.lpc
  | _ => 0
/-- SRD. -/
def execSrd (g : Guard) (d : Fld) (r : BitVec 16) (s : State) : Host.Outcome State Fault Refusal :=
  .next (issue g 8 (fun s0 t ik => do
    let (it, gr) ← getItem s0 ik
    orTrap (decide (r.toNat < 256) || it.m.mon) (mkTrap cPRIV 0)
    freeE it gr d 1
    let v := if r.toNat < 256 then itemReg it r.toNat else t.monReg ik it r.toNat
    .ok (t.dest ik (.v d.toNat) 1 v.toNat)) s)

/-- A 64-bit register with its low or high word replaced; the low word's bits 2:0 are written 0. -/
def putLo (x : W64) (v : W32) : W64 := pair (v &&& 0xFFFFFFF8) (hi32 x)
def putHi (x : W64) (v : W32) : W64 := pair (lo32 x) v
/-- The collector window that a written value gives (R152). -/
def windowOf (v : W32) : Nat :=
  let n := v.toNat % 128
  if n < 8 then 8 else if 64 < n then 64 else n
/-- A write of SWR to a register of R112 or R226. -/
def State.writeSys (s : State) (ik n : Nat) (v : W32) : State :=
  let c := s.coreOf ik
  let j := jobOf ik
  let it := fun (f : Item → Item) => s.updItem ik f
  let core := fun (f : Core → Core) => s.updCore c f
  match n with
  | 1 => it (fun x => { x with h := { x.h with pc := putLo x.h.pc v } })
  | 2 => it (fun x => { x with h := { x.h with pc := putHi x.h.pc v } })
  | 0x101 => it (fun x => { x with m := { x.m with pc := putLo x.m.pc v } })
  | 0x102 => it (fun x => { x with m := { x.m with pc := putHi x.m.pc v } })
  | 0x110 => core (fun k => { k with mvec := AMap.put k.mvec j (putLo (AMap.getD k.mvec j 0) v) })
  | 0x111 => core (fun k => { k with mvec := AMap.put k.mvec j (putHi (AMap.getD k.mvec j 0) v) })
  | 0x140 => core (fun k => { k with window := windowOf v })
  | 0x150 => core (fun k => { k with psel := v.setWidth 6 })
  | 0x180 => core (fun k => { k with dlaunch := v })
  | 0x181 => core (fun k => { k with dgrp := v })
  | 0x182 => s.dcmd c (v.toNat % 8)
  | 0x18E => if bit v 0 then s.dack c else s
  | n =>
    if 0x160 ≤ n ∧ n < 0x170 then
      let i := (n - 0x160) / 2
      core (fun k =>
        let b := k.bps.getD i 0
        let b := if n % 2 = 0 then pair (v &&& 0xFFFFFFFB) (hi32 b) else pair (lo32 b) v
        { k with bps := setAt k.bps i b })
    else if 0x170 ≤ n ∧ n < 0x17C then
      let i := (n - 0x170) / 3
      core (fun k =>
        let w := k.wps.getD i ⟨0, 0, 0⟩
        let w : Watch := if (n - 0x170) % 3 = 0 then { w with s := v }
          else if (n - 0x170) % 3 = 1 then { w with e := v } else { w with c := v &&& 0xF }
        { k with wps := setAt k.wps i w })
    else s
/-- SWR. -/
def execSwr (g : Guard) (a : Fld) (r : BitVec 16) (s : State) : Host.Outcome State Fault Refusal :=
  .next (issue g 8 (fun s0 t ik => do
    let (it, gr) ← getItem s0 ik
    orTrap (decide (r.toNat < 256) || it.m.mon) (mkTrap cPRIV 0)
    let v ← readE s0 ik it gr a 1
    .ok (t.writeSys ik r.toNat (lo32 v))) s)

/-- DBGM (R237). -/
def execDbgm (f : EF) (n : BitVec 3) (ring : Bool) (s : State) : Host.Outcome State Fault Refusal :=
  .next (issue f.g 8 (fun s0 t ik => do
    let (it, g) ← getItem s0 ik
    orTrap it.m.mon (mkTrap cPRIV 0)
    let o ← readE s0 ik it g f.o2 1
    let vs ← readEs s0 ik it g f.o1 (runLen n)
    let ofs := (lo32 o).toNat
    let len := 4 * runLen n
    orTrap (ofs % len == 0 && decide (ofs + len ≤ 64)) (addrTrap cMISALIGN 0 (BitVec.ofNat 64 ofs))
    let c := t.coreOf ik
    orWait (!(t.core c).bell)
    .ok (t.updCore c (fun k => { k with mbox := k.mbox.writeN ofs (regBytes vs len), bell := k.bell || ring }))) s)

end Sys2Proof.Machine
end

