-- ==== Sys2Proof/Machine/Replay.lean ====
section
/-! DEFINITION. PRPLY (R116): each poison record an item holds whose claim stands is reissued with its recorded fields, in
the order its loads issued, and freed. -/

namespace Sys2Proof.Machine

/-- The entry `n` of record `r` freed (R228): it keeps its fields, and no longer counts as an acquire to be replayed. -/
def State.freeRec (s : State) (c n : Nat) (r : PRec) : State :=
  let s := s.updCore c (fun k => { k with poison := k.poison.map (fun e =>
    if e.1 == n && e.2.serial == r.serial then (e.1, { e.2 with held := false, freed := s.fresh }) else e) })
  { s.updItem r.item (fun it => { it with acqPoison := it.acqPoison.filter (· != r.serial) }) with
    fresh := s.fresh + 1, moved := true }
/-- The access of a record performed again with its recorded fields; what the record's word is says which. Its
destination goes EMPTY, and the item passes a word, which `replayOne` takes back. -/
def reissue (s : State) (ik n : Nat) (it : Item) (r : PRec) : Ev State :=
  let a := r.args.getD 0 0
  let b := r.args.getD 1 0
  match decode r.word 0 with
  | .ok i => match i with
    | .ld f => loadGlobal f s ik it r.dst.reg r.addr
    | .lds f => loadTeam f s ik it r.dst.reg r.addr
    | .atom f op => atomGlobal f (fun f => .atom f op) op false s ik it r.addr a.toNat b.toNat
    | .atoms f op => atomTeam f op s ik it r.addr a.toNat b.toNat
    | .adrn _ c => do
      let tm ← getTeam s ik
      let l ← drainLane tm c ik a.toNat b.toNat 0
      .ok (s.acceptAdrn ik c l r.dst.reg r.pc r.word)
    | .sbld _ _ _ | .senum _ _ _ | .sortk _ _ | .topk _ _ | .selb _ _ | .srch _ _ | .mrgk _ _ => do
      let t ← raiseInflight s ik
      .ok ((t.flushItem ik).sendCmd ik r.pc i r.args r.dst r.word)
    | .card _ cnt cont => cardRun i cnt cont r.dst.reg r.pc r.args s ik
    | .post _ lvl => do
      let (u, _) ← postRun i lvl r.dst.reg r.pc r.args (s.freeRec (s.coreOf ik) n r) ik
      .ok u
    | _ => .ok s
  | .error _ => .ok s
/-- The address the item stands at, and its waits there, kept across a reissue; a wait for another device stays first. -/
def State.standAt (s : State) (ik : Nat) (pc : W64) (bound : Nat) : State :=
  s.updItem ik (fun it => { it with
    pc := pc
    waits := it.waits.filter (fun w => !(w.1 == ⟨pc, it.level⟩ && w.2 == .before bound)) ++ [(⟨pc, it.level⟩, .before bound)] })
/-- Whether an item waits at its word for another device's answer. -/
def State.awaiting (s : State) (ik : Nat) : Bool :=
  match s.item? ik with
  | some it => it.waits.any (fun w => w.1 == it.spot && match w.2 with | .remote _ none => true | _ => false)
  | none => false
/-- One record replayed: reissued where its destination still holds its claim, and freed. An access that asks another
device keeps its record until the answer is here; an acquire replayed before holds the access (R160). -/
def replayOne (s : State) (ik bound n : Nat) (r : PRec) : Ev State := do
  let (it, _) ← getItem s ik
  if s.claims r then do
    acqGate s ik
    let u ← reissue { s with cur := { s.cur with pc := r.pc } } ik n it r
    let u := ({ u with cur := s.cur } : State).standAt ik it.pc bound
    .ok (if u.awaiting ik then u else u.freeRec (s.coreOf ik) n r)
  else .ok ((s.standAt ik it.pc bound).freeRec (s.coreOf ik) n r)
/-- The records of a list replayed in turn, until one must wait or traps: with progress made before it (`prog`) the item
stays at the word, and goes on from there. -/
def replayAll (ik bound : Nat) : List (Nat × PRec) → Bool → State → Ev State
  | [], _, s => .ok ((s.clearWait ik).advance ik 8)
  | (n, r) :: rest, prog, s =>
    match replayOne s ik bound n r with
    | .ok u => if u.awaiting ik then .ok u else replayAll ik bound rest true u
    | .error e => if prog then .ok s else .error e
/-- The held records of core `c` for items from `lo` to before `hi`, in the order in which their operations issued. -/
def State.recsOf (s : State) (c lo hi : Nat) : List (Nat × PRec) :=
  sortBy (fun (a b : Nat × PRec) => decide (a.2.issued < b.2.issued))
    ((s.core c).poison.filter (fun e => e.2.held && decide (lo ≤ e.2.item) && decide (e.2.item < hi)))
/-- The body of PRPLY: the records that stood when the item began it are those numbered below `bound`. No register of a
span claims a record, so that a span's are only freed. -/
def prplyBody (s0 s : State) (ik : Nat) : Ev State := do
  let (it, _) ← getItem s ik
  match s0.cur.span.bind (AMap.find s.spans) with
  | some e =>
    let l := s.recsOf s0.cur.core (itemKey e.launch e.lo) (itemKey e.launch e.hi)
    .ok ((l.foldl (fun t x => t.freeRec s0.cur.core x.1 x.2) s).advance ik 8)
  | none =>
    let old := it.waits.findSome? (fun w => match w.2 with
      | .before n => if w.1 == it.spot then some n else none
      | _ => none)
    let bound := old.getD s.fresh
    replayAll ik bound ((s.recsOf (s.coreOf ik) ik (ik + 1)).filter (fun x => decide (x.2.serial < bound))) false s
def execPrply (g : Guard) (s : State) : Host.Outcome State Fault Refusal := .next (issueRaw g 8 prplyBody s)

end Sys2Proof.Machine
end

