-- ==== Sys2Proof/Machine/Sync.lean ====
section
/-! DEFINITION. Barriers: the named barriers of a team (R178 to R183), cluster barriers (R252), launch barriers and phase
boundaries (R361). -/

namespace Sys2Proof.Machine

/-- A barrier number: immediate, or operand 1. -/
def barNo {w : Nat} (s : State) (ik : Nat) (it : Item) (g : Group) (n : Option (BitVec w)) (o1 : Fld) : Ev Nat :=
  match n with
  | some k => .ok k.toNat
  | none => do let v ← readE s ik it g o1 1; .ok (lo32 v).toNat
/-- The item's named barrier, after the check of reason 1 (R181). -/
def getBar (s : State) (ik b : Nat) : Ev Bar := do
  let t ← getTeam s ik
  match t.bars[b]? with
  | some x => .ok x
  | none => .error (.trap (mkTrap cBAR 1))
/-- A barrier of the item's team replaced. -/
def State.setBar (s : State) (ik b : Nat) (x : Bar) : State :=
  s.updTeam (s.teamOf ik) (fun t => { t with bars := setAt t.bars b x })
/-- A barrier after one more arrival (R179). -/
def Bar.arrive (x : Bar) : Bar :=
  if x.arrived + 1 = x.expect then { x with arrived := 0, gen := x.gen + 1 } else { x with arrived := x.arrived + 1 }
/-- An item arrives: its earlier stores are performed (R180). -/
def State.arrive (s : State) (ik b : Nat) (x : Bar) : State :=
  ((s.flushItem ik).sync [ik] [tokBar (s.teamOf ik) b x.gen]).setBar ik b x.arrive

/-- BAR.INIT. -/
def execBarInit (f : EF) (n : Option (BitVec 10)) (s : State) : Host.Outcome State Fault Refusal :=
  .next (issue f.g 8 (fun s0 t ik => do
    let (it, g) ← getItem s0 ik
    let b ← barNo s0 ik it g n f.o1
    let x ← getBar t ik b
    let c ← readE s0 ik it g f.o2 1
    acquireGate t ik
    let c := (lo32 c).toNat
    orTrap (x.arrived == 0) (mkTrap cBAR 3)
    orTrap (decide (1 ≤ c) && decide (c ≤ 1024)) (mkTrap cBAR 2)
    .ok (t.setBar ik b { x with expect := c })) s)
/-- BAR.ARV. -/
def execBarArv (f : EF) (n : Option (BitVec 10)) (s : State) : Host.Outcome State Fault Refusal :=
  .next (issue f.g 8 (fun s0 t ik => do
    let (it, g) ← getItem s0 ik
    freeE it g f.r 1
    let b ← barNo s0 ik it g n f.o1
    let x ← getBar t ik b
    acquireGate t ik
    .ok ((t.dest ik (.v f.r.toNat) 1 x.gen.toNat).arrive ik b x)) s)
/-- Waits while the barrier's generation is `gen`; the generation is kept with the item (R183). -/
def waitBar (s : State) (ik b : Nat) (gen : BitVec 16) (held : Bool) : Ev State := do
  let x ← getBar s ik b
  if x.gen ≠ gen then .ok (((s.sync [tokBar (s.teamOf ik) b gen] [ik]).clearWait ik).advance ik 8)
  else if held then .error .wait
  else .ok (s.setWait ik (.bar b gen))
/-- Whether the wait that item `ik` holds at its word, at a barrier of any kind, is over. -/
def State.waitOver (s : State) (ik : Nat) : Bool :=
  match (s.item? ik).bind Item.wait? with
  | some (.bar b gen) => match getBar s ik b with | .ok x => x.gen != gen | .error _ => false
  | some (.cbar k gen) => (s.cbarD k).gen != gen
  | some (.lbar n) => match AMap.find s.launches (launchOf ik) with | some l => decide (n < l.lbarN) | none => false
  | some (.phbnd n) => match AMap.find s.launches (launchOf ik) with | some l => decide (n < l.phbN) | none => false
  | _ => false
/-- What the wait that an item holds at its word has it learn when it is over (R312). -/
def State.waitToks (s : State) (ik : Nat) : List Nat :=
  match (s.item? ik).bind Item.wait? with
  | some (.bar b gen) => [tokBar (s.teamOf ik) b gen]
  | some (.cbar k gen) => [tokCBar k gen]
  | some (.lbar n) => [tokLbar (launchOf ik) n]
  | some (.phbnd n) => [tokPhbnd (launchOf ik) n]
  | _ => []
/-- An item's wait at a barrier is ended: it goes on. -/
def State.passBar (s : State) (ik : Nat) : State := ((s.sync (s.waitToks ik) [ik]).clearWait ik).advance ik 8
/-- Whether an item that waits at the barrier's word of the issue from `s0` has had its wait ended in `s` by a later arrival of
the same issue. -/
def State.waitEnded (s0 s : State) (ik : Nat) : Bool :=
  match s.item? ik with
  | some it => !s.cur.items.contains ik && it.pc == s0.cur.pc && s.waitOver ik
  | none => false
/-- After the issue of a barrier's word from `s0`, those items go on in it. -/
def passWaits (s0 s : State) : State :=
  let ended := s0.cur.items.filter (s0.waitEnded s)
  let t := ended.foldl (fun t ik => t.passBar ik) s
  { t with cur := { t.cur with items := s0.cur.items.filter (fun ik => s.cur.items.contains ik || ended.contains ik) } }
/-- BAR.WAIT. -/
def execBarWait (f : EF) (n : Option (BitVec 10)) (s : State) : Host.Outcome State Fault Refusal :=
  .next (issueRaw f.g 8 (fun s0 t ik => do
    let (it, g) ← getItem s0 ik
    match it.wait? with
    | some (.bar b gen) => waitBar t ik b gen true
    | _ => do
      let b ← barNo s0 ik it g n f.o1
      let _ ← getBar t ik b
      let k ← readE s0 ik it g f.o2 1
      acquireGate t ik
      waitBar t ik b ((lo32 k).setWidth 16) false) s)
/-- BAR.SYNC. -/
def execBarSync (f : EF) (n : Option (BitVec 10)) (s : State) : Host.Outcome State Fault Refusal :=
  .next (passWaits s (issueRaw f.g 8 (fun s0 t ik => do
    let (it, g) ← getItem s0 ik
    match it.wait? with
    | some (.bar b gen) => waitBar t ik b gen true
    | _ => do
      let b ← barNo s0 ik it g n f.o1
      let x ← getBar t ik b
      acquireGate t ik
      waitBar (t.arrive ik b x) ik b x.gen false) s))

/-- The checks of CBAR on barrier `b` with count `n` (R252). -/
def cbarCheck (x : CBar) (lk n : Nat) : Ev Unit := do
  orTrap (decide (1 ≤ n) && decide (n ≤ 48)) (mkTrap cBAR 2)
  orTrap (x.owner.isNone || x.owner == some lk) (mkTrap cBAR 4)
  orTrap (x.owner.isNone || x.expect == n) (mkTrap cBAR 5)
/-- An item arrives at cluster barrier `k`. -/
def State.arriveCBar (s : State) (ik k n : Nat) : State :=
  let s := s.flushItem ik
  let x := s.cbarD k
  let x := if x.owner.isNone then { x with owner := some (launchOf ik), expect := n } else x
  let s := s.sync [ik] [tokCBar k x.gen]
  (s.setCBar k { x with items := ik :: x.items.filter (· != ik) }).cbarTeam k (s.teamOf ik)
/-- CBAR (R252). -/
def execCbar (f : EF) (n : Option (BitVec 4)) (s : State) : Host.Outcome State Fault Refusal :=
  .next (passWaits s (issueRaw f.g 8 (fun s0 t ik => do
    let (it, g) ← getItem s0 ik
    match it.wait? with
    | some (.cbar k gen) => do
      orWait ((t.cbarD k).gen != gen)
      .ok (t.passBar ik)
    | _ => do
      orTrap (cfgCores (t.cardOf (launchOf ik)).config) (mkTrap cCOTERM 0)
      let b ← barNo s0 ik it g n f.o1
      orTrap (decide (b ≤ 15)) (mkTrap cBAR 1)
      let c ← readE s0 ik it g f.o2 1
      acquireGate t ik
      let k := clusterOf (t.coreOf ik) * 16 + b
      let x := t.cbarD k
      cbarCheck x (launchOf ik) (lo32 c).toNat
      .ok ((t.setWait ik (.cbar k x.gen)).arriveCBar ik k (lo32 c).toNat)) s))

/-- The body of LBAR and PHBND (R361): an item arrives, or waits for its instance to complete. -/
def launchBar (ph : Bool) (s0 s : State) (ik : Nat) : Ev State := do
  let (it, _) ← getItem s0 ik
  let lk := launchOf ik
  match AMap.find s.launches lk with
  | none => .error .wait
  | some l =>
    match it.wait?, ph with
    | some (.lbar n), false => if n < l.lbarN then .ok (s.passBar ik) else .error .wait
    | some (.phbnd n), true => if n < l.phbN then .ok (s.passBar ik) else .error .wait
    | _, _ => do
      acquireGate s ik
      orTrap (cfgCores l.card.config) (mkTrap cCOTERM 0)
      let s := (s.flushItem ik).sync [ik] [if ph then tokPhbnd lk l.phbN else tokLbar lk l.lbarN]
      if ph then
        .ok (((s.setWait ik (.phbnd l.phbN)).updLaunch lk (fun l => { l with phb := ik :: l.phb.filter (· != ik) })).lbarCheck lk)
      else
        .ok (((s.setWait ik (.lbar l.lbarN)).updLaunch lk (fun l => { l with lbar := ik :: l.lbar.filter (· != ik) })).lbarCheck lk)
def execLbar (g : Guard) (s : State) : Host.Outcome State Fault Refusal := .next (passWaits s (issueRaw g 8 (launchBar false) s))
def execPhbnd (g : Guard) (s : State) : Host.Outcome State Fault Refusal := .next (passWaits s (issueRaw g 8 (launchBar true) s))

end Sys2Proof.Machine
end

