-- ==== Sys2Proof/Machine/Dispatch.lean ====
section
/-! DEFINITION. Which meaning each row of the opcode table has. -/

namespace Sys2Proof.Machine

/-- What instruction or step `i` does. -/
def exec (i : Instr) (s : State) : Host.Outcome State Fault Refusal :=
  match i with
  | .nop g => Sys2Proof.Machine.execNop g s
  | .svc g imm => Sys2Proof.Machine.execSvc g imm s
  | .eret g => Sys2Proof.Machine.execEret g s
  | .srd g d r => Sys2Proof.Machine.execSrd g d r s
  | .swr g a r => Sys2Proof.Machine.execSwr g a r s
  | .dbgm f n ring => Sys2Proof.Machine.execDbgm f n ring s
  | .bkpt g imm => Sys2Proof.Machine.execBkpt g imm s
  | .trap g imm => Sys2Proof.Machine.execTrap g imm s
  | .ifence g => Sys2Proof.Machine.execIfence g s
  | .add f t => Sys2Proof.Machine.execAdd f t s
  | .sub f t => Sys2Proof.Machine.execSub f t s
  | .sadd f t => Sys2Proof.Machine.execSadd f t s
  | .ssub f t => Sys2Proof.Machine.execSsub f t s
  | .mul f t => Sys2Proof.Machine.execMul f t s
  | .mulh f t => Sys2Proof.Machine.execMulh f t s
  | .mad f t => Sys2Proof.Machine.execMad f t s
  | .mulw f signed => Sys2Proof.Machine.execMulw f signed s
  | .dot4 f sa sb sat => Sys2Proof.Machine.execDot4 f sa sb sat s
  | .divq f t => Sys2Proof.Machine.execDivq f t s
  | .rem f t => Sys2Proof.Machine.execRem f t s
  | .and f wide => Sys2Proof.Machine.execAnd f wide s
  | .or f wide => Sys2Proof.Machine.execOr f wide s
  | .xor f wide => Sys2Proof.Machine.execXor f wide s
  | .andn f wide => Sys2Proof.Machine.execAndn f wide s
  | .shl f wide => Sys2Proof.Machine.execShl f wide s
  | .shr f wide => Sys2Proof.Machine.execShr f wide s
  | .sha f wide => Sys2Proof.Machine.execSha f wide s
  | .rol f wide => Sys2Proof.Machine.execRol f wide s
  | .popc f wide => Sys2Proof.Machine.execPopc f wide s
  | .clz f wide => Sys2Proof.Machine.execClz f wide s
  | .ctz f wide => Sys2Proof.Machine.execCtz f wide s
  | .brev f wide => Sys2Proof.Machine.execBrev f wide s
  | .bext f wide => Sys2Proof.Machine.execBext f wide s
  | .bins f wide => Sys2Proof.Machine.execBins f wide s
  | .permb f => Sys2Proof.Machine.execPermb f s
  | .min f t => Sys2Proof.Machine.execMin f t s
  | .max f t => Sys2Proof.Machine.execMax f t s
  | .abs f wide => Sys2Proof.Machine.execAbs f wide s
  | .neg f wide => Sys2Proof.Machine.execNeg f wide s
  | .cmp f c t => Sys2Proof.Machine.execCmp f c t s
  | .pand g d a b => Sys2Proof.Machine.execPand g d a b s
  | .por g d a b => Sys2Proof.Machine.execPor g d a b s
  | .pxor g d a b => Sys2Proof.Machine.execPxor g d a b s
  | .pnot g d a => Sys2Proof.Machine.execPnot g d a s
  | .sel f wide p => Sys2Proof.Machine.execSel f wide p s
  | .mov f wide => Sys2Proof.Machine.execMov f wide s
  | .movg f => Sys2Proof.Machine.execMovg f s
  | .movs f sv => Sys2Proof.Machine.execMovs f sv s
  | .addi f => Sys2Proof.Machine.execAddi f s
  | .andi f => Sys2Proof.Machine.execAndi f s
  | .ori f => Sys2Proof.Machine.execOri f s
  | .xori f => Sys2Proof.Machine.execXori f s
  | .shli f => Sys2Proof.Machine.execShli f s
  | .shri f => Sys2Proof.Machine.execShri f s
  | .movi f => Sys2Proof.Machine.execMovi f s
  | .cmpi f c => Sys2Proof.Machine.execCmpi f c s
  | .xset f k => Sys2Proof.Machine.execXset f k s
  | .xadd f k => Sys2Proof.Machine.execXadd f k s
  | .xget f k => Sys2Proof.Machine.execXget f k s
  | .lea f sh => Sys2Proof.Machine.execLea f sh s
  | .fadd f m => Sys2Proof.Machine.execFadd f m s
  | .fsub f m => Sys2Proof.Machine.execFsub f m s
  | .fmul f m => Sys2Proof.Machine.execFmul f m s
  | .ffma f m => Sys2Proof.Machine.execFfma f m s
  | .fmin f => Sys2Proof.Machine.execFmin f s
  | .fmax f => Sys2Proof.Machine.execFmax f s
  | .fcmp f c => Sys2Proof.Machine.execFcmp f c s
  | .fclass f => Sys2Proof.Machine.execFclass f s
  | .frcp f => Sys2Proof.Machine.execFrcp f s
  | .frsq f => Sys2Proof.Machine.execFrsq f s
  | .fsqrt f m => Sys2Proof.Machine.execFsqrt f m s
  | .fdiv f m => Sys2Proof.Machine.execFdiv f m s
  | .fexp2 f => Sys2Proof.Machine.execFexp2 f s
  | .flog2 f => Sys2Proof.Machine.execFlog2 f s
  | .ftanh f => Sys2Proof.Machine.execFtanh f s
  | .pfadd f bf m => Sys2Proof.Machine.execPfadd f bf m s
  | .pfmul f bf m => Sys2Proof.Machine.execPfmul f bf m s
  | .pfma f bf m => Sys2Proof.Machine.execPfma f bf m s
  | .pfmin f bf => Sys2Proof.Machine.execPfmin f bf s
  | .pfmax f bf => Sys2Proof.Machine.execPfmax f bf s
  | .dadd f m => Sys2Proof.Machine.execDadd f m s
  | .dmul f m => Sys2Proof.Machine.execDmul f m s
  | .dfma f m => Sys2Proof.Machine.execDfma f m s
  | .dmin f => Sys2Proof.Machine.execDmin f s
  | .dmax f => Sys2Proof.Machine.execDmax f s
  | .dcmp f c => Sys2Proof.Machine.execDcmp f c s
  | .cvt f dt st m => Sys2Proof.Machine.execCvt f dt st m s
  | .pack f t => Sys2Proof.Machine.execPack f t s
  | .unpk f t h => Sys2Proof.Machine.execUnpk f t h s
  | .scac f m => Sys2Proof.Machine.execScac f m s
  | .qnt f t m => Sys2Proof.Machine.execQnt f t m s
  | .dqnt f t => Sys2Proof.Machine.execDqnt f t s
  | .bra g off => Sys2Proof.Machine.execBra g off s
  | .brx g t => Sys2Proof.Machine.execBrx g t s
  | .call g link off => Sys2Proof.Machine.execCall g link off s
  | .ret g t => Sys2Proof.Machine.execRet g t s
  | .exit g => Sys2Proof.Machine.execExit g s
  | .itemEnd item => Sys2Proof.Machine.execItemEnd item s
  | .yield g => Sys2Proof.Machine.execYield g s
  | .waitf f n => Sys2Proof.Machine.execWaitf f n s
  | .tstp f => Sys2Proof.Machine.execTstp f s
  | .clrp f => Sys2Proof.Machine.execClrp f s
  | .prply g => Sys2Proof.Machine.execPrply g s
  | .sjoin g => Sys2Proof.Machine.execSjoin g s
  | .matz g => Sys2Proof.Machine.execMatz g s
  | .regrp g => Sys2Proof.Machine.execRegrp g s
  | .kdep f => Sys2Proof.Machine.execKdep f s
  | .spanq f => Sys2Proof.Machine.execSpanq f s
  | .ld f => Sys2Proof.Machine.execLd f s
  | .lds f => Sys2Proof.Machine.execLds f s
  | .st f => Sys2Proof.Machine.execSt f s
  | .sts f => Sys2Proof.Machine.execSts f s
  | .atom f op => Sys2Proof.Machine.execAtom f op s
  | .red f op => Sys2Proof.Machine.execRed f op s
  | .atoms f op => Sys2Proof.Machine.execAtoms f op s
  | .fence g ord scope => Sys2Proof.Machine.execFence g ord scope s
  | .cflush f => Sys2Proof.Machine.execCflush f s
  | .cinv f => Sys2Proof.Machine.execCinv f s
  | .pref f => Sys2Proof.Machine.execPref f s
  | .cpy f dsp ssp ev => Sys2Proof.Machine.execCpy f dsp ssp ev s
  | .cpyw f dsp ssp ev => Sys2Proof.Machine.execCpyw f dsp ssp ev s
  | .cprpl f => Sys2Proof.Machine.execCprpl f s
  | .bufa f => Sys2Proof.Machine.execBufa f s
  | .bufw f => Sys2Proof.Machine.execBufw f s
  | .bufq f tgt => Sys2Proof.Machine.execBufq f tgt s
  | .buff f => Sys2Proof.Machine.execBuff f s
  | .buffRearm f newT => Sys2Proof.Machine.execBuffRearm f newT s
  | .barInit f n => Sys2Proof.Machine.execBarInit f n s
  | .barArv f n => Sys2Proof.Machine.execBarArv f n s
  | .barWait f n => Sys2Proof.Machine.execBarWait f n s
  | .barSync f n => Sys2Proof.Machine.execBarSync f n s
  | .cbar f n => Sys2Proof.Machine.execCbar f n s
  | .shfl f m => Sys2Proof.Machine.execShfl f m s
  | .vote f m p => Sys2Proof.Machine.execVote f m p s
  | .elect f => Sys2Proof.Machine.execElect f s
  | .matchg f wide => Sys2Proof.Machine.execMatchg f wide s
  | .redg f op => Sys2Proof.Machine.execRedg f op s
  | .scang f op => Sys2Proof.Machine.execScang f op s
  | .tclm f n => Sys2Proof.Machine.execTclm f n s
  | .trel f n => Sys2Proof.Machine.execTrel f n s
  | .tld f ssp ev => Sys2Proof.Machine.execTld f ssp ev s
  | .tmov f n => Sys2Proof.Machine.execTmov f n s
  | .oprf g => Sys2Proof.Machine.execOprf g s
  | .cbld f k => Sys2Proof.Machine.execCbld f k s
  | .mma f c => Sys2Proof.Machine.execMma f c s
  | .mmac f c => Sys2Proof.Machine.execMmac f c s
  | .aalc f k rows cols t => Sys2Proof.Machine.execAalc f k rows cols t s
  | .afree g k => Sys2Proof.Machine.execAfree g k s
  | .azero g k => Sys2Proof.Machine.execAzero g k s
  | .adrn f c => Sys2Proof.Machine.execAdrn f c s
  | .adrs f c => Sys2Proof.Machine.execAdrs f c s
  | .ascac f c p => Sys2Proof.Machine.execAscac f c p s
  | .await g k => Sys2Proof.Machine.execAwait g k s
  | .snew f => Sys2Proof.Machine.execSnew f s
  | .sfree f => Sys2Proof.Machine.execSfree f s
  | .sbld f ssp ev => Sys2Proof.Machine.execSbld f ssp ev s
  | .senum f dsp ev => Sys2Proof.Machine.execSenum f dsp ev s
  | .sins f => Sys2Proof.Machine.execSins f s
  | .sdel f => Sys2Proof.Machine.execSdel f s
  | .shas f => Sys2Proof.Machine.execShas f s
  | .scard f => Sys2Proof.Machine.execScard f s
  | .srep f => Sys2Proof.Machine.execSrep f s
  | .scost f op => Sys2Proof.Machine.execScost f op s
  | .suni f => Sys2Proof.Machine.execSuni f s
  | .sint f => Sys2Proof.Machine.execSint f s
  | .sdif f => Sys2Proof.Machine.execSdif f s
  | .sintc f => Sys2Proof.Machine.execSintc f s
  | .swait g => Sys2Proof.Machine.execSwait g s
  | .sortk f c => Sys2Proof.Machine.execSortk f c s
  | .topk f c => Sys2Proof.Machine.execTopk f c s
  | .selb f c => Sys2Proof.Machine.execSelb f c s
  | .srch f c => Sys2Proof.Machine.execSrch f c s
  | .mrgk f c => Sys2Proof.Machine.execMrgk f c s
  | .card f cnt cont => Sys2Proof.Machine.execCard f cnt cont s
  | .post f lvl => Sys2Proof.Machine.execPost f lvl s
  | .cntw f => Sys2Proof.Machine.execCntw f s
  | .cntq f st => Sys2Proof.Machine.execCntq f st s
  | .cancel f => Sys2Proof.Machine.execCancel f s
  | .lbar g => Sys2Proof.Machine.execLbar g s
  | .phbnd g => Sys2Proof.Machine.execPhbnd g s
  | .snap f => Sys2Proof.Machine.execSnap f s
  | .snapq f => Sys2Proof.Machine.execSnapq f s
  | .gviewMap f => Sys2Proof.Machine.execGviewMap f s
  | .gviewUnmap f => Sys2Proof.Machine.execGviewUnmap f s
  | .gviewFree f => Sys2Proof.Machine.execGviewFree f s
  | .attrset f => Sys2Proof.Machine.execAttrset f s
  | .rgth f dsp isp ev => Sys2Proof.Machine.execRgth f dsp isp ev s
  | .rsct f dsp isp ev flt => Sys2Proof.Machine.execRsct f dsp isp ev flt s
  | .rget f dsp ev => Sys2Proof.Machine.execRget f dsp ev s
  | .rput f ssp ev => Sys2Proof.Machine.execRput f ssp ev s
  | .route f => Sys2Proof.Machine.execRoute f s
  | .movi64 g u d imm => Sys2Proof.Machine.execMovi64 g u d imm s
  | .addi64 g u d a imm => Sys2Proof.Machine.execAddi64 g u d a imm s
  | .illegalWordIssue w => Sys2Proof.Machine.execIllegalWordIssue w s
  | .fetchFault => Sys2Proof.Machine.execFetchFault s
  | .pendingTrapTaken => Sys2Proof.Machine.execPendingTrapTaken s
  | .brk => Sys2Proof.Machine.execBrk s
  | .groupHalt => Sys2Proof.Machine.execGroupHalt s
  | .loadCompletion op => Sys2Proof.Machine.execLoadCompletion op s
  | .atomicCompletion op => Sys2Proof.Machine.execAtomicCompletion op s
  | .lineOpCompletion op => Sys2Proof.Machine.execLineOpCompletion op s
  | .brambleWindowExpiry core slot => Sys2Proof.Machine.execBrambleWindowExpiry core slot s
  | .copyChunkArrival op => Sys2Proof.Machine.execCopyChunkArrival op s
  | .tldLineWrite op => Sys2Proof.Machine.execTldLineWrite op s
  | .mmaCompletion op => Sys2Proof.Machine.execMmaCompletion op s
  | .mmacCompletion op => Sys2Proof.Machine.execMmacCompletion op s
  | .azeroCompletion op => Sys2Proof.Machine.execAzeroCompletion op s
  | .ascacCompletion op => Sys2Proof.Machine.execAscacCompletion op s
  | .adrnCompletion op => Sys2Proof.Machine.execAdrnCompletion op s
  | .adrsCompletion op => Sys2Proof.Machine.execAdrsCompletion op s
  | .setCommandAcceptance op => Sys2Proof.Machine.execSetCommandAcceptance op s
  | .setCommandCompletion op => Sys2Proof.Machine.execSetCommandCompletion op s
  | .setEngineChange job idx shard engine => Sys2Proof.Machine.execSetEngineChange job idx shard engine s
  | .conversionStart job idx shard => Sys2Proof.Machine.execConversionStart job idx shard s
  | .conversionSwitch job idx shard => Sys2Proof.Machine.execConversionSwitch job idx shard s
  | .teamDispatch seq core n quad => Sys2Proof.Machine.execTeamDispatch seq core n quad s
  | .cardAgeEscalation seq => Sys2Proof.Machine.execCardAgeEscalation seq s
  | .issueAgeEscalation u top => Sys2Proof.Machine.execIssueAgeEscalation u top s
  | .bundleReform core quad => Sys2Proof.Machine.execBundleReform core quad s
  | .materialisationResume core entry => Sys2Proof.Machine.execMaterialisationResume core entry s
  | .teamRelease team => Sys2Proof.Machine.execTeamRelease team s
  | .preemptTeam team => Sys2Proof.Machine.execPreemptTeam team s
  | .resumeTeam team core q0 => Sys2Proof.Machine.execResumeTeam team core q0 s
  | .sliceEnd jobOut jobIn => Sys2Proof.Machine.execSliceEnd jobOut jobIn s
  | .launchCompletion launch => Sys2Proof.Machine.execLaunchCompletion launch s
  | .phaseBoundaryCompletion job => Sys2Proof.Machine.execPhaseBoundaryCompletion job s
  | .snapCompletion op => Sys2Proof.Machine.execSnapCompletion op s
  | .attrsetCompletion op => Sys2Proof.Machine.execAttrsetCompletion op s
  | .generationDrainBlock job gen block => Sys2Proof.Machine.execGenerationDrainBlock job gen block s
  | .pageMigration job va die frame => Sys2Proof.Machine.execPageMigration job va die frame s
  | .pageEviction job va => Sys2Proof.Machine.execPageEviction job va s
  | .pageRecall job va die frame ok => Sys2Proof.Machine.execPageRecall job va die frame ok s
  | .homeGets line => Sys2Proof.Machine.execHomeGets line s
  | .homeGetm line => Sys2Proof.Machine.execHomeGetm line s
  | .homeFarAtomic line => Sys2Proof.Machine.execHomeFarAtomic line s
  | .homeWriteback line => Sys2Proof.Machine.execHomeWriteback line s
  | .forward line party => Sys2Proof.Machine.execForward line party s
  | .invalidation line party => Sys2Proof.Machine.execInvalidation line party s
  | .invalidationAck line party => Sys2Proof.Machine.execInvalidationAck line party s
  | .dataResponse line party => Sys2Proof.Machine.execDataResponse line party s
  | .transactionComplete line party => Sys2Proof.Machine.execTransactionComplete line party s
  | .remoteAccessRequest dev req job addr op => Sys2Proof.Machine.execRemoteAccessRequest dev req job addr op s
  | .remoteResponse op a => Sys2Proof.Machine.execRemoteResponse op a s
  | .rgthRowArrival op k => Sys2Proof.Machine.execRgthRowArrival op k s
  | .rsctCompletion op => Sys2Proof.Machine.execRsctCompletion op s
  | .rgetArrival op => Sys2Proof.Machine.execRgetArrival op s
  | .rputCompletion op => Sys2Proof.Machine.execRputCompletion op s
  | .routeWindowEnd job choice => Sys2Proof.Machine.execRouteWindowEnd job choice s
  | .replicaCopyComplete job expert => Sys2Proof.Machine.execReplicaCopyComplete job expert s
  | .flitCrcFail link => Sys2Proof.Machine.execFlitCrcFail link s
  | .linkFail link lost => Sys2Proof.Machine.execLinkFail link lost s
  | .correctedError u => Sys2Proof.Machine.execCorrectedError u s
  | .uncorrectableError u at_ => Sys2Proof.Machine.execUncorrectableError u at_ s
  | .dcmdHaltGroup core => Sys2Proof.Machine.execDcmdHaltGroup core s
  | .dcmdHaltTeam core => Sys2Proof.Machine.execDcmdHaltTeam core s
  | .dcmdResumeGroup core => Sys2Proof.Machine.execDcmdResumeGroup core s
  | .dcmdResumeTeam core => Sys2Proof.Machine.execDcmdResumeTeam core s
  | .dcmdStep core => Sys2Proof.Machine.execDcmdStep core s
  | .dcmdNoOp core => Sys2Proof.Machine.execDcmdNoOp core s
  | .dack core => Sys2Proof.Machine.execDack core s
  | .registerWrite off val => Sys2Proof.Machine.execRegisterWrite off val s
  | .deviceStart b => Sys2Proof.Machine.execDeviceStart b s
  | .readyReport => Sys2Proof.Machine.execReadyReport s
  | .startTimeout => Sys2Proof.Machine.execStartTimeout s
  | .reload val image => Sys2Proof.Machine.execReload val image s
  | .power val => Sys2Proof.Machine.execPower val s
  | .doorbell word val => Sys2Proof.Machine.execDoorbell word val s
  | .submit hi => Sys2Proof.Machine.execSubmit hi s
  | .create w => Sys2Proof.Machine.execCreate w s
  | .map w => Sys2Proof.Machine.execMap w s
  | .unmap w => Sys2Proof.Machine.execUnmap w s
  | .copyin w => Sys2Proof.Machine.execCopyin w s
  | .copyout w => Sys2Proof.Machine.execCopyout w s
  | .setw w => Sys2Proof.Machine.execSetw w s
  | .count w => Sys2Proof.Machine.execCount w s
  | .destroy w => Sys2Proof.Machine.execDestroy w s
  | .unknownJobCommand w => Sys2Proof.Machine.execUnknownJobCommand w s
  | .jobCommandFinish => Sys2Proof.Machine.execJobCommandFinish s
  | .coolantLimit t => Sys2Proof.Machine.execCoolantLimit t s
  | .generationDrainStart job gen tier => Sys2Proof.Machine.execGenerationDrainStart job gen tier s
  | .replicaRemoved job expert idx => Sys2Proof.Machine.execReplicaRemoved job expert idx s
  | .writebackAck line party => Sys2Proof.Machine.execWritebackAck line party s
  | .hostLinkNegotiation cxl rate width => Sys2Proof.Machine.execHostLinkNegotiation cxl rate width s
  | .coolantBelowLimit t => Sys2Proof.Machine.execCoolantBelowLimit t s

end Sys2Proof.Machine
end

