-- ==== Sys2Proof/Machine/Issue.lean ====
section
/-! DEFINITION. One issue of a bundle or span: which items stand in it (R134, R135), which row of the opcode table its
boundary comes to (R224), and what the issue leaves (R134, R236). The meaning of a row is a parameter here. -/

namespace Sys2Proof.Machine

/-! ## Choosing a bundle or span -/

/-- Whether a group issues at all; whether it issues outside a step. -/
def Group.runs (g : Group) : Bool := !g.stopped && g.halt.isNone
/-- Whether an item issues at its word: one whose program is over only takes the traps that wait for it, and halts where its
group is to (R224). -/
def State.issues (s : State) (ik : Nat) (it : Item) : Bool := !it.ending || s.trapDue ik || (s.groupD (groupOf ik)).haltReq
/-- The items of a stepped group at the word of its leader (R236); one that CANCELLED has ended runs no word. -/
def State.stepItems (s : State) (gk : Nat) : List Nat :=
  match (s.leader gk).bind s.item? with
  | some l => (s.members gk).filter (fun k => match s.item? k with | some x => x.pc == l.pc && !(x.ending && x.cancelled) | none => false)
  | none => []
/-- The items of the bundle of item `ik`, which belongs to team `tk` with entry `t`. -/
def State.bundleItems (s : State) (t : Team) (ik : Nat) (it : Item) : List Nat :=
  let lo := itemKey t.launch t.base
  ((AMap.range s.items lo (lo + t.size)).filter (fun e =>
    e.2.bid == it.bid && e.2.pc == it.pc && s.quadOf e.1 == s.quadOf ik && (s.groupD (groupOf e.1)).runs &&
      s.issues e.1 e.2)).map (·.1)
/-- The issue that a unit stands for now; none where nothing of it may issue. -/
def State.pick (s : State) (u : IUnit) : Option Cur :=
  match u with
  | .bundle ik =>
    match s.item? ik, AMap.find s.teams (s.teamOf ik) with
    | some it, some t =>
      match t.core with
      | none => none
      | some c =>
        let g := s.groupD (groupOf ik)
        if g.stepping && !g.stopped then
          match s.stepItems (groupOf ik) with
          | k :: l => (s.item? k).map (fun x => ⟨c, s.quadOf ik, k :: l, none, x.pc⟩)
          | [] => none
        else
          match s.bundleItems t ik it with
          | [] => none
          | l => some ⟨c, s.quadOf ik, l, none, it.pc⟩
    | _, _ => none
  | .span core entry =>
    if core < Config.cores ∧ entry < 32 then
      match AMap.find s.spans (spanKey core entry) with
      | some e => if e.waiting then none else some ⟨core, e.quad, [], some (spanKey core entry), e.pc⟩
      | none => none
    else none

/-! ## The row of a boundary (R224) -/

/-- Groups of the bundle under way. -/
def State.curGroups (s : State) : List Nat := (s.cur.items.map groupOf).eraseDups
/-- The group being stepped, when the issue under way is a step. -/
def State.stepped (s : State) : Option Nat := s.curGroups.find? (fun g => (s.groupD g).stepping)
/-- A team of the bundle that pre-emption waits for: a group of it stops here (R231). -/
def State.leaving (s : State) : Option Nat :=
  (s.curGroups.find? (fun g => s.mustLeave (s.teamOfGroup g) && s.groupQuiet g)).map s.teamOfGroup
/-- Quota and job of the items of the bundle. -/
def State.curLaunch (s : State) : Nat := launchOf (s.cur.items.headD 0)
/-- The row of the opcode table that the bundle under way comes to: a halt or pre-emption asked for, a trap that waits, a
breakpoint, a failed fetch, or the instruction at the word; none where the fetch stalls. -/
def State.row (s : State) : Option Instr :=
  if s.curGroups.any (fun g => (s.groupD g).haltReq) then some .groupHalt
  else
    match s.leaving with
    | some tk => some (.preemptTeam tk)
    | none =>
      if s.cur.items.any s.trapDue then some .pendingTrapTaken
      else if s.stepped.isNone && s.cur.items.any (fun ik => (s.breakAt ik).isSome) then some .brk
      else
        match s.fetch (jobOfLaunch s.curLaunch) s.cur.pc with
        | .stall => none
        | .fail _ => some .fetchFault
        | .word w w2 =>
          match legalWord (s.quotaOf s.curLaunch) s.cur.pc w w2 with
          | some i => some i
          | none => some (.illegalWordIssue w)

/-! ## Before and after -/

/-- A power state of gated clocks ends at an issue (R378). -/
def Mgmt.wake (m : Mgmt) : Mgmt := if m.pstate = 2 then { m with pstate := if m.holdP1 then 1 else 0 } else m
/-- The state in which issue `c` begins. -/
def State.begin (s : State) (c : Cur) : State :=
  { s with cur := c, moved := false, trapped := [], mgmt := s.mgmt.wake }
/-- Whether a row is what a word that was fetched came to. -/
def ofWord : Instr → Bool
  | .groupHalt | .preemptTeam _ | .pendingTrapTaken | .brk | .fetchFault => false
  | _ => true
/-- The state in which the row `i` is executed: a step sets the debug-skip flag of the items whose word it runs (R233). -/
def State.arm (s : State) (i : Instr) : State :=
  match s.stepped with
  | some _ =>
    if ofWord i then s.cur.items.foldl (fun t ik => t.updItem ik (fun it => { it with skip := true })) s else s
  | none => s

/-- The parts a bundle's items have come to: those left at the word, and those at each address, in order (R134, R135). -/
def State.classOf (t : State) (c : Cur) (ik : Nat) : Option (Bool × W64) :=
  (t.item? ik).map (fun it => (decide (it.pc = c.pc) && !t.cur.items.contains ik, it.pc))
/-- The parts become bundles of their own. -/
def State.splitBundle (t : State) (c : Cur) : State :=
  let ks := (c.items.filterMap (t.classOf c)).eraseDups
  match ks with
  | [] | [_] => t
  | _ =>
    c.items.foldl (fun (u : State) ik =>
      match t.classOf c ik with
      | some k => u.updItem ik (fun it => { it with bid := t.fresh + ks.idxOf k })
      | none => u) { t with fresh := t.fresh + ks.length }
/-- A unit that has issued has waited no longer (R137); after a YIELD (`y`) its quad passes it over once (R106). -/
def State.unraise (t : State) (c : Cur) (y : Bool) : State :=
  let q := c.core * 4 + c.quad
  { t with
    yielded := if y then AMap.put t.yielded q c else AMap.del t.yielded q
    raised := t.raised.filter (fun r => match r.1 with
      | .bundle ik => !c.items.contains ik
      | .span core e => c.span != some (spanKey core e)) }
/-- The issue is over: what has made no progress has not happened. -/
def State.conclude (s t : State) (c : Cur) (y : Bool) : State :=
  if t.moved then (t.splitBundle c).unraise c y else s

/-! ## Single step (R236) -/

/-- Positions that branched and that fell through, of a word that branches: `issued` are the items that completed. -/
def branchMask (gk : Nat) (i : Instr) (act out : List Nat) : W32 :=
  if Instr.branches i then BitVec.ofNat 32 (posMask gk act + 65536 * posMask gk out) else 0
/-- Whether an item of the step has completed its word in `t`: it waits for nothing there, an end that is held
included. -/
def stepDone (t : State) (ik : Nat) : Bool :=
  match t.item? ik with
  | some it => it.wait?.isNone
  | none => true
/-- Whether an item was not ready: it has left the bundle, and neither waits at its word nor has trapped. -/
def stepLeft (t : State) (ik : Nat) : Bool :=
  match t.item? ik with
  | some it => !t.cur.items.contains ik && it.wait?.isNone && !t.trapped.contains ik
  | none => false
/-- The guard positions of a row. -/
def rowGuard (s : State) (pc : W64) : List Nat :=
  match s.fetch (jobOfLaunch s.curLaunch) pc with
  | .word w _ => s.active (guardOf w)
  | _ => []
/-- Whether a watchpoint has trapped an item of the issue. -/
def watchTrapped (t : State) : Bool :=
  t.trapped.any (fun ik => match t.item? ik with
    | some it => it.m.mon && it.m.cause == BitVec.ofNat 32 cWATCH
    | none => false)
/-- What a step of group `gk` leaves, from `s` in which the row `i` was executed: the group halts again with a STEP event
once a word has issued for all its items that stand there; a trap taken before the word is no step. A watchpoint that fires
with a halt posts its own event only; one that traps ends the step (R242). -/
def State.endStep (s t : State) (gk : Nat) (i : Instr) : State :=
  match i with
  | .pendingTrapTaken | .groupHalt | .preemptTeam _ => t
  | _ =>
    if (t.groupD gk).halt = some .watch ∧ (s.groupD gk).halt ≠ some .watch then t
    else if !watchTrapped t && s.cur.items.any (stepLeft t) then { t with moved := false }
    else
      let done := s.cur.items.filter (fun ik => stepDone t ik && !stepLeft t ik)
      if done.isEmpty then t
      else
        let grd := rowGuard s s.cur.pc
        let took := (done.filter (fun ik => grd.contains ik && !t.trapped.contains ik))
        let fell := done.filter (fun ik => !grd.contains ik)
        let e : DbgEvent := ⟨cSTEP, 0, BitVec.ofNat 32 (gk % 2 ^ 36), s.cur.pc,
          BitVec.ofNat 32 (posMask gk done + 65536 * posMask gk grd), branchMask gk i took fell⟩
        let t := if (t.groupD gk).halt = some .double then t else t.haltGroup gk .step
        t.postEvent s.cur.core e

/-! ## A span (R123, R131) -/

/-- The team of a span that pre-emption waits for, where the span may stop. -/
def State.spanLeaving (s : State) (e : Span) : Option Nat :=
  if !e.quiet then none
  else
    let T := s.teamSize e.launch
    (((List.range ((e.hi - 1) / T + 1 - e.lo / T)).map (fun i => e.launch * 2 ^ 36 + (e.lo / T + i)))).find? s.mustLeave
/-- A span at its boundary: pre-emption; cancellation, which ends its items where the card names no handler; a breakpoint
or a failed fetch, for which it materialises; or its word. -/
def State.spanIssue (run : Instr → State → State) (s : State) (key : Nat) : State :=
  match AMap.find s.spans key with
  | none => s
  | some e =>
    match s.spanLeaving e with
    | some tk => run (.preemptTeam tk) s
    | none =>
      if e.cancel then
        if (s.cardOf e.launch).handler = 0 then s.exitSpan key e else s.materialise key
      else if watched (s.core (coreOfSpan key)) e.launch && (bpHit (s.core (coreOfSpan key)) e.pc).isSome then
        s.materialise key
      else
        match s.fetch (jobOfLaunch e.launch) e.pc with
        | .stall => s
        | .fail _ => s.materialise key
        | .word w w2 =>
          let s := s.noteFetch (coreOfSpan key) (jobOfLaunch e.launch) e.pc
          match legalWord (s.quotaOf e.launch) e.pc w w2 with
          | some i => s.issueSpan (run i) key i (guardOf w) (wordLen w) (posDependent w) true
          | none => s.issueSpan (fun t => t) key (.illegalWordIssue w) (guardOf w) (wordLen w) (posDependent w) false

/-! ## An issue -/

/-- Whether a row is a YIELD. -/
def isYield : Instr → Bool
  | .yield _ => true
  | _ => false
/-- Whether the word at `pc` of a span is a YIELD. -/
def State.spanYields (s : State) (key : Nat) : Bool :=
  match AMap.find s.spans key with
  | some e => match s.fetch (jobOfLaunch e.launch) e.pc with
    | .word w w2 => ((legalWord (s.quotaOf e.launch) e.pc w w2).map isYield).getD false
    | _ => false
  | none => false
/-- The state after the row `i` of issue `c`, from `s` before the issue: `t` is what the row's meaning left. -/
def State.after (s t : State) (c : Cur) (i : Instr) : State :=
  let b := s.begin c
  let t := match b.stepped with
    | some gk => b.endStep t gk i
    | none => t
  s.conclude (if t.moved && ofWord i then t.noteFetch c.core (jobOfLaunch b.curLaunch) c.pc else t) c (isYield i)
/-- One issue of a unit, with the meaning `run` of rows; a unit that cannot issue leaves the state. -/
def State.issueUnit (run : Instr → State → Host.Outcome State Fault Refusal) (s : State) (u : IUnit) :
    Host.Outcome State Fault Refusal :=
  match s.pick u with
  | none => .next s
  | some c =>
    match c.span with
    | some key =>
      let go := fun (i : Instr) (t : State) => match run i t with | .next v => v | _ => t
      .next (s.conclude ((s.begin c).spanIssue go key) c (s.spanYields key))
    | none =>
      match (s.begin c).row with
      | none => .next s
      | some i =>
        match run i ((s.begin c).arm i) with
        | .next t => .next (s.after t c i)
        | .fault f => .fault f
        | .refused r => .refused r

end Sys2Proof.Machine
end

