-- ==== Sys2Proof/Machine/Order.lean ====
section
/-! DEFINITION. The order in which the machine acts while no choice is handed to it (log entry 1): what its parts have
outstanding, oldest first, in turn with the issues of its quads in the order of R137. -/

namespace Sys2Proof.Machine

/-! ## What is outstanding -/

/-- The meaning of a row, its operands given. -/
abbrev Act := State → Host.Outcome State Fault Refusal

/-- The row that completes an outstanding operation, or takes it on. -/
def opRow (n : Nat) (o : Op) : Act :=
  match o.kind with
  | .load _ => execLoadCompletion n
  | .atomic _ => execAtomicCompletion n
  | .line _ _ => execLineOpCompletion n
  | .copy c => match c.kind with
    | .cpy => execCopyChunkArrival n
    | .tld _ _ => execTldLineWrite n
    | .rgth => execRgthRowArrival n (((List.range c.rows).find? (fun k => !c.done.contains k)).getD 0)
    | .rget => execRgetArrival n
  | .mtx m => match m with
    | .mma .. => execMmaCompletion n
    | .mmac .. => execMmacCompletion n
    | .azero _ _ => execAzeroCompletion n
    | .ascac .. => execAscacCompletion n
    | .adrn .. => execAdrnCompletion n
    | .adrs _ _ => execAdrsCompletion n
  | .set c => if c.ans.isNone && c.trap.isNone then execSetCommandAcceptance n else execSetCommandCompletion n
  | .tok t => match t.ins with
    | .rput _ _ _ => execRputCompletion n
    | _ => execRsctCompletion n
  | .snap .. => execSnapCompletion n
  | .attr .. => execAttrsetCompletion n
/-- The row that takes a message of the directory protocol. -/
def cohRow : CohMsg → Act
  | .gets l _ _ _ => execHomeGets l
  | .getm l _ _ _ => execHomeGetm l
  | .far l _ => execHomeFarAtomic l
  | .wb l _ _ => execHomeWriteback l
  | .wbAck l p => execWritebackAck l p
  | .fwd l p _ _ _ _ _ => execForward l p
  | .inv l p _ => execInvalidation l p
  | .ack l r => execInvalidationAck l r
  | .data l p _ _ _ _ _ _ => execDataResponse l p
  | .complete l p => execTransactionComplete l p
/-- Conversions of a job's sets. -/
def convRows (j : Nat) (b : Job) : List Act :=
  let row := fun (idx k : Nat) (c : Option Conv) => match c with
    | some c => if c.st = ConvSt.scheduled then [execConversionStart j idx k]
      else if c.st = ConvSt.running then [execConversionSwitch j idx k] else []
    | none => []
  (b.sets.map (fun e => row e.1 0 e.2.conv ++
    ((List.range e.2.shards.length).map (fun k => row e.1 k ((e.2.shards[k]?).bind (·.conv)))).flatten)).flatten
/-- Drains of a job's generations: a copy of each block of one that drains. -/
def State.drainRows (s : State) (j : Nat) (b : Job) : List Act :=
  (b.gens.map (fun e => if e.2.st = .draining then
    ((s.versionsOf j e.1).filter (fun v => !v.lower)).map (fun v => execGenerationDrainBlock j e.1 v.block) else [])).flatten
/-- What a job has under way. -/
def State.jobRows (s : State) (j : Nat) (b : Job) : List Act :=
  (if b.merge then [execPhaseBoundaryCompletion j] else []) ++ convRows j b ++ s.drainRows j b ++
    (b.experts.filter (fun e => e.2.copy.isSome)).map (fun e => execReplicaCopyComplete j e.1)
/-- Teams to release, to pre-empt, and saved ones to resume on a core of their level. -/
def State.teamRows (s : State) : List Act :=
  (s.teams.map (fun e =>
    if e.2.core.isSome then
      (if s.teamEmpty e.2 then [execTeamRelease e.1] else []) ++ (if s.mustLeave e.1 then [execPreemptTeam e.1] else [])
    else match AMap.find s.launches e.2.launch with
      | some l => (s.liveCores l.lvl).map (fun c => execResumeTeam e.1 c 0)
      | none => [])).flatten ++
  (s.spans.map (fun e =>
    let tk := teamKey e.2.launch (e.2.lo - e.2.lo % s.teamSize e.2.launch) (s.teamSize e.2.launch)
    if e.1 < savedSpan then
      (if e.2.waiting then [execMaterialisationResume (coreOfSpan e.1) (e.1 % 32)] else []) ++
        (if s.mustLeave tk then [execPreemptTeam tk] else [])
    else match AMap.find s.launches e.2.launch with
      | some l => (s.liveCores l.lvl).map (fun c => execResumeTeam tk c 0)
      | none => [])).flatten
/-- Launches to complete, and teams to start: as many as are left on a core of the level, else one. -/
def State.launchRows (s : State) : List Act :=
  (s.launches.map (fun e =>
    if s.allEnded e.1 e.2 then [execLaunchCompletion e.1]
    else if e.2.next < e.2.card.count then
      let n := (e.2.card.count - e.2.next + s.teamSize e.1 - 1) / s.teamSize e.1
      ((s.liveCores e.2.lvl).map (fun c => [execTeamDispatch e.2.seq c (Nat.min n 64) (s.tick % 4),
        execTeamDispatch e.2.seq c 1 (s.tick % 4)])).flatten
    else [])).flatten
/-- Everything under way, in the order in which it is tried. -/
def State.events (s : State) : List Act :=
  s.ops.map (fun e => opRow e.1 e.2) ++
  s.coh.map cohRow ++
  (s.cores.map (fun e => e.2.slots.map (fun b => execBrambleWindowExpiry e.1 b.1))).flatten ++
  (s.items.filter (fun e => e.2.ending)).map (fun e => execItemEnd e.1) ++
  (s.jobs.map (fun e => s.jobRows e.1 e.2)).flatten ++
  s.teamRows ++ s.launchRows ++
  (if s.mgmt.busy then [execJobCommandFinish] else []) ++
  (if s.mgmt.subWait.isEmpty then [] else [fun t => .next t.retrySubmit]) ++ (if s.mgmt.running then [execReadyReport] else [])
/-- What firmware does only when nothing else is left: a job's slice begins while none runs, evicted pages come back, and old
versions drain to host memory. -/
def State.idleRows (s : State) : List Act :=
  (if s.jobs.any (·.2.active) then [] else s.jobs.map (fun b => execSliceEnd b.1 (some b.1))) ++
  (s.jobs.map (fun b => ((s.leaves b.1).filter (fun l => bit l.2.2 3)).map (fun l =>
    let n := leafBytes (pteSize l.2.2) / 65536
    let at_ := (List.range Config.dies).findSome? (fun d => (s.frameOn d n).map (fun f => (d, f)))
    match at_ with
    | some (d, f) => execPageRecall b.1 l.1 d f true
    | none => execPageRecall b.1 l.1 0 0 true) ++
    b.2.gens.map (fun g => execGenerationDrainStart b.1 g.1 1))).flatten

/-! ## The choice of a quad (R137) -/

/-- Units of core `c` and quad `q`: a bundle by its first item, spans by their entries. -/
def State.unitsOf (s : State) (c q : Nat) : List IUnit :=
  let its := s.items.filter (fun e => s.coreOf e.1 == c && s.quadOf e.1 == q)
  let firsts := its.filter (fun e => (its.find? (fun x =>
    x.2.bid == e.2.bid && x.2.pc == e.2.pc && s.teamOf x.1 == s.teamOf e.1 && groupOf x.1 == groupOf e.1)).map (·.1) == some e.1)
  firsts.map (fun e => .bundle e.1) ++
    ((s.spansOn c).filter (fun e => e.2.quad == q)).map (fun e => .span c (e.1 % 32))
/-- Launch, age and first item of a unit. -/
def State.unitAge (s : State) (u : IUnit) : Nat × Nat × Nat :=
  match u with
  | .bundle ik => (launchOf ik, ((AMap.find s.teams (s.teamOf ik)).map (·.age)).getD 0, indexOf ik)
  | .span c e => match AMap.find s.spans (spanKey c e) with
    | some x => (x.launch, x.age, x.lo)
    | none => (0, 0, 0)
/-- Whether a unit has just issued a YIELD: its quad passes over it at this choice (R106). -/
def State.passedOver (s : State) (core quad : Nat) (u : IUnit) : Bool :=
  match AMap.find s.yielded (core * 4 + quad) with
  | some c => match u with
    | .bundle ik => c.items.contains ik
    | .span k e => c.span == some (spanKey k e)
  | none => false
/-- The rank of a unit, lower first: not passed over after a YIELD, raised by 4,096 cycles, priority, raised by 256 cycles,
age, first item. -/
def State.unitKey (s : State) (core quad : Nat) (u : IUnit) : List Nat :=
  let n := s.raised.length
  let x := s.unitAge u
  [if s.passedOver core quad u then 1 else 0, s.raised.idxOf (u, true), 3 - cfgPrio (s.cardOf x.1).config,
    Nat.min (s.raised.idxOf (u, false)) n, x.2.1, x.2.2]
/-- Quads with something to issue. -/
def State.quads (s : State) : List (Nat × Nat) :=
  ((s.items.map (fun e => (s.coreOf e.1, s.quadOf e.1))) ++
    ((s.spans.filter (fun e => decide (e.1 < savedSpan))).map (fun e => (coreOfSpan e.1, e.2.quad)))).eraseDups
/-- The units of all quads, each quad's in the order of its choice, beginning with another quad at each step. -/
def State.issueOrder (s : State) : List IUnit :=
  let qs := s.quads
  let k := if qs.isEmpty then 0 else s.tick / 2 % qs.length
  ((qs.drop k ++ qs.take k).map (fun q =>
    sortBy (fun a b => keyLt (s.unitKey q.1 q.2 a) (s.unitKey q.1 q.2 b)) (s.unitsOf q.1 q.2))).flatten
/-- What time brings: a re-forming of one quad's bundles, a unit that has waited long, a card that has. -/
def State.timeRows (s : State) : List Act :=
  let qs := s.quads
  let us := s.issueOrder
  if s.tick % 16 = 15 then
    ((qs[s.tick / 16 % Nat.max qs.length 1]?).map (fun q => execBundleReform q.1 q.2)).toList
  else if s.tick % 64 = 62 then
    ((us[s.tick / 64 % Nat.max us.length 1]?).map (fun u => execIssueAgeEscalation u (s.raised.contains (u, false)))).toList
  else if s.tick % 64 = 30 then
    ((s.launches[s.tick / 64 % Nat.max s.launches.length 1]?).map (fun e => execCardAgeEscalation e.2.seq)).toList
  else []
/-- What the machine tries in turn, besides the issue of units. -/
def State.tries (s : State) (issue : IUnit → Act) : List Act :=
  let is := s.issueOrder.map issue
  s.timeRows ++ (if s.tick % 2 = 0 then s.events ++ is else is ++ s.events) ++ s.idleRows
/-- The first of a list of acts that makes progress; with none, only time passes. -/
def firstMove (s : State) : List Act → Host.Outcome State Fault Refusal
  | [] => .next s
  | a :: l =>
    match a s with
    | .next t => if t.moved then .next t else firstMove s l
    | .fault f => .fault f
    | .refused r => .refused r

/-! ## A step -/

/-- The state between steps: no issue is under way. -/
def State.rest (s : State) : State := { s with cur := Cur.none, moved := false, trapped := [] }
/-- A step has been taken: `%clock` has counted on (R55, log entry 7). -/
def State.pass (s : State) : State :=
  { s.rest with tick := s.tick + 1, clock := s.clock + BitVec.ofNat 64 (Config.cycles s.tick) }
/-- A choice of the machine, or an arrival from outside it, is acted on. -/
def State.act (run : Instr → Act) (s : State) : Move → Host.Outcome State Fault Refusal
  | .issue u => s.issueUnit run u
  | .event i => run i s
/-- The next step, with `run` the meaning of the rows: the oldest choice on the agenda; while there is none, the
machine's own order. -/
def State.stepWith (run : Instr → Act) (s : State) : Host.Outcome State Fault Refusal :=
  let out := match s.agenda with
    | m :: l => ({ s.rest with agenda := l } : State).act run m
    | [] => firstMove s.rest (s.rest.tries (fun u t => t.issueUnit run u))
  match out with
  | .next t => .next t.pass
  | .fault f => .fault f
  | .refused r => .refused r

end Sys2Proof.Machine
end

