-- ==== Sys2Proof/Machine/Place.lean ====
section
/-! DEFINITION. One item placed to run given words: what COPYIN, MAP, CREATE and a dispatched card leave (R350, R376), for
log entry 24: job 0 with one page of code, its launch 1 of one item on core 0, and the choice of issuing it. -/

namespace Sys2Proof.Machine

/-- Where the placed words stand, as virtual and as physical address. -/
def placeAt : Nat := 4096
/-- Its card: quota 256, a team of 16, the whole scratchpad, 16 barriers, 32 tile slots, co-resident. -/
def placeCard : CardC :=
  { CardC.zero with
    entry := BitVec.ofNat 64 placeAt
    count := 1
    config := BitVec.ofNat 64 (31 + 1024 * 2 ^ 11 + 16 * 2 ^ 22 + 32 * 2 ^ 33 + 2 ^ 41) }
/-- The keys of its launch, item and team. -/
def placeLaunch : Nat := 1
def placeItem : Nat := placeLaunch * 2 ^ 40
def placeTeamKey : Nat := placeLaunch * 2 ^ 36
/-- Entry 0 of the table in granule `g`. -/
def tableAt (g : Nat) : Nat := g * 65536
/-- The words `x`, 16 bytes, placed where the next step fetches. Granule 0 holds the code; granules 1 to 5 the table. -/
def State.placed (s : State) (x : Nat) : State :=
  let l : Launch :=
    { card := placeCard, lvl := .core 0, seq := s.fresh, phase := 0, st := .running, next := 1, ended := 0, canc := false,
      cfail := false, raised := none, holds := false, deposits := [], cont := none, lbar := [], lbarN := 0, phb := [], phbN := 0,
      rver := none }
  let ptes := [1, 2, 3, 4].foldl (fun m g => AMap.put m (tableAt g) (pointerPte (tableAt (g + 1)))) s.ptes
  { s with
    mem := s.mem.writeN placeAt (leBytes x 16)
    memErr := s.memErr.filter (fun p => decide (p < placeAt) || decide (placeAt + 16 ≤ p))
    ptes := AMap.put ptes (tableAt 5) (leafPte 0 true true true 0 0)
    used := (List.range 6) ++ s.used.filter (fun u => decide (6 ≤ u))
    jobs := AMap.put s.jobs 0 { newJob (tableAt 1) 1 true 0 with lastLaunch := 1 }
    launches := AMap.put s.launches placeLaunch l
    teams := AMap.put s.teams placeTeamKey (newTeam placeLaunch 0 placeCard 0 0 [0] 0 0 0 s.fresh)
    groups := AMap.put s.groups placeTeamKey Group.start
    items := AMap.put s.items placeItem (Item.start 256 (BitVec.ofNat 64 placeAt))
    fresh := s.fresh + 1
    agenda := .issue (.bundle placeItem) :: s.agenda }

end Sys2Proof.Machine
end

