-- ==== Sys2Proof/Safety.lean ====
section
/-! DEFINITION. What claims about the machine are stated in: an outcome that goes on, an issue of one item, an operand that is
ready, and what every run keeps. -/

namespace Sys2Proof.Machine

/-- What every run keeps (log entry 2): the device memory, the lower tier and the host memory list their bytes in the one canonical form. -/
def State.Inv (s : State) : Prop := s.mem.wf = true ∧ s.lower.wf = true ∧ s.host.wf = true

/-- The bundle under way is item `ik` alone, with state `it`, of group `g`. -/
structure Solo (s : State) (ik : Nat) (it : Item) (g : Group) : Prop where
  cur : s.cur.items = [ik]
  item : s.item? ik = some it
  grp : AMap.find s.groups (groupOf ik) = some g

/-- The quota of an item's launch. -/
def State.quotaOfItem (s : State) (ik : Nat) : Nat := s.quotaOf (launchOf ik)

/-- The source field reads value `x`: none of its registers is EMPTY or POISON (R11, R44). A field the instruction does not
use has width 0. -/
def Reads (s : State) (ik : Nat) (it : Item) (g : Group) (src : Src) (w : Nat) (wb : Bool) (x : W64) : Prop :=
  readUse (s.quotaOfItem ik) it g src w wb = .ok (x, none)

/-- The destination field names register `r` and none of its `n` registers is EMPTY (R53). -/
def Writes (s : State) (ik : Nat) (it : Item) (g : Group) (d : Dst) (n : Nat) (r : RegRef) : Prop :=
  dstRef (s.quotaOfItem ik) it d n = .ok (some r) ∧ refBusy it g (s.leads ik) r n = false

/-- The state in which item `ik` has written the low `32 n` bits of `v` to register `r` and those after it, has left the
exception flags `fl` in its group, and has passed a word of `len` bytes. -/
def State.wrote (s : State) (ik : Nat) (r : RegRef) (n v : Nat) (fl : Flg) (len : Nat) : State :=
  ((s.addFlags ik fl).dest ik r n v).advance ik len

/-- The state in which item `ik` has written `b` to predicate `n`, has left the exception flags `fl` in its group, and has
passed a word of 8 bytes. -/
def State.wroteP (s : State) (ik : Nat) (n : BitVec 3) (b : Bool) (fl : Flg) : State :=
  ((s.addFlags ik fl).updItem ik (fun it => it.setPred n b)).advance ik 8

/-- `t` differs from `s` at most in item `ik`, in its group, in the events its core posts, and in the issue under way. -/
structure OnlyItem (s t : State) (ik : Nat) : Prop where
  rest : t = { s with
    items := t.items, groups := t.groups, cores := t.cores, cur := t.cur, moved := t.moved, trapped := t.trapped }
  items : ∀ k, k ≠ ik → t.item? k = s.item? k
  groups : ∀ k, k ≠ groupOf ik → AMap.find t.groups k = AMap.find s.groups k
  cores : ∀ c, t.core c = { s.core c with events := (t.core c).events }

/-- Nothing of core `c` waits to be performed, no private copy it holds is dirty, and no transaction is under way: an access
of the core writes no other bytes than its own (R151, R297, R321). -/
def State.quiet (s : State) (c : Nat) : Prop :=
  (s.core c).slots = [] ∧ (∀ y ∈ (s.core c).l1, y.dirty = []) ∧ s.coh = [] ∧ s.gathers = []

/-- `t` differs from `s` at most in memory and in what caches, collectors, translation registers, the directory protocol and
old versions hold, and in what the machine knows of the order of operand-store writes. -/
structure MemSide (s t : State) : Prop where
  rest : t = { s with
    cores := t.cores, mem := t.mem, memErr := t.memErr, coh := t.coh, gathers := t.gathers, dir := t.dir, wbufs := t.wbufs,
    rdc := t.rdc, l2 := t.l2, vers := t.vers, jobs := t.jobs, tlb2 := t.tlb2, teams := t.teams, moved := t.moved }
  teams : ∀ k, (AMap.find t.teams k).map (fun x => { x with unpublished := [] }) =
    (AMap.find s.teams k).map (fun x => { x with unpublished := [] })

/-- `t` differs from `s` at most in what the machine knows of the order of operand-store writes (log entry 58). -/
structure Learned (s t : State) : Prop where
  rest : t = { s with teams := t.teams }
  teams : ∀ k, (AMap.find t.teams k).map (fun x => { x with unpublished := [] }) =
    (AMap.find s.teams k).map (fun x => { x with unpublished := [] })

/-- No acquire of item `ik` holds a memory or engine word back: none is outstanding, and none left a poison that was not
replayed (R114, R160). -/
def State.ungated (s : State) (ik : Nat) : Prop := s.acqPending ik = false ∧ acquireGate s ik = .ok ()

/-- A load or atomic of item `ik` is on its way in `t`: operation number `s.fresh`, issued in `s`, with destination `r`; the
destination is EMPTY, the item has passed the word, and memory, groups and teams are as before. -/
def State.sent (s t : State) (ik : Nat) (n : Nat) (kind : LoadOp → OpKind) (l : LoadOp) : Prop :=
  AMap.find t.ops s.fresh = some ⟨s.coreOf ik, launchOf ik, indexOf ik, indexOf ik + 1, s.cur.pc, kind l⟩ ∧
  t.fresh = s.fresh + 1 ∧
  MemSide { (s.setEmpty ik l.dst.reg n).advance ik 8 with ops := t.ops, fresh := s.fresh + 1 } t

/-- The guard of an instruction word (R23); a row that is no word has none. -/
def Instr.guard? : Instr → Option Guard
  | .add f _ | .sub f _ | .sadd f _ | .ssub f _ | .mul f _ | .mulh f _ | .mad f _ | .mulw f _ | .dot4 f _ _ _
  | .divq f _ | .rem f _ | .and f _ | .or f _ | .xor f _ | .andn f _ | .shl f _ | .shr f _ | .sha f _ | .rol f _
  | .popc f _ | .clz f _ | .ctz f _ | .brev f _ | .bext f _ | .bins f _ | .permb f | .min f _ | .max f _ | .abs f _
  | .neg f _ | .cmp f _ _ | .sel f _ _ | .mov f _ | .movg f | .movs f _ | .xset f _ | .xadd f _ | .xget f _
  | .lea f _ | .fadd f _ | .fsub f _ | .fmul f _ | .ffma f _ | .fmin f | .fmax f | .fcmp f _ | .fclass f | .frcp f
  | .frsq f | .fsqrt f _ | .fdiv f _ | .fexp2 f | .flog2 f | .ftanh f | .pfadd f _ _ | .pfmul f _ _ | .pfma f _ _
  | .pfmin f _ | .pfmax f _ | .dadd f _ | .dmul f _ | .dfma f _ | .dmin f | .dmax f | .dcmp f _ | .cvt f _ _ _
  | .pack f _ | .unpk f _ _ | .scac f _ | .qnt f _ _ | .dqnt f _ | .waitf f _ | .tstp f | .clrp f | .kdep f
  | .spanq f | .shfl f _ | .vote f _ _ | .elect f | .matchg f _ | .redg f _ | .scang f _ => some f.g
  | .addi f | .andi f | .ori f | .xori f | .shli f | .shri f | .movi f | .cmpi f _ => some f.g
  | .ld f | .lds f | .st f | .sts f | .atom f _ | .red f _ | .atoms f _ | .cflush f | .cinv f | .pref f => some f.g
  | .dbgm f _ _ | .cpy f _ _ _ | .cpyw f _ _ _ | .cprpl f | .bufa f | .bufw f | .bufq f _ | .buff f | .buffRearm f _
  | .barInit f _ | .barArv f _ | .barWait f _ | .barSync f _ | .cbar f _ | .tclm f _ | .trel f _ | .tld f _ _
  | .tmov f _ | .cbld f _ | .mma f _ | .mmac f _ | .aalc f _ _ _ _ | .adrn f _ | .adrs f _ | .ascac f _ _ | .snew f
  | .sfree f | .sbld f _ _ | .senum f _ _ | .sins f | .sdel f | .shas f | .scard f | .srep f | .scost f _ | .suni f
  | .sint f | .sdif f | .sintc f | .sortk f _ | .topk f _ | .selb f _ | .srch f _ | .mrgk f _ | .card f _ _
  | .post f _ | .cntw f | .cntq f _ | .cancel f | .snap f | .snapq f | .gviewMap f | .gviewUnmap f | .gviewFree f
  | .attrset f | .rgth f _ _ _ | .rsct f _ _ _ _ | .rget f _ _ | .rput f _ _ | .route f => some f.g
  | .nop g | .svc g _ | .eret g | .srd g _ _ | .swr g _ _ | .bkpt g _ | .trap g _ | .ifence g | .pand g _ _ _
  | .por g _ _ _ | .pxor g _ _ _ | .pnot g _ _ | .bra g _ | .brx g _ | .call g _ _ | .ret g _ | .exit g | .yield g
  | .prply g | .sjoin g | .matz g | .regrp g | .fence g _ _ | .oprf g | .afree g _ | .azero g _ | .await g _
  | .swait g | .lbar g | .phbnd g | .movi64 g _ _ _ | .addi64 g _ _ _ _ => some g
  | .itemEnd _ | .illegalWordIssue _ | .fetchFault | .pendingTrapTaken | .brk | .groupHalt | .loadCompletion _
  | .atomicCompletion _ | .lineOpCompletion _ | .brambleWindowExpiry _ _ | .copyChunkArrival _ | .tldLineWrite _
  | .mmaCompletion _ | .mmacCompletion _ | .azeroCompletion _ | .ascacCompletion _ | .adrnCompletion _
  | .adrsCompletion _ | .setCommandAcceptance _ | .setCommandCompletion _ | .setEngineChange _ _ _ _
  | .conversionStart _ _ _ | .conversionSwitch _ _ _ | .teamDispatch _ _ _ _ | .cardAgeEscalation _
  | .issueAgeEscalation _ _ | .bundleReform _ _ | .materialisationResume _ _ | .teamRelease _ | .preemptTeam _
  | .resumeTeam _ _ _ | .sliceEnd _ _ | .launchCompletion _ | .phaseBoundaryCompletion _ | .snapCompletion _
  | .attrsetCompletion _ | .generationDrainBlock _ _ _ | .pageMigration _ _ _ _ | .pageEviction _ _
  | .pageRecall _ _ _ _ _ | .homeGets _ | .homeGetm _ | .homeFarAtomic _ | .homeWriteback _ | .forward _ _
  | .invalidation _ _ | .invalidationAck _ _ | .dataResponse _ _ | .transactionComplete _ _
  | .remoteAccessRequest _ _ _ _ _ | .remoteResponse _ _ | .rgthRowArrival _ _ | .rsctCompletion _ | .rgetArrival _
  | .rputCompletion _ | .routeWindowEnd _ _ | .replicaCopyComplete _ _ | .flitCrcFail _ | .linkFail _ _
  | .correctedError _ | .uncorrectableError _ _ | .dcmdHaltGroup _ | .dcmdHaltTeam _ | .dcmdResumeGroup _
  | .dcmdResumeTeam _ | .dcmdStep _ | .dcmdNoOp _ | .dack _ | .registerWrite _ _ | .deviceStart _ | .readyReport
  | .startTimeout | .reload _ _ | .power _ | .doorbell _ _ | .submit _ | .create _ | .map _ | .unmap _ | .copyin _
  | .copyout _ | .setw _ | .count _ | .destroy _ | .unknownJobCommand _ | .jobCommandFinish | .coolantLimit _
  | .generationDrainStart _ _ _ | .replicaRemoved _ _ _ | .writebackAck _ _ | .hostLinkNegotiation _ _ _
  | .coolantBelowLimit _ => none

/-- The words whose result goes to a register field of format V (R69, R90): their fields and the registers they write. -/
def Instr.result : Instr → Option (VF × Nat)
  | .add f t | .sub f t | .sadd f t | .ssub f t | .mul f t | .mulh f t | .mad f t | .divq f t | .rem f t | .min f t
  | .max f t => some (f, ITy.regs t)
  | .abs f w | .neg f w | .and f w | .or f w | .xor f w | .andn f w | .shl f w | .shr f w | .sha f w | .rol f w
  | .brev f w | .bext f w | .bins f w | .mov f w | .sel f w _ => some (f, wideRegs w)
  | .mulw f _ | .lea f _ => some (f, 2)
  | .popc f _ | .clz f _ | .ctz f _ | .dot4 f _ _ _ | .permb f | .movg f | .xget f _ => some (f, 1)
  | .movs f sv => some (f, Special.regs sv)
  | .fadd f _ | .fsub f _ | .fmul f _ | .ffma f _ | .fdiv f _ | .fsqrt f _ | .fmin f | .fmax f | .fclass f | .frcp f
  | .frsq f | .fexp2 f | .flog2 f | .ftanh f => some (f, 1)
  | .pfadd f _ _ | .pfmul f _ _ | .pfma f _ _ | .pfmin f _ | .pfmax f _ => some (f, 1)
  | .dadd f _ | .dmul f _ | .dfma f _ | .dmin f | .dmax f => some (f, 2)
  | .cvt f dt _ _ => some (f, FullTy.regs dt)
  | .pack f _ | .unpk f _ _ | .scac f _ | .qnt f _ _ | .dqnt f _ | .tstp f | .clrp f | .spanq f => some (f, 1)
  | _ => none

/-- The first source of a word with a register result: its field, the registers it reads and its wait bit (R68, R88). -/
def Instr.source : Instr → Option (Src × Nat × Bool)
  | .add f t | .sub f t | .sadd f t | .ssub f t | .mul f t | .mulh f t | .mad f t | .divq f t | .rem f t | .min f t
  | .max f t => some (f.a, ITy.regs t, f.wa)
  | .abs f w | .neg f w | .and f w | .or f w | .xor f w | .andn f w | .shl f w | .shr f w | .sha f w | .rol f w
  | .brev f w | .bext f w | .bins f w | .mov f w | .sel f w _ | .popc f w | .clz f w | .ctz f w =>
    some (f.a, wideRegs w, f.wa)
  | .mulw f _ | .dot4 f _ _ _ | .permb f | .movg f => some (f.a, 1, f.wa)
  | .lea f _ => some (f.a, 2, f.wa)
  | .fadd f _ | .fsub f _ | .fmul f _ | .ffma f _ | .fdiv f _ | .fsqrt f _ | .fmin f | .fmax f | .fclass f | .frcp f
  | .frsq f | .fexp2 f | .flog2 f | .ftanh f => some (f.a, 1, f.wa)
  | .pfadd f _ _ | .pfmul f _ _ | .pfma f _ _ | .pfmin f _ | .pfmax f _ => some (f.a, 1, f.wa)
  | .dadd f _ | .dmul f _ | .dfma f _ | .dmin f | .dmax f => some (f.a, 2, f.wa)
  | .cvt f _ st _ => some (f.a, FullTy.regs st, f.wa)
  | .pack f _ | .unpk f _ _ | .scac f _ | .qnt f _ _ | .dqnt f _ | .tstp f => some (f.a, 1, f.wa)
  | _ => none
/-- The words of formats I, L and M-SYS with one register result: the register, how many, and the guard (R35, R84, R112). -/
def Instr.resultI : Instr → Option (RegRef × Nat)
  | .addi f | .andi f | .ori f | .xori f | .shli f | .shri f | .movi f => some (iRef f.u f.d, 1)
  | .movi64 _ u d _ | .addi64 _ u d _ _ => some (iRef u d, 2)
  | .srd _ d _ => some (.v d.toNat, 1)
  | _ => none
/-- The words that write one predicate (R79, R80, R84, R93). -/
def Instr.predicate : Instr → Option (BitVec 3)
  | .cmp f _ _ | .fcmp f _ | .dcmp f _ => some (dstPred f.d)
  | .pand _ d _ _ | .por _ d _ _ | .pxor _ d _ _ | .pnot _ d _ => some d
  | .cmpi f _ => some (f.d.extractLsb' 0 3)
  | _ => none
/-- The words that write one index register (R85). -/
def Instr.index : Instr → Option (BitVec 2)
  | .xset _ k | .xadd _ k => some k
  | _ => none
/-- The words that write nothing and change no memory (R38, R107, R141, R142). -/
def Instr.idle : Instr → Bool
  | .nop _ | .yield _ | .waitf _ _ | .matz _ => true
  | _ => false

/-- The words that join an instance of their group (R23, R184, R207). -/
def Instr.joins : Instr → Bool
  | .shfl _ _ | .vote _ _ _ | .elect _ | .matchg _ _ | .redg _ _ | .scang _ _ | .mma _ _ | .mmac _ _ => true
  | _ => false
/-- Bytes of an instruction word (R22, R35). -/
def Instr.bytes : Instr → Nat
  | .movi64 _ _ _ _ | .addi64 _ _ _ _ _ => 16
  | _ => 8

end Sys2Proof.Machine
end

