-- ==== Sys2Proof/Certificates/Slice0/Obligations.lean ====
section
/-! DEFINITION. The statements for the provers, family by family of the opcode table (R1 to R388). -/

open Sys2Proof Sys2Proof.Machine

/-- Exact integer results (R71 to R74, R78): the low W bits of the exact result are written, one item and all forms of
its operands, for ADD, SUB, SADD, SSUB, MUL, MULH, DIVQ, REM, MIN, MAX, MAD, MULW, DOT4, ABS and NEG. Logic, shifts
and bit counts (R75 to R78): the value each of AND, OR, XOR, ANDN, SHL, SHR, SHA, ROL, POPC, CLZ, CTZ, BREV, BEXT,
BINS and PERMB writes. -/
def Obligations.IntegerInstructions : Prop :=
  (
    (∀ (s : State) (ik : Nat) (it : Item) (g : Group) (f : VF) (r : RegRef) (a b : W64) (t : ITy),
      Solo s ik it g → guardHolds f.g it = true → Writes s ik it g f.d (ITy.regs t) r →
      Reads s ik it g f.a (ITy.regs t) f.wa a → Reads s ik it g f.b (ITy.regs t) f.wb b →
      let x := ITy.val t a
      let y := ITy.val t b
      let lo := ITy.lo t
      let hi := ITy.hi t
      let W := ITy.width t
      let gives := fun (i : Instr) (z : Int) =>
        exec i s = .next (s.wrote ik r (ITy.regs t) (z % (2 ^ W : Nat)).toNat 0 8)
      gives (.add f t) (x + y) ∧ gives (.sub f t) (x - y) ∧
      gives (.sadd f t) (if x + y < lo then lo else if hi < x + y then hi else x + y) ∧
      gives (.ssub f t) (if x - y < lo then lo else if hi < x - y then hi else x - y) ∧
      gives (.mul f t) (x * y) ∧ gives (.mulh f t) (x * y / (2 ^ W : Nat)) ∧
      gives (.divq f t) (if y = 0 then -1 else Int.tdiv x y) ∧
      gives (.rem f t) (if y = 0 then x else x - y * Int.tdiv x y) ∧
      gives (.min f t) (if x ≤ y then x else y) ∧ gives (.max f t) (if x ≤ y then y else x) ∧
      ∀ c : W64, Reads s ik it g f.c (ITy.regs t) f.wc c → gives (.mad f t) (x * y + ITy.val t c)) ∧
    (∀ (s : State) (ik : Nat) (it : Item) (g : Group) (f : VF) (r : RegRef) (a b : W64) (sg : Bool),
      Solo s ik it g → guardHolds f.g it = true → Writes s ik it g f.d 2 r →
      Reads s ik it g f.a 1 f.wa a → Reads s ik it g f.b 1 f.wb b →
      let t : ITy := if sg then .s32 else .z32
      exec (.mulw f sg) s = .next (s.wrote ik r 2 (ITy.val t a * ITy.val t b % (2 ^ 64 : Nat)).toNat 0 8)) ∧
    (∀ (s : State) (ik : Nat) (it : Item) (g : Group) (f : VF) (r : RegRef) (a b c : W64) (sa sb st : Bool),
      Solo s ik it g → guardHolds f.g it = true → Writes s ik it g f.d 1 r →
      Reads s ik it g f.a 1 f.wa a → Reads s ik it g f.b 1 f.wb b → Reads s ik it g f.c 1 f.wc c →
      let acc : ITy := if sa || sb then .s32 else .z32
      let sum := ITy.val acc c + byteInt sa a 0 * byteInt sb b 0 + byteInt sa a 1 * byteInt sb b 1 +
        byteInt sa a 2 * byteInt sb b 2 + byteInt sa a 3 * byteInt sb b 3
      exec (.dot4 f sa sb st) s = .next (s.wrote ik r 1
        ((if st then sat sum (ITy.lo acc) (ITy.hi acc) else sum) % (2 ^ 32 : Nat)).toNat 0 8)) ∧
    (∀ (s : State) (ik : Nat) (it : Item) (g : Group) (f : VF) (r : RegRef) (a : W64) (w : Bool),
      Solo s ik it g → guardHolds f.g it = true → Writes s ik it g f.d (wideRegs w) r →
      Reads s ik it g f.a (wideRegs w) f.wa a →
      let x := ITy.val (sty w) a
      let W := ITy.width (sty w)
      exec (.abs f w) s = .next (s.wrote ik r (wideRegs w) ((if x < 0 then -x else x) % (2 ^ W : Nat)).toNat 0 8) ∧
      exec (.neg f w) s = .next (s.wrote ik r (wideRegs w) (-x % (2 ^ W : Nat)).toNat 0 8))) ∧
  (
    (∀ (s : State) (ik : Nat) (it : Item) (g : Group) (f : VF) (r : RegRef) (a b : W64) (w : Bool),
      Solo s ik it g → guardHolds f.g it = true → Writes s ik it g f.d (wideRegs w) r →
      Reads s ik it g f.a (wideRegs w) f.wa a →
      let W := wbits w
      let x := a.toNat % 2 ^ W
      let gives := fun (i : Instr) (z : Nat) => exec i s = .next (s.wrote ik r (wideRegs w) z 0 8)
      (Reads s ik it g f.b (wideRegs w) f.wb b →
        gives (.and f w) ((a &&& b).toNat % 2 ^ W) ∧ gives (.or f w) ((a ||| b).toNat % 2 ^ W) ∧ gives (.xor f w) ((a ^^^ b).toNat % 2 ^ W) ∧
        gives (.andn f w) ((a &&& ~~~b).toNat % 2 ^ W)) ∧
      (Reads s ik it g f.b 1 f.wb b →
        let n := b.toNat % 2 ^ 32 % W
        gives (.shl f w) (x * 2 ^ n % 2 ^ W) ∧ gives (.shr f w) (x / 2 ^ n % 2 ^ W) ∧
        gives (.sha f w) (ITy.val (sty w) a / (2 ^ n : Nat) % (2 ^ W : Nat)).toNat ∧
        gives (.rol f w) ((x * 2 ^ n + x / 2 ^ (W - n)) % 2 ^ W) ∧
        gives (.bext f w) (fBext w a b)) ∧
      gives (.brev f w) (brev x W) ∧
      ∀ c : W64, Reads s ik it g f.b (wideRegs w) f.wb b → Reads s ik it g f.c 1 f.wc c →
        gives (.bins f w) (fBins w a b c)) ∧
    (∀ (s : State) (ik : Nat) (it : Item) (g : Group) (f : VF) (r : RegRef) (a : W64) (w : Bool),
      Solo s ik it g → guardHolds f.g it = true → Writes s ik it g f.d 1 r →
      Reads s ik it g f.a (wideRegs w) f.wa a →
      let x := a.toNat % 2 ^ wbits w
      exec (.popc f w) s = .next (s.wrote ik r 1 (popc x (wbits w)) 0 8) ∧
      exec (.clz f w) s = .next (s.wrote ik r 1 (clz x (wbits w)) 0 8) ∧
      exec (.ctz f w) s = .next (s.wrote ik r 1 (ctz x (wbits w)) 0 8)) ∧
    (∀ (s : State) (ik : Nat) (it : Item) (g : Group) (f : VF) (r : RegRef) (a b c : W64),
      Solo s ik it g → guardHolds f.g it = true → Writes s ik it g f.d 1 r →
      Reads s ik it g f.a 1 f.wa a → Reads s ik it g f.b 1 f.wb b → Reads s ik it g f.c 1 f.wc c →
      exec (.permb f) s = .next (s.wrote ik r 1
        (permByte a b c 0 + 256 * permByte a b c 1 + 65536 * permByte a b c 2 + 16777216 * permByte a b c 3) 0 8)))

/-- Compares and predicate logic (R79, R80, R84, R93, R48): CMP, CMPI, FCMP and DCMP write the truth of the condition
to the predicate they name, PAND, POR, PXOR and PNOT the logic of the old values; a predicate written reads the new
value, the others and `p0`, which always reads true, are unchanged. -/
def Obligations.ComparesAndPredicates : Prop :=
  (∀ (s : State) (ik : Nat) (it : Item) (g : Group) (f : VF) (a b : W64) (c : Cond) (t : ITy),
    Solo s ik it g → guardHolds f.g it = true →
    Reads s ik it g f.a (ITy.regs t) f.wa a → Reads s ik it g f.b (ITy.regs t) f.wb b →
    exec (.cmp f c t) s = .next (s.wroteP ik (dstPred f.d) (match c with
      | .eq => decide (ITy.val t a = ITy.val t b)
      | .ne => decide (ITy.val t a ≠ ITy.val t b)
      | .lt => decide (ITy.val t a < ITy.val t b)
      | .le => decide (ITy.val t a ≤ ITy.val t b)
      | .gt => decide (ITy.val t a > ITy.val t b)
      | .ge => decide (ITy.val t a ≥ ITy.val t b)) 0)) ∧
  (∀ (s : State) (ik : Nat) (it : Item) (g : Group) (f : IF) (c : CondI) (a : W64),
    Solo s ik it g → guardHolds f.g it = true → readRef it g (iRef f.u f.a) 1 false = .ok (a, none) →
    exec (.cmpi f c) s = .next (s.wroteP ik (f.d.extractLsb' 0 3) (match c with
      | .eq => decide (a.setWidth 32 = f.imm)
      | .ne => decide (a.setWidth 32 ≠ f.imm)
      | .ltS => (a.setWidth 32).slt f.imm
      | .leS => (a.setWidth 32).sle f.imm
      | .gtS => f.imm.slt (a.setWidth 32)
      | .geS => f.imm.sle (a.setWidth 32)
      | .ltZ => decide (a.setWidth 32 < f.imm)
      | .leZ => decide (a.setWidth 32 ≤ f.imm)
      | .gtZ => decide (a.setWidth 32 > f.imm)
      | .geZ => decide (a.setWidth 32 ≥ f.imm)) 0)) ∧
  (∀ (s : State) (ik : Nat) (it : Item) (g : Group) (gd : Guard) (d a b : BitVec 3),
    Solo s ik it g → guardHolds gd it = true →
    exec (.pand gd d a b) s = .next (s.wroteP ik d (it.pred a && it.pred b) 0) ∧
    exec (.por gd d a b) s = .next (s.wroteP ik d (it.pred a || it.pred b) 0) ∧
    exec (.pxor gd d a b) s = .next (s.wroteP ik d (it.pred a != it.pred b) 0) ∧
    exec (.pnot gd d a) s = .next (s.wroteP ik d (!it.pred a) 0)) ∧
  ∀ (it : Item) (n m : BitVec 3) (b : Bool),
    (it.setPred n b).pred m = (if m = n ∧ n ≠ 0 then b else it.pred m) ∧ it.pred 0 = true

/-- Moves and immediate forms (R81 to R84, R87, R35): what SEL, MOV, MOVG, MOVS, ADDI, ANDI, ORI, XORI, SHLI, SHRI,
MOVI, MOVI64, ADDI64 and LEA write. SEL gives the destination the value and the tag of the selected source alone; MOVG
traps `IDX_RANGE` where A is above 63. -/
def Obligations.MovesAndImmediates : Prop :=
  (∀ (s : State) (ik : Nat) (it : Item) (g : Group) (f : VF) (r : RegRef) (a : W64) (w : Bool),
    Solo s ik it g → guardHolds f.g it = true → Writes s ik it g f.d (wideRegs w) r → Reads s ik it g f.a (wideRegs w) f.wa a →
    exec (.mov f w) s = .next (s.wrote ik r (wideRegs w) (a.toNat % 2 ^ wbits w) 0 8)) ∧
  (∀ (s : State) (ik : Nat) (it : Item) (g : Group) (f : VF) (r : RegRef) (w : Bool) (p : BitVec 3) (a b : W64) (pa pb : Option W32),
    Solo s ik it g → guardHolds f.g it = true → Writes s ik it g f.d (wideRegs w) r →
    readSrc (s.quotaOfItem ik) it g f.a (wideRegs w) f.wa = .ok (a, pa) →
    readSrc (s.quotaOfItem ik) it g f.b (wideRegs w) f.wb = .ok (b, pb) →
    exec (.sel f w p) s = .next (match (if it.pred p then pa else pb) with
      | none => s.wrote ik r (wideRegs w) ((if it.pred p then a else b).toNat % 2 ^ wbits w) 0 8
      | some n => (s.destPoison ik r (wideRegs w) n).advance ik 8)) ∧
  (∀ (s : State) (ik : Nat) (it : Item) (g : Group) (f : VF) (r : RegRef) (a : W64),
    Solo s ik it g → guardHolds f.g it = true → Writes s ik it g f.d 1 r → readSrc (s.quotaOfItem ik) it g f.a 1 f.wa = .ok (a, none) →
    (63 < a.toNat % 2 ^ 32 → exec (.movg f) s = .next (s.takeTrap ik ⟨0x02, 0, 0, 0⟩ s.cur.pc)) ∧
    (a.toNat % 2 ^ 32 ≤ 63 → ∀ v : W64, readRef it g (.g (a.toNat % 2 ^ 32)) 1 f.wa = .ok (v, none) →
      exec (.movg f) s = .next (s.wrote ik r 1 v.toNat 0 8))) ∧
  (∀ (s : State) (ik : Nat) (it : Item) (g : Group) (f : VF) (r : RegRef) (sv : Special),
    Solo s ik it g → guardHolds f.g it = true → Writes s ik it g f.d (Special.regs sv) r →
    exec (.movs f sv) s = .next (s.wrote ik r (Special.regs sv) (special s ik g sv) 0 8)) ∧
  (∀ (s : State) (ik : Nat) (it : Item) (g : Group) (f : IF) (a : W64),
    Solo s ik it g → guardHolds f.g it = true → refBusy it g (s.leads ik) (iRef f.u f.d) 1 = false →
    let gives := fun (i : Instr) (z : W32) => exec i s = .next (s.wrote ik (iRef f.u f.d) 1 z.toNat 0 8)
    gives (.movi f) f.imm ∧
    (readRef it g (iRef f.u f.a) 1 false = .ok (a, none) →
      gives (.addi f) (a.setWidth 32 + f.imm) ∧ gives (.andi f) (a.setWidth 32 &&& f.imm) ∧
      gives (.ori f) (a.setWidth 32 ||| f.imm) ∧ gives (.xori f) (a.setWidth 32 ^^^ f.imm) ∧
      gives (.shli f) (a.setWidth 32 <<< f.imm.toNat) ∧ gives (.shri f) (a.setWidth 32 >>> f.imm.toNat))) ∧
  (∀ (s : State) (ik : Nat) (it : Item) (g : Group) (gd : Guard) (u : Bool) (d x : Fld) (imm a : W64),
    Solo s ik it g → guardHolds gd it = true → refBusy it g (s.leads ik) (iRef u d) 2 = false →
    exec (.movi64 gd u d imm) s = .next (s.wrote ik (iRef u d) 2 imm.toNat 0 16) ∧
    (readRef it g (iRef u x) 2 false = .ok (a, none) →
      exec (.addi64 gd u d x imm) s = .next (s.wrote ik (iRef u d) 2 (a + imm).toNat 0 16))) ∧
  ∀ (s : State) (ik : Nat) (it : Item) (g : Group) (f : VF) (r : RegRef) (sh : BitVec 4) (a b : W64),
    Solo s ik it g → guardHolds f.g it = true → Writes s ik it g f.d 2 r →
    Reads s ik it g f.a 2 f.wa a → Reads s ik it g f.b 1 f.wb b →
    exec (.lea f sh) s = .next (s.wrote ik r 2
      (((a.toNat : Int) + (if sh.getLsbD 3 then ((b.toNat % 2 ^ 32 : Nat) : Int) else (b.setWidth 32).toInt) *
        (2 ^ (sh.toNat % 8) : Nat)) % (2 ^ 64 : Nat)).toNat 0 8)

/-- Index registers (R85, R86, R47): XSET sets BASE and LAST and clears OFS, XADD adds to OFS or traps `IDX_RANGE`
outside its 16 bits, XGET reads the image; an indexed reference names register BASE + OFS + d, from BASE to LAST and
inside the quota, at a multiple of its width. -/
def Obligations.IndexRegisters : Prop :=
  (∀ (s : State) (ik : Nat) (it : Item) (g : Group) (f : VF) (k : BitVec 2) (a b : W64),
    Solo s ik it g → guardHolds f.g it = true → Reads s ik it g f.a 1 f.wa a → Reads s ik it g f.b 1 f.wb b →
    exec (.xset f k) s = .next (if a.toNat % 2 ^ 32 ≤ 255 ∧ b.toNat % 2 ^ 32 ≤ 255 then
        (s.updItem ik (fun i => { i with x := setAt i.x k.toNat ⟨0, a.setWidth 8, b.setWidth 8⟩ })).advance ik 8
      else s.takeTrap ik ⟨0x02, 0, 0, 0⟩ s.cur.pc)) ∧
  (∀ (s : State) (ik : Nat) (it : Item) (g : Group) (f : VF) (k : BitVec 2) (a : W64) (x : XReg),
    Solo s ik it g → guardHolds f.g it = true → Reads s ik it g f.a 1 f.wa a → it.x[k.toNat]? = some x →
    let o := x.ofs.toInt + (a.setWidth 32).toInt
    exec (.xadd f k) s = .next (if -32768 ≤ o ∧ o ≤ 32767 then
        (s.updItem ik (fun i => { i with x := setAt i.x k.toNat { x with ofs := BitVec.ofInt 16 o } })).advance ik 8
      else s.takeTrap ik ⟨0x02, 0, 0, 0⟩ s.cur.pc)) ∧
  (∀ (s : State) (ik : Nat) (it : Item) (g : Group) (f : VF) (k : BitVec 2) (r : RegRef) (x : XReg),
    Solo s ik it g → guardHolds f.g it = true → Writes s ik it g f.d 1 r → it.x[k.toNat]? = some x →
    exec (.xget f k) s = .next (s.wrote ik r 1 (x.last.toNat + 256 * x.base.toNat + 65536 * x.ofs.toNat) 0 8)) ∧
  ∀ (q n w : Nat) (it : Item) (k : BitVec 2) (d : BitVec 6) (x : XReg), it.x[k.toNat]? = some x → 0 < w →
    (resolveIdx q it k d w = some n ↔
      (n : Int) = x.base.toNat + x.ofs.toInt + d.toInt ∧ x.base.toNat ≤ n ∧ n + w - 1 ≤ x.last.toNat ∧ n + w - 1 < q ∧ n % w = 0)

/-- FP32 arithmetic (R88 to R95): each of FADD, FSUB, FMUL, FFMA, FMIN, FMAX, FCLASS and the special functions writes
the result of its operation on the values of its sources, an immediate standing for the number it names (R89), and
leaves its exception flags in the group; FCMP and DCMP write their predicate. -/
def Obligations.FloatArithmetic : Prop :=
  ∀ (s : State) (ik : Nat) (it : Item) (g : Group) (f : VF), Solo s ik it g → guardHolds f.g it = true →
  (∀ (r : RegRef) (a : W64), Writes s ik it g f.d 1 r → Reads s ik it g f.a 1 f.wa a →
    let xa := immBits (.flt .f32) f.a a
    let gives := fun (i : Instr) (z : Nat × Flg) => exec i s = .next (s.wrote ik r 1 z.1 z.2 8)
    gives (.fclass f) (fpClass xa, 0) ∧ gives (.frcp f) (fpDiv .f32 .rne (.fin false 1 0) (Fmt.val .f32 xa)) ∧
    gives (.frsq f) (fpRsqrt .f32 (Fmt.val .f32 xa)) ∧ (∀ m, gives (.fsqrt f m) (fpSqrt .f32 m (Fmt.val .f32 xa))) ∧
    gives (.fexp2 f) (fpExp2 (Fmt.val .f32 xa)) ∧ gives (.flog2 f) (fpLog2 (Fmt.val .f32 xa)) ∧
    gives (.ftanh f) (fpTanh (Fmt.val .f32 xa)) ∧
    ∀ b : W64, Reads s ik it g f.b 1 f.wb b →
      let xb := immBits (.flt .f32) f.b b
      (∀ m, gives (.fadd f m) (fpAdd .f32 m (Fmt.val .f32 xa) (Fmt.val .f32 xb)) ∧
        gives (.fsub f m) (fpAdd .f32 m (Fmt.val .f32 xa) (Fmt.val .f32 xb).negate) ∧
        gives (.fmul f m) (fpMul .f32 m (Fmt.val .f32 xa) (Fmt.val .f32 xb)) ∧
        gives (.fdiv f m) (fpDiv .f32 m (Fmt.val .f32 xa) (Fmt.val .f32 xb))) ∧
      gives (.fmin f) (fpMinMax .f32 false xa xb) ∧ gives (.fmax f) (fpMinMax .f32 true xa xb) ∧
      ∀ c : W64, Reads s ik it g f.c 1 f.wc c → ∀ m,
        gives (.ffma f m)
          (fpFma .f32 m (Fmt.val .f32 xa) (Fmt.val .f32 xb) (Fmt.val .f32 (immBits (.flt .f32) f.c c)))) ∧
  (∀ (a b : W64) (c : FCond), Reads s ik it g f.a 1 f.wa a → Reads s ik it g f.b 1 f.wb b →
    let z := fpCmp .f32 c (immBits (.flt .f32) f.a a) (immBits (.flt .f32) f.b b)
    exec (.fcmp f c) s = .next (s.wroteP ik (dstPred f.d) z.1 z.2)) ∧
  ∀ (a b : W64) (c : FCond), Reads s ik it g f.a 2 f.wa a → Reads s ik it g f.b 2 f.wb b →
    let z := fpCmp .f64 c (immBits (.flt .f64) f.a a) (immBits (.flt .f64) f.b b)
    exec (.dcmp f c) s = .next (s.wroteP ik (dstPred f.d) z.1 z.2)

/-- Packed halves and FP64 (R91, R92): a packed instruction works on the low halves and on the high halves of its
sources and joins the two results and their flags; an FP64 instruction writes a pair. -/
def Obligations.PackedAndDouble : Prop :=
  ∀ (s : State) (ik : Nat) (it : Item) (g : Group) (f : VF) (r : RegRef), Solo s ik it g → guardHolds f.g it = true →
  (∀ (a b : W64) (bf : Bool), Writes s ik it g f.d 1 r → Reads s ik it g f.a 1 f.wa a → Reads s ik it g f.b 1 f.wb b →
    let h : Fmt := if bf then .bf16 else .f16
    let xa := immBits (.halves h) f.a a
    let xb := immBits (.halves h) f.b b
    let val := fun (x : Nat) => Fmt.val h x
    let gives := fun (i : Instr) (z y : Nat × Flg) =>
      exec i s = .next (s.wrote ik r 1 (z.1 + 65536 * y.1) (z.2 ||| y.2) 8)
    (∀ m, gives (.pfadd f bf m) (fpAdd h m (val (xa % 65536)) (val (xb % 65536)))
          (fpAdd h m (val (xa / 65536 % 65536)) (val (xb / 65536 % 65536))) ∧
        gives (.pfmul f bf m) (fpMul h m (val (xa % 65536)) (val (xb % 65536)))
          (fpMul h m (val (xa / 65536 % 65536)) (val (xb / 65536 % 65536)))) ∧
    gives (.pfmin f bf) (fpMinMax h false (xa % 65536) (xb % 65536))
      (fpMinMax h false (xa / 65536 % 65536) (xb / 65536 % 65536)) ∧
    gives (.pfmax f bf) (fpMinMax h true (xa % 65536) (xb % 65536))
      (fpMinMax h true (xa / 65536 % 65536) (xb / 65536 % 65536)) ∧
    ∀ c : W64, Reads s ik it g f.c 1 f.wc c → ∀ m,
      let xc := immBits (.halves h) f.c c
      gives (.pfma f bf m) (fpFma h m (val (xa % 65536)) (val (xb % 65536)) (val (xc % 65536)))
        (fpFma h m (val (xa / 65536 % 65536)) (val (xb / 65536 % 65536)) (val (xc / 65536 % 65536)))) ∧
  ∀ (a b : W64), Writes s ik it g f.d 2 r → Reads s ik it g f.a 2 f.wa a → Reads s ik it g f.b 2 f.wb b →
    let xa := immBits (.flt .f64) f.a a
    let xb := immBits (.flt .f64) f.b b
    let gives := fun (i : Instr) (z : Nat × Flg) => exec i s = .next (s.wrote ik r 2 z.1 z.2 8)
    (∀ m, gives (.dadd f m) (fpAdd .f64 m (Fmt.val .f64 xa) (Fmt.val .f64 xb)) ∧
        gives (.dmul f m) (fpMul .f64 m (Fmt.val .f64 xa) (Fmt.val .f64 xb))) ∧
    gives (.dmin f) (fpMinMax .f64 false xa xb) ∧ gives (.dmax f) (fpMinMax .f64 true xa xb) ∧
    ∀ c : W64, Reads s ik it g f.c 2 f.wc c → ∀ m,
      gives (.dfma f m) (fpFma .f64 m (Fmt.val .f64 xa) (Fmt.val .f64 xb) (Fmt.val .f64 (immBits (.flt .f64) f.c c)))

/-- Conversions, packing and block scales (R96 to R101): what CVT, PACK, UNPK, SCAC, QNT and DQNT write; a `.c4` code
is read with the codebook registers of the item's team. -/
def Obligations.ConversionsAndScales : Prop :=
  ∀ (s : State) (ik : Nat) (it : Item) (g : Group) (f : VF) (r : RegRef), Solo s ik it g → guardHolds f.g it = true →
  (∀ (dt st : FullTy) (m : RMode) (a : W64), Writes s ik it g f.d (FullTy.regs dt) r → Reads s ik it g f.a (FullTy.regs st) f.wa a →
    let z := fCvt dt st m a.toNat
    exec (.cvt f dt st m) s = .next (s.wrote ik r (FullTy.regs dt) z.1 z.2 8)) ∧
  (Writes s ik it g f.d 1 r → ∀ a : W64, Reads s ik it g f.a 1 f.wa a →
    let gives := fun (i : Instr) (z : Nat × Flg) => exec i s = .next (s.wrote ik r 1 z.1 z.2 8)
    (∀ (t : FullTy) (h : Bool), gives (.unpk f t h) (fUnpk t h (a.toNat % 2 ^ 32), 0)) ∧
    ∀ b : W64, Reads s ik it g f.b 1 f.wb b →
      (∀ t, gives (.pack f t) (fPack t (a.toNat % 2 ^ 32) (b.toNat % 2 ^ 32), 0)) ∧
      (∀ t m, gives (.qnt f t m) (fQnt (s.cbsOf ik) t m (immBits (.flt .f32) f.a a) b.toNat)) ∧
      (∀ t, gives (.dqnt f t) (fDqnt (s.cbsOf ik) t a.toNat b.toNat)) ∧
      ∀ c : W64, Reads s ik it g f.c 1 f.wc c → ∀ m,
        gives (.scac f m) (fpAdd .f32 m (Num.scale (Fmt.val .f32 (immBits (.flt .f32) f.a a))
          (scaleExp (b.toNat % 256) + scaleExp (b.toNat / 256 % 256))) (Fmt.val .f32 (immBits (.flt .f32) f.c c))))

/-- `Val` and `Round` agree (R57, R60, R61): the value of every finite encoding of every format, rounded to that
format under any mode, is that encoding, with no flag raised; and rounding toward zero brackets: a magnitude that does
not overflow is rounded to the greatest one of the format that is not above it. -/
def Obligations.RoundingIsExact : Prop :=
  (∀ (f : Fmt) (mode : RMode) (x : Nat) (n : Bool) (m : Nat) (e : Int), x < 2 ^ Fmt.bits f → Fmt.val f x = .fin n m e →
    numTo f mode (Fmt.val f x) = (x, 0)) ∧
  ∀ (f : Fmt) (m : Nat) (e : Int) (x : Nat) (mx : Nat) (ex : Int) (my : Nat) (ey : Int), m ≠ 0 → x < Fmt.maxMag f →
    Fmt.val f x = .fin false mx ex → Fmt.val f (x + 1) = .fin false my ey →
    ((roundTo f .rtz false m e false).1 = x ↔
      (mx : ℚ) * 2 ^ ex ≤ m * 2 ^ e ∧ (m : ℚ) * 2 ^ e < my * 2 ^ ey)

/-- A false guard (R23, R39): an item whose guard is false passes the word and nothing else happens; at a word that
joins an instance it is accounted for there (R184), and a branch it has not taken sends it to the next word (R103). -/
def Obligations.FalseGuardPasses : Prop :=
  ∀ (s : State) (ik : Nat) (it : Item) (g : Group) (i : Instr) (gd : Guard), Solo s ik it g →
    Instr.guard? i = some gd → guardHolds gd it = false →
    exec i s = .next (
      if Instr.joins i then (s.passWord ik s.cur.pc).advance ik 8
      else if Instr.branches i then joinTargets s (s.advance ik 8)
      else s.advance ik (Instr.bytes i))

/-- A register result is written (R10, R50, R56, R69): the destination registers hold the parts of the value, lowest
first, FULL and without a claim; a uniform register only where the bundle contains the leader; the exception flags are
added; every other register, predicate, index register and system register of the item, and everything else, stays.
Poison reaches a destination (R70, R113): each of its registers takes the record's index, POISON, without a claim. -/
def Obligations.RegisterWrites : Prop :=
  (
    ∀ (s : State) (ik : Nat) (it : Item) (g : Group) (r : RegRef) (n v : Nat) (fl : Flg) (len : Nat), Solo s ik it g →
      OnlyItem s (s.wrote ik r n v fl len) ik ∧ (s.wrote ik r n v fl len).cores = s.cores ∧
      ∃ it' g', (s.wrote ik r n v fl len).item? ik = some it' ∧
        AMap.find (s.wrote ik r n v fl len).groups (groupOf ik) = some g' ∧
        it' = { it with pc := it.pc + BitVec.ofNat 64 len, skip := false, v := it'.v } ∧
        g' = { g with fstat := g.fstat ||| fl, g := g'.g } ∧
        (∀ j, it'.reg j = match r with
          | .v k => if k ≤ j ∧ j < k + n ∧ j < it.v.length then ⟨BitVec.ofNat 32 (v / 2 ^ (32 * (j - k))), .full, none⟩ else it.reg j
          | .g _ => it.reg j) ∧
        ∀ j, g'.reg j = match r with
          | .v _ => g.reg j
          | .g k => if s.leads ik = true ∧ k ≤ j ∧ j < k + n ∧ j < g.g.length then
              ⟨BitVec.ofNat 32 (v / 2 ^ (32 * (j - k))), .full, none⟩ else g.reg j) ∧
  (
    ∀ (s : State) (ik : Nat) (it : Item) (g : Group) (r : RegRef) (n : Nat) (p : W32), Solo s ik it g →
      OnlyItem s (s.destPoison ik r n p) ik ∧
      ∃ it' g', (s.destPoison ik r n p).item? ik = some it' ∧
        AMap.find (s.destPoison ik r n p).groups (groupOf ik) = some g' ∧
        it' = { it with v := it'.v } ∧ g' = { g with g := g'.g } ∧
        (∀ j, it'.reg j = match r with
          | .v k => if k ≤ j ∧ j < k + n ∧ j < it.v.length then ⟨p &&& 0x3F, .poison, none⟩ else it.reg j
          | .g _ => it.reg j) ∧
        ∀ j, g'.reg j = match r with
          | .v _ => g.reg j
          | .g k => if s.leads ik = true ∧ k ≤ j ∧ j < k + n ∧ j < g.g.length then ⟨p &&& 0x3F, .poison, none⟩ else g.reg j)

/-- The frame of the register instructions (R69, R84, R90): a word whose result is registers changes no other register
of the item or of its group, no predicate, no index register, no exception register unless it traps, no flag but to
set it, no other item or group, no special register of the core, and no byte of memory. The frame of the immediate
forms, predicate writes, index registers and idle words (R80, R84, R85): nothing changes but the one register,
predicate or index register that the word names, the program counter, and the exception registers where the word
traps; no byte of memory changes. -/
def Obligations.InstructionFrames : Prop :=
  (
    ∀ (s : State) (ik : Nat) (it : Item) (g : Group) (i : Instr) (f : VF) (n : Nat) (t : State), Solo s ik it g →
      Instr.result i = some (f, n) → exec i s = .next t →
      OnlyItem s t ik ∧ (∀ a, t.mem.read a = s.mem.read a) ∧
      ∃ it' g', t.item? ik = some it' ∧ AMap.find t.groups (groupOf ik) = some g' ∧
        it' = { it with pc := it'.pc, v := it'.v, h := it'.h, m := it'.m, skip := it'.skip } ∧
        g' = { g with g := g'.g, fstat := g'.fstat, halt := g'.halt, haltReq := g'.haltReq, stepping := g'.stepping } ∧
        (it'.v = it.v ∧ g'.g = g.g ∧ g'.fstat = g.fstat ∨
          it'.h = it.h ∧ it'.m = it.m ∧ g'.halt = g.halt ∧ t.cores = s.cores) ∧
        g'.fstat &&& g.fstat = g.fstat ∧
        (∀ j, (∀ k, dstRef (s.quotaOfItem ik) it f.d n = .ok (some (.v k)) → j < k ∨ k + n ≤ j) → it'.reg j = it.reg j) ∧
        ∀ j, (∀ k, dstRef (s.quotaOfItem ik) it f.d n = .ok (some (.g k)) → j < k ∨ k + n ≤ j) → g'.reg j = g.reg j) ∧
  (
    ∀ (s : State) (ik : Nat) (it : Item) (g : Group) (i : Instr) (t : State), Solo s ik it g →
      ((Instr.resultI i).isSome ∨ (Instr.predicate i).isSome ∨ (Instr.index i).isSome ∨ Instr.idle i = true) → exec i s = .next t →
      OnlyItem s t ik ∧ (∀ a, t.mem.read a = s.mem.read a) ∧
      ∃ it' g', t.item? ik = some it' ∧ AMap.find t.groups (groupOf ik) = some g' ∧
        it' = { it with pc := it'.pc, v := it'.v, p := it'.p, x := it'.x, h := it'.h, m := it'.m, skip := it'.skip } ∧
        g' = { g with g := g'.g, fstat := g'.fstat, halt := g'.halt, haltReq := g'.haltReq, stepping := g'.stepping } ∧
        (it'.v = it.v ∧ it'.p = it.p ∧ it'.x = it.x ∧ g'.g = g.g ∧ g'.fstat = g.fstat ∨
          it'.h = it.h ∧ it'.m = it.m ∧ g'.halt = g.halt ∧ t.cores = s.cores) ∧
        g'.fstat &&& g.fstat = g.fstat ∧
        (∀ j, (∀ k n, Instr.resultI i = some (.v k, n) → j < k ∨ k + n ≤ j) → it'.reg j = it.reg j) ∧
        (∀ j, (∀ k n, Instr.resultI i = some (.g k, n) → j < k ∨ k + n ≤ j) → g'.reg j = g.reg j) ∧
        (∀ d, Instr.predicate i ≠ some d ∨ d = 0 → it'.pred d = it.pred d) ∧
        ∀ k, Instr.index i ≠ some k → it'.xreg k.toNat = it.xreg k.toNat)

/-- Operands that are not ready (R11, R53): a register operand is ready when none of its registers is EMPTY; else the
item waits, which changes nothing of it, or under its wait bit traps `EMPTY_USE`; a word with a register result waits
as well while its destination is EMPTY. POISON sources (R70, R90, R113): with all its sources readable, a word of two
sources propagates the record of the first POISON one to its destination; a compare and a write of an index register
trap `POISON_USE` instead, and change nothing else. -/
def Obligations.OperandTags : Prop :=
  (
    (∀ (it : Item) (g : Group) (r : RegRef) (w : Nat) (wb : Bool),
      ((∀ i, i < w → (regAt it g (r.plus i)).tag ≠ .empty) →
        ∃ p, readRef it g r w wb = .ok (BitVec.ofNat 64 (regsVal (regsAt it g r w)), p) ∧
          (p = none ↔ ∀ i, i < w → (regAt it g (r.plus i)).tag ≠ .poison)) ∧
      ((∃ i, i < w ∧ (regAt it g (r.plus i)).tag = .empty) →
        readRef it g r w wb = if wb then .error (.trap ⟨0x03, 0, 0, 0⟩) else .error .wait)) ∧
    ∀ (s : State) (ik : Nat) (it : Item) (g : Group) (i : Instr) (f : VF) (n : Nat), Solo s ik it g →
      Instr.result i = some (f, n) → guardHolds f.g it = true →
      (dstBusy (s.quotaOfItem ik) it g (s.leads ik) f.d n = true → exec i s = .next (s.leave ik)) ∧
      (dstBusy (s.quotaOfItem ik) it g (s.leads ik) f.d n = false → ∀ x w wb, Instr.source i = some (x, w, wb) →
        (readSrc (s.quotaOfItem ik) it g x w wb = .error .wait → exec i s = .next (s.leave ik)) ∧
        ∀ tr, readSrc (s.quotaOfItem ik) it g x w wb = .error (.trap tr) →
          exec i s = .next (s.takeTrap ik tr s.cur.pc))) ∧
  (
    ∀ (s : State) (ik : Nat) (it : Item) (g : Group) (f : VF) (a b : W64) (pa pb : Option W32) (p : W32), Solo s ik it g →
      guardHolds f.g it = true → firstOf3 pa pb none = some p →
      (∀ (t : ITy) (r : RegRef), Writes s ik it g f.d (ITy.regs t) r →
        readSrc (s.quotaOfItem ik) it g f.a (ITy.regs t) f.wa = .ok (a, pa) →
        readSrc (s.quotaOfItem ik) it g f.b (ITy.regs t) f.wb = .ok (b, pb) →
        ∀ i ∈ [Instr.add f t, .sub f t, .sadd f t, .ssub f t, .mul f t, .mulh f t, .divq f t, .rem f t, .min f t, .max f t],
          exec i s = .next ((s.destPoison ik r (ITy.regs t) p).advance ik 8)) ∧
      (readSrc (s.quotaOfItem ik) it g f.a 1 f.wa = .ok (a, pa) → readSrc (s.quotaOfItem ik) it g f.b 1 f.wb = .ok (b, pb) →
        (∀ (r : RegRef) (m : RMode), Writes s ik it g f.d 1 r →
          ∀ i ∈ [Instr.fadd f m, .fsub f m, .fmul f m, .fdiv f m, .fmin f, .fmax f],
            exec i s = .next ((s.destPoison ik r 1 p).advance ik 8)) ∧
        ∀ (c : FCond) (d : Cond) (k : BitVec 2), ∀ i ∈ [Instr.fcmp f c, .cmp f d .s32, .cmp f d .z32, .xset f k],
          exec i s = .next (s.takeTrap ik (poisonTrap s ik p) s.cur.pc)))

/-- Predicates (R48). An item starts with `p1` to `p7` false; `p0` always reads true; a write to `p0` changes nothing,
and reading a predicate is a function of the item's predicates alone. -/
def Obligations.Predicates : Prop :=
  (∀ (q : Nat) (pc : W64) (n : BitVec 3), n ≠ 0 → (Item.start q pc).pred n = false) ∧
  (∀ it : Item, it.pred 0 = true) ∧
  (∀ (it : Item) (b : Bool), it.setPred 0 b = it) ∧
  ∀ (it : Item) (n m : BitVec 3) (b : Bool), n ≠ 0 → (it.setPred n b).pred m = if m = n then b else it.pred m

/-- The leader rule (R50): a write to a uniform destination from a bundle without the leader is discarded whole: no
value, no tag, and a load into it neither marks it EMPTY nor is sent. That a bundle contains the leader whatever its
guard says is the reading of log entry 4. -/
def Obligations.LeaderRule : Prop :=
  ∀ (s : State) (ik : Nat), s.leads ik = false →
    (∀ k n v, s.dest ik (.g k) n v = s) ∧ (∀ k n p, s.destPoison ik (.g k) n p = s) ∧
    ∀ (it : Item) (g : Group) (f : MF) (k : BitVec 6) (a : W64) (p : Option W32), Solo s ik it g → guardHolds f.g it = true →
      f.data = .g k → s.acqPending ik = false →
      (readAddr (s.quotaOfItem ik) it g f false = .ok (a, p) → exec (.ld f) s = .next (s.advance ik 8)) ∧
      (readAddr (s.quotaOfItem ik) it g f true = .ok (a, p) → exec (.lds f) s = .next (s.advance ik 8))

/-- Taking a trap at the word at `pc` (R108, R221, R222, R223). A launch cause enters the launch handler of the card:
the H registers hold the trap's values and the saved program counter, which is the word's, or the next word's for
TRAP; the in-handler flag is set, the item goes to the handler. A monitor cause, a trap inside the handler, or a card
without a handler enters the monitor: the M registers, with the word's address, or the next word's for SVC, MON, FROMH
and NOH, and the item goes to its job's monitor entry on its core. With MON set the trap is not delivered: the group
halts and a DOUBLE event names the cause. Nothing else of the item changes. -/
def Obligations.TrapEntry : Prop :=
  ∀ (s : State) (ik : Nat) (it : Item) (t : Trap) (pc : W64), s.item? ik = some it →
    let handler := (s.cardOf (launchOf ik)).handler
    let monitorCause := t.cause ∈ [0x07, 0x08, 0x13, 0x14, 0x15, 0x40, 0x42]
    let u := s.takeTrap ik t pc
    OnlyItem s u ik ∧
    (it.m.mon = false → ¬monitorCause → handler ≠ 0 → it.h.flag = false →
      u.cores = s.cores ∧ u.groups = s.groups ∧ u.item? ik = some { it with
        pc := handler, skip := false
        h := { cause := BitVec.ofNat 32 t.cause, pc := if t.cause = 0x06 then pc + 8 else pc, addr := t.addr, info := t.info, flag := true, lpc := t.lpc } }) ∧
    (it.m.mon = false → (monitorCause ∨ handler = 0 ∨ it.h.flag = true) →
      u.cores = s.cores ∧ u.groups = s.groups ∧ u.item? ik = some { it with
        pc := s.mvecOf (s.coreOf ik) (jobOf ik), skip := false
        m := { cause := BitVec.ofNat 32 t.cause, pc := if t.cause = 0x08 then pc + 8 else pc, addr := t.addr, info := t.info,
               mon := true, fromh := it.h.flag, noh := decide (¬monitorCause ∧ handler = 0) } }) ∧
    (it.m.mon = true →
      u.item? ik = some it ∧
      (∀ g, AMap.find s.groups (groupOf ik) = some g → AMap.find u.groups (groupOf ik) =
        some { g with halt := some .double, haltReq := false, stepping := false }) ∧
      (u.core (s.coreOf ik)).events = (s.core (s.coreOf ik)).events ++
        [⟨0x43, t.cause, grpNo ik, it.pc, BitVec.ofNat 32 (65536 * 2 ^ posOf ik), 0⟩])

/-- SVC, BKPT and TRAP (R109, R222): each takes its trap with the immediate as its information. SVC saves the address
of the next word, BKPT its own, and TRAP that of the next word in the launch handler and its own in the monitor. -/
def Obligations.TrapInstructions : Prop :=
  ∀ (s : State) (ik : Nat) (it : Item) (g : Group) (gd : Guard) (imm : W32), Solo s ik it g → guardHolds gd it = true →
    let handler := (s.cardOf (launchOf ik)).handler
    let traps := fun (i : Instr) (cause : Nat) => exec i s = .next (s.takeTrap ik ⟨cause, imm, 0, 0⟩ s.cur.pc)
    traps (.svc gd imm) 0x08 ∧ traps (.bkpt gd imm) 0x07 ∧ traps (.trap gd imm) 0x06 ∧
    (it.m.mon = false → ∀ p ∈ [(Instr.svc gd imm, 0x08, s.cur.pc + 8), (.bkpt gd imm, 0x07, s.cur.pc), (.trap gd imm, 0x06, s.cur.pc)],
      (p.2.1 = 0x06 → handler = 0 ∨ it.h.flag = true) → ∃ t i, exec p.1 s = .next t ∧ t.item? ik = some i ∧
        i.m.cause = BitVec.ofNat 32 p.2.1 ∧ i.m.pc = p.2.2 ∧ i.m.info = imm ∧ i.m.mon = true) ∧
    (it.m.mon = false → handler ≠ 0 → it.h.flag = false → ∃ t i, exec (.trap gd imm) s = .next t ∧ t.item? ik = some i ∧
      i.h.cause = 0x06 ∧ i.h.pc = s.cur.pc + 8 ∧ i.h.info = imm ∧ i.h.flag = true ∧ i.pc = handler)

/-- Returning from a trap (R110, R183, R223, R225, R229, R233). With MON set ERET goes to the monitor's saved program
counter, clears MON and leaves the in-handler flag; else, with the in-handler flag set, it goes to the launch
handler's and clears that flag, or ends the item where it was cancelled; with neither it traps `ILL_INSTR`. Of the
item's waits those stay that were begun at the word it returns to, at the level it returns to, and those of levels
further out. A return from a breakpoint or watchpoint skips it once, and a return from the monitor has the loads of a
taken `POISON_FULL` try again. -/
def Obligations.ReturnFromTrap : Prop :=
  ∀ (s : State) (ik : Nat) (it : Item) (g : Group) (gd : Guard), Solo s ik it g → guardHolds gd it = true → it.ending = false →
    let kept := fun (pc : W64) (lvl : Nat) => it.waits.filter (fun w => w.1 == ⟨pc, lvl⟩ || decide (w.1.lvl < lvl))
    (it.m.mon = true → exec (.eret gd) s = .next { s.updItem ik (fun _ => { it with
      pc := it.m.pc, m := { it.m with mon := false }
      skip := decide (it.m.cause = 0x42 ∨ it.m.cause = 0x40)
      full := it.full.filter (fun f => !f.2)
      waits := kept it.m.pc (if it.h.flag then 1 else 0) }) with moved := true }) ∧
    (it.m.mon = false → it.h.flag = true → it.cancelled = false → exec (.eret gd) s = .next { s.updItem ik (fun _ => { it with
      pc := it.h.pc, h := { it.h with flag := false }, skip := false, waits := kept it.h.pc 0 }) with moved := true }) ∧
    (it.m.mon = false → it.h.flag = true → it.cancelled = true →
      exec (.eret gd) s = .next { s.beginEnd ik with moved := true }) ∧
    (it.m.mon = false → it.h.flag = false → exec (.eret gd) s = .next (s.takeTrap ik ⟨0x01, 0, 0, 0⟩ s.cur.pc))

/-- Events at an instruction boundary (R39, R40, R104, R224, R225, R233): an illegal word traps the items whose guard
is true and does nothing else, a failed fetch traps with its reason and address, a pending trap is taken before
CANCELLED, which ends the item's waits, and a breakpoint traps or halts as it says. -/
def Obligations.BoundaryTraps : Prop :=
  ∀ (s : State) (ik : Nat) (it : Item) (g : Group), Solo s ik it g →
    (∀ w : W64, guardHolds (guardOf w) it = true →
      exec (.illegalWordIssue w) s = .next (s.takeTrap ik ⟨0x01, 0, 0, 0⟩ s.cur.pc)) ∧
    (∀ w : W64, guardHolds (guardOf w) it = false → posDependent w = false →
      exec (.illegalWordIssue w) s = .next (s.advance ik (wordLen w))) ∧
    (∀ r, s.fetch (jobOf ik) s.cur.pc = .fail r →
      exec .fetchFault s = .next (s.takeTrap ik ⟨0x09, BitVec.ofNat 32 r, s.cur.pc, 0⟩ s.cur.pc)) ∧
    (∀ t rest, it.m.mon = false → it.pend = t :: rest →
      exec .pendingTrapTaken s =
        .next ((s.updItem ik (fun it => { it with
          pend := rest, full := if t.cause = 0x15 then markTaken it.full else it.full })).takeTrap ik t it.pc)) ∧
    (it.m.mon = false → it.pend = [] → s.cancelDue ik it = true →
      exec .pendingTrapTaken s = .next (
        let u := s.updItem ik (fun it => { it with cancelled := true, waits := [] })
        if (s.cardOf (launchOf ik)).handler ≠ 0 ∧ it.h.flag = false then u.takeTrap ik ⟨0x30, 0, 0, 0⟩ it.pc
        else u.beginEnd ik))

/-- Reading system registers (R111, R112, R226): SRD writes the value of the register to its `v` destination; a number
from 0x0100 on outside monitor code traps `PRIV_ACCESS`. Writing system registers (R111, R112, R152, R226): what SWR
changes for each register that can be written; the low three bits of a saved program counter are written 0, and a
number from 0x0100 on outside monitor code traps `PRIV_ACCESS`. -/
def Obligations.SystemRegisters : Prop :=
  (
    ∀ (s : State) (ik : Nat) (it : Item) (g : Group) (gd : Guard) (d : Fld), Solo s ik it g → guardHolds gd it = true →
      (∀ r : BitVec 16, 0x100 ≤ r.toNat → it.m.mon = false → exec (.srd gd d r) s = .next (s.takeTrap ik ⟨0x13, 0, 0, 0⟩ s.cur.pc)) ∧
      (anyEmpty (regsAt it g (.v d.toNat) 1) = false →
        let k := s.core (s.coreOf ik)
        let ev := k.events.headD ⟨0, 0, 0, 0, 0, 0⟩
        let b := fun (x : Bool) => if x then (1 : W32) else 0
        let lo := fun (x : W64) => x.setWidth 32
        let hi := fun (x : W64) => (x >>> 32).setWidth 32
        let gives := fun (p : Nat × W32) => exec (.srd gd d (BitVec.ofNat 16 p.1)) s = .next (s.wrote ik (.v d.toNat) 1 p.2.toNat 0 8)
        (∀ p ∈ [(0x000, it.h.cause), (0x001, lo it.h.pc), (0x002, hi it.h.pc), (0x003, lo it.h.addr), (0x004, hi it.h.addr),
            (0x005, it.h.info), (0x006, b it.h.flag), (0x007, lo it.h.lpc), (0x008, hi it.h.lpc)], gives p) ∧
        (it.m.mon = true → ∀ p ∈ [(0x100, it.m.cause), (0x101, lo it.m.pc), (0x102, hi it.m.pc), (0x103, lo it.m.addr),
            (0x104, hi it.m.addr), (0x105, it.m.info), (0x106, 1 + 2 * b it.m.fromh + 4 * b it.m.noh),
            (0x110, lo (s.mvecOf (s.coreOf ik) (jobOf ik))), (0x111, hi (s.mvecOf (s.coreOf ik) (jobOf ik))),
            (0x140, BitVec.ofNat 32 k.window), (0x150, k.psel.setWidth 32), (0x180, k.dlaunch), (0x181, k.dgrp), (0x182, 0),
            (0x183, b (!k.events.isEmpty) + 2 * b k.found + 4 * b k.bell),
            (0x188, BitVec.ofNat 32 (ev.cause + 256 * ev.num)), (0x189, ev.grp), (0x18A, lo ev.pc), (0x18B, hi ev.pc),
            (0x18C, ev.mask), (0x18D, ev.br), (0x18E, 0)], gives p) ∧
        (it.m.mon = true → ∀ n, n < 8 → gives (0x160 + 2 * n, lo (k.bps.getD n 0)) ∧ gives (0x161 + 2 * n, hi (k.bps.getD n 0))) ∧
        (it.m.mon = true → ∀ n, n < 4 → ∀ w : Watch, k.wps[n]? = some w →
          gives (0x170 + 3 * n, w.s) ∧ gives (0x171 + 3 * n, w.e) ∧ gives (0x172 + 3 * n, w.c)) ∧
        (it.m.mon = true → ∀ r : PRec, AMap.find k.poison k.psel.toNat = some r →
          ∀ p ∈ [(0x152, lo r.addr), (0x153, hi r.addr), (0x154, lo r.pc), (0x155, hi r.pc), (0x156, lo r.word),
            (0x157, hi r.word)], gives p))) ∧
  (
    ∀ (s : State) (ik : Nat) (it : Item) (g : Group) (gd : Guard) (a : Fld), Solo s ik it g → guardHolds gd it = true →
      (∀ r : BitVec 16, 0x100 ≤ r.toNat → it.m.mon = false → exec (.swr gd a r) s = .next (s.takeTrap ik ⟨0x13, 0, 0, 0⟩ s.cur.pc)) ∧
      ∀ x : W64, readV it g a.toNat 1 = .ok (x, none) →
        let v : W32 := x.setWidth 32
        let c := s.coreOf ik
        let join := fun (hi lo : W32) => (hi ++ lo : W64)
        let lowPart := fun (old : W64) => join ((old >>> 32).setWidth 32) (v &&& 0xFFFFFFF8)
        let highPart := fun (old : W64) => join v (old.setWidth 32)
        let item := fun (f : Item → Item) => s.updItem ik f
        let core := fun (f : Core → Core) => s.updCore c f
        let gives := fun (p : Nat × State) => exec (.swr gd a (BitVec.ofNat 16 p.1)) s = .next (p.2.advance ik 8)
        (∀ p ∈ [(0x001, item (fun i => { i with h := { i.h with pc := lowPart i.h.pc } })),
            (0x002, item (fun i => { i with h := { i.h with pc := highPart i.h.pc } }))], gives p) ∧
        (it.m.mon = true → ∀ p ∈ [
            (0x101, item (fun i => { i with m := { i.m with pc := lowPart i.m.pc } })),
            (0x102, item (fun i => { i with m := { i.m with pc := highPart i.m.pc } })),
            (0x110, core (fun k => { k with mvec := AMap.put k.mvec (jobOf ik) (lowPart (AMap.getD k.mvec (jobOf ik) 0)) })),
            (0x111, core (fun k => { k with mvec := AMap.put k.mvec (jobOf ik) (highPart (AMap.getD k.mvec (jobOf ik) 0)) })),
            (0x140, core (fun k => { k with window := Nat.max 8 (Nat.min 64 (v.toNat % 128)) })),
            (0x150, core (fun k => { k with psel := v.setWidth 6 })),
            (0x180, core (fun k => { k with dlaunch := v })),
            (0x181, core (fun k => { k with dgrp := v })),
            (0x182, s.dcmd c (v.toNat % 8)),
            (0x18E, if v.getLsbD 0 then core (fun k => { k with events := k.events.drop 1 }) else s)], gives p) ∧
        (it.m.mon = true → ∀ n, n < 8 →
          gives (0x160 + 2 * n, core (fun k => { k with
            bps := setAt k.bps n (join ((k.bps.getD n 0 >>> 32).setWidth 32) (v &&& 0xFFFFFFFB)) })) ∧
          gives (0x161 + 2 * n, core (fun k => { k with bps := setAt k.bps n (highPart (k.bps.getD n 0)) }))) ∧
        (it.m.mon = true → ∀ n, n < 4 → ∀ w : Watch, (s.core c).wps[n]? = some w →
          gives (0x170 + 3 * n, core (fun k => { k with wps := setAt k.wps n { w with s := v } })) ∧
          gives (0x171 + 3 * n, core (fun k => { k with wps := setAt k.wps n { w with e := v } })) ∧
          gives (0x172 + 3 * n, core (fun k => { k with wps := setAt k.wps n { w with c := v &&& 0xF } }))))

/-- Words with no effect on registers, the fetch fence and the debug mailbox (R38, R102, R106, R115, R141, R142,
R237): NOP, YIELD, MATZ in a group, and WAITF once its registers are ready only pass; IFENCE performs the item's
waiting stores and drops the lines of the core's instruction cache; DBGM in monitor code with the doorbell clear
writes its registers to the mailbox and rings where asked. The debug unit (R233, R235, R236): an enabled breakpoint at
an item's address traps it to the monitor or halts its group with a BREAK event, unless the item skips it; a halt that
was asked for is taken at the boundary; `dcmd` finds the group, and halts, resumes or steps it or its team; `dack`
removes the posted record. Which items of a resumed group skip their breakpoint is the reading of log entry 6. -/
def Obligations.MailboxAndDebugUnit : Prop :=
  (
    ∀ (s : State) (ik : Nat) (it : Item) (g : Group) (gd : Guard), Solo s ik it g → guardHolds gd it = true →
      (∀ i ∈ [Instr.nop gd, .yield gd, .matz gd], exec i s = .next (s.advance ik 8)) ∧
      exec (.ifence gd) s = .next (((s.flushItem ik).updCore (s.coreOf ik) (fun k => { k with icache := [] })).advance ik 8) ∧
      (∀ f : VF, f.g = gd →
        ((∀ r ∈ it.v, r.tag ≠ .empty) → (∀ r ∈ g.g, r.tag ≠ .empty) → exec (.waitf f 0) s = .next (s.advance ik 8)) ∧
        (∀ r, (r ∈ it.v ∨ r ∈ g.g) → r.tag = .empty → exec (.waitf f 0) s = .next (s.leave ik)) ∧
        ∀ r : RegRef, srcRef (s.quotaOfItem ik) it f.a 1 = .ok (some r) →
          exec (.waitf f 1) s = .next (if (regAt it g r).tag = .empty then s.leave ik else s.advance ik 8)) ∧
      ∀ (f : EF) (n : BitVec 3) (ring : Bool) (o : W64) (vs : List W32), f.g = gd →
        (it.m.mon = false → exec (.dbgm f n ring) s = .next (s.takeTrap ik ⟨0x13, 0, 0, 0⟩ s.cur.pc)) ∧
        (it.m.mon = true → readV it g f.o2.toNat 1 = .ok (o, none) → readEs s ik it g f.o1 (2 ^ n.toNat) = .ok vs →
          let ofs := o.toNat % 2 ^ 32
          let len := 4 * 2 ^ n.toNat
          (¬(ofs % len = 0 ∧ ofs + len ≤ 64) →
            exec (.dbgm f n ring) s = .next (s.takeTrap ik ⟨0x05, 0, BitVec.ofNat 64 ofs, 0⟩ s.cur.pc)) ∧
          (ofs % len = 0 ∧ ofs + len ≤ 64 → (s.core (s.coreOf ik)).bell = true → exec (.dbgm f n ring) s = .next (s.leave ik)) ∧
          (ofs % len = 0 ∧ ofs + len ≤ 64 → (s.core (s.coreOf ik)).bell = false →
            exec (.dbgm f n ring) s = .next ((s.updCore (s.coreOf ik) (fun k =>
              { k with mbox := k.mbox.writeN ofs (regBytes vs len), bell := k.bell || ring })).advance ik 8)))) ∧
  (
    (∀ (s : State) (ik : Nat) (it : Item) (g : Group) (n : Nat), Solo s ik it g → g.halt = none → it.skip = false →
      ((s.core (s.coreOf ik)).dlaunch = 0xFFFFFFFF ∨ (s.core (s.coreOf ik)).dlaunch.toNat = launchOf ik % 2 ^ 24) →
      (∀ m, m < n → ((s.core (s.coreOf ik)).bps.getD m 0).getLsbD 0 = false) → n < 8 →
      ∀ b, (s.core (s.coreOf ik)).bps.getD n 0 = b → b.getLsbD 0 = true → b >>> 3 = it.pc >>> 3 →
      (b.getLsbD 1 = false → exec .brk s = .next (s.takeTrap ik ⟨0x42, BitVec.ofNat 32 n, 0, 0⟩ it.pc)) ∧
      (b.getLsbD 1 = true → ∃ t mask, exec .brk s = .next t ∧
        AMap.find t.groups (groupOf ik) = some { g with halt := some .brk, haltReq := false, stepping := false } ∧
        t.items = s.items ∧
        (t.core (s.coreOf ik)).events = (s.core (s.coreOf ik)).events ++ [⟨0x42, n, grpNo ik, it.pc, mask, 0⟩])) ∧
    (∀ (s : State) (ik : Nat) (it : Item) (g : Group), Solo s ik it g → g.haltReq = true →
      exec .groupHalt s = .next { s with
        groups := AMap.upd s.groups (groupOf ik) (fun g => { g with halt := some .dcmd, haltReq := false, stepping := false })
        moved := true }) ∧
    (∀ (s : State) (c : Nat), s.dbgLaunch c = none →
      ∀ i ∈ [Instr.dcmdHaltGroup c, .dcmdHaltTeam c, .dcmdResumeGroup c, .dcmdResumeTeam c, .dcmdStep c, .dcmdNoOp c],
        exec i s = .next { s.updCore c (fun k => { k with found := false }) with moved := true }) ∧
    (∀ (s : State) (c lk : Nat), s.dbgLaunch c = some lk →
      let u := s.updCore c (fun k => { k with found := true })
      let one := u.dbgGroups c lk (s.core c).dgrp.toNat false
      let team := u.dbgGroups c lk (s.core c).dgrp.toNat true
      let gives := fun (i : Instr) (t : State) => exec i s = .next { t with moved := true }
      gives (.dcmdHaltGroup c) (one.foldl (fun t g => t.askHalt c g) u) ∧
      gives (.dcmdHaltTeam c) (team.foldl (fun t g => t.askHalt c g) u) ∧
      gives (.dcmdResumeGroup c) (one.foldl State.resumeGroup u) ∧ gives (.dcmdResumeTeam c) (team.foldl State.resumeGroup u) ∧
      gives (.dcmdStep c) (one.foldl State.stepGroup u) ∧ gives (.dcmdNoOp c) u) ∧
    ∀ (s : State) (c : Nat),
      exec (.dack c) s = .next { s.updCore c (fun k => { k with events := k.events.drop 1 }) with moved := true })

/-- Branches (R102, R103, R133): BRA and CALL go `off` words on from the word, BRX and RET to the value of their pair,
which is a multiple of 8 or traps `MISALIGN` with it as fault address; CALL leaves the address after its word in its
link pair and waits while that is EMPTY. A target above the word leaves it at that; one at or below it is tested for
joining. -/
def Obligations.Branches : Prop :=
  ∀ (s : State) (ik : Nat) (it : Item) (g : Group) (gd : Guard), Solo s ik it g → guardHolds gd it = true →
    let gives := fun (i : Instr) (u : State) (a : W64) =>
      let t : State := { u.updItem ik (fun it => { it with pc := a, skip := false }) with moved := true }
      exec i s = .next (joinTargets s t) ∧ (s.cur.pc.toNat < a.toNat → exec i s = .next t)
    let away := fun (off : W32) => s.cur.pc + BitVec.ofInt 64 (8 * off.toInt)
    (∀ off : W32, gives (.bra gd off) s (away off)) ∧
    (∀ (link : Fld) (off : W32),
      (anyEmpty (regsAt it g (.v link.toNat) 2) = false →
        gives (.call gd link off) (s.dest ik (.v link.toNat) 2 (s.cur.pc + 8).toNat) (away off)) ∧
      (anyEmpty (regsAt it g (.v link.toNat) 2) = true → exec (.call gd link off) s = .next (s.leave ik))) ∧
    ∀ (t : Fld) (a : W64), readV it g t.toNat 2 = .ok (a, none) → ∀ i ∈ [Instr.brx gd t, .ret gd t],
      (a.toNat % 8 = 0 → gives i s a) ∧
      (a.toNat % 8 ≠ 0 → exec i s = .next (s.takeTrap ik ⟨0x05, 0, a, 0⟩ s.cur.pc))

/-- The end of an item (R49, R106, R224, R228): EXIT ends its item when none of its registers is EMPTY and its group's
in-flight count is zero, else the item waits at the word until then. A held end takes effect where the item's team is
resident, its group is neither halted nor stopped nor asked to be, and no trap waits, and not before. Where no
instance, cluster barrier, launch barrier or waiting store is open the end removes the item, counts it as ended, frees
its records, and removes a group without items. -/
def Obligations.ItemEnds : Prop :=
  ∀ (s : State) (ik : Nat) (it : Item) (g : Group), Solo s ik it g →
    let may := (∀ r ∈ it.v, r.tag ≠ .empty) ∧ g.inflight = 0
    (∀ gd, guardHolds gd it = true → it.ending = false →
      (may → exec (.exit gd) s = .next { s.endItem ik with moved := true }) ∧
      (¬may → exec (.exit gd) s = .next { s.setWait ik .ending with moved := true })) ∧
    (it.ending = true → may →
      (∀ tm c, AMap.find s.teams (s.teamOf ik) = some tm → tm.core = some c → g.halt = none → g.haltReq = false →
        g.stopped = false → s.mustLeave (s.teamOf ik) = false → s.trapDue ik = false → exec (.itemEnd ik) s = .next (s.endItem ik)) ∧
      (g.halt ≠ none ∨ g.haltReq = true ∨ g.stopped = true ∨ s.trapDue ik = true → exec (.itemEnd ik) s = .next s)) ∧
    ∀ l, AMap.find s.launches (launchOf ik) = some l → g.exch = [] → s.cbars = [] → l.lbar = [] → l.phb = [] →
      s.quiet (s.coreOf ik) → s.cur.span = none →
      let t := s.endItem ik
      t.items = AMap.del s.items ik ∧
      AMap.find t.launches (launchOf ik) = some { l with ended := l.ended + 1 } ∧
      (∀ n r, AMap.find (t.core (s.coreOf ik)).poison n = some r → r.item = ik → r.held = false) ∧
      (t.members (groupOf ik) = [] → AMap.find t.groups (groupOf ik) = none) ∧
      t.mem = s.mem ∧ t.teams = s.teams ∧ t.ops = s.ops

/-- KDEP (R143): it deposits the low 16 bits of its key, its payload and the item's index in the launch's reorder unit
and ends the item; a launch without a continuation card, one whose continuation has no range or a first range that is
not writable (mode below 2), and one that holds as many deposits as the range has records trap `REORDER` with 1, 3 and
2. -/
def Obligations.Deposits : Prop :=
  ∀ (s : State) (ik : Nat) (it : Item) (g : Group) (f : VF) (k p : W64) (l : Launch), Solo s ik it g →
    guardHolds f.g it = true → it.ending = false → Reads s ik it g f.a 1 f.wa k → Reads s ik it g f.b 2 f.wb p →
    AMap.find s.launches (launchOf ik) = some l →
    let traps := fun (n : W32) => exec (.kdep f) s = .next (s.takeTrap ik ⟨0x0A, n, 0, 0⟩ s.cur.pc)
    (l.card.cont = 0 → traps 1) ∧
    (l.card.cont ≠ 0 → l.cont = none → traps 3) ∧
    (l.card.cont ≠ 0 → ∀ b n m, l.cont = some (b, n, m) →
      (m < 2 → traps 3) ∧
      (2 ≤ m → n / 16 ≤ l.deposits.length → traps 2) ∧
      (2 ≤ m → l.deposits.length < n / 16 →
        exec (.kdep f) s = .next { (s.updLaunch (launchOf ik) (fun l => { l with
          deposits := l.deposits ++ [(k.toNat % 65536, p, indexOf ik)] })).beginEnd ik with moved := true }))

/-- Joining and re-forming (R133, R134, R141): SJOIN passes its item where the join test changes nothing, REGRP holds
its item until the quad's next re-forming, and a re-forming changes nothing but the bundles of its quad's items. -/
def Obligations.JoiningAndReforming : Prop :=
  (∀ (s : State) (ik : Nat) (it : Item) (g : Group) (gd : Guard), Solo s ik it g → guardHolds gd it = true → s.cur.span = none →
    (s.joinTest s.cur.core (launchOf ik) s.cur.pc = s → exec (.sjoin gd) s = .next (s.advance ik 8)) ∧
    (it.wait? = none → exec (.regrp gd) s = .next { s.setWait ik (.regrp (s.reformsOf ik)) with moved := true }) ∧
    ∀ n, it.wait? = some (.regrp n) →
      (n < s.reformsOf ik → exec (.regrp gd) s = .next ((s.clearWait ik).advance ik 8)) ∧
      (s.reformsOf ik ≤ n → exec (.regrp gd) s = .next (s.leave ik))) ∧
  ∀ (s : State) (c q : Nat), ∃ t, exec (.bundleReform c q) s = .next t ∧
    (∀ k, t.item? k = (s.item? k).map (fun it => { it with bid := ((t.item? k).map (·.bid)).getD 0 })) ∧
    (∀ it k, s.item? k = some it → s.coreOf k ≠ c ∨ s.quadOf k ≠ q → t.item? k = some it) ∧
    (∀ d, t.core d = { s.core d with reforms := (t.core d).reforms }) ∧
    AMap.getD (t.core c).reforms q 0 = AMap.getD (s.core c).reforms q 0 + 1 ∧
    t = { s with items := t.items, cores := t.cores, fresh := t.fresh, moved := true }

/-- PRPLY (R116): an item without records passes it; a record whose claim is gone is freed and nothing is reissued;
one whose claim stands is reissued with its recorded fields and freed. -/
def Obligations.PoisonReplay : Prop :=
  ∀ (s : State) (ik : Nat) (it : Item) (g : Group) (gd : Guard), Solo s ik it g → guardHolds gd it = true → s.cur.span = none →
    it.wait? = none → (∀ w ∈ it.waits, w.1 ≠ it.spot) →
    ((s.recsOf (s.coreOf ik) ik (ik + 1)).filter (fun x => decide (x.2.serial < s.fresh)) = [] →
      exec (.prply gd) s = .next { (s.clearWait ik).advance ik 8 with moved := true }) ∧
    ∀ n r, (s.recsOf (s.coreOf ik) ik (ik + 1)).filter (fun x => decide (x.2.serial < s.fresh)) = [(n, r)] →
      (s.claims r = false →
        exec (.prply gd) s = .next ((((s.standAt ik it.pc s.fresh).freeRec (s.coreOf ik) n r).clearWait ik).advance ik 8)) ∧
      ∀ u, s.claims r = true → s.acqPending ik = false →
        reissue { s with cur := { s.cur with pc := r.pc } } ik n it r = .ok u →
        (({ u with cur := s.cur } : State).standAt ik it.pc s.fresh).awaiting ik = false →
        exec (.prply gd) s = .next ((((({ u with cur := s.cur } : State).standAt ik it.pc s.fresh).freeRec (s.coreOf ik) n r).clearWait ik).advance ik 8)

/-- Loads from global memory (R155 to R157, R160, R307, R315): the effective address is the pair plus the offset times
the access size; a misaligned one traps `MISALIGN`. A load goes on its way and its destination goes EMPTY: with the
bytes read at issue (log entry 13), or with the reason why they cannot be read; of a SEQ or REL page it comes when its
line has. A frame whose attribute differs traps `ALIAS`, an acquire of a PHASE page traps `ORDER`. On a quiet core it
leaves memory. That the traps of an aliased, ordered or atomic access carry address 0 is the reading of log entry 5. -/
def Obligations.GlobalLoads : Prop :=
  ∀ (s : State) (ik : Nat) (it : Item) (g : Group) (f : MF) (r : RegRef) (a : W64), Solo s ik it g → guardHolds f.g it = true →
    s.ungated ik → Writes s ik it g (dataDst f.data) f.width.regs r → notLeader s ik f.data = false →
    readAddr (s.quotaOfItem ik) it g f false = .ok (a, none) →
    let n := f.width.bytes
    let ea := a + f.off.signExtend 64 * BitVec.ofNat 64 n
    let j := jobOf ik
    let enc := MOrd.acquires f.ord
    let sends := fun (acq : Bool) (val : BitVec 128) (fail : Option Nat) (lines : List Nat) => ∃ t w want, exec (.ld f) s = .next t ∧
      t.mem = s.mem ∧ (∀ l, want = some l → l ∈ lines) ∧
      s.sent t ik f.width.regs .load ⟨⟨r, f.width.regs⟩, n, f.var, val, fail, ea, acq, w, [], want, false⟩
    (ea.toNat % n ≠ 0 → exec (.ld f) s = .next (s.takeTrap ik ⟨0x05, 0, ea, 0⟩ s.cur.pc)) ∧
    (ea.toNat % n = 0 →
      (∀ why, s.translate j ea = .fail why → sends (enc || s.seqPage j ea) 0 (some why) []) ∧
      ∀ x, s.translate j ea = .ok x →
        (x.rd = false → sends (enc || (x.attr == aSEQ && !x.gv)) 0 (some 2) []) ∧
        (x.rd = true → s.aliased x = true → exec (.ld f) s = .next (s.takeTrap ik ⟨0x10, 0, 0, 0⟩ s.cur.pc)) ∧
        (x.rd = true → s.aliased x = false →
          (x.attr = aPHASE → enc = true → exec (.ld f) s = .next (s.takeTrap ik ⟨0x11, 0, 0, 0⟩ s.cur.pc)) ∧
          (¬(x.attr = aPHASE ∧ (enc = true ∨ s.merging j = true)) → s.invPending ik (lineOf x.pa) = false → s.quiet (s.coreOf ik) →
            let b := s.readAt (s.coreOf ik) j (some ik) x n
            sends (enc || (x.attr == aSEQ && !x.gv)) (BitVec.ofNat 128 (leNat b.1)) (if b.2 then some 4 else none)
              (if x.gv = false ∧ (x.attr = aSEQ ∨ x.attr = aREL) then [lineOf x.pa] else []))))

/-- Stores to global memory (R155 to R157, R160, R151, R307, R315). The address is a load's; an unmapped, unwritable,
aliased or misaligned one traps, and so does a release to a PHASE page. On a quiet core a store changes no byte of
memory outside those it covers; on a SEQ or REL page an uncached or releasing one is performed at once, another waits
in the collector until its slot closes; at the end of the window the core asks for a SEQ or REL line that it does not
own, and the store is performed when it has it. That the traps of an aliased, ordered or atomic access carry address 0
is the reading of log entry 5. -/
def Obligations.GlobalStores : Prop :=
  (∀ (s : State) (ik : Nat) (it : Item) (g : Group) (f : MF) (vs : List W32) (a : W64), Solo s ik it g → guardHolds f.g it = true →
    s.ungated ik → readData (s.quotaOfItem ik) it g f f.width.regs = .ok (vs, none) → notLeader s ik f.data = false →
    readAddr (s.quotaOfItem ik) it g f false = .ok (a, none) →
    let n := f.width.bytes
    let ea := a + f.off.signExtend 64 * BitVec.ofNat 64 n
    let j := jobOf ik
    let rel := MOrd.releases f.ord
    let bs := regBytes vs n
    (ea.toNat % n ≠ 0 → exec (.st f) s = .next (s.takeTrap ik ⟨0x05, 0, ea, 0⟩ s.cur.pc)) ∧
    (ea.toNat % n = 0 →
      (∀ why, s.translate j ea = .fail why → exec (.st f) s = .next (s.takeTrap ik ⟨0x0B, BitVec.ofNat 32 why, ea, 0⟩ s.cur.pc)) ∧
      ∀ x, s.translate j ea = .ok x →
        (x.wr = false → exec (.st f) s = .next (s.takeTrap ik ⟨0x0B, 2, ea, 0⟩ s.cur.pc)) ∧
        (x.wr = true → s.aliased x = true → exec (.st f) s = .next (s.takeTrap ik ⟨0x10, 0, 0, 0⟩ s.cur.pc)) ∧
        (x.wr = true → s.aliased x = false →
          (x.attr = aPHASE → rel = true → exec (.st f) s = .next (s.takeTrap ik ⟨0x11, 0, 0, 0⟩ s.cur.pc)) ∧
          (¬(x.attr = aPHASE ∧ (rel = true ∨ s.merging j = true)) → s.writeOk (s.coreOf ik) j (vaOf ea) x.pa x.attr f.ev = true →
            s.linePending ik = false →
            s.quiet (s.coreOf ik) → ∃ t, exec (.st f) s = .next t ∧
              (∀ p, p < x.pa ∨ x.pa + bs.length ≤ p → t.mem.read p = s.mem.read p) ∧
              MemSide ((if x.attr = aPHASE then s.notePhase (s.teamOf ik) (s.coreOf ik) else s).advance ik 8) t ∧
              (x.attr = aSEQ ∨ x.attr = aREL → rel = true ∨ f.ev = 0 ∨ x.attr = aSEQ → t.mem = s.mem.writeN x.pa bs) ∧
              (rel = false → f.ev ≠ 0 → x.attr ≠ aSEQ → t.mem = s.mem ∧
                ∃ w l, (t.core (s.coreOf ik)).slots = [(0, ⟨l, w, [], [⟨ik, vaOf ea, x.pa, x.attr, bs, f.ev⟩], false⟩)]))))) ∧
  ∀ (s : State) (c k l w ik va pa : Nat) (loads : List Nat) (asked : Bool) (code : BitVec 2) (bs : List (BitVec 8)) (ev : BitVec 3),
    let b : BrSlot := ⟨l, w, loads, [⟨ik, va, pa, code, bs, ev⟩], asked⟩
    let tracked := code = aSEQ ∨ code = aREL
    let has := (s.serve c (jobOf ik) (xlatAt va pa code) true ev).isSome
    AMap.find (s.core c).slots k = some b → (∀ y ∈ (s.core c).l1, y.dirty = []) → s.coh = [] → s.gathers = [] →
    (¬tracked ∨ asked = true ∨ has = true → ∃ t, exec (.brambleWindowExpiry c k) s = .next t ∧
      AMap.find (t.core c).slots k = none ∧ (∀ p, p < pa ∨ pa + bs.length ≤ p → t.mem.read p = s.mem.read p) ∧
      (tracked → t.mem = s.mem.writeN pa bs)) ∧
    (tracked → asked = false → has = false → ∃ t, exec (.brambleWindowExpiry c k) s = .next t ∧ t.mem = s.mem ∧
      AMap.find (t.core c).slots k = some { b with asked := true } ∧ t.coh = [.getm l (partyOf c l) c ev])

/-- What a read finds (R160, R313, R321, R334): on a SEQ or REL page the published bytes and their errors; on a PHASE
page the core's pending bytes first, on a PRIV page the bytes of its private copy first; before all of these the
newest byte that the reading item's own stores hold in the collector. -/
def Obligations.MemoryReads : Prop :=
  ∀ (s : State) (c j : Nat) (x : Xlat) (n : Nat), x.gv = false →
    (x.attr = aSEQ ∨ x.attr = aREL →
      s.readAt c j none x n = (s.mem.readN x.pa n, (List.range n).any (fun i => s.memErr.contains (x.pa + i)))) ∧
    ∀ own va pa, let b := fun code => s.readByte c j own false code va pa
      (∀ ik w code, own = some ik → (s.core c).ownByte ik pa = some w → b code = (w, false)) ∧
      ((own.bind (fun ik => (s.core c).ownByte ik pa)) = none →
        (∀ w, AMap.find (s.core c).pend pa = some w → b aPHASE = (w, false)) ∧
        (AMap.find (s.core c).pend pa = none → b aPHASE = (s.mem.read pa, s.memErr.contains pa)) ∧
        (∀ y w, (s.core c).l1Line (lineOf pa) = some y → AMap.find y.data pa = some w → b aPRIV = (w, false)) ∧
        ((s.core c).l1Line (lineOf pa) = none → b aPRIV = (s.mem.read pa, s.memErr.contains pa)) ∧
        b aSEQ = (s.mem.read pa, s.memErr.contains pa) ∧ b aREL = (s.mem.read pa, s.memErr.contains pa))

/-- Atomics on global memory (R155 to R157, R161, R162, R302, R303, R315). They trap as stores do, and on a PHASE page
with `ATOMIC`; at an uncorrectable error ATOM takes POISON, RED pends `RED_ERR`. A near atomic on a SEQ or REL page is
performed at once on the bytes in memory: ATOM sends the old value to its registers, RED sends nothing, and on a quiet
core no other byte changes. A far one is sent to its home, and memory is as before; a RED that is ordered before the
item's later accesses waits for every transaction on the line. The home executes the oldest far atomic of a line that
no cache holds, and the old value is then ready for the operation. That the traps of an aliased, ordered or atomic
access carry address 0 is the reading of log entry 5. -/
def Obligations.Atomics : Prop :=
  (∀ (s : State) (ik : Nat) (it : Item) (g : Group) (f : MF) (op : AOp) (vs : List W32) (a : W64), Solo s ik it g →
    guardHolds f.g it = true → s.ungated ik → readData (s.quotaOfItem ik) it g f (atomRegs op f.width) = .ok (vs, none) →
    readAddr (s.quotaOfItem ik) it g f false = .ok (a, none) →
    dstBusy (s.quotaOfItem ik) it g (s.leads ik) (dataDst f.data) f.width.regs = false →
    let n := f.width.bytes
    let ea := a + f.off.signExtend 64 * BitVec.ofNat 64 n
    let j := jobOf ik
    let enc := MOrd.acquires f.ord
    let v := (atomArgs op f.width.regs vs).1
    let e := (atomArgs op f.width.regs vs).2
    let sval := fun (x : Nat) => if f.var then (BitVec.ofNat (8 * n) x).toInt else x % 2 ^ (8 * n)
    let new := fun old => match op with
      | .add => (old + v) % 2 ^ (8 * n) | .and => Nat.land old v | .or => Nat.lor old v | .xor => Nat.xor old v
      | .exch => v | .cas => if old = e then v else old
      | .min => if sval v < sval old then v else old | .max => if sval old < sval v then v else old
      | .fadd => (fpAdd (if n = 8 then .f64 else .f32) .rne (Fmt.val (if n = 8 then .f64 else .f32) old)
          (Fmt.val (if n = 8 then .f64 else .f32) v)).1
      | .fmin => (fpMinMax (if n = 8 then .f64 else .f32) false old v).1
      | .fmax => (fpMinMax (if n = 8 then .f64 else .f32) true old v).1
    let sends := fun (m : Cells) (acq : Bool) (old : Nat) (fail : Option Nat) (pend : Bool) (P : State → Prop) =>
      ∀ d, f.data = .v d → ∃ t w, exec (.atom f op) s = .next t ∧ t.mem = m ∧ P t ∧
        s.sent t ik f.width.regs .atomic ⟨⟨.v d.toNat, f.width.regs⟩, n, false, BitVec.ofNat 128 old, fail, ea, acq, w,
          [BitVec.ofNat 64 v, BitVec.ofNat 64 e], none, pend⟩
    (∀ i ∈ [Instr.atom f op, .red f op],
      (ea.toNat % n ≠ 0 → exec i s = .next (s.takeTrap ik ⟨0x05, 0, ea, 0⟩ s.cur.pc)) ∧
      (ea.toNat % n = 0 →
        (∀ why, why ≠ 4 → s.translate j ea = .fail why →
          exec i s = .next (s.takeTrap ik ⟨0x0B, BitVec.ofNat 32 why, ea, 0⟩ s.cur.pc)) ∧
        ∀ x, s.translate j ea = .ok x →
          (x.wr = false → exec i s = .next (s.takeTrap ik ⟨0x0B, 2, ea, 0⟩ s.cur.pc)) ∧
          (x.wr = true → s.aliased x = true → exec i s = .next (s.takeTrap ik ⟨0x10, 0, 0, 0⟩ s.cur.pc)) ∧
          (x.wr = true → s.aliased x = false → x.attr = aPHASE → exec i s = .next (s.takeTrap ik ⟨0x12, 0, 0, 0⟩ s.cur.pc)))) ∧
    (ea.toNat % n = 0 → s.translate j ea = .fail 4 →
      sends s.mem (enc || s.seqPage j ea) 0 (some 4) false (fun _ => True) ∧
      exec (.red f op) s = .next { (s.addPending ik ⟨0x14, 4, ea, 0⟩).advance ik 8 with moved := true }) ∧
    ∀ x, ea.toNat % n = 0 → s.translate j ea = .ok x → x.wr = true → s.aliased x = false → x.attr = aSEQ ∨ x.attr = aREL →
      s.invPending ik (lineOf x.pa) = false → s.writeOk (s.coreOf ik) j (vaOf ea) x.pa x.attr f.ev = true → s.linePending ik = false →
      s.quiet (s.coreOf ik) →
      let old := leNat (s.mem.readN x.pa n)
      let m := s.mem.writeN x.pa (leBytes (new old) n)
      let line := lineOf x.pa
      let acq := enc || x.attr == aSEQ
      let near := fun red => s.goesNear (s.coreOf ik) line red = true
      let bad := ∃ i, i < n ∧ x.pa + i ∈ s.memErr
      let req := fun (num : Option Nat) => CohMsg.far line
        ⟨s.coreOf ik, ik, num, x.pa, vaOf ea, n, op, f.var, v, e, f.ord, ea, f.ev⟩
      (near false → ¬bad → sends m acq old none false (fun _ => True)) ∧
      (near false → bad → sends s.mem acq 0 (some 4) false (fun _ => True)) ∧
      (¬near false → sends s.mem acq 0 none true (fun t => req (some s.fresh) ∈ t.coh)) ∧
      (near true → ¬bad → ∃ t, exec (.red f op) s = .next t ∧ t.mem = m ∧ MemSide (s.advance ik 8) t) ∧
      (near true → bad → ∃ t, exec (.red f op) s = .next t ∧ t.mem = s.mem ∧
        MemSide ((s.addPending ik ⟨0x14, 4, ea, 0⟩).advance ik 8) t) ∧
      (¬near true → ∃ t, exec (.red f op) s = .next (if acq then { t.settle line with moved := true } else t) ∧ t.mem = s.mem ∧
        MemSide (s.advance ik 8) t ∧ req none ∈ t.coh)) ∧
  ∀ (s : State) (line : Nat) (r : FarReq) (rest : List CohMsg), takeMsg (atHome line) s.coh = some (.far line r, rest) →
    AMap.find s.dir line = none → s.l2Holds line = true →
    let old := leNat (s.mem.readN r.pa r.bytes)
    let bad := ∃ i, i < r.bytes ∧ r.pa + i ∈ s.memErr
    ∃ t, exec (.homeFarAtomic line) s = .next t ∧
      t.mem = (if bad then s.mem else s.mem.writeN r.pa (leBytes (atomNew r.aop r.bytes r.signed old r.v r.e) r.bytes)) ∧
      CohMsg.complete line (partyOf r.core line) ∈ t.coh ∧
      (∀ k o l, r.op = some k → AMap.find s.ops k = some o → o.kind = .atomic l → AMap.find t.ops k = some { o with
        kind := .atomic { l with val := if bad then 0 else BitVec.ofNat 128 old, fail := if bad then some 4 else none, pend := false } })

/-- The team's scratchpad (R154 to R157, R160, R162, R234): LDS, STS and ATOMS address it in bytes from the register
plus the offset times the access size, trap `MISALIGN`, and `MEM` with reason 5 outside it; they read and write its
bytes and no global memory, unless a watchpoint stops them. Beside these they change only what is known of the order
of operand-store writes. -/
def Obligations.TeamAccesses : Prop :=
  ∀ (s : State) (ik : Nat) (it : Item) (g : Group) (f : MF) (op : AOp) (a : W64) (tm : Team), Solo s ik it g →
    guardHolds f.g it = true → s.ungated ik → readAddr (s.quotaOfItem ik) it g f true = .ok (a, none) →
    notLeader s ik f.data = false → AMap.find s.teams (s.teamOf ik) = some tm → s.linePending ik = false →
    (s.core (s.coreOf ik)).slots = [] → s.coh = [] → s.gathers = [] →
    let n := f.width.bytes
    let ea : W64 := (a.setWidth 32 + f.off.signExtend 32 * BitVec.ofNat 32 n).setWidth 64
    let o := ea.toNat
    let bs := tm.scratch.readN o n
    let bad := tm.scratchErr.any (fun e => decide (o ≤ e) && decide (e < o + n))
    let put := fun (l : List (BitVec 8)) => s.updTeam (s.teamOf ik) (fun t => { t with
      scratch := t.scratch.writeN o l
      scratchErr := t.scratchErr.filter (fun e => !(decide (o ≤ e) && decide (e < o + l.length))) })
    let watch := watchHit (s.core (s.coreOf ik)) (launchOf ik % 2 ^ 24) o n
    let cases := fun (i : Instr) (rd wr : Bool) (run : Prop) =>
      (o % n ≠ 0 → exec i s = .next (s.takeTrap ik ⟨0x05, 0, ea, 0⟩ s.cur.pc)) ∧
      (o % n = 0 → tm.scrSize < o + n → exec i s = .next (s.takeTrap ik ⟨0x0B, 5, ea, 0⟩ s.cur.pc)) ∧
      (o % n = 0 → o + n ≤ tm.scrSize → it.skip = false → ∀ k w, watch rd wr = some (k, w) → w.c.getLsbD 3 = false →
        exec i s = .next { (s.takeTrap ik ⟨0x40, BitVec.ofNat 32 (k + if wr && w.c.getLsbD 2 then 16 else 0), ea, 0⟩ s.cur.pc).leaveAll
          with moved := true }) ∧
      (o % n = 0 → o + n ≤ tm.scrSize → it.skip = true ∨ watch rd wr = none → run)
    (∀ r, Writes s ik it g (dataDst f.data) f.width.regs r → cases (.lds f) true false
      (∃ t w acq, exec (.lds f) s = .next t ∧ t.mem = s.mem ∧
        s.sent t ik f.width.regs .load ⟨⟨r, f.width.regs⟩, n, f.var, BitVec.ofNat 128 (leNat bs), if bad then some 4 else none, ea,
          acq, w, [], none, false⟩)) ∧
    (∀ vs, readData (s.quotaOfItem ik) it g f f.width.regs = .ok (vs, none) → cases (.sts f) false true
      (∃ t, exec (.sts f) s = .next t ∧ Learned ((put (regBytes vs n)).advance ik 8) t)) ∧
    (∀ vs d, readData (s.quotaOfItem ik) it g f (atomRegs op f.width) = .ok (vs, none) → f.data = .v d →
      dstBusy (s.quotaOfItem ik) it g (s.leads ik) (dataDst f.data) f.width.regs = false → cases (.atoms f op) true true
      (let v := (atomArgs op f.width.regs vs).1
       let e := (atomArgs op f.width.regs vs).2
       let old := leNat bs
       bad = false → ∃ t w acq, exec (.atoms f op) s = .next t ∧ t.mem = s.mem ∧
        (put (leBytes (atomNew op n f.var old v e) n)).sent t ik f.width.regs .atomic
          ⟨⟨.v d.toNat, f.width.regs⟩, n, false, BitVec.ofNat 128 old, none, ea, acq, w, [BitVec.ofNat 64 v, BitVec.ofNat 64 e], none, false⟩))

/-- Loads and atomics arrive (R45, R53, R113, R160, R228): a value fills the registers of its item that still await
it, one of fewer than four bytes zero- or sign-extended to 32 bits; a failure leaves POISON and a record of the access
in the first free entry. The operation is over. It stays until its line's data, or the answer of its home, have come. -/
def Obligations.LoadsArrive : Prop :=
  ∀ (s : State) (n : Nat) (o : Op) (l : LoadOp) (ik : Nat), s.landsAt o l.dst.reg = [ik] → s.landsIn o l.dst.reg = [] →
    (s.ops.filter (fun e => e.1 != n && sameG o e.2)) = [] →
    let v := l.val.toNat % 2 ^ (8 * l.bytes)
    let vals := if 4 ≤ l.bytes then parts l.val.toNat l.dst.n
      else [BitVec.ofNat 32 (if l.sext ∧ 2 ^ (8 * l.bytes - 1) ≤ v then v + 2 ^ 32 - 2 ^ (8 * l.bytes) else v)]
    ∀ i, (i = Instr.loadCompletion n ∧ o.kind = .load l) ∨ (i = .atomicCompletion n ∧ o.kind = .atomic l) →
      AMap.find s.ops n = some o →
      let came := l.pend = false ∧ ∀ line, l.want = some line → s.asking line (partyOf o.core line) false = false
      (¬came → exec i s = .next s) ∧
      (came → l.fail = none → exec i s = .next { s.setRegs ik l.dst.reg vals with ops := AMap.del s.ops n, moved := true }) ∧
      ∀ why m, came → l.fail = some why → (∀ it, s.item? ik = some it → it.fullFor n = false) → (∃ k, l.dst.reg = .v k) → (s.core (s.coreOf ik)).freeRec = some m → l.acq = false →
        ∃ t, exec i s = .next t ∧ AMap.find (t.core (s.coreOf ik)).poison m = some
          { held := true, serial := s.fresh, item := ik, slot := s.laneSlot ik, word := l.word, addr := l.addr, pc := o.pc,
            reason := why, dst := l.dst, args := l.args, acq := false,
              issued := n, freed := 0 }

/-- Fences and line operations (R163, R164, R319, R321): a fence performs the item's waiting stores and passes, after
the item's line operations where it releases; CFLUSH and CINV start an operation on the line of their address, on
which the dirty bytes of a private copy go to the home, and which ends CINV's copy; a prefetch waits for an entry of
the collector and never traps on its address. -/
def Obligations.FencesAndLines : Prop :=
  (∀ (s : State) (ik : Nat) (it : Item) (g : Group), Solo s ik it g → s.ungated ik →
    (∀ gd ord sc, guardHolds gd it = true →
      (MOrd.releases ord = true → s.linePending ik = true → exec (.fence gd ord sc) s = .next (s.leave ik)) ∧
      (MOrd.releases ord = false ∨ s.linePending ik = false → ∃ u, exec (.fence gd ord sc) s = .next ((u.flushItem ik).advance ik 8) ∧ Learned s u)) ∧
    ∀ (f : MF) (a : W64), guardHolds f.g it = true → readAddr (s.quotaOfItem ik) it g f false = .ok (a, none) →
      let ea := a + f.off.signExtend 64
      let j := jobOf ik
      (∀ p ∈ [(Instr.cflush f, false), (.cinv f, true)],
        (∀ why, s.translate j ea = .fail why →
          exec p.1 s = .next (s.takeTrap ik ⟨0x0B, BitVec.ofNat 32 why, ea, 0⟩ s.cur.pc)) ∧
        ∀ x, s.translate j ea = .ok x → x.gv = false →
          (x.rd = false → x.wr = false → exec p.1 s = .next (s.takeTrap ik ⟨0x0B, 2, ea, 0⟩ s.cur.pc)) ∧
          (x.rd = true ∨ x.wr = true → s.aliased x = true → exec p.1 s = .next (s.takeTrap ik ⟨0x10, 0, 0, 0⟩ s.cur.pc)) ∧
          (x.rd = true ∨ x.wr = true → s.aliased x = false → (s.core (s.coreOf ik)).slots = [] → s.coh = [] →
            s.gathers = [] → ∃ t, exec p.1 s = .next t ∧
            t.mem = s.mem ∧ MemSide { s.advance ik 8 with ops := t.ops, fresh := s.fresh + 1 } t ∧
            AMap.find t.ops s.fresh = some ⟨s.coreOf ik, launchOf ik, indexOf ik, indexOf ik + 1, s.cur.pc, .line (lineOf x.pa) p.2⟩)) ∧
      let room := (s.core (s.coreOf ik)).roomOwn
      (room = false → exec (.pref f) s = .next (s.leave ik)) ∧
      (room = true → (∀ x, s.translate j ea ≠ .ok x) → exec (.pref f) s = .next (s.advance ik 8)) ∧
      ∀ x, room = true → s.translate j ea = .ok x →
        (x.rd = false ∨ s.aliased x = true → exec (.pref f) s = .next (s.advance ik 8)) ∧
        (∀ t, exec (.pref f) s = .next t → MemSide (s.advance ik 8) t) ∧
        (x.rd = true → s.aliased x = false → ∃ t, exec (.pref f) s = .next t)) ∧
  ∀ (s : State) (n l : Nat) (inval : Bool) (o : Op) (x : Line), AMap.find s.ops n = some o → o.kind = .line l inval →
    (s.core o.core).l1Line l = some x → x.code = aPRIV → s.cowOk x.job x.va = true →
    ∃ t, exec (.lineOpCompletion n) s = .next t ∧ AMap.find t.ops n = none ∧
      t.mem = x.dirty.foldl (fun m pa => m.write pa (AMap.getD x.data pa 0)) s.mem ∧
      (inval = true → (t.core o.core).l1Line l = none) ∧
      (inval = false → (t.core o.core).l1Line l = some { x with dirty := [] })

/-- Copy buffers (R165 to R167, R176). BUFA takes the lowest free entry for its team, full at once where the target is
0, or answers all ones. BUFW waits for a full entry and answers its generation; BUFQ answers count or target with the
state; BUFF frees an entry that no operation names and drains another; `.rearm` starts a full one again. A bad handle
traps `BUF_STATE`. -/
def Obligations.CopyBuffers : Prop :=
  ∀ (s : State) (ik : Nat) (it : Item) (g : Group) (f : EF) (v : W64), Solo s ik it g → guardHolds f.g it = true →
    s.ungated ik → readV it g f.o1.toNat 1 = .ok (v, none) →
    let c := s.coreOf ik
    let bufs := (s.core c).bufs
    let h := v.toNat % 2 ^ 32
    let free := fun w => anyEmpty (regsAt it g (.v f.r.toNat) w) = false
    let put := fun (m : AMap Buf) => s.updCore c (fun k => { k with bufs := m })
    let traps := fun (i : Instr) (n : W32) => exec i s = .next (s.takeTrap ik ⟨0x23, n, 0, 0⟩ s.cur.pc)
    let settled := fun (b : Buf) => if b.st = .filling ∧ b.target ≤ b.count then { b with st := .full, gen := b.gen + 1 } else b
    (free 1 → (∀ e ∈ bufs, e.2.made < s.fresh) →
      (∀ n, n < 256 → AMap.find bufs n = none → (∀ m, m < n → AMap.find bufs m ≠ none) →
        exec (.bufa f) s = .next ((({ put (AMap.put bufs n (settled ⟨.filling, s.teamOf ik, h, 0, 0, false,
          s.fresh, []⟩)) with fresh := s.fresh + 1 } : State).dest ik (.v f.r.toNat) 1 n).advance ik 8)) ∧
      ((∀ m, m < 256 → AMap.find bufs m ≠ none) →
        exec (.bufa f) s = .next ((s.dest ik (.v f.r.toNat) 1 0xFFFFFFFF).advance ik 8))) ∧
    (free 1 → (256 ≤ h → traps (.bufw f) 1) ∧ (h < 256 → AMap.find bufs h = none → traps (.bufw f) 2)) ∧
    (256 ≤ h → traps (.buff f) 1) ∧ (h < 256 → AMap.find bufs h = none → traps (.buff f) 2) ∧
    (free 2 → (256 ≤ h → traps (.bufq f true) 1) ∧
      (h < 256 → AMap.find bufs h = none → exec (.bufq f true) s = .next ((s.dest ik (.v f.r.toNat) 2 0).advance ik 8))) ∧
    ∀ b, AMap.find bufs h = some b → h < 256 →
      (b.team ≠ s.teamOf ik → (b.st ≠ .draining → traps (.buff f) 3 ∧ (free 1 → traps (.bufw f) 3)) ∧ (free 2 → ∀ tgt, traps (.bufq f tgt) 3)) ∧
      (b.team = s.teamOf ik →
        (b.st = .draining → traps (.buff f) 2 ∧ (free 1 → traps (.bufw f) 2)) ∧
        (free 1 → b.st = .full → ∃ u, exec (.bufw f) s = .next ((u.dest ik (.v f.r.toNat) 1 b.gen.toNat).advance ik 8) ∧ Learned s u) ∧
        (free 1 → b.st = .filling → exec (.bufw f) s = .next (s.leave ik)) ∧
        (free 2 → ∀ tgt, exec (.bufq f tgt) s = .next ((s.dest ik (.v f.r.toNat) 2 ((if tgt then b.target else b.count) +
          2 ^ 32 * (65536 * b.gen.toNat + (if b.fault then 128 else 0) + match b.st with | .filling => 1 | .full => 2 | .draining => 3))).advance ik 8)) ∧
        (b.st ≠ .draining → exec (.buff f) s = .next (if s.bufBusy c h then (put (AMap.put bufs h { b with st := .draining })).advance ik 8
          else (put (AMap.del bufs h)).advance ik 8)) ∧
        (b.st = .filling → exec (.buffRearm f false) s = .next (s.takeTrap ik ⟨0x23, 4, 0, 0⟩ s.cur.pc)) ∧
        (b.st = .full → exec (.buffRearm f false) s = .next ((put (AMap.put bufs h (settled { b with st := .filling, count := 0 }))).advance ik 8) ∧
          ∀ w, readV it g f.o2.toNat 1 = .ok (w, none) → exec (.buffRearm f true) s =
            .next ((put (AMap.put bufs h (settled { b with st := .filling, count := 0, target := w.toNat % 2 ^ 32 }))).advance ik 8)))

/-- Copies (R168 to R173, R198). The leader's item of a group supplies the slice: the shape must be below 2^32 bytes
and inside the scratchpad and the address space, and the slice joins the outstanding operations with the group's
in-flight count raised; other items pass. Each arrival moves the bytes up to the row's end or the source's next 4 KiB
boundary, or the whole line of a TLD, and counts them on the buffer. CPRPL lets a suspended one go on and frees its
record. That a faulting chunk writes none of its bytes is the reading of log entry 47. -/
def Obligations.Copies : Prop :=
  (∀ (s : State) (ik : Nat) (it : Item) (g : Group) (f : EF) (tm : Team), Solo s ik it g → guardHolds f.g it = true →
    s.ungated ik → AMap.find s.teams (s.teamOf ik) = some tm → (s.core (s.coreOf ik)).slots = [] → s.coh = [] → s.gathers = [] →
    s.inflightRes (groupOf ik) < 63 →
    let reads := fun (scr : Bool) (n : Fld) (d : Side) => if scr then ∃ v, readV it g n.toNat 1 = .ok (v, none) ∧ d = .scr (v.toNat % 2 ^ 32)
      else ∃ v, readV it g n.toNat 2 = .ok (v, none) ∧ d = .glob v
    let inside := fun (d : Side) (rows rowBytes : Nat) (stride : Int) => match d with
      | .scr o => ∀ i, i < rows → 0 < rowBytes → 0 ≤ (o : Int) + i * stride ∧ (o : Int) + i * stride + rowBytes ≤ tm.scrSize
      | .glob a => ∀ i, i < rows → 0 < rowBytes → 0 ≤ (a.toNat : Int) + i * stride ∧ (a.toNat : Int) + i * stride + rowBytes ≤ 2 ^ 64
    let issued := fun (i : Instr) (x : CopyOp) => ∃ t, exec i s = .next t ∧ t.fresh = s.fresh + 1 ∧ t.mem = s.mem ∧ t.items = (s.advance ik 8).items ∧
      (∃ seq started, AMap.find t.ops s.fresh = some ⟨s.coreOf ik, launchOf ik, indexOf ik, indexOf ik + 1, s.cur.pc,
        .copy { x with seq := seq, started := started }⟩) ∧
      AMap.find t.groups (groupOf ik) = some { g with inflight := g.inflight + 1 }
    (s.leader (groupOf ik) ≠ some ik → ∀ d1 d2 ev, ∀ i ∈ [Instr.cpy f d1 d2 ev, .cpyw f d1 d2 ev, .tld f d2 ev], exec i s = .next (s.advance ik 8)) ∧
    (s.leader (groupOf ik) = some ik → ∀ (hv : W64) (b : Buf), readV it g f.r.toNat 1 = .ok (hv, none) →
      let h := hv.toNat % 2 ^ 32
      h < 256 → AMap.find (s.core (s.coreOf ik)).bufs h = some b → b.st ≠ .draining → b.team = s.teamOf ik →
      ∀ d1 d2 ev src,
        reads d2 f.o2 src →
        (∀ dst, reads d1 f.o1 dst →
          (∀ n, readEs s ik it g f.o3 1 = .ok [n] → inside dst 1 n.toNat 0 → inside src 1 n.toNat 0 →
            issued (.cpy f d1 d2 ev) ⟨.cpy, h, 0, false, dst, src, n.toNat, 1, 0, 0, .scr 0, [], 0, ev, false⟩) ∧
          (∀ n r ss ds : W32, readEs s ik it g f.o3 4 = .ok [n, r, ss, ds] → inside dst r.toNat n.toNat ds.toInt → inside src r.toNat n.toNat ss.toInt →
            r.toNat * n.toNat < 2 ^ 32 →
            issued (.cpyw f d1 d2 ev)
              ⟨.cpy, h, 0, false, dst, src, n.toNat, r.toNat, ss.signExtend 64, ds.signExtend 64, .scr 0, [], 0, ev, false⟩)) ∧
        (∀ (sl sh : W64), readV it g f.o1.toNat 1 = .ok (sl, none) → readV it g f.o3.toNat 2 = .ok (sh, none) →
          let slot := sl.toNat % 2 ^ 32
          let first := sh.toNat % 128
          let n := sh.toNat / 256 % 128 + 1
          slot < 32 → tm.claimed.getLsbD slot = true → first + n ≤ 128 → inside src n 128 (sh.extractLsb' 32 32).toInt →
          issued (.tld f d2 ev)
            ⟨.tld slot first, h, 0, true, .scr 0, src, 128, n, (sh.extractLsb' 32 32).signExtend 64, 0, .scr 0, [], 0, ev, false⟩)) ∧
    ∀ v r, readV it g f.o1.toNat 1 = .ok (v, none) → AMap.find (s.core (s.coreOf ik)).copyRecs (v.toNat % 2 ^ 32) = some r →
      (r.team ≠ s.teamOf ik → exec (.cprpl f) s = .next (s.takeTrap ik ⟨0x23, 5, 0, 0⟩ s.cur.pc)) ∧
      (r.team = s.teamOf ik → ∀ o x, AMap.find s.ops r.op = some o → o.kind = .copy x → ∃ t, exec (.cprpl f) s = .next t ∧
        AMap.find (t.core (s.coreOf ik)).copyRecs (v.toNat % 2 ^ 32) = none ∧
        AMap.find t.ops r.op = some { o with kind := .copy { x with suspended := false } })) ∧
  ∀ (s : State) (n : Nat) (o : Op) (x : CopyOp), s.copyOf n = some (o, x) → s.opCancelled o = false →
    let ik := itemKey o.launch o.lo
    let j := jobOfLaunch o.launch
    let ends := fun (t : State) (len : Nat) (y : CopyOp) =>
      let t := t.sync [tokOp n] (t.bufTok o.core x.buf)
      let u : State := { t.updBuf o.core x.buf (·.arrive len) with ops := AMap.put t.ops n { o with kind := .copy y }, moved := true }
      if x.rowBytes * x.rows ≤ y.cursor then u.endCopy n o y else u
    (x.kind = .cpy → x.cursor < x.rowBytes * x.rows →
      let row := x.cursor / x.rowBytes
      let w := x.cursor % x.rowBytes
      let src := x.src.at x.srcStride row w
      let len := Nat.min (x.rowBytes - w) (4096 - src.addr.toNat % 4096)
      ∀ bs u1 u2 l, s.sideRead o.core j ik x.ev src len = .ok bs u1 → u1.sideWrite o.core j ik x.ev (x.dst.at x.dstStride row w) bs = .ok l u2 →
        exec (.copyChunkArrival n) s = .next (ends u2 len { x with cursor := x.cursor + len })) ∧
    (∀ slot first, x.kind = .tld slot first → x.rowBytes = 128 →
      ∀ bs u1, s.sideRead o.core j ik x.ev (x.src.at x.srcStride (x.cursor / 128) 0) 128 = .ok bs u1 →
        exec (.tldLineWrite n) s =
          .next (ends (u1.slotWrite (s.opTeam o) slot (128 * (first + x.cursor / 128)) bs [tokOp n] (s.bufTok o.core x.buf)) 128 { x with cursor := x.cursor + 128 }))

/-- Barriers (R178 to R183, R251, R252, R361). BAR.INIT sets the count of a barrier without arrivals; BAR.ARV answers
the generation and arrives; BAR.WAIT holds its item while the generation is its token; BAR.SYNC arrives and waits. The
arrival that makes up the count starts the next generation. CBAR, LBAR and PHBND, of co-resident launches only, count
their item in and hold it until their generation or instance is over. Beside these they change only what is known of
the order of operand-store writes. -/
def Obligations.Barriers : Prop :=
  ∀ (s : State) (ik : Nat) (it : Item) (g : Group) (tm : Team), Solo s ik it g → acquireGate s ik = .ok () →
    AMap.find s.teams (s.teamOf ik) = some tm → (s.core (s.coreOf ik)).slots = [] → s.coh = [] → s.gathers = [] →
    let arrived := fun (x : Bar) => if x.arrived + 1 = x.expect then { x with arrived := 0, gen := x.gen + 1 } else { x with arrived := x.arrived + 1 }
    let set := fun (u : State) (b : Nat) (x : Bar) => u.updTeam (s.teamOf ik) (fun t => { t with bars := setAt t.bars b x })
    let on := fun (i : Instr) (u : State) (f : State → State) => ∃ v, Learned u v ∧ exec i s = .next (f v)
    let pass := fun (v : State) => (v.clearWait ik).advance ik 8
    let traps := fun (i : Instr) (c : Nat) (n : W32) => exec i s = .next (s.takeTrap ik ⟨c, n, 0, 0⟩ s.cur.pc)
    (∀ (f : EF), guardHolds f.g it = true → it.wait? = none →
      (∀ (n : Option (BitVec 10)) (b : Nat),
        (match n with | some k => b = k.toNat | none => ∃ v, readV it g f.o1.toNat 1 = .ok (v, none) ∧ b = v.toNat % 2 ^ 32) →
        (tm.bars[b]? = none → traps (.barInit f n) 0x0E 1 ∧ traps (.barWait f n) 0x0E 1 ∧ traps (.barSync f n) 0x0E 1) ∧
        ∀ x, tm.bars[b]? = some x →
          (∀ c, readV it g f.o2.toNat 1 = .ok (c, none) →
            let k := c.toNat % 2 ^ 32
            (x.arrived ≠ 0 → traps (.barInit f n) 0x0E 3) ∧
            (x.arrived = 0 → k = 0 ∨ 1024 < k → traps (.barInit f n) 0x0E 2) ∧
            (x.arrived = 0 → 1 ≤ k → k ≤ 1024 → exec (.barInit f n) s = .next ((set s b { x with expect := k }).advance ik 8)) ∧
            (x.gen ≠ c.setWidth 16 → on (.barWait f n) s pass) ∧
            (x.gen = c.setWidth 16 → exec (.barWait f n) s = .next { s.setWait ik (.bar b x.gen) with moved := true })) ∧
          (anyEmpty (regsAt it g (.v f.r.toNat) 1) = false →
            on (.barArv f n) (s.dest ik (.v f.r.toNat) 1 x.gen.toNat) (fun v => (set v b (arrived x)).advance ik 8)) ∧
          (x.arrived + 1 = x.expect → on (.barSync f n) (set s b (arrived x)) pass) ∧
          (x.arrived + 1 ≠ x.expect → on (.barSync f n) (set s b (arrived x)) (fun v => { v.setWait ik (.bar b x.gen) with moved := true }))) ∧
      ∀ (n : BitVec 4) (c : W64), readV it g f.o2.toNat 1 = .ok (c, none) →
        let k := clusterOf (s.coreOf ik) * 16 + n.toNat
        let x := s.cbarD k
        let cnt := c.toNat % 2 ^ 32
        (cfgCores (s.cardOf (launchOf ik)).config = false → traps (.cbar f (some n)) 0x31 0) ∧
        (cfgCores (s.cardOf (launchOf ik)).config = true →
          (cnt = 0 ∨ 48 < cnt → traps (.cbar f (some n)) 0x0E 2) ∧
          (1 ≤ cnt → cnt ≤ 48 → x.owner = none →
            on (.cbar f (some n)) s (fun v => { ((v.setWait ik (.cbar k x.gen)).setCBar k { x with
              owner := some (launchOf ik), expect := cnt, items := ik :: x.items.filter (· != ik) }).cbarTeam k (s.teamOf ik) with moved := true })) ∧
          (1 ≤ cnt → cnt ≤ 48 → x.owner = some (launchOf ik) → x.expect = cnt →
            on (.cbar f (some n)) s (fun v => { ((v.setWait ik (.cbar k x.gen)).setCBar k { x with
              items := ik :: x.items.filter (· != ik) }).cbarTeam k (s.teamOf ik) with moved := true })))) ∧
    (∀ (f : EF) b gen x, guardHolds f.g it = true → it.wait? = some (.bar b gen) → tm.bars[b]? = some x →
      ∀ n, ∀ i ∈ [Instr.barWait f n, .barSync f n], (x.gen ≠ gen → on i s pass) ∧
        (x.gen = gen → exec i s = .next (s.leave ik))) ∧
    (∀ (f : EF) n k gen, guardHolds f.g it = true → it.wait? = some (.cbar k gen) →
      ((s.cbarD k).gen ≠ gen → on (.cbar f n) s pass) ∧
      ((s.cbarD k).gen = gen → exec (.cbar f n) s = .next (s.leave ik))) ∧
    ∀ (gd : Guard) (l : Launch), guardHolds gd it = true → AMap.find s.launches (launchOf ik) = some l →
      (it.wait? = none →
        (cfgCores l.card.config = false → traps (.lbar gd) 0x31 0 ∧ traps (.phbnd gd) 0x31 0) ∧
        (cfgCores l.card.config = true →
          on (.lbar gd) s (fun v => { ((v.setWait ik (.lbar l.lbarN)).updLaunch (launchOf ik) (fun l => { l with
            lbar := ik :: l.lbar.filter (· != ik) })).lbarCheck (launchOf ik) with moved := true }) ∧
          on (.phbnd gd) s (fun v => { ((v.setWait ik (.phbnd l.phbN)).updLaunch (launchOf ik) (fun l => { l with
            phb := ik :: l.phb.filter (· != ik) })).lbarCheck (launchOf ik) with moved := true }))) ∧
      (∀ n, it.wait? = some (.lbar n) → (n < l.lbarN → on (.lbar gd) s pass) ∧
        (l.lbarN ≤ n → exec (.lbar gd) s = .next (s.leave ik))) ∧
      (∀ n, it.wait? = some (.phbnd n) → (n < l.phbN → on (.phbnd gd) s pass) ∧
        (l.phbN ≤ n → exec (.phbnd gd) s = .next (s.leave ik)))

/-- Exchanges (R184 to R192). A member whose operands are ready joins the instance at its word, or opens it and takes
up the pass records there; a mask without its own position, or another than the instance's, traps; a position that has
joined waits. The immediate A of a float reduction stands for the float of its value. The instance completes when
every live position of its mask has joined or passed; until then the member waits at its word. What each participant
then receives: SHFL the value of its source position, or its own where none takes part there; VOTE the positions, the
count or the rank; ELECT the lowest position; MATCH the lowest, the number and the rank of the participants with its
value; REDG.ADD the sum modulo 2^W, SCANG.ADD the sum up to its position. A member with a false guard is accounted
for, and goes on. -/
def Obligations.Exchanges : Prop :=
  (∀ (s : State) (ik : Nat) (it : Item) (g : Group) (f : VF) (sm : ShflMode) (vm : VoteMode) (p : BitVec 3) (w : Bool) (op : RedOp),
    Solo s ik it g →
    let gk := groupOf ik
    let pc := s.cur.pc
    let found := g.exch.find? (fun e => e.pc == pc)
    ∀ x ∈ [(Instr.shfl f sm, 1, (if sm = .bcast then 0 else 1), 1, false), (.vote f vm p, 0, 0, 1, it.pred p), (.elect f, 0, 0, 1, false),
      (.matchg f w, wideRegs w, 0, 1, false), (.redg f op, RedOp.regs op, 0, RedOp.regs op, false),
      (.scang f op, RedOp.regs op, 0, RedOp.regs op, false)],
    let ofA := fun (a : W64) => match x.1, op, f.a with
      | .redg _ _, .fadd _, .imm n | .redg _ _, .fmin, .imm n | .redg _ _, .fmax, .imm n
      | .scang _ _, .fadd _, .imm n | .scang _ _, .fmin, .imm n | .scang _ _, .fmax, .imm n => BitVec.ofNat 64 (encInt .f32 n.toInt)
      | _, _, _ => a
    (guardHolds f.g it = false → ∀ e, found = some e → exec x.1 s = .next
      (((s.updGroup gk (fun g => { g with exch := g.exch.map (fun y => if y.pc = pc then { e with passed := e.passed ||| 1#16 <<< posOf ik } else y) })).tryFinish
        gk { e with passed := e.passed ||| 1#16 <<< posOf ik }).advance ik 8)) ∧
    (guardHolds f.g it = false → found = none → exec x.1 s = .next
      ((s.updGroup gk (fun g => { g with passes := (pc, posOf ik) :: g.passes.filter (fun p => p != (pc, posOf ik)) })).advance ik 8)) ∧
    (guardHolds f.g it = true → it.wait? = some .done → exec x.1 s = .next ((s.clearWait ik).advance ik 8)) ∧
    (guardHolds f.g it = true → it.wait? = some .joined → exec x.1 s = .next (s.leave ik)) ∧
    (guardHolds f.g it = true → it.wait? = none → ∀ (a b m : W64) (pa : Option W32) (r : RegRef),
      readUse (s.quotaOfItem ik) it g f.a x.2.1 f.wa = .ok (a, pa) → (x.1 = .matchg f w → pa = none) →
      Reads s ik it g f.b x.2.2.1 f.wb b → Reads s ik it g f.c 1 f.wc m → Writes s ik it g f.d x.2.2.2.1 r →
      let mask : BitVec 16 := m.setWidth 16
      let me : Joined := ⟨ik, posOf ik, ofA a, pa, lo32 b, lo32 m, x.2.2.2.2, s.leads ik, r, it.level⟩
      let traps := fun (why : W32) => exec x.1 s = .next (s.takeTrap ik ⟨0x0D, why, 0, 0⟩ pc)
      let joins := fun (e : Exch) (u : State) =>
        let all := ∀ q < 16, mask.getLsbD q = true → u.liveAt gk q = true → e.passed.getLsbD q = true ∨ ∃ j ∈ e.joined, j.pos = q
        (¬ all → exec x.1 s = .next { u.setWait ik .joined with moved := true }) ∧
        (all → exec x.1 s = .next { State.finishExchange { (u.setWait ik .joined).updGroup gk (fun g => { g with
          exch := g.exch.filter (fun y => y.pc != pc) }) with moved := true } gk e (sortBy (fun i j => decide (i.pos < j.pos)) e.joined)
            with moved := true })
      (mask.getLsbD (posOf ik) = false → traps 1) ∧
      (mask.getLsbD (posOf ik) = true →
        (∀ e, found = some e → e.mask ≠ mask → traps 2) ∧
        (∀ e, found = some e → e.mask = mask → (∃ j ∈ e.joined, j.pos = posOf ik) → exec x.1 s = .next (s.leave ik)) ∧
        (∀ e, found = some e → e.mask = mask → e.ins = x.1 → (∀ j ∈ e.joined, j.pos ≠ posOf ik) →
          let e2 := { e with joined := me :: e.joined, passed := e.passed &&& ~~~(1#16 <<< posOf ik) }
          joins e2 (s.updGroup gk (fun g => { g with exch := g.exch.map (fun y => if y.pc = pc then e2 else y) }))) ∧
        (found = none →
          let e : Exch := ⟨pc, x.1, mask, [me], ((g.passes.filter (fun y => y.1 == pc && y.2 != posOf ik)).map
            (fun y => 1#16 <<< y.2)).foldl (· ||| ·) 0⟩
          joins e (s.updGroup gk (fun g => { g with exch := g.exch ++ [e], passes := g.passes.filter (fun y => y.1 != pc) })))))) ∧
  (∀ (f : VF) (sm : ShflMode) (p : BitVec 3) (w : Bool) (t : ITy) (js : List Joined) (j : Joined),
    (∀ k ∈ js, k.pos < 16) → (js.map Joined.pos).Nodup → j ∈ js →
    let src := match sm with
      | .pick => j.b.toNat % 16
      | .rot => (j.pos + (16 - j.b.toNat % 16)) % 16
      | .mir => j.pos ^^^ (j.b.toNat % 16)
      | .bcast => js.foldl (fun n k => Nat.min n k.pos) 15
    let same := js.filter (fun k => decide (low w k.a = low w j.a))
    (∀ k ∈ js, k.pos = src → exRes (.shfl f sm) js j = ⟨(lo32 k.a).toNat, k.pa⟩) ∧
    ((∀ k ∈ js, k.pos ≠ src) → exRes (.shfl f sm) js j = ⟨(lo32 j.a).toNat, j.pa⟩) ∧
    (∃ n, exRes (.vote f .mask p) js j = ⟨n, none⟩ ∧ n < 2 ^ 32 ∧ ∀ q < 16,
      (n.testBit q = true ↔ ∃ k ∈ js, k.pos = q ∧ k.pred = true) ∧ (n.testBit (16 + q) = true ↔ ∃ k ∈ js, k.pos = q)) ∧
    exRes (.vote f .cnt p) js j = ⟨js.countP (·.pred), none⟩ ∧
    exRes (.vote f .rank p) js j = ⟨js.countP (fun k => k.pred && decide (k.pos < j.pos)), none⟩ ∧
    (∃ q, (∃ k ∈ js, k.pos = q) ∧ (∀ k ∈ js, q ≤ k.pos) ∧ exRes (.elect f) js j = ⟨q + if j.pos = q then 2 ^ 31 else 0, none⟩) ∧
    (∃ q, (∃ k ∈ same, k.pos = q) ∧ (∀ k ∈ same, q ≤ k.pos) ∧
      exRes (.matchg f w) js j = ⟨q + 16 * same.length + 512 * same.countP (fun k => decide (k.pos < j.pos)), none⟩) ∧
    ((∀ k ∈ js, k.pa = none) →
      exRes (.redg f (.add t)) js j = ⟨(js.map (fun k => k.a.toNat)).sum % 2 ^ ITy.width t, none⟩ ∧
      exRes (.scang f (.add t)) js j = ⟨((js.filter (fun k => decide (k.pos ≤ j.pos))).map (fun k => k.a.toNat)).sum % 2 ^ ITy.width t, none⟩) ∧
    (∀ (op : RedOp) k q, k ∈ js → k.pa = some q → (∀ l ∈ js, l.pos < k.pos → l.pa = none) →
      exRes (.redg f op) js j = ⟨0, some q⟩ ∧ (k.pos ≤ j.pos → exRes (.scang f op) js j = ⟨0, some q⟩)))

/-- Operand slots and tiles (R193 to R203, R211, R218). TCLM claims and zeroes the lowest run of unclaimed slots of
its team's reservation and answers its number, or -1; TREL gives slots up; TMOV writes registers into a claimed slot,
unpublished until OPRF; CBLD loads a codebook. AALC allocates a tile where the core's bank has room and answers 1,
else 0; AFREE and AWAIT hold their item until the operations accepted on the tile have completed. Each names its
failing check. A listed write shows in its bytes, and only there; what stood before may show too until the write
counts for the reader (R199; how writes are tracked is the model's, log entry 58). -/
def Obligations.SlotsAndTiles : Prop :=
  ∀ (s : State) (ik : Nat) (it : Item) (g : Group) (tm : Team), Solo s ik it g → s.ungated ik →
    AMap.find s.teams (s.teamOf ik) = some tm →
    let traps := fun (i : Instr) (c : Nat) (n : Nat) => exec i s = .next (s.takeTrap ik ⟨c, BitVec.ofNat 32 n, 0, 0⟩ s.cur.pc)
    let team := fun (u : Team) => s.updTeam (s.teamOf ik) (fun _ => u)
    let listed := fun (u : Team) => ({ s with fresh := s.fresh + 1 } : State).updTeam (s.teamOf ik) (fun _ => u)
    let free := fun (k n : Nat) => tm.slotBase ≤ k ∧ k + n ≤ tm.slotBase + tm.slotCount ∧ ∀ j < n, tm.claimed.getLsbD (k + j) = false
    (∀ (f : EF), guardHolds f.g it = true →
      (∀ (n : Option (BitVec 6)) (c : Nat), anyEmpty (regsAt it g (.v f.r.toNat) 1) = false → tm.slotBase + tm.slotCount ≤ 32 →
        (match n with | some k => c = k.toNat | none => ∃ v, readV it g f.o1.toNat 1 = .ok (v, none) ∧ c = v.toNat % 2 ^ 32) →
        (c = 0 ∨ 32 < c → traps (.tclm f n) 0x24 5) ∧
        (1 ≤ c → c ≤ 32 →
          (∀ k, free k c → (∀ j < k, ¬ free j c) → ∃ (u : Team) (w : SlotWrite),
            exec (.tclm f n) s = .next ((((listed u).absorbSlots (s.teamOf ik)).dest ik (.v f.r.toNat) 1 k).advance ik 8) ∧
            u = { tm with claimed := u.claimed, storeErr := u.storeErr, unpublished := tm.unpublished ++ [w] } ∧
            (∀ j < 32, u.claimed.getLsbD j = (tm.claimed.getLsbD j || decide (k ≤ j ∧ j < k + c))) ∧
            (∀ a, a ∈ u.storeErr ↔ a ∈ tm.storeErr ∧ ¬ (k ≤ a / 16384 ∧ a / 16384 < k + c)) ∧
            w.zero = true ∧ w.known = [(ik, s.fresh)] ∧ w.pubs = [] ∧
            ∀ a, (w.covers a = true ↔ k ≤ a / 16384 ∧ a / 16384 < k + c) ∧ w.val a = 0) ∧
          ((∀ k, ¬ free k c) → exec (.tclm f n) s = .next ((s.dest ik (.v f.r.toNat) 1 0xFFFFFFFF).advance ik 8)))) ∧
      (∀ b c : Nat, ∀ n : Option (BitVec 5 × BitVec 6),
        (match n with
          | some k => b = k.1.toNat ∧ c = k.2.toNat
          | none => ∃ v w, readV it g f.o1.toNat 1 = .ok (v, none) ∧ readV it g f.o2.toNat 1 = .ok (w, none) ∧ b = v.toNat % 2 ^ 32 ∧ c = w.toNat % 2 ^ 32) →
        (c = 0 ∨ 32 < b + c → traps (.trel f n) 0x24 5) ∧
        (0 < c → b + c ≤ 32 →
          (∀ k, b ≤ k → k < b + c → tm.claimed.getLsbD k = false → (∀ j, b ≤ j → j < k → tm.claimed.getLsbD j = true) → traps (.trel f n) 0x20 k) ∧
          ((∀ k, b ≤ k → k < b + c → tm.claimed.getLsbD k = true) →
            ((∃ e ∈ s.ops, e.2.core = s.coreOf ik ∧ ∃ k ∈ e.2.kind.slots, b ≤ k ∧ k < b + c) → exec (.trel f n) s = .next (s.leave ik)) ∧
            ((¬ ∃ e ∈ s.ops, e.2.core = s.coreOf ik ∧ ∃ k ∈ e.2.kind.slots, b ≤ k ∧ k < b + c) → ∃ u : Team,
              exec (.trel f n) s = .next ((team u).advance ik 8) ∧ u = { tm with claimed := u.claimed } ∧
              ∀ j < 32, u.claimed.getLsbD j = (tm.claimed.getLsbD j && !decide (b ≤ j ∧ j < b + c)))))) ∧
      (∀ (n : BitVec 3) (x y : W64) (vs : List W32), readV it g f.o1.toNat 1 = .ok (x, none) → readV it g f.o2.toNat 1 = .ok (y, none) →
        readEs s ik it g f.o3 (2 ^ n.toNat) = .ok vs →
        let slot := x.toNat % 2 ^ 32
        let o := y.toNat % 2 ^ 32
        let len := 4 * 2 ^ n.toNat
        (32 ≤ slot → traps (.tmov f n) 0x24 5) ∧
        (slot < 32 → (tm.claimed.getLsbD slot = false → traps (.tmov f n) 0x20 slot) ∧
          (tm.claimed.getLsbD slot = true → (¬ (o % len = 0 ∧ o + len ≤ 16384) → traps (.tmov f n) 0x24 5) ∧
            (o % len = 0 → o + len ≤ 16384 → ∃ (u : Team) (w : SlotWrite), exec (.tmov f n) s = .next ((listed u).advance ik 8) ∧
              u = { tm with storeErr := u.storeErr, unpublished := tm.unpublished ++ [w] } ∧
              (∀ a, a ∈ u.storeErr ↔ a ∈ tm.storeErr ∧ ¬ (slot * 16384 + o ≤ a ∧ a < slot * 16384 + o + len)) ∧
              w.zero = false ∧ w.known = [(ik, s.fresh)] ∧ w.pubs = [] ∧
              ∀ a, (w.covers a = true ↔ slot * 16384 + o ≤ a ∧ a < slot * 16384 + o + len) ∧
                (w.covers a = true → w.val a = ((vs.map (fun v => leBytes v.toNat 4)).flatten).getD (a - (slot * 16384 + o)) 0))))) ∧
      (∀ (k : BitVec 2) (vs : List W32), readEs s ik it g f.o1 8 = .ok vs → exec (.cbld f k) s = .next ((s.updTeam (s.teamOf ik) (fun u => { u with
        cb := setAt u.cb k.toNat (BitVec.ofNat 256 (leNat ((vs.map (fun v => leBytes v.toNat 4)).flatten.take 32))), cbWritten := true })).advance ik 8)) ∧
      (∀ (k : BitVec 3) (rows : BitVec 2) (cols : BitVec 6) (ty : TileTy), anyEmpty (regsAt it g (.v f.r.toNat) 1) = false →
        let r := 16 * (rows.toNat + 1)
        let c := 16 * (cols.toNat + 1)
        let size := r * c * (if ty = .part then 32 else 4) / 1024
        (tm.tile k.toNat ≠ none → traps (.aalc f k rows cols ty) 0x24 2) ∧
        (tm.tile k.toNat = none → s.bankUsed (s.coreOf ik) + size ≤ 256 → exec (.aalc f k rows cols ty) s = .next
          (((s.updTeam (s.teamOf ik) (fun u => { u with tiles := AMap.put u.tiles k.toNat ⟨r, c, ty, [], [], []⟩ })).dest ik (.v f.r.toNat) 1 1).advance ik 8)) ∧
        (tm.tile k.toNat = none → 256 < s.bankUsed (s.coreOf ik) + size →
          exec (.aalc f k rows cols ty) s = .next ((s.dest ik (.v f.r.toNat) 1 0).advance ik 8)))) ∧
    (∀ gd, guardHolds gd it = true →
      exec (.oprf gd) s = .next (((team { tm with unpublished := tm.unpublished.map (fun w =>
        if (∃ e ∈ w.known, e.1 = ik) ∧ ¬ ∃ e ∈ w.pubs, e.1 = ik then { w with pubs := w.pubs ++ [(ik, s.fresh)] } else w) }).absorbSlots
          (s.teamOf ik)).advance ik 8) ∧
      ∀ k : BitVec 3,
        let seen := s.sync [tokTile (s.teamOf ik) k.toNat] [ik]
        (tm.tile k.toNat = none → traps (.afree gd k) 0x24 1 ∧ traps (.await gd k) 0x24 1) ∧
        (tm.tile k.toNat ≠ none → s.tileOps (s.teamOf ik) k.toNat s.fresh = true →
          exec (.afree gd k) s = .next (s.leave ik) ∧ exec (.await gd k) s = .next (s.leave ik)) ∧
        (tm.tile k.toNat ≠ none → s.tileOps (s.teamOf ik) k.toNat s.fresh = false →
          exec (.await gd k) s = .next (seen.advance ik 8) ∧
          exec (.afree gd k) s = .next ((seen.updTeam (s.teamOf ik) (fun u => { u with tiles := AMap.del u.tiles k.toNat })).advance ik 8))) ∧
    (∀ (u : Team) (w : SlotWrite) (items : List Nat) (n a : Nat), u.unpublished = [w] → w.past = [] →
      u.shows items n a = (if w.covers a then [w.val a] else []) ++ (if w.covers a && w.counts items n then [] else [u.store.read a]))

/-- Matrix operations accepted (R204 to R207, R212, R213, R216, R217, R247 to R250). AZERO, ASCAC, ADRS, MMA and MMAC
join the outstanding operations with their group's in-flight count raised; ADRN marks its destination EMPTY. Each
first names its failing check: a missing tile, a tile of another type, a row or column outside the tile, a slot
outside the store or unclaimed, tiles of two shapes. A product is issued when the instance of its group's members is
complete; a cluster product when every core of its mask has come. -/
def Obligations.MatrixOperations : Prop :=
  ∀ (s : State) (ik : Nat) (it : Item) (g : Group) (tm : Team), Solo s ik it g → s.ungated ik →
    AMap.find s.teams (s.teamOf ik) = some tm → (∀ e ∈ s.ops, e.1 < s.fresh) → s.inflightRes (groupOf ik) < 63 →
    let traps := fun (i : Instr) (c : Nat) (n : Nat) => exec i s = .next (s.takeTrap ik ⟨c, BitVec.ofNat 32 n, 0, 0⟩ s.cur.pc)
    let me : BitVec 16 := 1#16 <<< posOf ik
    let op := fun (m : MtxOp) => Op.mk (s.coreOf ik) (launchOf ik) (indexOf ik) (indexOf ik + 1) s.cur.pc (.mtx m)
    let issued := fun (i : Instr) (m : MtxOp) => ∃ u t, Learned s u ∧ exec i s = .next t ∧
      t = { u.advance ik 8 with ops := t.ops, groups := t.groups, fresh := s.fresh + 1 } ∧
      AMap.find t.ops s.fresh = some (op m) ∧ (∀ k, k ≠ s.fresh → AMap.find t.ops k = AMap.find s.ops k) ∧
      AMap.find t.groups (groupOf ik) = some { g with inflight := g.inflight + 1 } ∧
      ∀ k, k ≠ groupOf ik → AMap.find t.groups k = AMap.find s.groups k
    (∀ (gd : Guard) (k : BitVec 3), guardHolds gd it = true →
      (tm.tile k.toNat = none → traps (.azero gd k) 0x24 1) ∧ (tm.tile k.toNat ≠ none → issued (.azero gd k) (.azero k.toNat me))) ∧
    (∀ (f : EF) (c p : BitVec 3) (x : W64), guardHolds f.g it = true → readV it g f.o1.toNat 1 = .ok (x, none) →
      let slot := x.toNat % 2 ^ 32
      (tm.tile c.toNat = none ∨ tm.tile p.toNat = none → traps (.ascac f c p) 0x24 1) ∧
      ∀ tc tp, tm.tile c.toNat = some tc → tm.tile p.toNat = some tp →
        (¬ (tc.ty = .f32 ∧ tp.ty = .part) → traps (.ascac f c p) 0x24 3) ∧
        (tc.ty = .f32 → tp.ty = .part →
          (¬ (tc.rows = tp.rows ∧ tc.cols = tp.cols) → traps (.ascac f c p) 0x24 6) ∧
          (tc.rows = tp.rows → tc.cols = tp.cols → (32 ≤ slot → traps (.ascac f c p) 0x24 5) ∧
            (slot < 32 → (tm.claimed.getLsbD slot = false → traps (.ascac f c p) 0x20 slot) ∧
              (tm.claimed.getLsbD slot = true → issued (.ascac f c p) (.ascac c.toNat p.toNat me slot)))))) ∧
    (∀ (f : EF) (c : DrC), guardHolds f.g it = true →
      let n := 2 ^ c.count.toNat
      let row := posOf ik + 16 * c.band.toNat
      let ready := fun (i : Instr) (fc fp : Fld) (col par : Nat) =>
        (∃ v, readV it g fc.toNat 1 = .ok (v, none) ∧ col = v.toNat % 2 ^ 32) ∧
        (if DKind.requant c.kind then ∃ v, readV it g fp.toNat 1 = .ok (v, none) ∧ par = v.toNat % 2 ^ 32 else par = 0) ∧
        (i = .adrn f c → anyEmpty (regsAt it g (.v f.r.toNat) n) = false)
      let checks := fun (i : Instr) (col par : Nat) (ok : Prop) =>
        (tm.tile c.tile.toNat = none → traps i 0x24 1) ∧
        ∀ tl, tm.tile c.tile.toNat = some tl →
          let suits := (c.kind = .b32 ∨ ((c.kind = .bf16 ∨ c.kind = .f16) ∧ tl.ty = .f32) ∨
            (c.kind ∈ [.s32, .s16, .z16, .s8, .z8] ∧ tl.ty = .s32)) ∧ (c.plane = 0 ∨ tl.ty = .part)
          (¬ suits → traps i 0x24 3) ∧
          (suits → (¬ (row < tl.rows ∧ col + n ≤ tl.cols) → traps i 0x24 4) ∧
            (row < tl.rows → col + n ≤ tl.cols → (DKind.requant c.kind = true → 32 ≤ par → traps i 0x24 5) ∧
              (DKind.requant c.kind = true → par < 32 → tm.claimed.getLsbD par = false → traps i 0x20 par) ∧
              ((DKind.requant c.kind = true → par < 32 ∧ tm.claimed.getLsbD par = true) → ok)))
      (∀ col par, ready (.adrn f c) f.o1 f.o2 col par → checks (.adrn f c) col par
        (∃ u, Learned (s.setEmpty ik (.v f.r.toNat) n) u ∧ exec (.adrn f c) s = .next { u.advance ik 8 with
          ops := AMap.put s.ops s.fresh (op (.adrn c ⟨ik, 0, row, col, par⟩ ⟨.v f.r.toNat, n⟩ ((encode (.adrn f c)).headD 0)))
          fresh := s.fresh + 1 })) ∧
      ∀ col par o, ready (.adrs f c) f.o2 f.o3 col par → readV it g f.o1.toNat 1 = .ok (o, none) →
        let ofs := o.toNat % 2 ^ 32
        let size := match c.kind with | .b32 | .s32 => 4 | .bf16 | .f16 | .s16 | .z16 => 2 | .s8 | .z8 => 1
        checks (.adrs f c) col par
          ((ofs % size ≠ 0 → exec (.adrs f c) s = .next (s.takeTrap ik ⟨0x05, 0, BitVec.ofNat 64 ofs, 0⟩ s.cur.pc)) ∧
           (ofs % size = 0 → tm.scrSize < ofs + size * n → exec (.adrs f c) s = .next (s.takeTrap ik ⟨0x0B, 5, BitVec.ofNat 64 ofs, 0⟩ s.cur.pc)) ∧
           (ofs % size = 0 → ofs + size * n ≤ tm.scrSize → issued (.adrs f c) (.adrs c [⟨ik, ofs, row, col, par⟩])))) ∧
    (∀ (f : EF) (c : MmaC) (d m : W64), guardHolds f.g it = true → it.wait? = none → it.pc = s.cur.pc → g.exch = [] → g.passes = [] →
      s.teamOf (groupOf ik * 16) = s.teamOf ik → (∀ q < 16, m.getLsbD q = true → s.liveAt (groupOf ik) q = true → q = posOf ik) → m.getLsbD (posOf ik) = true →
      readV it g f.o1.toNat 1 = .ok (d, none) → readV it g f.o2.toNat 1 = .ok (m, none) →
      let a := d.toNat % 32
      let b0 := d.toNat / 256 % 32
      let sc := d.toNat / 65536 % 32
      let product := fun (i : Instr) (mo : MtxOp) (n : Nat) => ∃ t it', exec i s = .next t ∧ t.item? ik = some it' ∧ it'.pc = it.pc + 8 ∧ it'.v = it.v ∧
        AMap.find t.ops n = some ⟨s.coreOf ik, launchOf (groupOf ik * 16), indexOf (groupOf ik * 16), indexOf (groupOf ik * 16) + 16, s.cur.pc, .mtx mo⟩ ∧
        AMap.find t.groups (groupOf ik) = some { g with inflight := g.inflight + 1 } ∧ t.mem = s.mem ∧
        ∀ k, (AMap.find t.teams k).map (fun x => { x with unpublished := [] }) = (AMap.find s.teams k).map (fun x => { x with unpublished := [] })
      let fails := fun (i : Instr) (why : Nat) (n : Nat) => ∃ t, OnlyItem s t ik ∧
        exec i s = .next { t.takeTrap ik ⟨why, BitVec.ofNat 32 n, 0, 0⟩ s.cur.pc with moved := true }
      let tile := fun (i : Instr) (ok : Tile → Prop) =>
        (tm.tile c.tile.toNat = none → fails i 0x24 1) ∧
        ∀ tl, tm.tile c.tile.toNat = some tl →
          (tl.ty ≠ (match c.kind with | .int8 => TileTy.s32 | .c4 => .part | _ => .f32) → fails i 0x24 3) ∧
          (tl.ty = (match c.kind with | .int8 => TileTy.s32 | .c4 => .part | _ => .f32) → ok tl)
      (tile (.mma f c) (fun tl =>
        let nb := (tl.cols + 127) / 128
        let used := a :: (List.range nb).map (b0 + ·) ++ (if c.kind = .c4 then [sc] else [])
        (32 < b0 + nb → fails (.mma f c) 0x24 5) ∧
        (b0 + nb ≤ 32 → (∀ n, used.find? (fun k => !tm.claimed.getLsbD k) = some n → fails (.mma f c) 0x20 n) ∧
          ((∀ n ∈ used, tm.claimed.getLsbD n = true) → product (.mma f c) (.mma c me a b0 sc nb tm.cb) s.fresh)))) ∧
      ∀ b, readV it g f.o3.toNat 2 = .ok (b, none) → tile (.mmac f c) (fun tl =>
        let used := a :: (if c.kind = .c4 then [sc] else [])
        (∀ n, used.find? (fun k => !tm.claimed.getLsbD k) = some n → fails (.mmac f c) 0x20 n) ∧
        ((∀ n ∈ used, tm.claimed.getLsbD n = true) → s.mmacs = [] → m.toNat / 65536 % 256 = 2 ^ (s.coreOf ik % 8) →
          s.quiet (s.coreOf ik) → s.merging (jobOf ik) = false → b.toNat % 128 = 0 →
          (∀ j < tl.cols, ∃ x, s.engXlat (jobOf ik) (b + BitVec.ofNat 64 (128 * j)) false = .ok x) →
            product (.mmac f c) (.mmac c me a sc s.fresh tm.cb) (s.fresh + 1) ∧
            ∃ t y, exec (.mmac f c) s = .next t ∧ AMap.find t.bops s.fresh = some y ∧ y.users = 1 ∧ y.bytes.length = 128 * tl.cols ∧
              ∀ j < 128 * tl.cols, ∀ x, t.engXlat (jobOf ik) (b + BitVec.ofNat 64 j) false = .ok x → x.gv = false → x.attr = aSEQ ∨ x.attr = aREL →
                y.bytes[j]? = some (s.mem.read x.pa))))

/-- Matrix operations completed (R204, R208 to R219, R250). Once it is the oldest on its tiles, an operation whose
slots are published gives each element of the rows of its positions its new value and leaves the others: MMA and MMAC
the kind's sum of products onto the element, or for coded operands onto each plane; AZERO zero; ASCAC the scaled
planes added. ADRN brings the drained values to its registers, ADRS to the scratchpad; a requantised value is rounded
half away from zero, moved by the zero point and clamped. The group has one operation less in flight. -/
def Obligations.MatrixResults : Prop :=
  (∀ (s : State) (n : Nat) (o : Op) (m : MtxOp) (tm : Team), AMap.find s.ops n = some o → o.kind = .mtx m → s.oldestOn n o m = true →
    AMap.find s.teams (s.opTeam o) = some tm → tm.unpublished = [] →
    let line := fun (slot r : Nat) => tm.store.readN (slot * 16384 + 128 * r) 128
    let ended := fun (i : Instr) (T : AMap Team) (B : AMap MmacB) => ∃ u : State, exec i s = .next { u with ops := AMap.del s.ops n, moved := true } ∧
      Learned { s with groups := AMap.upd s.groups (groupOf (itemKey o.launch o.lo)) (fun g => { g with inflight := g.inflight - 1 }), teams := T, bops := B } u
    let ends := fun (i : Instr) (k : Nat) (B : AMap MmacB) (Q : Tile → Prop) => ∃ tl : Tile,
      ended i (AMap.upd s.teams (s.opTeam o) (fun t => { t with tiles := AMap.put t.tiles k tl })) B ∧ Q tl
    let product := fun (c : MmaC) (p : BitVec 16) (a sc : Nat) (cbs : List (BitVec 256)) (b : Nat → List (BitVec 8)) (t tl : Tile) =>
      tl.rows = t.rows ∧ tl.cols = t.cols ∧ tl.ty = t.ty ∧ ∀ q i j, q < 8 → i < 48 → j < 640 → tl.get q i j =
        if i < t.rows ∧ p.getLsbD (i % 16) = true ∧ j < t.cols then
          match c.kind with
          | .int8 =>
            let z := (t.get 0 i j).toInt + ((List.range 128).map (fun k => intElem c.va (line a i) k * intElem c.vb (b j) k)).sum
            if q = 0 then BitVec.ofInt 32 (if c.sat then max (-2147483648) (min 2147483647 z) else z) else t.get q i j
          | .c4 => codeProduct cbs (line a i) (b j) q (tm.store.read (sc * 16384 + 8 * i + q)).toNat (tm.store.read (sc * 16384 + 1024 + 8 * j + q)).toNat
          | k => if q = 0 then fltProduct (MKind.fmt k c.va) (MKind.fmt k c.vb) (line a i) (b j) (MKind.k k / 32) (t.get 0 i j) else t.get q i j
        else t.get q i j
    (∀ c p a b0 sc nb cbs t, m = .mma c p a b0 sc nb cbs → tm.tile c.tile.toNat = some t → t.rows ≤ 48 → t.cols ≤ 640 →
      ends (.mmaCompletion n) c.tile.toNat s.bops (fun tl => product c p a sc cbs (fun j => line (b0 + j / 128) (j % 128)) t tl)) ∧
    (∀ c p a sc b cbs t y, m = .mmac c p a sc b cbs → tm.tile c.tile.toNat = some t → t.rows ≤ 48 → t.cols ≤ 640 → AMap.find s.bops b = some y →
      ends (.mmacCompletion n) c.tile.toNat (if y.users ≤ 1 then AMap.del s.bops b else AMap.put s.bops b { y with users := y.users - 1 })
        (fun tl => product c p a sc cbs (fun j => (y.bytes.drop (128 * j)).take 128) t tl)) ∧
    (∀ k p t, m = .azero k p → tm.tile k = some t → ends (.azeroCompletion n) k s.bops (fun tl => tl.rows = t.rows ∧ tl.cols = t.cols ∧ tl.ty = t.ty ∧
      (∀ r, r ∈ tl.damaged ↔ r ∈ t.damaged ∧ ¬ (r < t.rows ∧ p.getLsbD (r % 16) = true)) ∧
      ∀ q i j, q < 8 → i < 48 → j < 640 → tl.get q i j = if i < t.rows ∧ p.getLsbD (i % 16) = true then 0 else t.get q i j)) ∧
    (∀ c pt p sc tc tp, m = .ascac c pt p sc → tm.tile c = some tc → tm.tile pt = some tp → tc.rows ≤ 48 → tc.cols ≤ 640 →
      ends (.ascacCompletion n) c s.bops (fun tl => tl.rows = tc.rows ∧ tl.cols = tc.cols ∧ tl.ty = tc.ty ∧ ∀ q i j, q < 8 → i < 48 → j < 640 → tl.get q i j =
        if q = 0 ∧ i < tc.rows ∧ p.getLsbD (i % 16) = true ∧ j < tc.cols then ascacElem tm.store sc tp i j (tc.get 0 i j) else tc.get q i j)) ∧
    (∀ c (l : DrLane) t, tm.tile c.tile.toNat = some t → drainBad s (s.opTeam o) c t l = false →
      let vals := (List.range (2 ^ c.count.toNat)).map (fun e => drainElem c tm.store l.par (l.col + e) (t.get c.plane.toNat l.row (l.col + e)))
      (∀ d w ik, m = .adrn c l d w → s.landsAt o d.reg = [ik] → s.landsIn o d.reg = [] →
        ∃ u, Learned s u ∧ exec (.adrnCompletion n) s = .next { u.setRegs ik d.reg vals with ops := AMap.del s.ops n, moved := true }) ∧
      (m = .adrs c [l] → ended (.adrsCompletion n) (AMap.upd s.teams (s.teamOf l.item) (fun t => { t with
          scratch := t.scratch.writeN l.ofs ((vals.map (fun v => leBytes v.toNat (DKind.size c.kind))).flatten)
          scratchErr := t.scratchErr.filter (fun e => !(decide (l.ofs ≤ e) && decide (e < l.ofs +
            ((vals.map (fun v => leBytes v.toNat (DKind.size c.kind))).flatten).length))) })) s.bops))) ∧
  ∀ (k : DKind) (acc mul zp : Int) (sh : Nat), ∃ q : Int, 2 * |q * 2 ^ sh - acc * mul| ≤ 2 ^ sh ∧
    (2 * |q * 2 ^ sh - acc * mul| = 2 ^ sh → |acc * mul| ≤ |q * 2 ^ sh|) ∧
    requant k acc mul zp sh = max (DKind.range k).1 (min (DKind.range k).2 (q + zp))

/-- Set and order commands issued (R273, R276 to R290). A command whose registers are free and whose operands are read
is sent to its engine with the operands as arguments, its result registers EMPTY and its group's in-flight count
raised. SBLD and SENUM trap where their memory side is misaligned or goes beyond the scratchpad or the address space;
an order command traps on a count above its limit, then on a misaligned offset, then on an array beyond the
scratchpad, then on arrays that overlap (of MRGK, the inputs may). SWAIT holds its item until the commands its group
has issued before have completed. -/
def Obligations.SetAndOrderWords : Prop :=
  ∀ (s : State) (ik : Nat) (it : Item) (g : Group), Solo s ik it g → s.acqPending ik = false → (s.core (s.coreOf ik)).slots = [] → s.coh = [] → s.gathers = [] →
    (∀ (f : EF) (sp : Bool) (ev : BitVec 3) (c : OrdC) (op : CostOp), acquireGate s ik = .ok () → s.inflightRes (groupOf ik) < 63 → guardHolds f.g it = true →
      ∀ x ∈ [(Instr.snew f, 4, []), (.sfree f, 2, [(f.o1, 2)]), (.sbld f sp ev, 2, [(f.o1, 2), (f.o2, if sp then 1 else 2), (f.o3, 1)]),
        (.senum f sp ev, 4, [(f.o1, 2), (f.o2, if sp then 1 else 2), (f.o3, 2)]), (.sins f, 4, [(f.o1, 2), (f.o2, 1)]),
        (.sdel f, 4, [(f.o1, 2), (f.o2, 1)]), (.shas f, 4, [(f.o1, 2), (f.o2, 1)]), (.scard f, 4, [(f.o1, 2)]), (.srep f, 4, [(f.o1, 2)]),
        (.scost f op, 4, (f.o1, 2) :: match op with | .sins | .sdel | .shas => [(f.o2, 1)] | .scard | .senum => [] | _ => [(f.o2, 2)]),
        (.suni f, 2, [(f.o1, 2), (f.o2, 2), (f.o3, 2)]), (.sint f, 2, [(f.o1, 2), (f.o2, 2), (f.o3, 2)]),
        (.sdif f, 2, [(f.o1, 2), (f.o2, 2), (f.o3, 2)]), (.sintc f, 4, [(f.o1, 2), (f.o2, 2)]), (.sortk f c, 1, [(f.o1, 1), (f.o2, 1), (f.o3, 1)]),
        (.topk f c, 2, [(f.o1, 4), (f.o2, 2)] ++ if c.thr then [(f.o3, 4)] else []), (.selb f c, 2, [(f.o1, 4), (f.o2, 2)]),
        (.srch f c, 1, [(f.o1, 1), (f.o2, 1), (f.o3, 1)]), (.mrgk f c, 1, [(f.o1, 4), (f.o2, 2)])],
      anyEmpty (regsAt it g (.v f.r.toNat) x.2.1) = false → ∀ vss : List (List W32), x.2.2.mapM (fun (p : Fld × Nat) => readEs s ik it g p.1 p.2) = .ok vss →
        let args : List W64 := (vss.map pairUp).flatten
        let lo := fun (k : Nat) => (args.getD k 0).toNat % 2 ^ 32
        let hi := fun (k : Nat) => (args.getD k 0).toNat / 2 ^ 32
        let limit : Bool := match x.1 with
          | .sortk _ _ => lo 2 ≤ 4096
          | .topk _ _ | .selb _ _ => lo 2 ≤ 32768 && hi 2 ≤ 4096
          | .srch _ _ => lo 1 ≤ 65536
          | .mrgk _ _ => lo 2 + hi 2 ≤ 32768
          | _ => true
        let arrays : List (Nat × Nat) := match x.1 with
          | .sortk _ _ => [(lo 0, lo 2), (lo 1, lo 2)]
          | .topk _ _ => [(lo 0, lo 2), (hi 0, lo 2), (lo 1, hi 2), (hi 1, hi 2)]
          | .selb _ _ => [(lo 0, lo 2), (hi 0, lo 2), (lo 1, lo 2), (hi 1, lo 2)]
          | .srch _ _ => [(lo 0, lo 1)]
          | .mrgk _ _ => [(lo 0, lo 2 + hi 2), (hi 0, lo 2 + hi 2), (lo 1, lo 2 + hi 2), (hi 1, lo 2 + hi 2)]
          | _ => []
        let side : Option (Nat × Nat) := match x.1 with | .sbld _ _ _ => some ((args.getD 1 0).toNat, 4 * lo 2) | .senum _ _ _ => some ((args.getD 1 0).toNat, 4 * hi 2) | _ => none
        let top := if sp then s.teamScr ik else 2 ^ 64
        let traps := fun (cause : Nat) (n : W32) (a : Nat) => exec x.1 s = .next (s.takeTrap ik ⟨cause, n, BitVec.ofNat 64 a, 0⟩ s.cur.pc)
        (∀ a n, side = some (a, n) → (a % 4 ≠ 0 → traps 0x05 0 a) ∧ (a % 4 = 0 → top < a + n → traps 0x0B (if sp then 5 else 1) a)) ∧
        (limit = false → traps 0x26 1 0) ∧
        (limit = true →
          (∀ y, arrays.find? (fun y => y.1 % 4 != 0) = some y → traps 0x05 0 y.1) ∧
          ((∀ y ∈ arrays, y.1 % 4 = 0) →
            (∀ y, arrays.find? (fun y => s.teamScr ik < y.1 + 4 * y.2) = some y → traps 0x0B 5 y.1) ∧
            ((∀ y ∈ arrays, y.1 + 4 * y.2 ≤ s.teamScr ik) →
              let far := fun (y z : Nat × Nat) => y.2 = 0 ∨ z.2 = 0 ∨ y.1 + 4 * y.2 ≤ z.1 ∨ z.1 + 4 * z.2 ≤ y.1
              let disjoint := match x.1 with
                | .mrgk _ _ => (arrays.drop 2).Pairwise far ∧ ∀ y ∈ arrays.drop 2, ∀ z ∈ arrays.take 2, far y z
                | _ => arrays.Pairwise far
              (¬ disjoint → traps 0x26 2 0) ∧
              (disjoint → (∀ a n, side = some (a, n) → a % 4 = 0 ∧ a + n ≤ top) → ∃ t, exec x.1 s = .next t ∧
                t = { s with items := t.items, groups := t.groups, ops := t.ops, fresh := s.fresh + 1, moved := true } ∧
                t.items = ((s.setEmpty ik (.v f.r.toNat) x.2.1).advance ik 8).items ∧
                AMap.find t.groups (groupOf ik) = some { g with inflight := g.inflight + 1 } ∧
                t.ops = AMap.put s.ops s.fresh ⟨s.coreOf ik, launchOf ik, indexOf ik, indexOf ik + 1, s.cur.pc,
                  .set ⟨x.1, s.tick, args, ⟨.v f.r.toNat, x.2.1⟩, none, none, (encode x.1).headD 0⟩⟩))))) ∧
    ∀ gd : Guard, guardHolds gd it = true →
      (it.wait? = none → s.cmdBefore (groupOf ik) s.fresh = true → exec (.swait gd) s = .next { s.setWait ik (.before s.fresh) with moved := true }) ∧
      (it.wait? = none → s.cmdBefore (groupOf ik) s.fresh = false → exec (.swait gd) s = .next (s.advance ik 8)) ∧
      (∀ n, it.wait? = some (.before n) → s.cmdBefore (groupOf ik) n = true → exec (.swait gd) s = .next (s.leave ik)) ∧
      (∀ n, it.wait? = some (.before n) → s.cmdBefore (groupOf ik) n = false → exec (.swait gd) s = .next ((s.clearWait ik).advance ik 8))

/-- Set commands accepted (R253 to R283, R266). The first invalid handle of a command makes it fault with cause SETH,
its reason and the field's number. Else SNEW makes an empty set under the handle of a free descriptor, one never used
first and then the one free longest, or answers 0; SFREE frees its set and moves the tag on; SBLD replaces the
contents by the keys of its source, SUNI, SINT and SDIF by those of either operand, of both, or of the first alone;
SINS and SDEL put one key in or take it out and answer whether that changed the set; SHAS, SCARD, SENUM, SREP, SCOST
and SINTC answer of contents they leave as they are. A source or destination that fails answers the failure. A change
that the heap cannot hold faults with cause HEAP and the chunks that lack, the set left as it was. Conversions of sets
(R253, R255, R262 to R264, R267, R268). A scheduled conversion takes all the chunks its target needs and runs, or
takes none and is deferred; one that would read a damaged chunk is abandoned. A running one switches: one shard's keys
come to be held in the new representation, or the whole set's in that many shards, each in its cheapest form. A shard
may move to another engine. No set's contents change. -/
def Obligations.SetCommands : Prop :=
  (
    ∀ (s : State) (n : Nat) (o : Op) (c : SetOp), s.setOp? n = some (o, c) → c.ans = none → c.trap = none → s.opCancelled o = false →
      s.behind n o c = false → s.phaseHeld (jobOfLaunch o.launch) n = false →
      let j := jobOfLaunch o.launch
      let h := fun (k : Nat) => c.args.getD k 0
      let ix := fun (k : Nat) => (h k).toNat % 2 ^ 24
      let lo := fun (k : Nat) => (h k).toNat % 2 ^ 32
      let hi := fun (k : Nat) => (h k).toNat / 2 ^ 32
      let held := fun (t : State) (q : Nat × Nat) => (t.setAt? q.1 q.2).map (fun d => (d.tag, d.free, d.damaged, d.sbits, d.shards.map (fun x => (x.keys, x.repr))))
      let traps := fun (cause info : Nat) (a : W64) => exec (.setCommandAcceptance n) s = .next { s with
        ops := AMap.put s.ops n { o with kind := .set { c with trap := some ⟨cause, BitVec.ofNat 32 info, a, o.pc⟩ } }, moved := true }
      let gives := fun (u : State) (v : Nat) (fail : Option (Nat × W64)) (i : Option Nat) (P : State → Prop) => ∃ t r, exec (.setCommandAcceptance n) s = .next t ∧
        t = { u with jobs := t.jobs, heap := t.heap, heapFreed := t.heapFreed, lateFree := t.lateFree, fresh := t.fresh, ops := t.ops, moved := true } ∧
        t.ops = AMap.put u.ops n { o with kind := .set { c with ans := some ⟨r, BitVec.ofNat 64 v, fail⟩ } } ∧
        (∀ q : Nat × Nat, (q.1 = j → i ≠ some q.2) → held t q = held u q) ∧ P t
      let bad := fun (x : W64) (whole : Bool) =>
        let d := (s.setAt? j (x.toNat % 2 ^ 24)).getD SetD.unused
        if x.toNat / 2 ^ 40 ≠ 0 then some 1 else if x.toNat % 2 ^ 24 = 0 then some 2 else if d.tag.toNat ≠ x.toNat / 2 ^ 24 % 2 ^ 16 then some 4
        else if d.free then some 3 else if whole && d.damaged then some 5 else none
      let handles : List (Nat × W64 × Bool) := match c.ins with
        | .sfree _ | .sbld _ _ _ | .srep _ => [(1, h 0, false)]
        | .senum _ _ _ | .sins _ | .sdel _ | .shas _ | .scard _ => [(1, h 0, true)]
        | .scost _ op => match op with
          | .suni | .sint | .sdif | .sintc => [(1, h 0, false), (2, h 1, false)]
          | _ => [(1, h 0, false)]
        | .suni _ | .sint _ | .sdif _ => [(1, h 0, false), (2, h 1, true), (3, h 2, true)]
        | .sintc _ => [(1, h 0, true), (2, h 1, true)]
        | _ => []
      let first : Option (Nat × W64 × Nat) := handles.findSome? (fun x => (bad x.2.1 x.2.2).map (fun r => (x.1, x.2.1, r)))
      let free := ((List.range 8).map s.heapAt).sum
      let replaced := fun (i : Nat) (d : SetD) (u : State) (l : List Nat) (P : Nat → Prop) =>
        let need := ((buildParts l).2.map (fun m => chunksFor (cheapCost m))).sum
        let own := chunkSum (d.shards.foldl (fun m x => addChunks m x.chunks) [])
        (need ≤ own + free → gives u 0 none (some i) (fun t => ∃ d2, t.setAt? j i = some d2 ∧ (d2.tag, d2.free, d2.damaged) = (d.tag, d.free, false) ∧
          ∀ k < 2 ^ 32, k ∈ d2.keys ↔ P k)) ∧
        (own + free < need → d.convs = [] → traps 0x22 (Nat.min (need - (own + free)) 65535) (h 0))
      (∀ f x r, first = some (f, x, r) → traps 0x21 (r + 256 * f) x) ∧
      (first = none →
        (∀ f, c.ins = .snew f → ∀ b, AMap.find s.jobs j = some b →
          let new := fun (i : Nat) (tag : BitVec 16) => gives s (2 ^ 24 * tag.toNat + i) none (some i) (fun t => held t (j, i) = some (tag, false, false, 0, [([], .runs)]))
          (b.nextSet < 2 ^ 24 → new b.nextSet (((AMap.find b.sets b.nextSet).map (·.tag)).getD 1)) ∧
          (2 ^ 24 ≤ b.nextSet →
            (∀ i d, AMap.find b.sets i = some d → d.free = true → (∀ e ∈ b.sets, e.2.free = true → e = (i, d) ∨ d.freed < e.2.freed) → new i d.tag) ∧
            ((∀ e ∈ b.sets, e.2.free = false) → gives s 0 none none (fun _ => True)))) ∧
        ∀ d, s.setAt? j (ix 0) = some d →
          (∀ f, c.ins = .sfree f → gives s 0 none (some (ix 0)) (fun t => held t (j, ix 0) = some (if d.tag = 65535 then 1 else d.tag + 1, true, false, 0, []))) ∧
          (∀ f sp ev, c.ins = .sbld f sp ev → ∀ r, r = s.sideRead o.core j (itemKey o.launch o.lo) ev (if sp then .scr (h 1).toNat else .glob (h 1)) (4 * lo 2) →
            (r = .stall → exec (.setCommandAcceptance n) s = .next s) ∧
            (∀ a why, r = .fail a why → gives s 0 (some (if why = 6 then 2 else why, h 1)) none (fun _ => True)) ∧
            ∀ bs u, r = .ok bs u → (u.heap, u.heapFreed, u.jobs) = (s.heap, s.heapFreed, s.jobs) →
              replaced (ix 0) d u (keySet (keysOf bs)) (fun k => ∃ i, 4 * i + 4 ≤ bs.length ∧ leNat ((bs.drop (4 * i)).take 4) = k)) ∧
          (∀ f sp ev, c.ins = .senum f sp ev →
            let ks := d.keys.filter (fun k => lo 2 ≤ k)
            let out := ks.take (hi 2)
            ∀ r, r = s.sideWrite o.core j (itemKey o.launch o.lo) ev (if sp then .scr (h 1).toNat else .glob (h 1)) ((out.map (fun k => leBytes k 4)).flatten) →
            (r = .stall → exec (.setCommandAcceptance n) s = .next s) ∧
            (∀ a why, r = .fail a why → gives s 0 (some (if why = 6 then 2 else why, h 1)) none (fun _ => True)) ∧
            ∀ bs u, r = .ok bs u → (u.heapFreed, u.jobs) = (s.heapFreed, s.jobs) →
              gives u (out.length + if out.length < ks.length then 2 ^ 32 else 0) none none (fun _ => True)) ∧
          (∀ k x, k = lo 1 → d.shards[d.shardOf k]? = some x → ∀ p ∈ [(true, insertKey k x.keys), (false, x.keys.filter (· ≠ k))],
            ((∃ f, c.ins = .sins f) ∧ p.1 = true) ∨ ((∃ f, c.ins = .sdel f) ∧ p.1 = false) →
            let need := chunksFor (costOf x.repr p.2)
            (need ≤ chunkSum x.chunks + free → gives s (if (k ∈ x.keys) = (p.1 = true) then 0 else 1) none (some (ix 0)) (fun t =>
              ∃ d2, t.setAt? j (ix 0) = some d2 ∧ (d2.tag, d2.free, d2.damaged, d2.sbits) = (d.tag, d.free, d.damaged, d.sbits) ∧
                ∀ i, ((d2.shards[i]?).map (·.keys)) = if i = d.shardOf k then some p.2 else (d.shards[i]?).map (·.keys))) ∧
            (chunkSum x.chunks + free < need → traps 0x22 (Nat.min (need - (chunkSum x.chunks + free)) 65535) (h 0)) ∧
            ∀ k', k' ∈ p.2 ↔ if k' = k then p.1 = true else k' ∈ x.keys) ∧
          (∀ f, c.ins = .shas f → gives s (if lo 1 ∈ d.keys then 1 else 0) none none (fun _ => True)) ∧
          (∀ f, c.ins = .scard f → gives s d.keys.length none none (fun _ => True)) ∧
          (∀ f, c.ins = .srep f → gives s (d.repr.code + (if d.sbits ≠ 0 then 8 else 0) + (if d.convs ≠ [] then 16 else 0) +
            (if d.convs.any (·.st = .deferred) then 32 else 0) + (if d.damaged then 64 else 0) + 256 * d.sbits + 2 ^ 32 * d.cost) none none (fun t => t.jobs = s.jobs)) ∧
          (∀ f op, c.ins = .scost f op → ∃ v, gives s v none none (fun t => t.jobs = s.jobs)) ∧
          ∀ a, s.setAt? j (ix 1) = some a →
            (∀ f, c.ins = .sintc f → gives s (d.keys.filter (· ∈ a.keys)).length none none (fun _ => True)) ∧
            ∀ b, s.setAt? j (ix 2) = some b →
              (∀ f, c.ins = .suni f → replaced (ix 0) d s (SetBin.uni.keys a.keys b.keys) (fun k => k ∈ a.keys ∨ k ∈ b.keys)) ∧
              (∀ f, c.ins = .sint f → replaced (ix 0) d s (SetBin.int.keys a.keys b.keys) (fun k => k ∈ a.keys ∧ k ∈ b.keys)) ∧
              (∀ f, c.ins = .sdif f → replaced (ix 0) d s (SetBin.dif.keys a.keys b.keys) (fun k => k ∈ a.keys ∧ k ∉ b.keys)))) ∧
  (
    ∀ (s : State) (j idx k : Nat) (d : SetD), s.setAt? j idx = some d →
      let held := fun (t : State) (q : Nat × Nat) => (t.setAt? q.1 q.2).map (fun d => (d.tag, d.free, d.damaged, d.sbits, d.shards.map (fun x => (x.keys, x.repr))))
      let frees := ((List.range 8).map s.heapAt).sum
      let gives := fun (i : Instr) (P : State → Prop) => ∃ t, exec i s = .next t ∧
        t = { s with jobs := t.jobs, heap := t.heap, heapFreed := t.heapFreed, lateFree := t.lateFree, fresh := t.fresh, moved := true } ∧
        (∀ q, q ≠ (j, idx) → held t q = held s q) ∧ P t
      (∀ c, d.conv = some c →
        (c.st = .scheduled →
          (d.shards.any (·.bad) = true → exec (.conversionStart j idx k) s = .next { s.putSet j idx { d with conv := none } with moved := true }) ∧
          (d.shards.any (·.bad) = false → gives (.conversionStart j idx k) (fun t => ∃ c2, t.setAt? j idx = some { d with conv := some c2 } ∧ c2.goal = c.goal ∧
            c2.st = if c.goal.need d.keys ≤ frees then .running else .deferred))) ∧
        (c.st = .running → ∀ b, c.goal = .shards b → b ≤ 8 → gives (.conversionSwitch j idx k) (fun t => ∃ d2, t.setAt? j idx = some d2 ∧
          (d2.tag, d2.free, d2.damaged, d2.sbits) = (d.tag, d.free, d.damaged, b) ∧ d2.shards.length = 2 ^ b ∧ (∀ x ∈ d2.shards, x.repr = cheapest x.keys) ∧
          ∀ key < 2 ^ 32, key ∈ d2.keys ↔ key ∈ d.keys))) ∧
      ∀ x, d.shards[k]? = some x →
        (∀ e < 48, exec (.setEngineChange j idx k e) s = .next { s.putSet j idx { d with shards := setAt d.shards k { x with engine := e } } with moved := true }) ∧
        (d.conv = none → ∀ c, x.conv = some c →
          (c.st = .scheduled →
            (x.bad = true → exec (.conversionStart j idx k) s = .next { s.putSet j idx { d with shards := setAt d.shards k { x with conv := none } } with moved := true }) ∧
            (x.bad = false → gives (.conversionStart j idx k) (fun t => ∃ c2, t.setAt? j idx = some { d with shards := setAt d.shards k { x with conv := some c2 } } ∧
              c2.goal = c.goal ∧ c2.st = if c.goal.need x.keys ≤ frees then .running else .deferred))) ∧
          (c.st = .running → ∀ r, c.goal = .repr r → gives (.conversionSwitch j idx k) (fun t =>
            held t (j, idx) = some (d.tag, d.free, d.damaged, d.sbits, (setAt d.shards k { x with repr := r }).map (fun x => (x.keys, x.repr)))))))

/-- Set and order commands completed (R67, R271 to R290). What a command's registers receive: the cost record and the
value of a set command; the number sorted of SORTK, whose output is the input in order; of TOPK the first of the
candidates in order, how many they are and the position of the last; of SELB the elements of the buckets from the
highest that leave enough; of SRCH the first position not before its key; of MRGK the elements of both runs in order.
A command whose source or input fails leaves its registers POISON with a record. A fault of its acceptance is pending
for the item. The count of the group falls, and the operation is gone. -/
def Obligations.CommandCompletion : Prop :=
  (∀ x, ord32 ⟨false, x, false, .z32⟩ = id) ∧
  (∀ r (x y : W32), ord32 ⟨false, r, false, .s32⟩ x.toNat < ord32 ⟨false, r, false, .s32⟩ y.toNat ↔ x.toInt < y.toInt) ∧
  ∀ (s : State) (n : Nat) (o : Op) (c : SetOp) (ik : Nat), ik = itemKey o.launch o.lo → s.setOp? n = some (o, c) → s.landsAt o c.dst.reg = [ik] → s.landsIn o c.dst.reg = [] →
    let a := c.args
    let lo := fun (k : Nat) => (a.getD k 0).toNat % 2 ^ 32
    let hi := fun (k : Nat) => (a.getD k 0).toNat / 2 ^ 32
    let ends := fun (u t : State) (vs : List W32) => t = { u.setRegs ik c.dst.reg (vs.take c.dst.n) with
      ops := AMap.del s.ops n, groups := ((u.setRegs ik c.dst.reg (vs.take c.dst.n)).lowerInflight (groupOf ik)).groups,
      jobs := t.jobs, heap := t.heap, heapFreed := t.heapFreed, lateFree := t.lateFree, fresh := t.fresh, moved := true }
    let poisons := fun (t : State) (adr : W64) (why : Nat) => ∀ m, (s.core (s.coreOf ik)).freeRec = some m → (∀ it, s.item? ik = some it → it.fullFor n = false) → (∃ k, c.dst.reg = .v k) → AMap.find (t.core (s.coreOf ik)).poison m = some
      { held := true, serial := s.fresh, item := ik, slot := s.laneSlot ik, word := c.word, addr := adr, pc := o.pc, reason := why, dst := c.dst, args := c.args, acq := false, issued := n, freed := 0 }
    (∀ x it, c.trap = some x → s.item? ik = some it → ∃ t, exec (.setCommandCompletion n) s = .next t ∧ AMap.find t.ops n = none ∧ ∃ it2, t.item? ik = some it2 ∧ x ∈ it2.pend) ∧
    (c.trap = none → ∀ r, c.ans = some r →
      (∀ why adr, r.fail = some (why, adr) → ∃ t, exec (.setCommandCompletion n) s = .next t ∧ poisons t adr why) ∧
      (r.fail = none → isOrder c.ins = false → ∃ t, exec (.setCommandCompletion n) s = .next t ∧
        ends s t [BitVec.ofNat 32 r.record.toNat, BitVec.ofNat 32 (r.record.toNat / 2 ^ 32), BitVec.ofNat 32 r.value.toNat, BitVec.ofNat 32 (r.value.toNat / 2 ^ 32)]) ∧
      (r.fail = none → ∀ tm, AMap.find s.teams (s.teamOf ik) = some tm →
        let word := fun (p i : Nat) => leNat (tm.scratch.readN (p + 4 * i) 4)
        let input := fun (kp pp m : Nat) => (List.range m).map (fun i => Elem.mk (word kp i) (word pp i) i)
        let bad := fun (p m : Nat) => ∃ e ∈ tm.scratchErr, p ≤ e ∧ e < p + 4 * m
        let put := fun (kp pp : Nat) (out : List Elem) => (s.scrWrite ik kp ((out.map (fun x => leBytes x.key 4)).flatten)).scrWrite ik pp ((out.map (fun x => leBytes x.pay 4)).flatten)
        let gives := fun (P : List Elem → List Nat → Prop) (kp pp v : Nat) => ∃ out w t, P out w ∧ exec (.setCommandCompletion n) s = .next t ∧ ends (put kp pp out) t ((v :: w).map (BitVec.ofNat 32))
        let sorted := fun (oc : OrdC) (rev : Bool) (l out : List Elem) => out.Perm l ∧ out.Pairwise (fun x y => y.before oc rev x = false)
        (∀ f oc, c.ins = .sortk f oc → lo 2 ≤ 2 ^ 16 →
          (bad (lo 0) (lo 2) ∨ bad (lo 1) (lo 2) → ∃ t adr, exec (.setCommandCompletion n) s = .next t ∧ poisons t adr 4) ∧
          (¬ bad (lo 0) (lo 2) → ¬ bad (lo 1) (lo 2) → gives (fun out w => sorted oc oc.rev (input (lo 0) (lo 1) (lo 2)) out ∧ w = []) (lo 0) (lo 1) (lo 2))) ∧
        (∀ f oc, c.ins = .topk f oc → lo 2 ≤ 2 ^ 16 →
          let cand := (input (lo 0) (hi 0) (lo 2)).filter (fun x => if oc.thr then (Elem.mk (lo 3) (hi 3) (lo 4)).before oc (!oc.rev) x else true)
          (bad (lo 0) (lo 2) ∨ bad (hi 0) (lo 2) → ∃ t adr, exec (.setCommandCompletion n) s = .next t ∧ poisons t adr 4) ∧
          (¬ bad (lo 0) (lo 2) → ¬ bad (hi 0) (lo 2) → gives (fun out w => ∃ rest, sorted oc (!oc.rev) cand (out ++ rest) ∧ out.length = min (hi 2) cand.length ∧
            ((out = [] ∧ w = [2 ^ 32 - 1]) ∨ ∃ x, out.getLast? = some x ∧ w = [x.pos])) (lo 1) (hi 1) (min (hi 2) cand.length))) ∧
        (∀ f oc, c.ins = .selb f oc →
          let l := input (lo 0) (hi 0) (lo 2)
          let bucket := fun (x : Elem) => if oc.rev then 255 - ord32 oc x.key / 2 ^ 24 else ord32 oc x.key / 2 ^ 24
          let from_ := fun (b : Nat) => l.filter (fun x => b ≤ bucket x)
          (bad (lo 0) (lo 2) ∨ bad (hi 0) (lo 2) → ∃ t adr, exec (.setCommandCompletion n) s = .next t ∧ poisons t adr 4) ∧
          (¬ bad (lo 0) (lo 2) → ¬ bad (hi 0) (lo 2) →
            (hi 2 = 0 → gives (fun out w => out = [] ∧ w = [2 ^ 32 - 1]) (lo 1) (hi 1) 0) ∧
            ∀ b < 256, 0 < hi 2 → (hi 2 ≤ (from_ b).length ∧ (from_ (b + 1)).length < hi 2) ∨ (b = 0 ∧ lo 2 < hi 2) →
              gives (fun out w => out = from_ b ∧ w = [if oc.rev then 255 - b else b]) (lo 1) (hi 1) (from_ b).length)) ∧
        (∀ f oc, c.ins = .srch f oc →
          let stays := fun (i : Nat) => if oc.rev then ord32 oc (word (lo 0) i) ≤ ord32 oc (lo 2) else ord32 oc (word (lo 0) i) < ord32 oc (lo 2)
          (bad (lo 0) (lo 1) → ∃ t adr, exec (.setCommandCompletion n) s = .next t ∧ poisons t adr 4) ∧
          (¬ bad (lo 0) (lo 1) → (∀ i k, i ≤ k → k < lo 1 → stays k → stays i) →
            ∃ w t, w ≤ lo 1 ∧ (∀ i < lo 1, i < w ↔ stays i) ∧ exec (.setCommandCompletion n) s = .next t ∧ ends s t [BitVec.ofNat 32 w])) ∧
        (∀ f oc, c.ins = .mrgk f oc →
          let l := input (lo 0) (hi 0) (lo 2 + hi 2)
          (bad (lo 0) (lo 2 + hi 2) ∨ bad (hi 0) (lo 2 + hi 2) → ∃ t adr, exec (.setCommandCompletion n) s = .next t ∧ poisons t adr 4) ∧
          (¬ bad (lo 0) (lo 2 + hi 2) → ¬ bad (hi 0) (lo 2 + hi 2) →
            (l.take (lo 2)).Pairwise (fun x y => y.before oc oc.rev x = false) → (l.drop (lo 2)).Pairwise (fun x y => y.before oc oc.rev x = false) →
            gives (fun out w => sorted oc oc.rev l out ∧ w = []) (lo 1) (hi 1) (lo 2 + hi 2)))))

/-- Cards, queues and counters (R343 to R349, R354 to R360). CARD copies a template with its COUNT and CONT replaced,
and answers the status of the card as one that no queue checks; POST puts a card of status 0 in its queue, where it
has room, and answers the launch's number, else the status; the status is the first row of R347 that holds. CNTQ
answers a counter's value or its status, CNTW waits for the value, and CANCEL cancels every launch of the counter's
object, one in a queue at once. -/
def Obligations.CardsAndCounters : Prop :=
  (∀ (s : State) (j : Nat) (bs : List (BitVec 8)) (tab : List RawRng) (lvl : Option QLevel), bs.length = 128 →
    let q := fun (p n : Nat) => leNat ((bs.drop p).take n)
    let field := fun (p n : Nat) => q 0x18 8 / 2 ^ p % 2 ^ n
    let c := cardIn bs tab
    s.cardStatus j bs tab lvl =
      if q 0 8 = 0 ∨ q 0 8 % 8 ≠ 0 ∨ q 8 8 % 8 ≠ 0 then 1
      else if 32 < field 33 6 ∨ 1024 < field 22 11 ∨ 262144 < 256 * field 11 11 ∨ ∃ r ∈ tab, r.mode = 0 ∨ r.zero ≠ 0 then 2
      else if q 16 8 % 2 ^ 40 = 0 ∨ q 16 8 / 2 ^ 40 ≠ 0 then 3
      else if 16 < q 0x28 8 % 32 ∨ q 0x20 8 % 16 ≠ 0 ∨ q 0x30 8 % 128 ≠ 0 ∨ ∃ r ∈ tab, r.len = 0 then 4
      else if lvl.isSome ∧ ¬ teamFits c then 5
      else if ∃ l ∈ lvl, field 41 1 = 1 ∧ (s.liveCores l).length * coreFit c < teamsOf c then 6
      else if q 0x28 8 / 32 ≠ 0 ∨ q 0x3C 4 ≠ 0 ∨ q 0x4B 53 ≠ 0 ∨ q 0x38 4 / 2 ^ 24 % 64 ≠ 0 ∨ q 0x18 8 / 2 ^ 43 ≠ 0 then 7
      else if field 42 1 = 1 ∧ ∀ b, AMap.find s.jobs j = some b → b.snapperm = false then 8 else 0) ∧
  ∀ (s : State) (ik : Nat) (it : Item) (g : Group), Solo s ik it g → s.ungated ik → (s.core (s.coreOf ik)).slots = [] → s.coh = [] → s.gathers = [] →
    ∀ f : EF, guardHolds f.g it = true →
    let j := jobOf ik
    let core := s.coreOf ik
    let traps := fun (i : Instr) (c n : Nat) (a : W64) => exec i s = .next (s.takeTrap ik ⟨c, BitVec.ofNat 32 n, a, 0⟩ s.cur.pc)
    let fails := fun (i : Instr) (a : W64) (why : Nat) => if why = 6 then traps i 0x10 0 0 else traps i 0x0B why a
    (∀ (cnt cont : Bool) (d a : W64) (vs : List W32), anyEmpty (regsAt it g (.v f.r.toNat) 1) = false →
      readE s ik it g f.o1 2 = .ok d → readE s ik it g f.o2 2 = .ok a → (if cnt || cont then readEs s ik it g f.o3 4 = .ok vs else vs = [0, 0, 0, 0]) →
      let i := Instr.card f cnt cont
      let args := [d, a, pair (vs.getD 0 0) (vs.getD 1 0), pair (vs.getD 2 0) (vs.getD 3 0)]
      let put := fun (on : Bool) (p k : Nat) (bs : List (BitVec 8)) => if on then bs.take p ++ leBytes (args.getD k 0).toNat 8 ++ bs.drop (p + 8) else bs
      let r := s.readCard core j (some ik) a (fun bs => put cont 0x30 3 (put cnt 0x10 2 bs))
      let arrives := fun (u : State) (v : Nat) (bad : Option (Nat × W64)) => ((u.setEmpty ik (.v f.r.toNat) 1).addOp ⟨u.coreOf ik, launchOf ik, indexOf ik, indexOf ik + 1, s.cur.pc,
        .load { dst := ⟨.v f.r.toNat, 1⟩, bytes := 4, sext := false, val := BitVec.ofNat 128 v, fail := bad.map (·.1), addr := (bad.map (·.2)).getD 0, acq := false, word := (encode i).headD 0, args := args, want := none, pend := false }⟩).2.advance ik 8
      (d.toNat % 128 ≠ 0 → traps i 0x05 0 d) ∧ (d.toNat % 128 = 0 → a.toNat % 128 ≠ 0 → traps i 0x05 0 a) ∧
      (d.toNat % 128 = 0 → a.toNat % 128 = 0 →
        (∀ p why, r = .fail p why → if why = 4 then exec i s = .next (arrives s 0 (some (4, p))) else fails i p why) ∧
        ∀ bs tab u, r = .ok bs tab u →
          (∀ p why, u.engCheck core j true 4 d 128 = .fail p why → fails i p why) ∧
          (u.engCheck core j true 4 d 128 = .ok → u.touchesPhase j d 128 = false → (u.linePending ik = true → ∀ p ∈ u.engPlaces j d 128, p.2.2 ≠ aSEQ) →
            exec i s = .next (arrives (u.engWrite core j ik 4 d bs) (u.cardStatus j bs tab none) none)))) ∧
    (∀ (lvl : PostLvl) (a c : W64), anyEmpty (regsAt it g (.v f.r.toNat) 2) = false → readE s ik it g f.o1 2 = .ok a →
      (if lvl = .to then readE s ik it g f.o2 1 = .ok c else c = 0) →
      let i := Instr.post f lvl
      let r := s.readCard core j (some ik) a id
      let q : QLevel := match lvl with | .own => .core core | .to => .core (c.toNat % 2 ^ 32) | .clu => .cluster (core / 8) | .die => .die (core / 48) | .dev => .device
      (a.toNat % 128 ≠ 0 → traps i 0x05 0 a) ∧
      (a.toNat % 128 = 0 → lvl = .to → s.coreLive (c.toNat % 2 ^ 32) = false → traps i 0x28 2 0) ∧
      (a.toNat % 128 = 0 → (lvl = .to → s.coreLive (c.toNat % 2 ^ 32) = true) →
        (∀ p why, r = .fail p why → why ≠ 4 → fails i p why) ∧
        ∀ bs tab u, r = .ok bs tab u →
          let st := u.cardStatus j bs tab (some q)
          (st ≠ 0 → exec i s = .next ((u.dest ik (.v f.r.toNat) 2 (st + 2 ^ 32 * 0xFFFFFFFF)).advance ik 8)) ∧
          (st = 0 → u.queueFull q = true → exec i s = .next (s.leave ik)) ∧
          (st = 0 → u.queueFull q = false → ∀ b, AMap.find u.jobs j = some b → ∃ (t : State) (n : Nat), exec i s = .next ((t.dest ik (.v f.r.toNat) 2 (2 ^ 32 * n)).advance ik 8) ∧
            t = { u with
              launches := AMap.put u.launches (j * 2 ^ 24 + n) { card := cardIn bs tab, lvl := q, seq := u.fresh, phase := b.phase, st := .queued, next := 0, ended := 0, canc := false, cfail := false, raised := none, holds := false, deposits := [], cont := none, lbar := [], lbarN := 0, phb := [], phbN := 0, rver := none },
              jobs := t.jobs, fresh := u.fresh + 1, moved := true } ∧
            AMap.find t.jobs j = some { b with lastLaunch := n } ∧
            let m := if b.lastLaunch = 2 ^ 24 - 1 then 1 else b.lastLaunch + 1
            ((∀ l, AMap.find u.launches (j * 2 ^ 24 + m) = some l → l.st = .done) → n = m)))) ∧
    ∀ (c : W64) (b : Job), readE s ik it g f.o1 1 = .ok c → AMap.find s.jobs j = some b →
      let kind := c.toNat % 2 ^ 32 / 2 ^ 30
      let idx := c.toNat % 2 ^ 24
      let free := anyEmpty (regsAt it g (.v f.r.toNat) 2) = false
      let one := fun (x : Bool) => if x then 1 else 0
      let of_ := fun (e : Nat × Launch) => e.1 / 2 ^ 24 = j ∧
        (if kind = 0 then e.1 = j * 2 ^ 24 + idx else if kind = 1 then idx ≠ 0 ∧ e.2.card.graph = idx else if kind = 2 then e.2.phase % 2 ^ 24 = idx else idx = 0)
      let live := s.launches.any (fun e => of_ e && e.2.st != .done)
      let value := if kind = 0 then ((AMap.find s.launches (j * 2 ^ 24 + idx)).map (·.ended)).getD 0 else if kind = 2 then AMap.getD b.phases idx 0
        else if kind = 1 then (if idx = 0 then 0 else AMap.getD b.graphs idx 0) else if idx = 0 then b.ctr else 0
      let status := if kind = 0 then ((AMap.find s.launches (j * 2 ^ 24 + idx)).map (fun l => 8 * one l.cfail + 4 * one (l.st != .done) + 2 * one (l.st == .done) + one l.canc)).getD 0
        else if kind = 2 then 4 * one live + one (b.cancPhases.contains idx)
        else if kind = 1 then (if idx = 0 then 0 else 4 * one live + one (b.cancGraphs.contains idx)) else if idx = 0 then 4 * one live + one b.canc else 0
      let malformed := c.toNat % 2 ^ 32 / 2 ^ 24 % 64 ≠ 0
      (∀ st, free → (malformed → traps (.cntq f st) 0x28 1 0) ∧
        (¬ malformed → exec (.cntq f st) s = .next ((s.dest ik (.v f.r.toNat) 2 (if st then status else value)).advance ik 8))) ∧
      (∀ v, free → readE s ik it g f.o2 2 = .ok v → (malformed → traps (.cntw f) 0x28 1 0) ∧
        (¬ malformed → v.toNat ≤ value → exec (.cntw f) s = .next ((s.dest ik (.v f.r.toNat) 2 value).advance ik 8)) ∧
        (¬ malformed → value < v.toNat → exec (.cntw f) s = .next (s.leave ik))) ∧
      (malformed → traps (.cancel f) 0x28 1 0) ∧
      (¬ malformed → ∃ t : State, exec (.cancel f) s = .next (t.advance ik 8) ∧
        (∀ lk l, AMap.find s.launches lk = some l → of_ (lk, l) → l.st ≠ .done → l.canc = false → ∃ m, AMap.find t.launches lk = some m ∧
          m.canc = true ∧ m.deposits = [] ∧ m.next = l.card.count ∧ m.st = (if l.st = .queued then .done else l.st) ∧
          m.ended = if l.st = .queued then l.card.count else l.ended + (l.card.count - l.next)) ∧
        ∀ lk, (∀ e ∈ s.launches, of_ e → e.1 ≠ lk) → AMap.find t.launches lk = AMap.find s.launches lk)

/-- Queries of a register's state (R116, R142). TSTP answers 2^32 - 1 of a register that is not POISON, else the index
of its record, with 256 where the record has been freed or is held for another lane slot; CLRP clears a POISON
register and leaves another as it is; SPANQ answers 3 of an item that stands in no span. -/
def Obligations.RegisterQueries : Prop :=
  ∀ (s : State) (ik : Nat) (it : Item) (g : Group) (f : VF) (r : RegRef), Solo s ik it g → guardHolds f.g it = true → s.cur.span = none →
    Writes s ik it g f.d 1 r →
    (∀ x p, readUse (s.quotaOfItem ik) it g f.a 1 f.wa = .ok (x, p) →
      let idx := fun (w : W32) => w.toNat % 64
      exec (.tstp f) s = .next ((s.dest ik r 1 (match p with
        | none => 2 ^ 32 - 1
        | some w => idx w + (if ∃ m, AMap.find (s.core (s.coreOf ik)).poison (idx w) = some m ∧ m.held = true ∧ m.slot = s.laneSlot ik then 0 else 256))).advance ik 8)) ∧
    exec (.clrp f) s = .next (if (match r with | .v n => it.reg n | .g n => g.reg n).tag = .poison then (s.dest ik r 1 0).advance ik 8 else s.advance ik 8) ∧
    exec (.spanq f) s = .next ((s.dest ik r 1 3).advance ik 8)

/-- What the scheduler does (R119, R126 to R128, R137, R139, R231, R232, R323, R348 to R352, R361). A card that is
eligible, whose team fits the core and that is first in the order starts teams, as one span of items at its entry; a
card or a unit that has waited long is raised; a team whose work is over gives its resources back; a launch whose
items have all ended completes, its counters rise, and with a continuation and nothing posted CFAIL is set; the end of
a phase lets go the items at their PHBND; a span that waits materialises; pre-emption and the end of a slice stop
teams, and a team whose groups have stopped and that holds nothing else leaves its core, which it can come back to.
The start quad and area (log entry 14) and the cores of a co-resident launch (log entry 29) are choices of the model. -/
def Obligations.SchedulerActions : Prop :=
  ∀ (s : State),
    (∀ lk l, (∃ e ∈ s.launches, e = (lk, l)) → (∀ e ∈ s.launches, e.2.seq = l.seq → e = (lk, l)) →
      (l.st = .queued → l.raised = none → s.eligible lk l = true → ∃ t, exec (.cardAgeEscalation l.seq) s = .next t ∧
        t = { s with launches := t.launches, fresh := s.fresh + 1, moved := true } ∧
        ∀ k, AMap.find t.launches k = (AMap.find s.launches k).map (fun m => { m with
          raised := if k = lk then some s.fresh else m.raised
          holds := m.holds || (s.inOrder.takeWhile (fun e => e.1 != lk)).any (fun e => e.1 == k && cfgCores e.2.card.config) })) ∧
      ∀ core n quad, s.dispatching = true → 0 < n → quad < 4 → l.next + (n - 1) * s.teamSize lk < l.card.count → s.canUse lk core l = true → s.mayStart lk core l = true →
        cfgCores l.card.config = false → l.st ≠ .queued ∨ l.card.cont = 0 → (s.allocMany lk l.next core n).1 = n → AMap.find s.launches lk = some l →
        ∃ (v : State) (k : Nat) (x : Span), v = { s with spans := AMap.put s.spans k x, launches := v.launches, fresh := s.fresh + 1 } ∧
          core * 32 ≤ k ∧ k < core * 32 + 32 ∧ AMap.find s.spans k = none ∧
          (x.launch, x.lo, x.hi, x.quad, x.pc) = (lk, l.next, min (l.next + n * s.teamSize lk) l.card.count, quad, l.card.entry) ∧
          (x.p.length = 8 ∧ ∀ m, 0 < m → m < 8 → x.p[m]? = some (.u false)) ∧ (∀ m < s.quotaOf lk, x.v[m]? = some ⟨.u 0, .full, none⟩) ∧ (∀ y ∈ x.g, y = Reg.zero) ∧
          AMap.find v.launches lk = some { l with next := min (l.next + n * s.teamSize lk) l.card.count, st := .running, raised := none, holds := false } ∧
          (∀ u, v.cleanFor lk l = some u → exec (.teamDispatch l.seq core n quad) s = .next { u with moved := true }) ∧
          ((∀ c, ∀ y ∈ (s.core c).l1, y.code = aPRIV → y.job ≠ jobOfLaunch lk) → exec (.teamDispatch l.seq core n quad) s = .next { v with moved := true })) ∧
    (∀ u top, (u, top) ∉ s.raised → exec (.issueAgeEscalation u top) s = .next { s with raised := s.raised ++ [(u, top)], moved := true }) ∧
    (∀ core entry e, AMap.find s.spans (core * 32 + entry) = some e → e.waiting = true → exec (.materialisationResume core entry) s = .next (s.materialise (core * 32 + entry))) ∧
    (∀ tk tm, AMap.find s.teams tk = some tm →
      let first := itemKey tm.launch tm.base
      (s.teamEmpty tm = true → ∃ t, exec (.teamRelease tk) s = .next t ∧ t = { s with teams := AMap.del s.teams tk, groups := t.groups, cores := t.cores, moved := true } ∧
        (∀ k, AMap.find t.groups k = if first / 16 ≤ k ∧ k < (first + tm.size) / 16 then none else AMap.find s.groups k) ∧
        ∀ c, tm.core = some c → ∀ b ∈ (t.core c).bufs, b ∈ (s.core c).bufs ∧ b.2.team ≠ tk) ∧
      (∀ c, tm.core = some c → cfgCores (s.cardOf (tk / 2 ^ 36)).config = false → s.spansFor c tm.launch tm.base (tm.base + tm.size) = [] → (∀ d, (s.core d).slots = []) → s.coh = [] → s.gathers = [] →
        (∀ x ∈ (s.core c).l1, x.code = aPRIV → x.job = jobOfLaunch tm.launch → x.dirty = []) →
        (∀ k ∈ s.groupsOfTeam tm, s.groupQuiet k = true ∧ s.teamOfGroup k = tk) → ∃ t, exec (.preemptTeam tk) s = .next t ∧
          t = { s with items := t.items, groups := t.groups, teams := t.teams, cores := t.cores, mmacs := t.mmacs, cbars := t.cbars, fresh := t.fresh, moved := true } ∧
          (∃ tm2, AMap.find t.teams tk = some tm2 ∧ tm2 = { tm with core := none, preempt := false, savedBufs := (s.core c).bufs.filter (fun b => b.2.team == tk), savedRecs := tm2.savedRecs } ∧
            ∀ r, r ∈ tm2.savedRecs ↔ r ∈ (s.core c).poison ∧ r.2.held = true ∧ first ≤ r.2.item ∧ r.2.item < first + tm.size) ∧
          (∀ b ∈ (t.core c).bufs, b ∈ (s.core c).bufs ∧ b.2.team ≠ tk) ∧
          ∀ k it, s.item? k = some it → ∃ it2, t.item? k = some it2 ∧ it2 = { it with waits := it2.waits }) ∧
      (∀ core q0 b u l, tm.core = none → s.dispatching = true → AMap.find s.jobs (jobOfLaunch (tk / 2 ^ 36)) = some b → b.active = true → AMap.find s.launches (tk / 2 ^ 36) = some l → core ∈ s.liveCores l.lvl → q0 < 4 →
        cfgCores (s.cardOf (tk / 2 ^ 36)).config = false → s.restoreTeam tk core q0 tm = some u → exec (.resumeTeam tk core q0) s = .next u ∧
        (s.savedSpans tm.launch tm.base (tm.base + tm.size) = [] → (∀ x ∈ (s.core core).l1, x.code ≠ aPRIV) → ∃ tm2, AMap.find u.teams tk = some tm2 ∧
          tm2 = { tm with core := some core, q0 := q0, slots := tm2.slots, scrBase := tm2.scrBase, barBase := tm2.barBase, savedBufs := [], savedRecs := [] } ∧ u.mem = s.mem))) ∧
    (∀ lk l t cfail u, AMap.find s.launches lk = some l → l.st = .running → l.card.count ≤ l.ended →
      (∀ e ∈ s.groups, launchOfGroup e.1 = lk → e.2.inflight = 0) → (s.flushJob (jobOfLaunch lk)).finishCont lk l = some (t, cfail) →
      t.cores.foldl (fun (u : Option State) e => u.bind (fun u => u.cleanRanges (jobOfLaunch lk) e.1 l.card.ranges false)) (some t) = some u →
      (l.card.cont = 0 → t = s.flushJob (jobOfLaunch lk) ∧ cfail = false) ∧ (l.card.cont ≠ 0 → l.canc = true ∨ l.deposits = [] → t = s.flushJob (jobOfLaunch lk) ∧ cfail = true) ∧
      ∀ m b, AMap.find u.launches lk = some m → AMap.find u.jobs (jobOfLaunch lk) = some b → b.merge = false → ∃ w c, exec (.launchCompletion lk) s = .next w ∧
        AMap.find w.launches lk = some { m with st := .done, ended := m.card.count, next := m.card.count, cfail := cfail } ∧ AMap.find w.jobs (jobOfLaunch lk) = some c ∧
        c.ctr = min (b.ctr + 1) (2 ^ 64 - 1) ∧ AMap.getD c.phases (b.phase % 2 ^ 24) 0 = min (AMap.getD b.phases (b.phase % 2 ^ 24) 0 + 1) (2 ^ 64 - 1) ∧
        (m.card.graph ≠ 0 → AMap.getD c.graphs m.card.graph 0 = min (AMap.getD b.graphs m.card.graph 0 + 1) (2 ^ 64 - 1))) ∧
    (∀ j b t, AMap.find s.jobs j = some b → b.merge = true → (∀ e ∈ s.ops, e.1 < b.mark → jobOfLaunch e.2.launch = j → phaseLeft (s.phaseLeaves j) e.2.kind = false) →
      (s.flushJob j).mergeJob j = some t → ∀ c lk rest m, AMap.find t.jobs j = some c → c.ending = lk :: rest → AMap.find t.launches lk = some m → (∀ e ∈ t.errs, e.2.due = true → e.2.retired = true) → ∃ w, exec (.phaseBoundaryCompletion j) s = .next w ∧
        w.mem = t.mem ∧ (∀ e ∈ w.cores, ∀ x ∈ e.2.l1, ¬ (x.code = aPHASE ∧ x.job = j)) ∧ (∀ e ∈ w.phaseCores, jobOfLaunch (e.1 / 2 ^ 36) ≠ j) ∧
        AMap.find w.launches lk = some { m with phbN := m.phbN + 1 } ∧
        AMap.find w.jobs j = some (if rest = [] then { c with ending := [], merge := false } else { c with ending := rest, phase := c.phase + 1, mark := w.fresh })) ∧
    (∀ j next c, AMap.find s.jobs next = some c → c.active = false → (∀ b, AMap.find s.jobs j = some b → b.active = false) → ∃ t, exec (.sliceEnd j (some next)) s = .next t ∧
      t = { s with jobs := t.jobs, moved := true } ∧
      ∀ k, AMap.find t.jobs k = (AMap.find s.jobs k).map (fun c => { c with weight := c.nextWeight, active := if next = k then true else c.active })) ∧
    ∀ j next b, AMap.find s.jobs j = some b → b.active = true → s.placedTeams (· == j) = [] → s.toRetire (s.diesOf j) = [] → (∀ e ∈ s.errs, e.2.due = true → e.2.retired = true) → ∃ t, exec (.sliceEnd j next) s = .next t ∧
      t = { s with jobs := t.jobs, moved := true } ∧
      ∀ k, AMap.find t.jobs k = (AMap.find s.jobs k).map (fun c => { c with weight := c.nextWeight, active := if k = j then false else if next = some k then true else c.active })

/-- Generations and their views (R325 to R334). SNAP traps where the card's SNAP bit forbids it; else it makes a
generation of the job, or answers status 1 with fifteen live and 2 with no number left, and its completion tells the
item the number and fixes the pages of the cut, old versions of pages that no longer belong to it being given up.
SNAPQ answers the state, tier, views and old versions of a generation, 0 of one that is not live. GVIEW.FREE traps on
a generation that is not live and on one with views, else frees the old versions that only it holds; GVIEW.MAP traps
on a generation that is not live and on a bad or taken range, else maps the pages of the cut in the range; GVIEW.UNMAP
traps on a bad range and where a page of the range is no view page, else unmaps them. Firmware drains the oldest held
generation with old versions in the pool, block by block, until the tier is full or every one is below. Where the cut
falls is the choice of log entry 15. -/
def Obligations.Generations : Prop :=
  (∀ (s : State) (ik : Nat) (it : Item) (g : Group) (f : EF), Solo s ik it g → guardHolds f.g it = true → s.acqPending ik = false → acquireGate s ik = .ok () →
    let j := jobOf ik
    let free := fun (n : Nat) => anyEmpty (regsAt it g (.v f.r.toNat) n) = false
    let gives := fun (i : Instr) (u : State) (n v : Nat) => exec i s = .next ((u.dest ik (.v f.r.toNat) n v).advance ik 8)
    let traps := fun (i : Instr) (why : W32) => exec i s = .next (s.takeTrap ik ⟨0x27, why, 0, 0⟩ s.cur.pc)
    let gen := fun (n : W64) => (AMap.find s.jobs j).bind (fun b => AMap.find b.gens (n.toNat % 2 ^ 32))
    let fine := fun (a : W64) (l : Nat) => a.toNat % 65536 = 0 ∧ 0 < l ∧ l ≤ 2 ^ 24 ∧ a.toNat + l * 65536 ≤ 2 ^ 57
    (free 2 → cfgSnap (s.cardOf (launchOf ik)).config = false → traps (.snap f) 1) ∧
    (free 2 → cfgSnap (s.cardOf (launchOf ik)).config = true → s.merging j = false → (∀ d, (s.core d).slots = []) → s.coh = [] → s.gathers = [] → ∀ b, AMap.find s.jobs j = some b → ∃ t r, exec (.snap f) s = .next t ∧
      t = { s with items := ((s.setEmpty ik (.v f.r.toNat) 2).advance ik 8).items, jobs := t.jobs, ops := t.ops, fresh := s.fresh + 1, moved := true } ∧
      r = (if b.gens.length < 15 then if b.nextGen < 2 ^ 32 then (b.nextGen, 0) else (0, 2) else (0, 1)) ∧
      t.ops = AMap.put s.ops s.fresh ⟨s.coreOf ik, launchOf ik, indexOf ik, indexOf ik + 1, s.cur.pc, .snap (.v f.r.toNat) [ik] (BitVec.ofNat 32 r.1) (BitVec.ofNat 32 r.2)⟩ ∧
      t.jobs = if r.2 = 0 then AMap.upd s.jobs j (fun b => { b with gens := AMap.put b.gens r.1 ⟨.fixing, 0, [], 0⟩ }) else s.jobs) ∧
    (∀ n, readE s ik it g f.o1 1 = .ok n →
      (free 2 → gives (.snapq f) s 2 (match gen n with
        | none => 0
        | some x => (match x.st with | .fixing => 1 | .held => 2 | .draining => 3 | .drained => 4) + 16 * x.tier + (if x.views = 0 then 0 else 256) +
            2 ^ 32 * min (s.versionsOf j (n.toNat % 2 ^ 32)).length (2 ^ 32 - 1))) ∧
      (free 1 →
        (gen n = none → traps (.gviewFree f) 2) ∧
        (∀ x, gen n = some x → x.st ≠ .fixing →
          (x.views ≠ 0 → traps (.gviewFree f) 4) ∧
          (x.views = 0 → ∃ u, gives (.gviewFree f) u 1 (min ((s.versionsOf j (n.toNat % 2 ^ 32)).filter (fun v => v.gens.all (· == n.toNat % 2 ^ 32))).length (2 ^ 32 - 1)) ∧
            u = { s with vers := u.vers, jobs := u.jobs, mgmt := { s.mgmt with ltfull := false } } ∧
            (∀ v, v ∈ u.vers ↔ ∃ w ∈ s.vers, (¬ (w.job = j ∧ n.toNat % 2 ^ 32 ∈ w.gens) ∧ v = w) ∨
              (w.job = j ∧ n.toNat % 2 ^ 32 ∈ w.gens ∧ (∃ k ∈ w.gens, k ≠ n.toNat % 2 ^ 32) ∧ v = { w with gens := w.gens.filter (· != n.toNat % 2 ^ 32) })) ∧
            ∀ b, AMap.find u.jobs j = some b → AMap.find b.gens (n.toNat % 2 ^ 32) = none)) ∧
        ∀ ab l, readEs s ik it g f.o2 4 = .ok ab → readE s ik it g f.o3 1 = .ok l →
          let d := pair (ab.getD 0 0) (ab.getD 1 0)
          let src := pair (ab.getD 2 0) (ab.getD 3 0)
          let L := l.toNat % 2 ^ 32
          (gen n = none → traps (.gviewMap f) 2) ∧
          ∀ x, gen n = some x →
            (¬ (fine d L ∧ fine src L) → traps (.gviewMap f) 3) ∧
            (fine d L → fine src L → x.st ≠ .fixing →
              (s.vaFree j d.toNat (d.toNat + L * 65536) = false → traps (.gviewMap f) 3) ∧
              (s.vaFree j d.toNat (d.toNat + L * 65536) = true →
                let ps := (x.pages.filter (fun p => decide (src.toNat / 65536 ≤ p) && decide (p < src.toNat / 65536 + L))).map
                  (fun p => (d.toNat + (p - src.toNat / 65536) * 65536, p * 65536))
                (s.mapViews j (n.toNat % 2 ^ 32) ps = none → exec (.gviewMap f) s = .next (s.leave ik)) ∧
                ∀ u, s.mapViews j (n.toNat % 2 ^ 32) ps = some u → gives (.gviewMap f) ((u.updJob j (fun b => { b with
                  gens := AMap.upd b.gens (n.toNat % 2 ^ 32) (fun y => { y with views := y.views + ps.length }) })).sweep j d.toNat (d.toNat + L * 65536)) 1 ps.length)))) ∧
    ∀ d l, readE s ik it g f.o2 2 = .ok d → readE s ik it g f.o3 1 = .ok l → free 1 →
      let L := l.toNat % 2 ^ 32
      let views := (s.leavesIn j d.toNat (d.toNat + L * 65536)).filter (fun l => l.2.2.getLsbD 63)
      (¬ fine d L → traps (.gviewUnmap f) 3) ∧
      (fine d L → views.length ≠ L → traps (.gviewUnmap f) 5) ∧
      (fine d L → views.length = L → gives (.gviewUnmap f) (s.unmapViews j d.toNat (d.toNat + L * 65536)) 1 L)) ∧
  ∀ (s : State),
    (∀ n o dst ik gn st, AMap.find s.ops n = some o → o.kind = .snap dst [ik] gn st → (∀ e ∈ s.ops, e.1 < n → jobOfLaunch e.2.launch = jobOfLaunch o.launch →
      ∀ d i x y, e.2.kind ≠ .snap d i x y) → ∃ t u, exec (.snapCompletion n) s = .next t ∧
      u = (if (s.item? ik).isSome then s.setRegs ik dst [gn, st] else s) ∧ t = { u with jobs := t.jobs, vers := t.vers, ops := AMap.del u.ops n, moved := true } ∧
      t.vers = (if st = 0 then (u.dropVers (jobOfLaunch o.launch) gn.toNat (fun b => !u.fixesBlock (jobOfLaunch o.launch) b)).vers else s.vers) ∧
      (st ≠ 0 → t.jobs = s.jobs) ∧
      ∀ b x, st = 0 → AMap.find s.jobs (jobOfLaunch o.launch) = some b → AMap.find b.gens gn.toNat = some x → ∃ b2 x2, AMap.find t.jobs (jobOfLaunch o.launch) = some b2 ∧
        b2 = { b with lastGen := gn.toNat, gens := b2.gens } ∧ AMap.find b2.gens gn.toNat = some x2 ∧ x2 = { x with st := .held, pages := x2.pages } ∧
        ∀ p, p ∈ x2.pages ↔ ∃ l ∈ s.leaves (jobOfLaunch o.launch), l.2.2.getLsbD 63 = false ∧ ∃ k < leafBytes (pteSize l.2.2) / 65536, p = l.1 / 65536 + k) ∧
    (∀ j gn tier b x, AMap.find s.jobs j = some b → AMap.find b.gens gn = some x → x.st = .held → s.inPool j gn = true → (∀ e ∈ b.gens, e.1 < gn → s.inPool j e.1 = false) →
      s.mgmt.ltfull = false → 1 ≤ tier → tier ≤ 3 → exec (.generationDrainStart j gn tier) s =
        .next { s.updJob j (fun b => { b with gens := AMap.upd b.gens gn (fun y => { y with st := .draining, tier := if y.tier = 0 then tier else y.tier }) }) with moved := true }) ∧
    ∀ j gn block b x v, AMap.find s.jobs j = some b → AMap.find b.gens gn = some x → s.versionOf j block gn = some v → x.st = .draining → v.lower = false → s.mgmt.ltfull = false →
      (∀ e ∈ b.gens, e.1 < gn → s.inPool j e.1 = false) →
      (tierRoom x.tier ≤ s.tierUsed x.tier → exec (.generationDrainBlock j gn block) s = .next { s with mgmt := { s.mgmt with ltfull := true }, moved := true }) ∧
      (s.tierUsed x.tier < tierRoom x.tier → ∃ t, exec (.generationDrainBlock j gn block) s = .next t ∧ t = { s with vers := t.vers, jobs := t.jobs, moved := true } ∧
        t.vers = s.vers.map (fun u => if u = v then { u with lower := true } else u) ∧
        ∃ b2, AMap.find t.jobs j = some b2 ∧ b2 = { b with gens := b2.gens } ∧ ∀ k y, AMap.find b.gens k = some y → AMap.find b2.gens k = some (if k ∈ v.gens then
          { y with tier := if y.tier = 0 then x.tier else y.tier, st := if (y.st = .draining ∨ y.st = .held) ∧ t.inPool j k = false then .drained else y.st } else y))

/-- Attributes of pages, and where pages stand (R324, R335, R338, R340). ATTRSET by an item that is not monitor traps;
on an address with no page, or in a view page, it faults with the address; on a page that has the attribute already it
answers it and does nothing else; else, once no lower item's change is under way, the page's accesses stall and the
item waits until the page is clean, when all its granules take the attribute and the item the old one. A page, a PHASE
page at a boundary once merged, moves, whole and with its bytes, to free frames of another die. The first page of the
victim order goes to the lower tier, bytes, errors and all, and its entry says so; it comes back to free frames with
the same bytes and errors, unless the tier cannot give them. -/
def Obligations.AttributesAndPages : Prop :=
  (∀ (s : State) (ik : Nat) (it : Item) (g : Group) (f : EF), Solo s ik it g → guardHolds f.g it = true →
    let j := jobOf ik
    let traps := fun (cause : Nat) (why : W32) (a : W64) => exec (.attrset f) s = .next (s.takeTrap ik ⟨cause, why, a, 0⟩ s.cur.pc)
    (∀ n, it.wait? = some (.attr n) → exec (.attrset f) s = .next (s.leave ik)) ∧
    (it.wait? = some .done → exec (.attrset f) s = .next { (s.clearWait ik).advance ik 8 with moved := true }) ∧
    (it.wait? = none → it.m.mon = false → traps 0x13 0 0) ∧
    (it.wait? = none → it.m.mon = true → s.acqPending ik = false → anyEmpty (regsAt it g (.v f.r.toNat) 1) = false → acquireGate s ik = .ok () →
      ∀ a n, readE s ik it g f.o1 2 = .ok a → readE s ik it g f.o2 1 = .ok n →
      (∀ r, s.translate j a = .fail r → traps 0x0B (BitVec.ofNat 32 r) a) ∧
      ∀ x, s.translate j a = .ok x →
        (x.gv = true → traps 0x0B 2 a) ∧
        (x.gv = false → s.attrBefore ik s.cur.pc = true → exec (.attrset f) s = .next (s.leave ik)) ∧
        (x.gv = false → s.attrBefore ik s.cur.pc = false → n.setWidth 2 = pteAttr x.pte → exec (.attrset f) s = .next ((s.dest ik (.v f.r.toNat) 1 (pteAttr x.pte).toNat).advance ik 8)) ∧
        (x.gv = false → s.attrBefore ik s.cur.pc = false → n.setWidth 2 ≠ pteAttr x.pte → ∃ t, exec (.attrset f) s = .next t ∧
          t = { s with items := (s.setWait ik (.attr s.fresh)).items, ops := t.ops, stalled := t.stalled, fresh := s.fresh + 1, moved := true } ∧
          t.ops = AMap.put s.ops s.fresh ⟨s.coreOf ik, launchOf ik, indexOf ik, indexOf ik + 1, s.cur.pc,
            .attr ik it.level (.v f.r.toNat) (BitVec.ofNat 64 x.va) (n.setWidth 2) (pteAttr x.pte)⟩ ∧
          ∀ y, y ∈ t.stalled ↔ y ∈ s.stalled ∨ ∃ m ∈ s.mappers (x.pa - x.pa % x.size) (x.pa - x.pa % x.size + x.size), y = (m.1, m.2.1, leafBytes (pteSize m.2.2.2))))) ∧
  (∀ (s t : State) (n ik lvl p : Nat) (o : Op) (dst : RegRef) (a e : W64) (code old : BitVec 2), AMap.find s.ops n = some o → o.kind = .attr ik lvl dst a code old →
    s.leaf (jobOfLaunch o.launch) (vaOf a) = some (p, e) →
    let lo := pteFrame e
    let hi := lo + leafBytes (pteSize e)
    (s.cleanRange lo hi).bind (fun u => u.mergeRange (jobOfLaunch o.launch) (vaOf a) lo hi) = some t → (∀ e ∈ t.errs, e.2.due = true → e.2.retired = true) →
    ∃ u, exec (.attrsetCompletion n) s = .next u ∧ u.mem = t.mem ∧ u.ops = AMap.del t.ops n ∧
      (∀ k, AMap.find u.fat k = if lo / 65536 ≤ k ∧ k < lo / 65536 + (hi - lo) / 65536 then some code else AMap.find t.fat k) ∧
      ∀ it, t.item? ik = some it → ∀ k, dst = .v k → k < it.v.length → ∃ it2, u.item? ik = some it2 ∧ it2.reg k = ⟨old.setWidth 32, .full, none⟩) ∧
  ∀ (s : State) (j va : Nat) (x : Nat × Nat × W64), s.pageAt j va = some x →
    let n := leafBytes (pteSize x.2.2)
    let a := pteFrame x.2.2
    let low := lowKey j x.1
    let fits := fun (die frame : Nat) => die < 8 ∧ frame % (n / 65536) = 0 ∧ s.framesFree die frame (n / 65536) = true
    (∀ die frame r t, s.movable j x = true → die ≠ pteHome x.2.2 → fits die frame → (if pteAttr x.2.2 ≠ aPHASE then r = s else s.atBoundary j = true ∧ (s.flushRange a (a + n)).mergeRange j x.1 a (a + n) = some r) → r.cleanRange a (a + n) = some t → t.mem.wf = true →
      let b := die * 2 ^ 36 + frame * 65536
      ∃ u, exec (.pageMigration j va die frame) s = .next u ∧
        (∀ k < n, u.mem.read (b + k) = t.mem.read (a + k)) ∧
        ∀ q, ¬ (a ≤ q ∧ q < a + n) → ¬ (b ≤ q ∧ q < b + n) → u.mem.read q = t.mem.read q) ∧
    (∀ t, s.evictable j x = true → (∀ b ∈ s.jobs, ∀ y ∈ s.leaves b.1, s.evictable b.1 y = true → keyLt (s.victimKey b.1 y) (s.victimKey j x) = false) →
      s.cleanRange a (a + n) = some t → t.mem.wf = true → ∃ u, exec (.pageEviction j va) s = .next u ∧
        (∀ q, u.mem.read q = if a ≤ q ∧ q < a + n then 0 else t.mem.read q) ∧
        (x.2.2 ||| 8 ≠ 0 → u.pte x.2.1 = x.2.2 ||| 8) ∧
        (∀ k < n, t.mem.read (a + k) ≠ 0 → u.lower.read (low + k) = t.mem.read (a + k)) ∧
        ∀ k < n, a + k ∈ t.memErr → low + k ∈ u.lowerErr) ∧
    (x.2.2.getLsbD 63 = false → x.2.2.getLsbD 3 = true → low ∉ s.lowerBad →
      (∀ die frame, exec (.pageRecall j va die frame false) s = .next { s with lowerBad := low :: s.lowerBad, moved := true }) ∧
      ∀ die frame, fits die frame → s.lower.wf = true → s.mem.wf = true →
        let b := die * 2 ^ 36 + frame * 65536
        ∃ u, exec (.pageRecall j va die frame true) s = .next u ∧
          (∀ k < n, u.mem.read (b + k) = s.lower.read (low + k)) ∧ (∀ k < n, low + k ∈ s.lowerErr → b + k ∈ u.memErr) ∧
          (∀ q, ¬ (b ≤ q ∧ q < b + n) → u.mem.read q = s.mem.read q) ∧
          ∀ q, u.lower.read q = if low ≤ q ∧ q < low + n then 0 else s.lower.read q)

/-- Fabric commands and ROUTE issued (R382 to R385, R388). The first check of a command that fails traps: a row size
or count beyond its limits or an expert above 4095, a range that wraps, a scratchpad offset that is no multiple of 4,
a scratchpad side beyond the team's share, then the handle of RGTH and RGET. A command that passes joins the
outstanding operations with its group's in-flight count raised, the token of RSCT and RPUT EMPTY. ROUTE answers the
replica that its hash selects with the version of the table, all ones in the device where there is none, and is
counted. -/
def Obligations.FabricWords : Prop :=
  ∀ (s : State) (ik : Nat) (it : Item) (g : Group) (f : EF), Solo s ik it g → guardHolds f.g it = true → s.acqPending ik = false →
    acquireGate s ik = .ok () → s.inflightRes (groupOf ik) < 63 → (s.core (s.coreOf ik)).slots = [] → s.coh = [] → s.gathers = [] →
    let top := s.teamScr ik
    let addr := fun (d : Side) => match d with | .glob a => a | .scr o => BitVec.ofNat 64 o
    let wraps := fun (d : Side) (n : Nat) => match d with | .glob a => decide (2 ^ 64 < a.toNat + n) | .scr _ => false
    let odd := fun (d : Side) => match d with | .glob _ => false | .scr o => decide (o % 4 ≠ 0)
    let beyond := fun (d : Side) (n : Nat) => match d with | .glob _ => false | .scr o => decide (0 < n) && decide (top < o + n)
    let handle := fun (h : Nat) => (AMap.find (s.core (s.coreOf ik)).bufs h).map (fun b => (b.st, b.team))
    let held := fun (h : Nat) => [(decide (256 ≤ h), (⟨0x23, 1, 0, 0⟩ : Trap)), ((handle h).all (fun b => b.1 == .draining), ⟨0x23, 2, 0, 0⟩),
      ((handle h).any (fun b => b.2 != s.teamOf ik), ⟨0x23, 3, 0, 0⟩)]
    let raised := s.updGroup (groupOf ik) (fun g => { g with inflight := g.inflight + 1 })
    let obeys := fun (i : Instr) (checks : List (Bool × Trap)) (u : State) (k : OpKind) =>
      (∀ p, checks.find? (·.1) = some p → exec i s = .next (s.takeTrap ik p.2 s.cur.pc)) ∧
      (checks.find? (·.1) = none → ∃ v, Learned u v ∧ exec i s = .next { v.advance ik 8 with
        ops := AMap.put s.ops s.fresh ⟨s.coreOf ik, launchOf ik, indexOf ik, indexOf ik + 1, s.cur.pc, k⟩, fresh := s.fresh + 1 })
    let empty := raised.setEmpty ik (.v f.r.toNat) 1
    let free := anyEmpty (regsAt it g (.v f.r.toNat) 1) = false
    (∀ (dsp isp flt : Bool) (ev : BitVec 3) (loc ix : Side) (t : List W32), readSide s ik it g dsp f.o1 = .ok loc → readEs s ik it g f.o2 4 = .ok t →
      readSide s ik it g isp f.o3 = .ok ix →
      let base := pair (t.getD 0 0) (t.getD 1 0)
      let rb := (t.getD 2 0).toNat
      let n := (t.getD 3 0).toNat
      let rows := [(!(decide (4 ≤ rb) && decide (rb ≤ 65536) && rb % 4 == 0 && decide (n ≤ 65536)), (⟨0x29, 2, 0, 0⟩ : Trap)), (wraps loc (n * rb) || wraps ix (4 * n), ⟨0x29, 3, 0, 0⟩),
        (odd loc, ⟨0x05, 0, addr loc, 0⟩), (odd ix, ⟨0x05, 0, addr ix, 0⟩), (beyond loc (n * rb), ⟨0x0B, 5, addr loc, 0⟩), (beyond ix (4 * n), ⟨0x0B, 5, addr ix, 0⟩)]
      (∀ h, readE s ik it g f.r 1 = .ok h → obeys (.rgth f dsp isp ev) (rows ++ held (h.toNat % 2 ^ 32)) raised
        (.copy ⟨.rgth, h.toNat % 2 ^ 32, 0, true, loc, .glob base, rb, n, 0, 0, ix, [], 0, ev, false⟩)) ∧
      (free → obeys (.rsct f dsp isp ev flt) rows empty
        (.tok ⟨.rsct f dsp isp ev flt, [addr loc, base, BitVec.ofNat 64 rb, BitVec.ofNat 64 n, addr ix], ⟨.v f.r.toNat, 1⟩, 0, false, (encode (.rsct f dsp isp ev flt)).headD 0⟩))) ∧
    (∀ (scr : Bool) (ev : BitVec 3) (d : Side) (a l : W64), readE s ik it g f.o3 1 = .ok l →
      let n := l.toNat % 2 ^ 32
      let shape := [(wraps d n || decide (2 ^ 64 < a.toNat + n), (⟨0x29, 3, 0, 0⟩ : Trap)), (odd d, ⟨0x05, 0, addr d, 0⟩), (beyond d n, ⟨0x0B, 5, addr d, 0⟩)]
      (readSide s ik it g scr f.o1 = .ok d → readE s ik it g f.o2 2 = .ok a → ∀ h, readE s ik it g f.r 1 = .ok h → obeys (.rget f scr ev) (shape ++ held (h.toNat % 2 ^ 32)) raised
        (.copy ⟨.rget, h.toNat % 2 ^ 32, 0, true, d, .glob a, n, 1, 0, 0, .scr 0, [], 0, ev, false⟩)) ∧
      (readE s ik it g f.o1 2 = .ok a → readSide s ik it g scr f.o2 = .ok d → free → obeys (.rput f scr ev) shape empty
        (.tok ⟨.rput f scr ev, [a, addr d, BitVec.ofNat 64 n], ⟨.v f.r.toNat, 1⟩, 0, false, (encode (.rput f scr ev)).headD 0⟩))) ∧
    ∀ (x hash : W64) (b : Job), readE s ik it g f.o1 1 = .ok x → readE s ik it g f.o2 1 = .ok hash → AMap.find s.jobs (jobOf ik) = some b →
      anyEmpty (regsAt it g (.v f.r.toNat) 4) = false →
      let e := x.toNat % 2 ^ 32
      let reps := ((AMap.find b.experts e).map (·.reps)).getD []
      (4095 < e → exec (.route f) s = .next (s.takeTrap ik ⟨0x29, 1, 0, 0⟩ s.cur.pc)) ∧
      (e ≤ 4095 → exec (.route f) s = .next (((((s.updJob (jobOf ik) (fun b => { b with experts := AMap.upd b.experts e (fun y => { y with routes := y.routes + 1 }) })).updLaunch
        (launchOf ik) (fun l => { l with rver := some (match l.rver with | none => b.rver | some v => min v b.rver) })).dest ik (.v f.r.toNat) 4
          (match reps[hash.toNat % 2 ^ 32 * reps.length / 2 ^ 32]? with
          | none => 2 ^ 32 - 1 + 2 ^ 32 * (2 ^ 16 * (b.rver % 2 ^ 16))
          | some p => p.dev + 2 ^ 32 * (p.core + 2 ^ 16 * (b.rver % 2 ^ 16)) + 2 ^ 64 * p.base.toNat)).advance ik 8)))

/-- What the fabric does (R379 to R381, R383, R385 to R387). A row of a gather, the next bytes of an RGET or RPUT and
the next row of a scatter-add are moved or added, the buffer's count or the cursor rises, and the command is over
behind the last; one that fails or is cancelled suspends or ends. At the end of a window the counts start again, and
an expert over the threshold with a free place may get a replica, which joins the table at a new version once its
weights are copied; one removed leaves it likewise. An access from another device is translated here, refused without
permission, trapped on an alias, refused on a PHASE or PRIV page, else performed with every copy recalled; an answer
reaches the item that waits for it. A flit sent again changes nothing; a failed link is out of routing. That other
devices are messages out and answers in is the choice of log entry 12; how a replica is copied is the reading of log
entry 39. -/
def Obligations.FabricEvents : Prop :=
  ∀ (s : State),
    (∀ (n : Nat) (o : Op) (x : CopyOp), s.copyOf n = some (o, x) →
      let ik := itemKey o.launch o.lo
      let j := jobOfLaunch o.launch
      let bad := fun (i : Instr) (y : CopyOp) (a : W64) (r : Nat) => exec i s = .next (s.suspendFab n o (.copy { y with suspended := true }) a r)
      let ends := fun (t : State) (len : Nat) (y : CopyOp) (last : Bool) =>
        let u : State := { (t.sync [tokOp n] (t.bufTok o.core x.buf)).updBuf o.core x.buf (·.arrive len) with ops := AMap.put t.ops n { o with kind := .copy y }, moved := true }
        if last then u.endCopy n o y else u
      (x.kind = .rgth → ∀ k, (s.opCancelled o = true ∨ x.rows = 0 → exec (.rgthRowArrival n k) s = .next (s.endCopy n o x)) ∧
        (s.opCancelled o = false → k < x.rows → k ∉ x.done →
          (∀ a r, s.sideRead o.core j ik x.ev (x.ix.at 0 0 (4 * k)) 4 = .fail a r → bad (.rgthRowArrival n k) { x with cursor := k } a r) ∧
          ∀ ib s1, s.sideRead o.core j ik x.ev (x.ix.at 0 0 (4 * k)) 4 = .ok ib s1 →
            let src := Side.glob (x.src.addr + BitVec.ofNat 64 (leNat ib * x.rowBytes))
            let d := x.dst.at 0 0 (k * x.rowBytes)
            (∀ a r, s1.sideRead o.core j ik x.ev src x.rowBytes = .fail a r →
              let p := lowerFail a r (s1.sideMeets o.core j x.ev d x.rowBytes)
              bad (.rgthRowArrival n k) { x with cursor := k } p.1 p.2) ∧
            ∀ bs s2, s1.sideRead o.core j ik x.ev src x.rowBytes = .ok bs s2 →
              (∀ a r, s2.sideWrite o.core j ik x.ev d bs = .fail a r → bad (.rgthRowArrival n k) { x with cursor := k } a r) ∧
              ∀ l t, s2.sideWrite o.core j ik x.ev d bs = .ok l t → exec (.rgthRowArrival n k) s = .next (ends t x.rowBytes { x with done := x.done ++ [k] } (decide (x.rows ≤ x.done.length + 1))))) ∧
      (x.kind = .rget → (s.opCancelled o = true ∨ x.rowBytes ≤ x.cursor → exec (.rgetArrival n) s = .next (s.endCopy n o x)) ∧
        (s.opCancelled o = false → x.cursor < x.rowBytes →
          let src := x.src.at 0 0 x.cursor
          let len := min (x.rowBytes - x.cursor) (4096 - src.addr.toNat % 4096)
          let d := x.dst.at 0 0 x.cursor
          (∀ a r, s.sideRead o.core j ik x.ev src len = .fail a r →
            let p := lowerFail a r (s.sideMeets o.core j x.ev d len)
            bad (.rgetArrival n) x p.1 p.2) ∧
          ∀ bs s2, s.sideRead o.core j ik x.ev src len = .ok bs s2 →
            (∀ a r, s2.sideWrite o.core j ik x.ev d bs = .fail a r → bad (.rgetArrival n) x a r) ∧
            ∀ l t, s2.sideWrite o.core j ik x.ev d bs = .ok l t → exec (.rgetArrival n) s = .next (ends t len { x with cursor := x.cursor + len } (decide (x.rowBytes ≤ x.cursor + len)))))) ∧
    (∀ (n : Nat) (o : Op) (c : TokOp), s.tokOf n = some (o, c) →
      let ik := itemKey o.launch o.lo
      let j := jobOfLaunch o.launch
      let arg := fun (k : Nat) => c.args.getD k 0
      let side := fun (scr : Bool) (k : Nat) => if scr then Side.scr (arg k).toNat else .glob (arg k)
      let bad := fun (i : Instr) (a : W64) (r : Nat) => exec i s = .next (s.suspendFab n o (.tok { c with suspended := true }) a r)
      let ends := fun (t : State) (d : TokOp) (last : Bool) =>
        let u : State := { t with ops := AMap.put t.ops n { o with kind := .tok d }, moved := true }
        if last then u.endTok n o d else u
      (∀ f scr ev, c.ins = .rput f scr ev → (s.opCancelled o = true ∨ (arg 2).toNat ≤ c.cursor → exec (.rputCompletion n) s = .next (s.endTok n o c)) ∧
        (s.opCancelled o = false → c.cursor < (arg 2).toNat →
          let src := (side scr 1).at 0 0 c.cursor
          let len := min ((arg 2).toNat - c.cursor) (4096 - src.addr.toNat % 4096)
          let d := (Side.glob (arg 0)).at 0 0 c.cursor
          (∀ a r, s.sideRead o.core j ik ev src len = .fail a r →
            let p := lowerFail a r (s.sideMeets o.core j ev d len)
            bad (.rputCompletion n) p.1 p.2) ∧
          ∀ bs s2, s.sideRead o.core j ik ev src len = .ok bs s2 →
            (∀ a r, s2.sideWrite o.core j ik ev d bs = .fail a r → bad (.rputCompletion n) a r) ∧
            ∀ l t, s2.sideWrite o.core j ik ev d bs = .ok l t → exec (.rputCompletion n) s = .next (ends t { c with cursor := c.cursor + len } (decide ((arg 2).toNat ≤ c.cursor + len))))) ∧
      ∀ f dsp isp ev flt, c.ins = .rsct f dsp isp ev flt → (s.opCancelled o = true ∨ (arg 3).toNat ≤ c.cursor → exec (.rsctCompletion n) s = .next (s.endTok n o c)) ∧
        (s.opCancelled o = false → c.cursor < (arg 3).toNat →
          (∀ a r, s.sideRead o.core j ik ev ((side isp 4).at 0 0 (4 * c.cursor)) 4 = .fail a r → bad (.rsctCompletion n) a r) ∧
          ∀ ib s1, s.sideRead o.core j ik ev ((side isp 4).at 0 0 (4 * c.cursor)) 4 = .ok ib s1 →
          let row := arg 1 + BitVec.ofNat 64 (leNat ib * (arg 2).toNat)
          (∀ a r, s1.sideRead o.core j ik ev ((side dsp 0).at 0 0 (c.cursor * (arg 2).toNat)) (arg 2).toNat = .fail a r → bad (.rsctCompletion n) a r) ∧
          ∀ vs s2, s1.sideRead o.core j ik ev ((side dsp 0).at 0 0 (c.cursor * (arg 2).toNat)) (arg 2).toNat = .ok vs s2 →
            (∀ a r, s2.scatCheck o.core j ev row (arg 2).toNat = .fail a r → bad (.rsctCompletion n) a r) ∧
            (s2.scatCheck o.core j ev row (arg 2).toNat = .ok → exec (.rsctCompletion n) s =
              .next (ends (s2.scatter o ev (if flt then .fadd else .add) row (words4 vs)) { c with cursor := c.cursor + 1 } (decide ((arg 3).toNat ≤ c.cursor + 1)))))) ∧
    (∀ j b, AMap.find s.jobs j = some b →
      (∀ pick, ∃ t b2, exec (.routeWindowEnd j pick) s = .next t ∧ t = { s with jobs := t.jobs, moved := true } ∧ AMap.find t.jobs j = some b2 ∧
        b2 = { b with experts := b2.experts, kept := b2.kept } ∧
        ∀ k x, AMap.find b.experts k = some x → AMap.find b2.experts k = some { x with
          routes := 0
          copy := match pick with
            | some (e, dev, core, base) => if e = k ∧ b.thresh ≤ x.routes ∧ x.reps ≠ [] ∧ x.reps.length < 16 ∧ x.copy = none ∧ dev < 2 ^ 21 ∧ core < 384 then
                some ⟨dev, core, BitVec.ofNat 64 base⟩ else x.copy
            | none => x.copy }) ∧
      ∀ e x, AMap.find b.experts e = some x →
        (∀ r p l, x.copy = some r → x.reps = p :: l → s.engCheck r.core j false 4 p.base x.wlen = .ok → s.engCheck r.core j true 4 r.base x.wlen = .ok →
          let w := (s.engRead r.core j 4 p.base x.wlen).2.engWrite r.core j 0 4 r.base (s.engRead r.core j 4 p.base x.wlen).1
          exec (.replicaCopyComplete j e) s = .next { w.updJob j (fun b => { b with rver := b.rver + 1, experts := AMap.upd b.experts e (fun y => { y with reps := y.reps ++ [r], copy := none }) }) with moved := true }) ∧
        ∀ i r, 0 < i → x.reps[i]? = some r → ∃ t b2, exec (.replicaRemoved j e i) s = .next t ∧ t = { s with jobs := t.jobs, moved := true } ∧ AMap.find t.jobs j = some b2 ∧
          b2 = { b with rver := b.rver + 1, experts := b2.experts, kept := b2.kept } ∧ AMap.find b2.experts e = some { x with reps := x.reps.eraseIdx i }) ∧
    (∀ dev req j a op,
      let answers := fun (u : State) (r : RemoteAns) => exec (.remoteAccessRequest dev req j a op) s = .next { u with fabAns := u.fabAns ++ [⟨dev, req, r⟩], moved := true }
      let permits := fun (x : Xlat) => match op with | .load _ => x.rd | .store _ _ | .atom _ _ _ _ _ => x.wr | .line _ => x.rd || x.wr
      (s.translate j a = .stall → exec (.remoteAccessRequest dev req j a op) s = .next s) ∧
      (∀ r, s.translate j a = .fail r → answers s (.fail r (s.seqPage j a))) ∧
      ∀ x, s.translate j a = .ok x →
        let seq := x.attr == aSEQ
        let u := (s.flushRange (lineOf x.pa * 128) (lineOf x.pa * 128 + 128)).recallLine (lineOf x.pa)
        let old := u.readAt 0 j none x
        (permits x = false → answers s (.fail 2 seq)) ∧
        (permits x = true → s.aliased x = true → answers s (.trap 0x10)) ∧
        (permits x = true → s.aliased x = false → x.attr = aPHASE ∨ x.attr = aPRIV → answers s (.fail 3 false)) ∧
        (permits x = true → s.aliased x = false → x.attr ≠ aPHASE → x.attr ≠ aPRIV →
          (∀ i, op = .line i → answers u (.data 0 seq)) ∧
          (∀ n, op = .load n → answers u (if (old n).2 then .fail 4 seq else .data (BitVec.ofNat 128 (leNat (old n).1)) seq)) ∧
          (∀ n v, op = .store n v → u.cowOk j (vaOf a) = true → answers (u.writeHome j (vaOf a) x.pa (leBytes v.toNat n)) (.data 0 seq)) ∧
          ∀ q n sg v e, op = .atom q n sg v e → u.cowOk j (vaOf a) = true → if (old n).2 then answers u (.fail 4 seq)
            else answers (u.writeHome j (vaOf a) x.pa (leBytes (atomNew q n sg (leNat (old n).1) v.toNat e.toNat) n)) (.data (BitVec.ofNat 128 (leNat (old n).1)) seq))) ∧
    (∀ n a m, s.fabOut.find? (fun m => m.id == n) = some m → ∃ t, exec (.remoteResponse n a) s = .next t ∧
      t = { s with items := t.items, fabOut := s.fabOut.filter (fun y => y.id != n), moved := true } ∧
      ∀ it, s.item? m.item = some it → t.item? m.item = some { it with waits := it.waits.map (fun w => match w.2 with
        | .remote id none => if id = n then (w.1, Wait.remote id (some a)) else w
        | _ => w) }) ∧
    (∀ k, exec (.flitCrcFail k) s = .next { s with moved := true }) ∧
    ∀ k lost, ∃ t, exec (.linkFail k lost) s = .next t ∧ t = { s with linksDown := t.linksDown, unreach := t.unreach, moved := true } ∧
      (∀ q, q ∈ t.linksDown ↔ q = k ∨ q ∈ s.linksDown) ∧ ∀ q, q ∈ t.unreach ↔ q ∈ s.unreach ∨ q ∈ lost

/-- The coherence protocol of tracked lines (R297 to R299, R301, R303). The home takes the oldest request of a line
once no transaction holds it and its cache has room; a read of a line with no owner is answered at the home, one with
an owner is forwarded to it; a request for ownership invalidates every other sharer and takes the data, where the
requester has none, from the owner or the home; a far atomic invalidates every copy and is executed at the home once
all have acknowledged; a writeback is acknowledged, and only the owner's changes the entry, unless a forward or
invalidation has crossed it. A forwarded owner answers and gives up the line or its ownership of it; an invalidated
sharer drops it and acknowledges; the requester reports once it has the data and every acknowledgement, and the report
frees the line. But for a far atomic's execution, which writes the new value and answers the old one, no step touches
memory, registers or the items. -/
def Obligations.Coherence : Prop :=
  ∀ (s : State) (line : Nat),
    let only := fun (t : State) => t = { s with cores := t.cores, rdc := t.rdc, l2 := t.l2, dir := t.dir, coh := t.coh, gathers := t.gathers, wbufs := t.wbufs, moved := true }
    let crosses := fun (ms : List CohMsg) (l p : Nat) => ms.any (fun m => match m with | .fwd a q _ _ _ _ _ => a == l && q == p | .inv a q _ => a == l && q == p | _ => false)
    let after := fun (rest ms : List CohMsg) => rest.map (fun m => match m with | .wb l p st => .wb l p (st || crosses ms l p) | m => m) ++ ms
    let performs := fun (i : Instr) (rest : List CohMsg) (r : FarReq) => ∃ t, exec i s = .next t ∧
      let old := leNat (s.mem.readN r.pa r.bytes)
      let bad := s.memErr.any (fun q => decide (r.pa ≤ q) && decide (q < r.pa + r.bytes))
      t.mem = (if bad then s.mem else s.mem.writeN r.pa (leBytes (atomNew r.aop r.bytes r.signed old r.v r.e) r.bytes)) ∧
      t.coh = rest ++ [.complete line (partyOf r.core line)] ∧ t.dirOf line = ⟨.i, none, [], some (partyOf r.core line)⟩ ∧
      (∀ n o l, r.op = some n → AMap.find s.ops n = some o → o.kind = .atomic l →
        AMap.find t.ops n = some { o with kind := .atomic { l with val := BitVec.ofNat 128 (if bad then 0 else old), fail := if bad then some 4 else none, pend := false } }) ∧
      t.items = if r.op = none ∧ bad then (s.addPending r.item (redErr r.addr)).items else s.items
    (∀ m rest, takeMsg (atHome line) s.coh = some (m, rest) →
      let d := s.dirOf line
      ((∃ q, d.busy = some q) → ∀ i ∈ [Instr.homeGets line, .homeGetm line, .homeFarAtomic line, .homeWriteback line], exec i s = .next s) ∧
      (d.busy = none →
        let gives := fun (i : Instr) (d2 : DirEnt) (ms : List CohMsg) => ∃ t, exec i s = .next t ∧ only t ∧ t.coh = after rest ms ∧ t.dirOf line = d2
        (∀ l p w e, m = .gets l p w e →
          let i := Instr.homeGets line
          (s.l2Ready line e = false → exec i s = .next s) ∧
          (s.l2Ready line e = true →
            (d.st = .i → gives i ⟨.e, some p, [], some p⟩ [.data line p w 0 e .e true true]) ∧
            (d.st = .s → gives i { d with sharers := p :: d.sharers.filter (· != p), busy := some p } [.data line p w 0 e .s true true]) ∧
            (d.st ≠ .i → d.st ≠ .s → ∀ y, d.owner = some y →
              (y = p → gives i { d with busy := some p } [.data line p w 0 e d.st true true]) ∧
              (y ≠ p → gives i (if d.st = .e then ⟨.s, none, [p, y], some p⟩ else ⟨.o, some y, p :: d.sharers.filter (· != p), some p⟩) [.fwd line y p w 0 e false])))) ∧
        (∀ l p w e, m = .getm l p w e →
          let others := d.sharers.filter (· != p)
          let invs := others.map (fun q => CohMsg.inv line q p)
          let data := CohMsg.data line p w others.length e .m true (!(d.sharers.contains p || d.owner == some p))
          (s.l2Ready line e = false → exec (.homeGetm line) s = .next s) ∧
          (s.l2Ready line e = true → gives (.homeGetm line) ⟨.m, some p, [], some p⟩ (invs ++ [match (if d.st = .i ∨ d.st = .s then none else d.owner) with
            | some y => if y = p then data else .fwd line y p w others.length e true
            | none => data]))) ∧
        (∀ l r, m = .far l r →
          let copies := (d.sharers ++ d.owner.toList).eraseDups
          (s.l2Ready line r.prio = false → exec (.homeFarAtomic line) s = .next s) ∧
          (s.l2Ready line r.prio = true →
            (copies ≠ [] → ∃ t, exec (.homeFarAtomic line) s = .next t ∧ only t ∧ t.coh = after rest (copies.map (fun q => .inv line q 56)) ∧
              t.dirOf line = { d with busy := some 56 } ∧ t.gathers = s.gathers ++ [⟨line, 56, r.core, none, copies.length, 0, false, r.prio, some r⟩]) ∧
            (copies = [] → performs (.homeFarAtomic line) rest r))) ∧
        ∀ l p stale, m = .wb l p stale → gives (.homeWriteback line)
          (if d.owner = some p ∧ stale = false then if d.st = .o ∧ d.sharers ≠ [] then ⟨.s, none, d.sharers, none⟩ else ⟨.i, none, [], none⟩ else d) [.wbAck line p])) ∧
    ∀ (p : Nat),
      (∀ l y req w acks e own rest, takeMsg (fromHome line p) s.coh = some (.fwd l y req w acks e own, rest) →
        let dirty := (s.dirOf line).st = .o
        ∃ t, exec (.forward line p) s = .next t ∧ only t ∧
        t.coh = rest ++ [.data line req w acks e (if own then .m else .s) false true] ∧ (own = true → ∀ c ∈ coresOf line p, (t.core c).l1Line line = none) ∧
        (own = false → ∀ c ∈ coresOf line p, ∀ x, (s.core c).l1Line line = some x → (t.core c).l1Line line = some { x with st := if p < 48 ∧ dirty then .o else .s }) ∧
        (own = false → 48 ≤ p → ∀ x, s.rdcLine (p - 48) line = some x → t.rdcLine (p - 48) line = some { x with st := if dirty then .o else .s })) ∧
      (∀ l q req rest, takeMsg (fromHome line p) s.coh = some (.inv l q req, rest) → ∃ t, exec (.invalidation line p) s = .next t ∧ only t ∧
        t.coh = rest ++ [.ack line req] ∧ ∀ c ∈ coresOf line p, (t.core c).l1Line line = none) ∧
      (∀ l rest, takeMsg (fromHome line p) s.coh = some (.wbAck l p, rest) →
        exec (.writebackAck line p) s = .next { s with coh := rest, moved := true, wbufs := s.wbufs.erase (line, p) }) ∧
      (let mine := fun (g : Gather) => g.line == line && g.party == p
        let g := (s.gathers.find? mine).getD ⟨line, p, 0, none, 0, 0, false, 0, none⟩
        let others := s.gathers.filter (fun h => !mine h)
        let gathers := fun (i : Instr) (rest : List CohMsg) (g2 : Gather) =>
          let whole := g2.need ≤ g2.got
          ((g2.far = none ∧ g2.data = none) ∨ ¬ whole → exec i s = .next { s with coh := rest, moved := true, gathers := others ++ [g2] }) ∧
          (∀ st, g2.far = none → g2.data = some st → whole →
            (g2.once = true ∨ g2.prio = 0 → exec i s = .next (if st = .i ∨ st = .s then { s with coh := rest ++ [.complete line p], moved := true, gathers := others }
              else { s with coh := rest ++ [.wb line p false, .complete line p], wbufs := s.wbufs ++ [(line, p)], moved := true, gathers := others })) ∧
            (g2.once = false → g2.prio ≠ 0 → p < 48 → ((s.core g2.who).l1Others line).length < 8 →
              exec i s = .next { s.updCore g2.who (·.l1Set ⟨line, 0, 0, aREL, st, g2.prio, s.tick, 15, [], []⟩) with coh := rest ++ [.complete line p], moved := true, gathers := others })) ∧
          ∀ r, g2.far = some r → whole → performs i rest r
        (∀ l q rest, takeMsg (ackTo line p) s.coh = some (.ack l q, rest) →
          gathers (.invalidationAck line p) rest { g with got := g.got + 1 }) ∧
        ∀ l q w acks e st h full rest, takeMsg (dataTo line p) s.coh = some (.data l q w acks e st h full, rest) →
          let early := h && (match takeMsg (fromHome line p) s.coh with | some (m, _) => m != .data l q w acks e st h full | none => false)
          (early = true → exec (.dataResponse line p) s = .next s) ∧
          (early = false → gathers (.dataResponse line p) rest { g with who := w, data := some st, need := acks, prio := e })) ∧
      ∀ l q rest, takeMsg (completeOf line p) s.coh = some (.complete l q, rest) → ∃ t, exec (.transactionComplete line p) s = .next t ∧
        only t ∧ t.coh = rest ∧ t.dirOf line = if (s.dirOf line).busy = some p then { s.dirOf line with busy := none } else s.dirOf line

/-- Errors, the window and the system die (R304, R367, R368, R370 to R373, R378). A corrected error of a unit joins
its eight latest and its total; eight within an hour, or an uncorrectable error, mark the unit lasting, and the latter
strikes data. An aligned write of 32 bits to a register sets that register and nothing else, and a write of another
form sets none; a 1 written to a doorbell bit clears that core's doorbell. A start that meets no failure runs, with
the measurement, SVN and minimum of the image in the store, and powers the dies; each failed check, and an error of
system-die memory before it, leaves its record, and the third in a row, or one in a reload, ends in minimal mode, in
which the dies have no power and hold nothing. A ready report ends the start in normal mode. A reload takes the image
from host memory. Power and coolant requests set the power state. What the image's signature, SVN and digest are, and
the measurement function, are functions of the bytes that no rule gives (log entries 9, 61); what else a start meets
is an input of the model. -/
def Obligations.Management : Prop :=
  ∀ (s : State),
    let m := s.mgmt
    let units := fun (c : Nat) => if c ≤ 2 then 384 else if c = 3 then 64 else if c = 4 then 56 else 0
    let quiet : Host.Outcome State Fault Refusal := .next { s with moved := true }
    let sets := fun (m : Mgmt) => (.next { s with mgmt := m, moved := true } : Host.Outcome State Fault Refusal)
    let record := fun (m : Mgmt) (reason detail unit die : Nat) => ({ m with failrec :=
      ((⟨BitVec.ofNat 64 detail, BitVec.ofNat 16 unit, BitVec.ofNat 8 die, BitVec.ofNat 8 reason, BitVec.ofNat 32 m.starts⟩ : FailRec) :: m.failrec).take 8 } : Mgmt)
    let lost := fun (t : State) => { t with mem := [], memErr := [], cores := [], tlb2 := [], dir := [], coh := [], gathers := [], wbufs := [], rdc := [], l2 := [], moved := true }
    let failed := fun (m : Mgmt) (reason detail unit die : Nat) =>
      let m2 := { record m reason detail unit die with running := false }
      (.next (if m.mode = .reloading ∨ 2 ≤ m.fails.toNat then lost { s with mgmt := { m2 with fails := 3, mode := .minimal, pstate := 3 } }
        else { s with mgmt := { m2 with fails := m.fails + 1, mode := .starting }, moved := true }) : Host.Outcome State Fault Refusal)
    (∀ u : UnitRef, let e := s.unit u.cls u.idx
      let counts := fun (e : UnitErr) => AMap.put s.errs (u.cls * 4096 + u.idx) e
      (units u.cls ≤ u.idx → exec (.correctedError u) s = .next s ∧ ∀ w, exec (.uncorrectableError u w) s = .next s) ∧
      (u.idx < units u.cls →
        exec (.correctedError u) s = .next { s with
          errs := counts { e with
            times := (s.clock.toNat :: e.times).take 8, total := min (e.total + 1) 65535
            lasting := e.lasting || e.times[6]?.any (fun t => decide (s.clock.toNat - t ≤ 3600 * 1800000000)) }
          moved := true } ∧
        let hit := { s with errs := counts { e with lasting := true, uncorr := true }, moved := true }
        exec (.uncorrectableError u .none) s = .next hit ∧
        (∀ w, ∃ t, exec (.uncorrectableError u (.mem w)) s = .next t ∧ t = { hit with memErr := t.memErr } ∧ ∀ p, p ∈ t.memErr ↔ p ∈ s.memErr ∨ p / 8 = w) ∧
        ∀ j g b, exec (.uncorrectableError u (.version j g b)) s = .next { hit with
          vers := s.vers.map (fun v => if v.job = j ∧ v.block = b ∧ g ∈ v.gens then { v with bad := true } else v) })) ∧
    (∀ off n v, exec (.registerWrite off ⟨n, v⟩) s =
      if n ≠ 4 then quiet
      else if off = 0x8 then sets { m with errsel := v.setWidth 16 }
      else if off = 0x10 then sets { m with imgaddr := hi32 m.imgaddr ++ v }
      else if off = 0x14 then sets { m with imgaddr := v ++ lo32 m.imgaddr }
      else if off = 0x18 then sets { m with imglen := v }
      else if off = 0x200 ∧ m.mode ≠ .minimal then sets { m with subjob := v.setWidth 6 }
      else if off = 0x204 ∧ m.mode ≠ .minimal then sets { m with subaddr := hi32 m.subaddr ++ v }
      else if off % 4 = 0 ∧ 0x304 ≤ off ∧ off < 0x344 ∧ m.mode = .normal then sets { m with jarg := setAt m.jarg ((off - 0x304) / 4) v }
      else quiet) ∧
    (∀ k v, (m.mode = .minimal ∨ 12 ≤ k → exec (.doorbell k v) s = quiet) ∧
      (m.mode ≠ .minimal → k < 12 → ∃ t, exec (.doorbell k v) s = .next t ∧ t = { s with cores := t.cores, moved := true } ∧
        ∀ c, t.core c = if c / 32 = k ∧ v.getLsbD (c % 32) = true then { s.core c with bell := false } else s.core c)) ∧
    (let starting := fun (i : Instr) (m : Mgmt) (b : BootIn) =>
        let m1 := { m with starts := m.starts + 1, meas := 0 }
        let m2 := { m1 with meas := Config.measure 0 b.loaderDigest }
        let svn := Config.imageSvn m.imgStore
        let m3 := { m2 with minSvn := svn, svn := svn, meas := Config.measure m2.meas (Config.imageDigest m.imgStore) }
        let runs := { m3 with running := true, pstate := if m.pstate = 3 then (if m.holdP1 = true then 1 else 0) else m.pstate }
        let memBad := fun (m : Mgmt) => failed m 8 0 0xFFFF 0xFF
        (b.sysMemBad = some 0 → exec i s = memBad m1) ∧
        (b.sysMemBad ≠ some 0 → b.loaderOk = false → exec i s = failed m1 1 0 0xFFFF 0xFF) ∧
        (b.sysMemBad ≠ some 0 → b.loaderOk = true →
          (b.sysMemBad = some 1 → exec i s = memBad m2) ∧
          (b.sysMemBad ≠ some 1 →
            (Config.imageSigned m.imgStore = false → exec i s = failed m2 2 0 0xFFFF 0xFF) ∧
            (Config.imageSigned m.imgStore = true → svn.toNat < m.minSvn.toNat → exec i s = failed m2 3 0 0xFFFF 0xFF) ∧
            (Config.imageSigned m.imgStore = true → m.minSvn.toNat ≤ svn.toNat →
              (b.sysMemBad = some 2 → exec i s = memBad m3) ∧
              (b.sysMemBad ≠ some 2 →
                (∀ ch, b.dramBad = some ch → exec i s = failed m3 4 ch (0x2000 + ch) (ch / 48)) ∧
                (∀ d, b.dramBad = none → b.powerBad = some d → exec i s = failed m3 5 0 0xFFFF d) ∧
                (b.dramBad = none → b.powerBad = none →
                  (∀ k, b.sysMemBad = some k → exec i s = memBad m3) ∧
                  (b.sysMemBad = none → (∀ e ∈ s.errs, e.2.lasting = true ∨ e.2.due = true → e.2.retired = true ∨ (e.1 / 4096 ≠ 1 ∧ e.1 / 4096 ≠ 2)) →
                    ∃ t, exec i s = .next t ∧ t = { s with errs := t.errs, cores := t.cores, rdc := t.rdc, coh := t.coh, wbufs := t.wbufs, poolMiB := t.poolMiB, mgmt := runs, moved := true } ∧
                      ((∀ e ∈ s.errs, e.2.lasting = true ∨ e.2.due = true → e.2.retired = true ∨ e.1 / 4096 ≠ 3) → t.cores = s.cores ∧ t.rdc = s.rdc ∧ t.coh = s.coh ∧ t.wbufs = s.wbufs) ∧
                      (4 ≤ b.poolGiB → b.poolGiB ≤ 96 → t.poolMiB = 1024 * b.poolGiB) ∧
                      ∀ c k, k < units c → (s.unit c k).lasting = true → (t.unit c k).retired = true))))));
      (∀ b, (m.mode ≠ .starting ∨ m.running = true → exec (.deviceStart b) s = .next s) ∧
        (m.mode = .starting → m.running = false → starting (.deviceStart b) m b)) ∧
      (∀ v image, let acts := v.getLsbD 0 = true ∧ (m.mode = .minimal ∨ (m.mode = .normal ∧ s.jobs = []))
        let src := m.imgaddr.toNat
        let len := m.imglen.toNat
        (¬ acts → exec (.reload v image) s = quiet) ∧
        (acts → image = none ∨ s.hostOk src len = false → exec (.reload v image) s = .next (lost { s with mgmt := { m with mode := .minimal, running := false, fails := 3, pstate := 3 } })) ∧
        ∀ b, acts → image = some b → s.hostOk src len = true →
          starting (.reload v image) { m with mode := .reloading, running := false, imgStore := s.host.readN src len } b)) ∧
    (m.running = true → exec .readyReport s = sets { m with running := false, fails := 0, mode := .normal } ∧
      exec .startTimeout s = failed m 6 0 0xFFFF 0xFF) ∧
    (m.running = false → exec .readyReport s = .next s ∧ exec .startTimeout s = .next s) ∧
    (∀ v : W32, let r : BitVec 2 := v.setWidth 2
      (m.mode = .minimal ∨ (r = 3 ∧ s.jobs ≠ []) → exec (.power v) s = quiet) ∧
      (m.mode ≠ .minimal → r ≠ 3 → exec (.power v) s = sets { m with preq := r, pstate := if r = 0 ∧ m.holdP1 = true then 1 else r }) ∧
      (m.mode ≠ .minimal → r = 3 → s.jobs = [] → exec (.power v) s = .next (lost { s with mgmt := { m with preq := 3, pstate := 3 } }))) ∧
    (∀ t, let held := { m with holdP1 := true, pstate := if m.pstate = 0 then 1 else m.pstate }
      (t ≤ 650 → exec (.coolantLimit t) s = .next s) ∧
      (650 < t → t ≤ 750 ∨ (m.running = false ∧ m.hot = true) → exec (.coolantLimit t) s = sets held) ∧
      (750 < t → m.running = true → exec (.coolantLimit t) s = failed held 7 t 0xFFFF 0xFF) ∧
      (750 < t → m.running = false → m.hot = false → exec (.coolantLimit t) s =
        .next ((s.placedTeams (fun _ => true)).foldl (fun u k => u.preempt k) { s with mgmt := { record held 7 t 0xFFFF 0xFF with hot := true }, moved := true })) ∧
      (750 < t → exec (.coolantBelowLimit t) s = .next s) ∧
      (650 < t → t ≤ 750 → exec (.coolantBelowLimit t) s = sets { m with hot := false }) ∧
      (t ≤ 650 → exec (.coolantBelowLimit t) s = sets { m with hot := false, holdP1 := false, pstate := if m.holdP1 = true ∧ m.pstate ≠ 3 then m.preq else m.pstate })) ∧
    ∀ cxl rate width, exec (.hostLinkNegotiation cxl rate width) s = sets { m with cxl := cxl, linkRate := min rate 7, linkWidth := min width 16 }

/-- The device status (R369). A read of `devstat` answers MODE in bits 31:30, LTFULL in bit 29, PSTATE in bits 28:27,
FAILS in bits 26:25, zeros in bits 24:16 and SVN in bits 15:0; a read of the window that is not an aligned access of
32 bits answers 0. -/
def Obligations.DeviceStatus : Prop :=
  ∀ s : State, let m := s.mgmt
    (∀ off n, n ≠ 4 ∨ off % 4 ≠ 0 → s.windowRead off n = 0) ∧
    s.windowRead 0 4 = (BitVec.ofNat 2 (match m.mode with | .starting => 0 | .normal => 1 | .minimal => 2 | .reloading => 3) : BitVec 2) ++
      BitVec.ofBool m.ltfull ++ m.pstate ++ m.fails ++ 0#9 ++ m.svn

/-- Jobs from the host (R374 to R376). A write of a command to `jcmd` in normal mode, while none runs, makes it the
running one with the arguments of that moment, and a DESTROY cancels the job's launches; any other write is ignored. A
command finishes in normal mode with its status and results: an unknown one with 6, one for a job that is (CREATE) or
is not resident with 1; SETW sets the next weight; COUNT gives a counter; COPYIN and COPYOUT check every byte of the
job first and then copy; COPYIN waits for stalled pages and for room of copies that it needs, and a host error that
COPYOUT meets leaves what it has written. A write to `subaddrh` answers 9 for a job not resident, else the card's
status or 10, and posts a good card; behind submissions that wait for stalled pages, or where its own card's page
stalls, it waits. Which of several statuses a command ends with is the reading of log entry 27. -/
def Obligations.JobCommands : Prop :=
  ∀ (s : State),
    let m := s.mgmt
    let quiet : Host.Outcome State Fault Refusal := .next { s with moved := true }
    (∀ w : W32, let code := w.toNat % 256
      let begun := { s with mgmt := { m with busy := true, jcmd := some (w, m.jarg) }, moved := true }
      let acts := m.mode = .normal ∧ m.busy = false
      (∀ i ∈ [Instr.create w, .map w, .unmap w, .copyin w, .copyout w, .setw w, .count w].zipIdx 1, code = i.2 →
        (acts → exec i.1 s = .next begun) ∧ (¬ acts → exec i.1 s = quiet)) ∧
      (code = 8 → (acts → exec (.destroy w) s = .next (begun.cancelObj (w.toNat / 256 % 64) 0xC0000000)) ∧ (¬ acts → exec (.destroy w) s = quiet)) ∧
      (code = 0 ∨ 8 < code → (acts → exec (.unknownJobCommand w) s = .next begun) ∧ (¬ acts → exec (.unknownJobCommand w) s = quiet))) ∧
    (m.jcmd = none ∨ m.mode ≠ .normal → exec .jobCommandFinish s = .next s) ∧
    (∀ w arg, m.jcmd = some (w, arg) → m.mode = .normal →
      let code := w.toNat % 256
      let j := w.toNat / 256 % 64
      let word := fun (i : Nat) => arg.getD i 0
      let two := fun (i : Nat) => (word (i + 1) ++ word i : W64)
      let done := fun (t : State) (st : Nat) (l : List W32) => exec .jobCommandFinish s =
        .next { t with mgmt := { t.mgmt with busy := false, jcmd := none, jstat := BitVec.ofNat 8 st, jarg := l }, moved := true }
      let ends := fun (st : Nat) => done s st m.jarg
      (code = 0 ∨ 8 < code → ends 6) ∧
      (AMap.find s.jobs j = none → 1 < code → code < 9 → ends 1) ∧
      (AMap.find s.jobs j ≠ none →
        (code = 1 → ends 1) ∧
        (code = 6 → let v := (word 0).toNat % 256
          (v = 0 → ends 3) ∧ (0 < v → done (s.updJob j (fun b => { b with nextWeight := v })) 0 m.jarg)) ∧
        (code = 7 → (badCounter (word 0) = true → ends 3) ∧
          (badCounter (word 0) = false → let r := s.counter j (word 0)
            done s 0 (setAt (setAt (setAt m.jarg 1 (BitVec.ofNat 32 r.1)) 2 (BitVec.ofNat 32 (r.1 / 2 ^ 32))) 3 (BitVec.ofNat 32 r.2)))) ∧
        (code = 4 → let n := (word 4).toNat
          let src := (two 0).toNat
          let at_ := fun (k : Nat) => s.translate j (two 2 + BitVec.ofNat 64 k)
          let bad := fun (k : Nat) => (∃ r, at_ k = .fail r) ∨ (∃ d, at_ k = .remote d) ∨
            ∃ x, at_ k = .ok x ∧ (x.gv = true ∨ x.wr = false ∨ (x.attr = aPHASE ∧ s.jobRuns j = true))
          (s.hostOk src n = false → ends 2) ∧
          (s.hostOk src n = true → (∃ k < n, bad k) → ends 5) ∧
          let room := s.cowRoom ((List.range n).map (fun k => (j, (two 2 + BitVec.ofNat 64 k).toNat % 2 ^ 57)))
          (s.hostOk src n = true → (∀ k < n, ¬ bad k) → (∃ k < n, at_ k = .stall) ∨ room = false → exec .jobCommandFinish s = .next s) ∧
          (s.hostOk src n = true → (∀ k < n, ¬ bad k ∧ ∃ x, at_ k = .ok x) → room = true →
            done (s.homeWrite j (two 2) (s.host.readN src n)) 0 m.jarg ∧
            ∀ (b : Job) (pa : Nat → Nat), AMap.find s.jobs j = some b → b.gens = [] → b.experts = [] → s.coh = [] →
              (∀ k < n, ∃ x, at_ k = .ok x ∧ x.pa = pa k ∧ ∀ i < k, pa i ≠ pa k) →
              let t := s.homeWrite j (two 2) (s.host.readN src n)
              (∀ k < n, t.mem.read (pa k) = s.host.read (src + k)) ∧ ∀ q, (∀ k < n, pa k ≠ q) → t.mem.read q = s.mem.read q)) ∧
        (code = 5 → let n := (word 4).toNat
          let dst := (two 2).toNat
          let at_ := fun (k : Nat) => s.translate j (two 0 + BitVec.ofNat 64 k)
          let bad := fun (k : Nat) => (∃ r, at_ k = .fail r) ∨ (∃ d, at_ k = .remote d) ∨ ∃ x, at_ k = .ok x ∧ x.rd = false
          ((∃ k < n, bad k) → ends 5) ∧
          ((∀ k < n, ¬ bad k) → (∃ k < n, at_ k = .stall) → exec .jobCommandFinish s = .next s) ∧
          (∀ pa : Nat → Nat, (∀ k < n, ∃ x, at_ k = .ok x ∧ x.rd = true ∧ x.gv = false ∧ x.pa = pa k ∧ x.pa ∉ s.memErr) →
            let copied := fun (n : Nat) => { s with host := s.host.writeN dst ((List.range n).map (fun k => s.mem.read (pa k))) }
            (s.hostOk dst n = true → done (copied n) 0 m.jarg) ∧
            (s.hostOk dst n = false → ∃ r < n, (∀ k < r, s.hostOk (dst + k) 1 = true) ∧ s.hostOk (dst + r) 1 = false ∧ done (copied r) 2 m.jarg))))) ∧
    ∀ hi : W32,
      let a : W64 := hi ++ lo32 m.subaddr
      let j := m.subjob.toNat
      let took := { s with mgmt := { m with subaddr := a }, moved := true }
      let answer := fun (t : State) (v : Nat) => exec (.submit hi) s = .next { t with mgmt := { t.mgmt with substat := BitVec.ofNat 32 v } }
      (m.mode = .minimal → exec (.submit hi) s = quiet) ∧
      let waits := exec (.submit hi) s = .next { took with mgmt := { took.mgmt with subWait := m.subWait ++ [(j, a)] } }
      (m.mode ≠ .minimal → m.subWait ≠ [] → waits) ∧
      (m.mode ≠ .minimal → m.subWait = [] → (AMap.find s.jobs j = none → answer took 9) ∧
        (AMap.find s.jobs j ≠ none → a.toNat % 128 = 0 → (∃ k < 128, s.translate j (a + BitVec.ofNat 64 k) = .stall) →
          (∀ k < 128, s.translate j (a + BitVec.ofNat 64 k) = .stall ∨ ∃ x, s.translate j (a + BitVec.ofNat 64 k) = .ok x ∧ x.rd = true) → waits) ∧
        ∀ pa ra : Nat → Nat, AMap.find s.jobs j ≠ none → a.toNat % 128 = 0 →
          let bs := (List.range 128).map (fun k => s.mem.read (pa k))
          let rt := BitVec.ofNat 64 (rtabOf bs)
          let n := if readsTable bs then rcountOf bs else 0
          let reads := fun (b : W64) (f : Nat → Nat) (n : Nat) => ∀ k < n, ∃ x, s.translate j (b + BitVec.ofNat 64 k) = .ok x ∧ x.rd = true ∧ x.gv = false ∧ x.pa = f k ∧ x.pa ∉ s.memErr
          reads a pa 128 → reads rt ra (16 * n) →
            let tb := (List.range (16 * n)).map (fun k => s.mem.read (ra k))
            let tab := (List.range n).map (fun k => rawRng (tb.drop (16 * k)))
            let st := took.cardStatus j bs tab (some .device)
            (st ≠ 0 → answer took st) ∧ (st = 0 → took.queueFull .device = true → answer took 10) ∧
            (st = 0 → took.queueFull .device = false → answer (took.acceptCard j .device (cardIn bs tab)).2 0))

/-- Creating, mapping, unmapping and ending jobs (R376, R377, R380). A CREATE whose descriptor is well formed makes
the job with a new table, its mappings, routing table, weight, threshold, snapshot permission and monitor entry on
every core. MAP takes the records all or none; a page of this device takes free frames filled from the host or with
zeros, a range of another device joins the global map. UNMAP takes away every page of its range and frees the frames.
DESTROY waits for the launches, and then nothing of the job is left, no copy of its PHASE or PRIV bytes among it.
Which of several statuses a command ends with is the reading of log entry 27, the status of a refused UNMAP that of
log entry 35. -/
def Obligations.JobMemory : Prop :=
  ∀ (s : State) (w : W32) (arg : List W32), s.mgmt.jcmd = some (w, arg) → s.mgmt.mode = .normal →
    let code := w.toNat % 256
    let j := w.toNat / 256 % 64
    let word := fun (i : Nat) => arg.getD i 0
    let base := (word 1 ++ word 0 : W64).toNat
    let done := fun (t : State) (st : Nat) => exec .jobCommandFinish s =
      .next { t with mgmt := { t.mgmt with busy := false, jcmd := none, jstat := BitVec.ofNat 8 st }, moved := true }
    let ends := fun (st : Nat) => done s st
    (code = 1 → AMap.find s.jobs j = none →
      let d := s.host.readN base 64
      let q := fun (k : Nat) => leNat ((d.drop (8 * k)).take 8)
      let mapn := q 2 % 2 ^ 16
      let rtn := q 4 % 2 ^ 13
      let weight := q 2 / 2 ^ 16 % 2 ^ 8
      let good := q 0 ≠ 0 ∧ q 0 % 8 = 0 ∧ q 1 % 32 = 0 ∧ weight ≠ 0 ∧ q 3 % 32 = 0 ∧ rtn ≤ 4096 ∧ q 2 / 2 ^ 25 % 2 ^ 39 = 0 ∧ q 4 / 2 ^ 13 % 2 ^ 19 = 0 ∧ ∀ b ∈ d.drop 40, b = 0
      (base % 64 ≠ 0 → ends 3) ∧ (base % 64 = 0 → s.hostOk base 64 = false → ends 2) ∧
      (base % 64 = 0 → s.hostOk base 64 = true → (¬ good → ends 3) ∧
        (good → s.hostOk (q 1) (32 * mapn) = false ∨ s.hostOk (q 3) (32 * rtn) = false → ends 2) ∧
        (good → s.hostOk (q 1) (32 * mapn) = true → s.hostOk (q 3) (32 * rtn) = true →
          let ms := recs mapRec (s.host.readN (q 1) (32 * mapn)) mapn
          let rs := recs routeRec (s.host.readN (q 3) (32 * rtn)) rtn
          (s.frame 1 = none → ends 4) ∧
          ∀ g, s.frame 1 = some g →
            let b : Job := {
              weight := weight, nextWeight := weight, snapperm := (q 2 / 2 ^ 24 % 2 == 1), thresh := (if q 4 / 2 ^ 32 % 2 ^ 32 = 0 then 65536 else q 4 / 2 ^ 32 % 2 ^ 32), active := true,
              phase := 0, lastLaunch := 0, graphs := [], phases := [], ctr := 0, cancGraphs := [], cancPhases := [], canc := false,
              lastGen := 0, gens := [], sets := [], nextSet := 1, experts := [], rver := 1, kept := [], gmap := [], viewMap := [],
              root := g * 65536, ending := [], merge := false, mark := 0
            }
            let t0 := { (s.takeFrames g 1).wipe (g * 65536) 65536 with jobs := AMap.put s.jobs j b }
            ∀ st t1, t0.mapAll j ms = (st, t1) → (st ≠ 0 → ends st) ∧
              (st = 0 → ∀ b1, AMap.find t1.jobs j = some b1 →
                let n := (t1.leaves j).length + b1.gmap.length + 1
                let fine := (∀ r ∈ rs, r.ok = true ∧ t1.weightsMapped j r.base r.wlen n = true) ∧ (rs.map (·.expert)).Nodup
                (¬ fine → ends 3) ∧
                (fine → ∃ t b2, done t 0 ∧ t = { t1 with jobs := t.jobs, cores := t.cores } ∧
                  AMap.find t.jobs j = some b2 ∧ b2 = { b with gmap := b2.gmap, experts := b2.experts } ∧ b2.gmap = b1.gmap ∧
                  (∀ r ∈ rs, AMap.find b2.experts r.expert = some ⟨[⟨r.dev, r.core, BitVec.ofNat 64 r.base⟩], r.wlen, 0, none⟩) ∧
                  (∀ e, (∀ r ∈ rs, r.expert ≠ e) → AMap.find b2.experts e = none) ∧
                  ∀ c < 384, AMap.find (t.core c).mvec j = some (BitVec.ofNat 64 (q 0))))))) ∧
    (code = 2 → AMap.find s.jobs j ≠ none →
      let n := (word 2).toNat
      let rs := recs mapRec (s.host.readN base (32 * n)) n
      let dev := s.devId.toNat
      let good := (∀ r ∈ rs, r.ok dev = true ∧ s.vaFree j r.vbase (r.vbase + r.len) = true) ∧ rs.Pairwise (fun a b => a.vbase + a.len ≤ b.vbase ∨ b.vbase + b.len ≤ a.vbase)
      (base % 32 ≠ 0 ∨ 65535 < n → ends 3) ∧
      (base % 32 = 0 → n ≤ 65535 → (s.hostOk base (32 * n) = false → ends 2) ∧
        (s.hostOk base (32 * n) = true → (¬ good → ends 3) ∧
          (good → (∃ r ∈ rs, r.owner = dev ∧ r.init ≠ 0 ∧ s.hostOk r.init r.len = false) → ends 2) ∧
          (good → (∀ r ∈ rs, r.owner = dev → r.init ≠ 0 → s.hostOk r.init r.len = true) →
            let all := rs.foldl (fun (t : Option State) r => t.bind (fun t => t.mapOne j r)) (some s)
            (all = none → ends 4) ∧ ∀ t, all = some t → t.mgmt = s.mgmt → done t 0)))) ∧
    (∀ (r : MapRec) (b : Job), AMap.find s.jobs j = some b → r.owner ≠ s.devId.toNat → ∃ t b2, s.mapOne j r = some t ∧ t = { s with jobs := t.jobs } ∧
      AMap.find t.jobs j = some b2 ∧ b2 = { b with gmap := b2.gmap } ∧
      ∀ k, AMap.find b2.gmap k = if r.vbase / 2 ^ 30 ≤ k ∧ k < r.vbase / 2 ^ 30 + r.len / 2 ^ 30 then some r.owner else AMap.find b.gmap k) ∧
    (∀ (r : MapRec) (va : Nat) t, s.mapPage j r va = some t → s.host.wf = true →
      let n := leafBytes r.size
      ∃ g, s.frame (n / 65536) = some g ∧ (∀ k, g ≤ k → k < g + n / 65536 → AMap.find t.fat k = some r.attr) ∧
        (∀ k < n, t.mem.read (g * 65536 + k) = if r.init = 0 then 0 else s.host.read (r.init + (va - r.vbase) + k)) ∧
        ∀ q, ¬ (g * 65536 ≤ q ∧ q < g * 65536 + n) → t.mem.read q = s.mem.read q) ∧
    (code = 3 → AMap.find s.jobs j ≠ none →
      let n := (word 2).toNat
      let hi := base + n * 65536
      let ls := s.leavesIn j base hi
      let size := fun (l : Nat × Nat × W64) => leafBytes (pteSize l.2.2)
      (base % 65536 ≠ 0 ∨ n = 0 ∨ 2 ^ 24 ≤ n ∨ 2 ^ 57 < hi → ends 3) ∧
      (base % 65536 = 0 → 0 < n → n < 2 ^ 24 → hi ≤ 2 ^ 57 →
        ((∃ l ∈ ls, l.1 < base ∨ hi < l.1 + size l ∨ l.2.2.getLsbD 63 = true) → ends 3) ∧
        ((∀ l ∈ ls, base ≤ l.1 ∧ l.1 + size l ≤ hi ∧ l.2.2.getLsbD 63 = false ∧ ∀ x ∈ s.stalled, ¬ (x.1 = j ∧ x.2.1 = l.1)) →
          ∀ t, ls.foldl (fun (t : Option State) l => t.bind (fun t => t.dropPage j l true)) (some s) = some t → t.mgmt = s.mgmt → done t 0))) ∧
    (∀ (l : Nat × Nat × W64) u, let n := leafBytes (pteSize l.2.2)
      let a := pteFrame l.2.2
      l.2.2.getLsbD 3 = false → s.cleanRange a (a + n) = some u → (∀ b, AMap.find u.jobs j = some b → b.gens = []) → ∃ t, s.dropPage j l true = some t ∧ t.pte l.2.1 = 0 ∧
        (∀ q, t.mem.read q = if a ≤ q ∧ q < a + n then 0 else u.mem.read q) ∧
        ∀ k, k ∈ t.used ↔ k ∈ u.used ∧ ¬ (a / 65536 ≤ k ∧ k < a / 65536 + n / 65536)) ∧
    (code = 8 → ∀ b, AMap.find s.jobs j = some b →
      ((∃ e ∈ s.launchesOf j, e.2.st ≠ .done) → exec .jobCommandFinish s = .next s) ∧
      ∀ t, (∀ e ∈ s.launchesOf j, e.2.st = .done) → s.freeJob j b = some t → done ((s.retried t).boundary (s.diesOf j)) 0 ∧
        AMap.find t.jobs j = none ∧ (∀ e ∈ t.launches, e.1 / 2 ^ 24 ≠ j) ∧ (∀ e ∈ t.items, jobOf e.1 ≠ j) ∧ (∀ e ∈ t.spans, jobOfLaunch e.2.launch ≠ j) ∧
        (∀ e ∈ t.ops, jobOfLaunch e.2.launch ≠ j) ∧ ∀ e ∈ t.cores, AMap.find e.2.mvec j = none ∧ ∀ x ∈ e.2.l1, x.job = j → x.code ≠ aPHASE ∧ x.code ≠ aPRIV)

/-- Where further words and events complete, each named. An exchange (R184 to R192) that an item joins alone, every
other position of its mask being free of live items: the item goes on past the word with its result and no wait. A
load or atomic (R45, R113) whose data have come. MMA, MMAC, AZERO, ASCAC and ADRS (R204 to R219), once oldest on their
tiles: the operation is over, the tile has its new elements in the rows of the positions, or the scratchpad the
drained bytes. A running change of a set's number of shards (R263, R268). The home's answer to each kind of request,
and the arrival of acknowledgements and data (R297 to R299). The commands of the debug unit (R235, R236) for a launch
on the core, and the latching of the job commands (R375). -/
def Obligations.DirectCompletions : Prop :=
  (∀ (s : State) (ik : Nat) (it : Item) (g : Group) (f : VF) (a b m : W64) (r : RegRef), Solo s ik it g → it.pc = s.cur.pc →
    guardHolds f.g it = true → it.wait? = none → (∀ e ∈ g.exch, e.pc ≠ s.cur.pc) → Reads s ik it g f.c 1 f.wc m →
    m.getLsbD (posOf ik) = true → (∀ q < 16, q ≠ posOf ik → m.getLsbD q = true → s.liveAt (groupOf ik) q = false) →
    let p := posOf ik
    let ended := fun (n v : Nat) (t : State) => ∃ it2 g2, t.item? ik = some it2 ∧ AMap.find t.groups (groupOf ik) = some g2 ∧
      (∀ e ∈ it2.waits, e.1 ≠ it.spot) ∧ (s.wrote ik r n v fNone 8).item? ik = some { it2 with waits := it.waits } ∧
      AMap.find (s.wrote ik r n v fNone 8).groups (groupOf ik) = some { g2 with passes := g.passes }
    (∀ sm, Reads s ik it g f.a 1 f.wa a → Reads s ik it g f.b (if sm = .bcast then 0 else 1) f.wb b → Writes s ik it g f.d 1 r →
      ∃ t, exec (.shfl f sm) s = .next t ∧ ended 1 (a.toNat % 2 ^ 32) t) ∧
    (∀ vm k, Writes s ik it g f.d 1 r → ∃ t, exec (.vote f vm k) s = .next t ∧ ended 1 (match vm with
      | .mask => (if it.pred k then 2 ^ p else 0) + 2 ^ 16 * 2 ^ p | .cnt => if it.pred k then 1 else 0 | .rank => 0) t) ∧
    (Writes s ik it g f.d 1 r → ∃ t, exec (.elect f) s = .next t ∧ ended 1 (p + 2 ^ 31) t) ∧
    (∀ w, Reads s ik it g f.a (wideRegs w) f.wa a → Writes s ik it g f.d 1 r → ∃ t, exec (.matchg f w) s = .next t ∧ ended 1 (p + 16) t) ∧
    (∀ ty, Reads s ik it g f.a (ITy.regs ty) f.wa a → Writes s ik it g f.d (ITy.regs ty) r →
      ∃ t u, exec (.redg f (.add ty)) s = .next t ∧ exec (.scang f (.add ty)) s = .next u ∧
        ended (ITy.regs ty) (a.toNat % 2 ^ ITy.width ty) t ∧ ended (ITy.regs ty) (a.toNat % 2 ^ ITy.width ty) u) ∧
    (∀ op, Reads s ik it g f.a (RedOp.regs op) f.wa a → Writes s ik it g f.d (RedOp.regs op) r →
      ∃ t u, exec (.redg f op) s = .next t ∧ exec (.scang f op) s = .next u ∧ ∃ it2 it3, t.item? ik = some it2 ∧ u.item? ik = some it3 ∧
        it2.pc = it.pc + 8 ∧ it3.pc = it.pc + 8)) ∧
  (∀ (s : State) (n : Nat) (o : Op) (l : LoadOp) (ik : Nat), AMap.find s.ops n = some o → s.landsAt o l.dst.reg = [ik] →
    s.landsIn o l.dst.reg = [] → (∀ e ∈ s.ops, e.1 ≠ n → sameG o e.2 = false) → l.pend = false →
    (∀ line, l.want = some line → s.asking line (partyOf o.core line) false = false) → l.fail = none →
    let t := { s.setRegs ik l.dst.reg l.parts with ops := AMap.del s.ops n, moved := true }
    (o.kind = .load l → exec (.loadCompletion n) s = .next t) ∧ (o.kind = .atomic l → exec (.atomicCompletion n) s = .next t)) ∧
  (∀ (s : State) (n : Nat) (o : Op) (m : MtxOp) (tm : Team), AMap.find s.ops n = some o → o.kind = .mtx m → s.oldestOn n o m = true →
    AMap.find s.teams (s.opTeam o) = some tm → tm.unpublished = [] →
    let isOver := fun (t : State) (k : Nat) (old : Tile) (Q : Tile → Prop) => AMap.find t.ops n = none ∧
      ∃ tm2 tl, AMap.find t.teams (s.opTeam o) = some tm2 ∧ tm2.tile k = some tl ∧ tl.rows = old.rows ∧ tl.cols = old.cols ∧ Q tl
    let kept := fun (old tl : Tile) (pos : BitVec 16) => ∀ q i j, q < 8 → i < 48 → j < 640 →
      ¬ (i < old.rows ∧ pos.getLsbD (i % 16) = true ∧ j < old.cols) → tl.get q i j = old.get q i j
    (∀ c p a b0 sc nb cbs old, m = .mma c p a b0 sc nb cbs → tm.tile c.tile.toNat = some old → old.rows ≤ 48 → old.cols ≤ 640 →
      ∃ t, exec (.mmaCompletion n) s = .next t ∧ isOver t c.tile.toNat old (kept old · p)) ∧
    (∀ c p a sc b cbs old y, m = .mmac c p a sc b cbs → tm.tile c.tile.toNat = some old → old.rows ≤ 48 → old.cols ≤ 640 →
      AMap.find s.bops b = some y → ∃ t, exec (.mmacCompletion n) s = .next t ∧ isOver t c.tile.toNat old (kept old · p)) ∧
    (∀ k p old, m = .azero k p → tm.tile k = some old → ∃ t, exec (.azeroCompletion n) s = .next t ∧ isOver t k old (fun tl =>
      ∀ q i j, q < 8 → i < 48 → j < 640 → tl.get q i j = if i < old.rows ∧ p.getLsbD (i % 16) = true then 0 else old.get q i j)) ∧
    (∀ c pt p sc old tp, m = .ascac c pt p sc → tm.tile c = some old → tm.tile pt = some tp → old.rows ≤ 48 → old.cols ≤ 640 →
      ∃ t, exec (.ascacCompletion n) s = .next t ∧ isOver t c old (kept old · p)) ∧
    ∀ c l old, m = .adrs c [l] → tm.tile c.tile.toNat = some old → drainBad s (s.opTeam o) c old l = false → s.teamOf l.item = s.opTeam o →
      ∃ t tm2, exec (.adrsCompletion n) s = .next t ∧ AMap.find t.ops n = none ∧ AMap.find t.teams (s.opTeam o) = some tm2 ∧
        tm2.scratch = tm.scratch.writeN l.ofs ((((List.range (2 ^ c.count.toNat)).map (fun e => drainElem c tm.store l.par (l.col + e)
          (old.get c.plane.toNat l.row (l.col + e)))).map (fun v => leBytes v.toNat (DKind.size c.kind))).flatten)) ∧
  (∀ (s : State) (j idx k b : Nat) (d : SetD) (c : Conv), s.setAt? j idx = some d → d.conv = some c → c.st = .running → c.goal = .shards b → b ≤ 8 →
    ∃ t d2, exec (.conversionSwitch j idx k) s = .next t ∧ t.setAt? j idx = some d2 ∧ d2.shards.length = 2 ^ b ∧
      ∀ key < 2 ^ 32, key ∈ d2.keys ↔ key ∈ d.keys) ∧
  (∀ (s : State) (line : Nat) (msg : CohMsg) (rest : List CohMsg), takeMsg (atHome line) s.coh = some (msg, rest) → (s.dirOf line).busy = none →
    (∀ l p w e, msg = .gets l p w e → s.l2Ready line e = true → (s.dirOf line).st = .i →
      ∃ t, exec (.homeGets line) s = .next t ∧ t.dirOf line = ⟨.e, some p, [], some p⟩ ∧ CohMsg.data line p w 0 e .e true true ∈ t.coh) ∧
    (∀ l p w e, msg = .getm l p w e → s.l2Ready line e = true →
      ∃ t, exec (.homeGetm line) s = .next t ∧ t.dirOf line = ⟨.m, some p, [], some p⟩ ∧
        ∀ q ∈ (s.dirOf line).sharers, q ≠ p → CohMsg.inv line q p ∈ t.coh) ∧
    (∀ l r, msg = .far l r → s.l2Ready line r.prio = true → (s.dirOf line).owner = none → (s.dirOf line).sharers = [] →
      ∃ t, exec (.homeFarAtomic line) s = .next t ∧ CohMsg.complete line (partyOf r.core line) ∈ t.coh ∧
        ((∀ i < r.bytes, r.pa + i ∉ s.memErr) → t.mem = s.mem.writeN r.pa
          (leBytes (atomNew r.aop r.bytes r.signed (leNat (s.mem.readN r.pa r.bytes)) r.v r.e) r.bytes))) ∧
    ∀ l p stale, msg = .wb l p stale → ∃ t, exec (.homeWriteback line) s = .next t ∧ CohMsg.wbAck line p ∈ t.coh ∧
      ((s.dirOf line).owner = some p → stale = false → (s.dirOf line).sharers = [] → t.dirOf line = ⟨.i, none, [], none⟩)) ∧
  (∀ (s : State) (line p l q : Nat) (rest : List CohMsg), (∀ g ∈ s.gathers, g.line = line → g.party ≠ p) →
    (takeMsg (ackTo line p) s.coh = some (.ack l q, rest) →
      exec (.invalidationAck line p) s = .next { s with
        coh := rest, moved := true, gathers := s.gathers ++ [⟨line, p, 0, none, 0, 1, false, 0, none⟩] }) ∧
    ∀ w acks e st full, 0 < acks → takeMsg (dataTo line p) s.coh = some (.data l q w acks e st false full, rest) →
      exec (.dataResponse line p) s = .next { s with
        coh := rest, moved := true, gathers := s.gathers ++ [⟨line, p, w, some st, acks, 0, false, e, none⟩] }) ∧
  (∀ (s : State) (c lk : Nat), s.dbgLaunch c = some lk →
    let u := s.updCore c (fun k => { k with found := true })
    let one := u.dbgGroups c lk (s.core c).dgrp.toNat false
    let team := u.dbgGroups c lk (s.core c).dgrp.toNat true
    exec (.dcmdHaltGroup c) s = .next { one.foldl (fun t g => t.askHalt c g) u with moved := true } ∧
    exec (.dcmdHaltTeam c) s = .next { team.foldl (fun t g => t.askHalt c g) u with moved := true } ∧
    exec (.dcmdResumeGroup c) s = .next { one.foldl State.resumeGroup u with moved := true } ∧
    exec (.dcmdResumeTeam c) s = .next { team.foldl State.resumeGroup u with moved := true } ∧
    exec (.dcmdStep c) s = .next { one.foldl State.stepGroup u with moved := true } ∧
    exec (.dcmdNoOp c) s = .next { u with moved := true }) ∧
  ∀ (s : State) (w : W32), s.mgmt.mode = .normal → s.mgmt.busy = false →
    let code := w.toNat % 256
    let t := { s with mgmt := { s.mgmt with busy := true, jcmd := some (w, s.mgmt.jarg) }, moved := true }
    (code = 1 → exec (.create w) s = .next t) ∧ (code = 2 → exec (.map w) s = .next t) ∧ (code = 3 → exec (.unmap w) s = .next t) ∧
    (code = 4 → exec (.copyin w) s = .next t) ∧ (code = 5 → exec (.copyout w) s = .next t) ∧ (code = 6 → exec (.setw w) s = .next t) ∧
    (code = 7 → exec (.count w) s = .next t)

/-- Decoding what the encoder writes (R22 to R38): for every instruction of the table, in every form that is legal at
some quota and address, the words that `encode` writes decode to the instruction itself, so that no field of an
encoding is dropped. -/
def Obligations.EncodeThenDecode : Prop :=
  ∀ (i : Instr) (q : Nat) (pc w : W64) (ws : List W64), wf q pc i = true → encode i = w :: ws → decode w (ws.headD 0) = .ok i

/-- Words that the spec writes out (R177, R192, R220, R290, R341, R388): each decodes to the instruction it stands
for, and its illegal words have no legal reading. -/
def Obligations.SpecWordsDecode : Prop :=
  let g : Guard := ⟨0, false⟩
  let e := fun (r a b c : Fld) => (⟨g, r, a, b, c⟩ : EF)
  let v := fun (d : Dst) (a b c : Src) => (⟨g, d, a, b, c, false, false, false⟩ : VF)
  let reads := fun (w : W64) (i : Instr) => decode w 0 = .ok i ∧ wf 32 0 i = true
  reads 0x2C30_181C_0602_0C0C (.lea (v (.v 24) (.v 28) (.v 6) (.v 0)) 2) ∧
  reads 0x3030_0915_0B09_0000 (.ffma (v (.v 9) (.v 21) (.v 11) (.v 9)) .rne) ∧
  reads 0x6005_0000_0000_0005 (.bra ⟨2, true⟩ 5) ∧
  reads 0x8000_111C_0010_4010 (.ld ⟨g, .v 17, .v 28, 1, .plain, .item, 4, false, false, .b32, false⟩) ∧
  reads 0x9400_0804_0209_0011 (.cpy (e 8 4 2 9) true false 4) ∧
  reads 0xA020_0000_0400_8002 (.barWait (e 0 0 4 0) (some 2)) ∧
  reads 0xA400_0504_06FF_0C04 (.shfl (v (.v 5) (.v 4) (.v 6) (.imm 255)) .pick) ∧
  reads 0xB400_0002_0300_8A01 (.mma (e 0 2 3 0) ⟨true, true, false, .int8, 1⟩) ∧
  reads 0xC400_0804_0600_0000 (.sins (e 8 4 6 0)) ∧
  reads 0xCC00_0304_0506_0006 (.sortk (e 3 4 5 6) ⟨false, false, true, .f32⟩) ∧
  reads 0xD420_0600_080C_0001 (.gviewUnmap (e 6 0 8 12)) ∧
  reads 0xD840_0804_0500_0000 (.route (e 8 4 5 0)) ∧
  ∀ w ∈ ([0xA030_0100_0000_8000, 0xA030_0000_0000_8400, 0xA400_0504_06FF_0C00, 0xA860_0908_00FF_0C05, 0xCC00_0304_0506_0003, 0xCC00_0304_0506_0004,
      0xCC30_0704_0506_0019, 0xC800_0C05_060A_0000, 0xC450_0804_0600_0009, 0xD400_0804_0000_0000, 0xD420_0604_080C_0003, 0xD410_0B04_0000_0000,
      0xD810_090C_1014_0053, 0xD840_0904_0500_0000, 0xD830_0703_0C09_0012, 0xD850_0000_0000_0000, 0x3020_1615_FF00_3004, 0x8406_0F19_0000_4010] : List W64),
    legalWord 32 0 w 0 = none

/-- A step runs the instruction at the program counter (R22, R38, R39, R224). Where a bundle is chosen to issue, none
of whose groups is to halt, to step or to leave and none of whose items meets a trap or a breakpoint, and the fetched
word decodes to a legal instruction, the step is that instruction's meaning in the state in which the issue is under
way; where it makes progress, its bundle divides by where its items have come, the unit has waited no longer and after
a YIELD is passed over once, and the clock counts on; where it makes none, only the clock does. An event that is
chosen runs its own row. That one step runs one row, chosen by the agenda, is the choice of log entry 1. -/
def Obligations.StepRunsDecoded : Prop :=
  ∀ (s : State),
    let passed := fun (t : State) => { t with
      cur := Cur.none, moved := false, trapped := [], tick := t.tick + 1, clock := t.clock + BitVec.ofNat 64 (Config.cycles t.tick) }
    let ends := fun (o : Host.Outcome State Fault Refusal) (f : State → State) => match o with
      | .next t => .next (passed (f t))
      | .fault x => .fault x
      | .refused x => .refused x
    (∀ i l, s.agenda = .event i :: l → step s = ends (exec i { s with agenda := l, cur := Cur.none, moved := false, trapped := [] }) id) ∧
    ∀ u l c w w2 i, s.agenda = .issue u :: l →
      let r := { s with agenda := l, cur := Cur.none, moved := false, trapped := [] }
      let b := { r with cur := c, mgmt := if s.mgmt.pstate = 2 then { s.mgmt with pstate := if s.mgmt.holdP1 then 1 else 0 } else s.mgmt }
      let j := jobOfLaunch (launchOf (c.items.headD 0))
      r.pick u = some c → c.span = none →
      (∀ ik ∈ c.items, (s.groupD (groupOf ik)).haltReq = false ∧ (s.groupD (groupOf ik)).stepping = false ∧ b.trapDue ik = false ∧ b.breakAt ik = none) →
      b.leaving = none → b.fetch j c.pc = .word w w2 → decode w w2 = .ok i → wf (b.quotaOf (launchOf (c.items.headD 0))) c.pc i = true →
      step s = ends (exec i b) (fun t => if t.moved = true then
        State.unraise (State.splitBundle (if ofWord i = true then t.noteFetch c.core j c.pc else t) c) c (match i with | .yield _ => true | _ => false) else r)

/-- After reset (R152, R226, R369): WINDOW is 16 and `dlaunch` all ones on every core, nothing is mapped, queued,
running or recorded, the device is starting; and the memories are in canonical form. That no failure is counted or
recorded (log entry 3) and what memory reads as (log entry 2) are the choices of the model. -/
def Obligations.ResetState : Prop :=
  State.reset.Inv ∧ State.reset.items = [] ∧ State.reset.jobs = [] ∧ State.reset.launches = [] ∧ State.reset.ops = [] ∧ State.reset.ptes = [] ∧
  (∀ c, (State.reset.core c).window = 16 ∧ (State.reset.core c).dlaunch = 0xFFFFFFFF ∧ (State.reset.core c).events = [] ∧ (State.reset.core c).bell = false) ∧
  State.reset.mgmt.mode = .starting ∧ State.reset.mgmt.running = false ∧ State.reset.mgmt.fails = 0 ∧ State.reset.mgmt.failrec = []

/-- Every step keeps the canonical form (R145, R327, R340, R376): in whatever state the device memory, the lower tier
and the host memory list their bytes in ascending order without a byte that an unlisted address reads as, they do so
after the step. -/
def Obligations.MemoryStaysCanonical : Prop :=
  ∀ s t : State, s.Inv → step s = .next t → t.Inv
end

