-- ==== Sys2Proof/Laws/Encode.lean ====
section
/-! SUPPORT. The fields the decoder reads from a word the encoder wrote, format by format (R22 to R35). -/

namespace Sys2Proof

set_option linter.unusedSimpArgs false

/-! ## Slices of concatenations -/

theorem ex_hi {v w : Nat} (x : BitVec v) (y : BitVec w) (s l : Nat) (h : w ≤ s) :
    (x ++ y).extractLsb' s l = x.extractLsb' (s - w) l := BitVec.extractLsb'_append_eq_of_le h
theorem ex_lo {v w : Nat} (x : BitVec v) (y : BitVec w) (s l : Nat) (h : s + l ≤ w) :
    (x ++ y).extractLsb' s l = y.extractLsb' s l := BitVec.extractLsb'_append_eq_of_add_le h
theorem ex_all {w : Nat} (x : BitVec w) : x.extractLsb' 0 w = x := by simp
theorem gl_hi {v w : Nat} (x : BitVec v) (y : BitVec w) (i : Nat) (h : w ≤ i) :
    (x ++ y).getLsbD i = x.getLsbD (i - w) := by simp [BitVec.getLsbD_append, Nat.not_lt.mpr h]
theorem gl_lo {v w : Nat} (x : BitVec v) (y : BitVec w) (i : Nat) (h : i < w) :
    (x ++ y).getLsbD i = y.getLsbD i := by simp [BitVec.getLsbD_append, h]
/-- A slice that ends where its argument ends, of an argument whose top part is `y`. -/
theorem ex_ex {w : Nat} (x : BitVec w) (s l t m : Nat) (h : t + m ≤ l) :
    (x.extractLsb' s l).extractLsb' t m = x.extractLsb' (s + t) m := by
  apply BitVec.eq_of_getLsbD_eq
  intro i hi
  have : t + i < l := by omega
  simp [hi, this, Nat.add_assoc]
@[simp] theorem ex_zero (w s l : Nat) : (0#w).extractLsb' s l = 0#l := by
  apply BitVec.eq_of_getLsbD_eq
  intro i hi
  simp
@[simp] theorem b1_bit (b : Bool) : (b1 b).getLsbD 0 = b := by simp [b1]

/-! ## Register fields -/

@[simp] theorem srcOf_enc (s : Src) : srcOf s.cls s.fld = .ok s := by
  cases s with
  | v n => rfl
  | g n =>
    have h : (n.setWidth 8).extractLsb' 6 2 = 0#2 := by
      apply BitVec.eq_of_getLsbD_eq
      intro i hi
      simp [BitVec.getLsbD_setWidth]
    have k : (n.setWidth 8).extractLsb' 0 6 = n := by
      apply BitVec.eq_of_getLsbD_eq
      intro i hi
      simp [BitVec.getLsbD_setWidth, hi]
      omega
    simp [srcOf, Src.cls, Src.fld, h, k]
  | x k d =>
    simp (disch := decide) only [srcOf, Src.cls, Src.fld, ex_hi, ex_lo, Nat.reduceSub, ex_all]
    rfl
  | imm n => rfl
@[simp] theorem pred_ex (n : BitVec 3) : (n.setWidth 8).extractLsb' 0 3 = n := by
  apply BitVec.eq_of_getLsbD_eq
  intro i hi
  simp [BitVec.getLsbD_setWidth, hi]
  omega
@[simp] theorem pred_ex0 (n : BitVec 3) : (n.setWidth 8).extractLsb' 3 5 = 0#5 := by
  apply BitVec.eq_of_getLsbD_eq
  intro i hi
  simp [BitVec.getLsbD_setWidth]
@[simp] theorem predOf_enc (n : BitVec 3) : predOf (n.setWidth 8) = .ok n := by simp [predOf]
@[simp] theorem two_ex (n : BitVec 2) : (n.setWidth 8).extractLsb' 0 2 = n := by
  apply BitVec.eq_of_getLsbD_eq
  intro i hi
  simp [BitVec.getLsbD_setWidth, hi]
  omega
@[simp] theorem two_ex0 (n : BitVec 2) : (n.setWidth 8).extractLsb' 2 6 = 0#6 := by
  apply BitVec.eq_of_getLsbD_eq
  intro i hi
  simp [BitVec.getLsbD_setWidth]
@[simp] theorem four_ex (n : BitVec 4) : (n.setWidth 8).extractLsb' 0 4 = n := by
  apply BitVec.eq_of_getLsbD_eq
  intro i hi
  simp [BitVec.getLsbD_setWidth, hi]
  omega
@[simp] theorem four_ex0 (n : BitVec 4) : (n.setWidth 8).extractLsb' 4 4 = 0#4 := by
  apply BitVec.eq_of_getLsbD_eq
  intro i hi
  simp [BitVec.getLsbD_setWidth]
@[simp] theorem dstOf_enc (s : Dst) : dstOf s.cls s.fld = .ok s := by
  cases s with
  | v n => rfl
  | g n =>
    have := srcOf_enc (.g n)
    simp only [srcOf, Src.cls, Src.fld] at this
    simp only [dstOf, Dst.cls, Dst.fld]
    by_cases h : (n.setWidth 8).extractLsb' 6 2 = 0#2
    · simp [h] at this ⊢; exact this
    · simp [h] at this
  | x k d =>
    simp (disch := decide) only [dstOf, Dst.cls, Dst.fld, ex_hi, ex_lo, Nat.reduceSub, ex_all]
    rfl
  | p n => simp [dstOf, Dst.cls, Dst.fld]

/-! ## Format V -/

section FormatV
variable (maj min : BitVec 6) (f : VF) (ty : BitVec 3) (md : BitVec 2)
@[simp] theorem maj_encV : majorOf (encV maj min f ty md) = maj.toNat := by
  unfold majorOf encV; simp (disch := decide) only [ex_hi, Nat.reduceSub, ex_all]
@[simp] theorem min_encV : minorOf (encV maj min f ty md) = min.toNat := by
  unfold minorOf encV; simp (disch := decide) only [ex_hi, ex_lo, Nat.reduceSub, ex_all]
@[simp] theorem guard_encV : guardOf (encV maj min f ty md) = f.g := by
  unfold guardOf encV encG
  simp (disch := decide) only [ex_hi, ex_lo, gl_hi, gl_lo, Nat.reduceSub, ex_all, b1_bit]
@[simp] theorem fld40_encV : fldOf (encV maj min f ty md) 40 = f.d.fld := by
  unfold fldOf encV; simp (disch := decide) only [ex_hi, ex_lo, Nat.reduceSub, ex_all]
@[simp] theorem fld32_encV : fldOf (encV maj min f ty md) 32 = f.a.fld := by
  unfold fldOf encV; simp (disch := decide) only [ex_hi, ex_lo, Nat.reduceSub, ex_all]
@[simp] theorem fld24_encV : fldOf (encV maj min f ty md) 24 = f.b.fld := by
  unfold fldOf encV; simp (disch := decide) only [ex_hi, ex_lo, Nat.reduceSub, ex_all]
@[simp] theorem fld16_encV : fldOf (encV maj min f ty md) 16 = f.c.fld := by
  unfold fldOf encV; simp (disch := decide) only [ex_hi, ex_lo, Nat.reduceSub, ex_all]
@[simp] theorem dcls_encV : (encV maj min f ty md).extractLsb' 8 2 = f.d.cls := by
  unfold encV; simp (disch := decide) only [ex_hi, ex_lo, Nat.reduceSub, ex_all]
@[simp] theorem acls_encV : (encV maj min f ty md).extractLsb' 14 2 = f.a.cls := by
  unfold encV; simp (disch := decide) only [ex_hi, ex_lo, Nat.reduceSub, ex_all]
@[simp] theorem bcls_encV : (encV maj min f ty md).extractLsb' 12 2 = f.b.cls := by
  unfold encV; simp (disch := decide) only [ex_hi, ex_lo, Nat.reduceSub, ex_all]
@[simp] theorem ccls_encV : (encV maj min f ty md).extractLsb' 10 2 = f.c.cls := by
  unfold encV; simp (disch := decide) only [ex_hi, ex_lo, Nat.reduceSub, ex_all]
@[simp] theorem wa_encV : (encV maj min f ty md).getLsbD 7 = f.wa := by
  unfold encV; simp (disch := decide) only [gl_hi, gl_lo, Nat.reduceSub, b1_bit]
@[simp] theorem wb_encV : (encV maj min f ty md).getLsbD 6 = f.wb := by
  unfold encV; simp (disch := decide) only [gl_hi, gl_lo, Nat.reduceSub, b1_bit]
@[simp] theorem wc_encV : (encV maj min f ty md).getLsbD 5 = f.wc := by
  unfold encV; simp (disch := decide) only [gl_hi, gl_lo, Nat.reduceSub, b1_bit]
@[simp] theorem ty_encV : tyOf (encV maj min f ty md) = ty.toNat := by
  unfold tyOf encV; simp (disch := decide) only [ex_hi, ex_lo, Nat.reduceSub, ex_all]
@[simp] theorem mod_encV : modOf (encV maj min f ty md) = md.toNat := by
  unfold modOf encV; simp (disch := decide) only [ex_lo, ex_all]
@[simp] theorem t4_encV : (encV maj min f ty md).getLsbD 4 = ty.getLsbD 2 := by
  unfold encV; simp (disch := decide) only [gl_hi, gl_lo, Nat.reduceSub]
@[simp] theorem t3_encV : (encV maj min f ty md).getLsbD 3 = ty.getLsbD 1 := by
  unfold encV; simp (disch := decide) only [gl_hi, gl_lo, Nat.reduceSub]
@[simp] theorem t2_encV : (encV maj min f ty md).getLsbD 2 = ty.getLsbD 0 := by
  unfold encV; simp (disch := decide) only [gl_hi, gl_lo, Nat.reduceSub]
/-- The classes of the three sources, and the three wait bits, when each is 0. -/
theorem cls0_encV (ha : f.a.cls = 0) (hb : f.b.cls = 0) (hc : f.c.cls = 0) :
    (encV maj min f ty md).extractLsb' 10 6 = 0#6 := by
  have e : ∀ k, 10 ≤ k → k < 16 → (encV maj min f ty md).getLsbD k = false := by
    intro k h1 h2
    unfold encV
    rw [ha, hb, hc]
    have : k = 10 ∨ k = 11 ∨ k = 12 ∨ k = 13 ∨ k = 14 ∨ k = 15 := by omega
    rcases this with h | h | h | h | h | h <;> subst h <;>
      simp (disch := decide) only [gl_hi, gl_lo, Nat.reduceSub, BitVec.ofNat_eq_ofNat, BitVec.getLsbD_zero]
  apply BitVec.eq_of_getLsbD_eq
  intro i hi
  rw [BitVec.getLsbD_extractLsb', e (10 + i) (by omega) (by omega)]
  simp
theorem wait0_encV (ha : f.wa = false) (hb : f.wb = false) (hc : f.wc = false) :
    (encV maj min f ty md).extractLsb' 5 3 = 0#3 := by
  have e : ∀ k, 5 ≤ k → k < 8 → (encV maj min f ty md).getLsbD k = false := by
    intro k h1 h2
    have : k = 5 ∨ k = 6 ∨ k = 7 := by omega
    rcases this with h | h | h <;> subst h
    · exact (wc_encV ..).trans hc
    · exact (wb_encV ..).trans hb
    · exact (wa_encV ..).trans ha
  apply BitVec.eq_of_getLsbD_eq
  intro i hi
  rw [BitVec.getLsbD_extractLsb', e (5 + i) (by omega) (by omega)]
  simp
@[simp] theorem vfOf_encV : vfOf (encV maj min f ty md) = .ok f := by
  simp only [vfOf, dcls_encV, fld40_encV, acls_encV, bcls_encV, ccls_encV, fld32_encV, fld24_encV, fld16_encV,
    srcOf_enc, dstOf_enc, guard_encV, wa_encV, wb_encV, wc_encV]
  rfl
end FormatV

/-! ## Formats I, B, E and single-guard words -/

section Others
variable (maj min : BitVec 6) (mi : BitVec 5) (fi : IF) (fe : EF) (g : Guard) (rest : BitVec 48) (ctl : BitVec 16)
  (rg : Fld) (off : W32)
@[simp] theorem maj_encI : majorOf (encI mi fi) = 0x0A := by
  unfold majorOf encI; simp (disch := decide) only [ex_hi, Nat.reduceSub, ex_all]; rfl
@[simp] theorem min_encI : minorOf (encI mi fi) % 32 = mi.toNat := by
  have e : (encI mi fi).extractLsb' 52 5 = mi := by
    unfold encI; simp (disch := decide) only [ex_hi, ex_lo, Nat.reduceSub, ex_all]
  have h : ((encI mi fi).extractLsb' 52 5).toNat = ((encI mi fi).extractLsb' 52 6).toNat % 32 := by
    simp only [BitVec.extractLsb'_toNat]
    omega
  unfold minorOf
  rw [← h, e]
@[simp] theorem ifOf_encI : ifOf (encI mi fi) = fi := by
  unfold ifOf guardOf fldOf immOf encI encG
  simp (disch := decide) only [ex_hi, ex_lo, gl_hi, gl_lo, Nat.reduceSub, ex_all, b1_bit]
  simp only [Nat.reduceAdd, Nat.reduceSub, b1_bit]
@[simp] theorem maj_encW : majorOf (encW maj min g rest) = maj.toNat := by
  unfold majorOf encW; simp (disch := decide) only [ex_hi, Nat.reduceSub, ex_all]
@[simp] theorem min_encW : minorOf (encW maj min g rest) = min.toNat := by
  unfold minorOf encW; simp (disch := decide) only [ex_hi, ex_lo, Nat.reduceSub, ex_all]
@[simp] theorem guard_encW : guardOf (encW maj min g rest) = g := by
  unfold guardOf encW encG
  simp (disch := decide) only [ex_hi, ex_lo, gl_hi, gl_lo, Nat.reduceSub, ex_all, b1_bit]
theorem ex_encW (s l : Nat) (h : s + l ≤ 48) : (encW maj min g rest).extractLsb' s l = rest.extractLsb' s l := by
  unfold encW; exact ex_lo _ _ _ _ h
@[simp] theorem maj_encE : majorOf (encE maj min fe ctl) = maj.toNat := by
  unfold majorOf encE; simp (disch := decide) only [ex_hi, Nat.reduceSub, ex_all]
@[simp] theorem min_encE : minorOf (encE maj min fe ctl) = min.toNat := by
  unfold minorOf encE; simp (disch := decide) only [ex_hi, ex_lo, Nat.reduceSub, ex_all]
@[simp] theorem guard_encE : guardOf (encE maj min fe ctl) = fe.g := by
  unfold guardOf encE encG
  simp (disch := decide) only [ex_hi, ex_lo, gl_hi, gl_lo, Nat.reduceSub, ex_all, b1_bit]
@[simp] theorem efOf_encE : efOf (encE maj min fe ctl) = fe := by
  unfold efOf
  rw [guard_encE]
  unfold fldOf encE
  simp (disch := decide) only [ex_hi, ex_lo, Nat.reduceSub, ex_all]
theorem ex_encE (s l : Nat) (h : s + l ≤ 16) : (encE maj min fe ctl).extractLsb' s l = ctl.extractLsb' s l := by
  unfold encE; exact ex_lo _ _ _ _ h
theorem gl_encE (i : Nat) (h : i < 16) : (encE maj min fe ctl).getLsbD i = ctl.getLsbD i := by
  unfold encE; exact gl_lo _ _ _ h
@[simp] theorem ctl_encE : ctlOf (encE maj min fe ctl) = ctl := by
  unfold ctlOf; rw [ex_encE _ _ _ _ _ _ (by decide), ex_all]
@[simp] theorem maj_encB : majorOf (encB maj min g rg off) = maj.toNat := by
  unfold majorOf encB; simp (disch := decide) only [ex_hi, Nat.reduceSub, ex_all]
@[simp] theorem min_encB : minorOf (encB maj min g rg off) = min.toNat := by
  unfold minorOf encB; simp (disch := decide) only [ex_hi, ex_lo, Nat.reduceSub, ex_all]
@[simp] theorem guard_encB : guardOf (encB maj min g rg off) = g := by
  unfold guardOf encB encG
  simp (disch := decide) only [ex_hi, ex_lo, gl_hi, gl_lo, Nat.reduceSub, ex_all, b1_bit]
@[simp] theorem fld40_encB : fldOf (encB maj min g rg off) 40 = rg := by
  unfold fldOf encB; simp (disch := decide) only [ex_hi, ex_lo, Nat.reduceSub, ex_all]
@[simp] theorem fld32_encB : fldOf (encB maj min g rg off) 32 = 0 := by
  unfold fldOf encB; simp (disch := decide) only [ex_hi, ex_lo, Nat.reduceSub, ex_all]
@[simp] theorem imm_encB : immOf (encB maj min g rg off) = off := by
  unfold immOf encB; simp (disch := decide) only [ex_lo, ex_all]
end Others

/-! ## Format M -/

section FormatM
variable (maj min : BitVec 6) (f : MF)
@[simp] theorem maj_encM : majorOf (encM maj min f) = maj.toNat := by
  unfold majorOf encM; simp (disch := decide) only [ex_hi, Nat.reduceSub, ex_all]
@[simp] theorem min_encM : minorOf (encM maj min f) = min.toNat := by
  unfold minorOf encM; simp (disch := decide) only [ex_hi, ex_lo, Nat.reduceSub, ex_all]
@[simp] theorem guard_encM : guardOf (encM maj min f) = f.g := by
  unfold guardOf encM encG
  simp (disch := decide) only [ex_hi, ex_lo, gl_hi, gl_lo, Nat.reduceSub, ex_all, b1_bit]
@[simp] theorem ordOf_code (o : MOrd) : ordOf o.code.toNat = o := by cases o <;> rfl
@[simp] theorem scopeOf_code (o : Scope) : scopeOf o.code.toNat = o := by cases o <;> rfl
@[simp] theorem widthOf_code (o : Width) : widthOf o.code.toNat = .ok o := by cases o <;> rfl
theorem mfOf_encM (hd : f.data.isImm = false) (ha : f.addr.cls.getLsbD 1 = false) :
    mfOf (encM maj min f) = .ok f := by
  have e1 : (encM maj min f).extractLsb' 8 2 = f.data.cls := by
    unfold encM; simp (disch := decide) only [ex_hi, ex_lo, Nat.reduceSub, ex_all]
  have e2 : fldOf (encM maj min f) 40 = f.data.fld := by
    unfold fldOf encM; simp (disch := decide) only [ex_hi, ex_lo, Nat.reduceSub, ex_all]
  have e3 : (encM maj min f).extractLsb' 10 2 = f.addr.cls := by
    unfold encM; simp (disch := decide) only [ex_hi, ex_lo, Nat.reduceSub, ex_all]
  have e4 : fldOf (encM maj min f) 32 = f.addr.fld := by
    unfold fldOf encM; simp (disch := decide) only [ex_hi, ex_lo, Nat.reduceSub, ex_all]
  have e5 : (encM maj min f).getLsbD 11 = f.addr.cls.getLsbD 1 := by
    unfold encM; simp (disch := decide) only [gl_hi, gl_lo, Nat.reduceSub]
  have e6 : (encM maj min f).extractLsb' 3 3 = f.width.code := by
    unfold encM; simp (disch := decide) only [ex_hi, ex_lo, Nat.reduceSub, ex_all]
  have e7 : (encM maj min f).extractLsb' 1 2 = 0 := by
    unfold encM; simp (disch := decide) only [ex_hi, ex_lo, Nat.reduceSub, ex_all]
  have e8 : (encM maj min f).extractLsb' 20 12 = f.off := by
    unfold encM; simp (disch := decide) only [ex_hi, ex_lo, Nat.reduceSub, ex_all]
  have e9 : (encM maj min f).extractLsb' 18 2 = f.ord.code := by
    unfold encM; simp (disch := decide) only [ex_hi, ex_lo, Nat.reduceSub, ex_all]
  have e10 : (encM maj min f).extractLsb' 15 3 = f.scope.code := by
    unfold encM; simp (disch := decide) only [ex_hi, ex_lo, Nat.reduceSub, ex_all]
  have e11 : (encM maj min f).extractLsb' 12 3 = f.ev := by
    unfold encM; simp (disch := decide) only [ex_hi, ex_lo, Nat.reduceSub, ex_all]
  have e12 : (encM maj min f).getLsbD 7 = f.wa := by
    unfold encM; simp (disch := decide) only [gl_hi, gl_lo, Nat.reduceSub, b1_bit]
  have e13 : (encM maj min f).getLsbD 6 = f.wd := by
    unfold encM; simp (disch := decide) only [gl_hi, gl_lo, Nat.reduceSub, b1_bit]
  have e14 : (encM maj min f).getLsbD 0 = f.var := by
    unfold encM; simp (disch := decide) only [gl_lo, b1_bit]
  simp only [mfOf, e1, e2, e3, e4, e5, e6, e7, e8, e9, e10, e11, e12, e13, e14, srcOf_enc, ordOf_code, scopeOf_code,
    widthOf_code, guard_encM, ha]
  simp [need, bind, Except.bind, hd]
end FormatM

/-! ## The decoder's combinators and codes -/

@[simp] theorem dec_ok_bind {α β : Type} (a : α) (k : α → Dec β) : (Except.ok a >>= k) = k a := rfl
@[simp] theorem need_true (r : Reject) : need true r = .ok () := rfl
@[simp] theorem ityOf_code (t : ITy) : ityOf t.code.toNat = .ok t := by cases t <;> rfl
@[simp] theorem zwideOf_code (w : Bool) : zwideOf (zcode w).toNat = .ok w := by cases w <;> rfl
@[simp] theorem swideOf_code (w : Bool) : swideOf (scode w).toNat = .ok w := by cases w <;> rfl
@[simp] theorem rmOf_code (m : RMode) : rmOf m.code.toNat = m := by cases m <;> rfl
@[simp] theorem fullOf_code (t : FullTy) : fullOf t.code.toNat = t := by cases t <;> rfl
@[simp] theorem qtyOf_code (t : QTy) : qtyOf t.code.toNat = .ok t := by cases t <;> rfl
@[simp] theorem specialOf_code (s : Special) : specialOf s.code.toNat = .ok s := by cases s <;> rfl
@[simp] theorem mkindOf_code (k : MKind) : mkindOf k.code.toNat = .ok k := by cases k <;> rfl
@[simp] theorem dkindOf_code (k : DKind) : dkindOf k.code.toNat = .ok k := by cases k <;> rfl
@[simp] theorem tileTyOf_code (k : TileTy) : tileTyOf k.code.toNat = .ok k := by cases k <;> rfl
@[simp] theorem ktyOf_code (k : KTy) : ktyOf k.code.toNat = .ok k := by cases k <;> rfl
@[simp] theorem costOf_code (k : CostOp) : costOf k.code.toNat = .ok k := by cases k <;> rfl
@[simp] theorem lvlOf_code (k : PostLvl) : lvlOf k.code.toNat = .ok k := by cases k <;> rfl

/-! ## Raw fields and narrow control values -/

theorem rawC_enc (maj min : BitVec 6) (f : VF) (n : Fld) (ty : BitVec 3) (md : BitVec 2) (hc : f.c = .v 0)
    (hw : f.wc = false) : rawC (encV maj min { f with c := .v n } ty md) = .ok (f, n) := by
  rcases f with ⟨g, d, a, b, c, wa, wb, wc⟩
  subst hc hw
  simp only [rawC, ccls_encV, wc_encV, vfOf_encV, fld16_encV, Src.cls, Src.fld]
  rfl
theorem rawA_enc (maj min : BitVec 6) (f : VF) (n : Fld) (ty : BitVec 3) (md : BitVec 2) (ha : f.a = .v 0)
    (hw : f.wa = false) : rawA (encV maj min { f with a := .v n } ty md) = .ok (f, n) := by
  rcases f with ⟨g, d, a, b, c, wa, wb, wc⟩
  subst ha hw
  simp only [rawA, acls_encV, wa_encV, vfOf_encV, fld32_encV, Src.cls, Src.fld]
  rfl
theorem rawD_enc (maj min : BitVec 6) (f : VF) (n : Fld) (ty : BitVec 3) (md : BitVec 2) (hd : f.d = .v 0) :
    rawD (encV maj min { f with d := .v n } ty md) = .ok (f, n) := by
  rcases f with ⟨g, d, a, b, c, wa, wb, wc⟩
  subst hd
  simp only [rawD, dcls_encV, vfOf_encV, fld40_encV, Dst.cls, Dst.fld]
  rfl
theorem okSrc_no {q : Nat} {s : Src} {w : Bool} (h : okSrc q .no s w = true) : s = .v 0 ∧ w = false := by
  cases s <;> simp [okSrc] at h <;> simp [h]
theorem okV_d {q : Nat} {a b c : Use} {f : VF} (h : okV q .no a b c f = true) : f.d = .v 0 := by
  simp only [okV, Bool.and_eq_true] at h
  have := h.1.1.1
  cases hd : f.d <;> simp [hd, okDst] at this <;> simp [this]
theorem okV_a {q : Nat} {d b c : Use} {f : VF} (h : okV q d .no b c f = true) : f.a = .v 0 ∧ f.wa = false := by
  simp only [okV, Bool.and_eq_true] at h
  exact okSrc_no h.1.1.2
theorem okV_b {q : Nat} {d a c : Use} {f : VF} (h : okV q d a .no c f = true) : f.b = .v 0 ∧ f.wb = false := by
  simp only [okV, Bool.and_eq_true] at h
  exact okSrc_no h.1.2
theorem okV_c {q : Nat} {d a b : Use} {f : VF} (h : okV q d a b .no f = true) : f.c = .v 0 ∧ f.wc = false := by
  simp only [okV, Bool.and_eq_true] at h
  exact okSrc_no h.2
theorem tile_ex (k : BitVec 3) : (k.setWidth 48).extractLsb' 0 3 = k := by
  apply BitVec.eq_of_getLsbD_eq
  intro i hi
  simp [BitVec.getLsbD_setWidth, hi]
  omega
theorem tile_ex0 (k : BitVec 3) : (k.setWidth 48).extractLsb' 3 45 = 0 := by
  apply BitVec.eq_of_getLsbD_eq
  intro i hi
  simp [BitVec.getLsbD_setWidth]
theorem two_w16 (k : BitVec 2) : (k.setWidth 16).extractLsb' 0 2 = k := by
  apply BitVec.eq_of_getLsbD_eq
  intro i hi
  simp [BitVec.getLsbD_setWidth, hi]
  omega
theorem two_w160 (k : BitVec 2) : (k.setWidth 16).extractLsb' 2 14 = 0 := by
  apply BitVec.eq_of_getLsbD_eq
  intro i hi
  simp [BitVec.getLsbD_setWidth]
theorem three_w16 (k : BitVec 3) : (k.setWidth 16).extractLsb' 0 3 = k := by
  apply BitVec.eq_of_getLsbD_eq
  intro i hi
  simp [BitVec.getLsbD_setWidth, hi]
  omega
theorem three_w160 (k : BitVec 3) : (k.setWidth 16).extractLsb' 3 13 = 0 := by
  apply BitVec.eq_of_getLsbD_eq
  intro i hi
  simp [BitVec.getLsbD_setWidth]
/-- A cluster barrier number in the control field. -/
theorem cbar_ex (k : BitVec 4) : ((1 : BitVec 1) ++ (0 : BitVec 5) ++ k.setWidth 10).extractLsb' 0 4 = k := by
  rw [ex_lo _ _ _ _ (by decide)]
  apply BitVec.eq_of_getLsbD_eq
  intro i hi
  simp [BitVec.getLsbD_setWidth, hi]
  omega
theorem cbar_ex0 (k : BitVec 4) : ((1 : BitVec 1) ++ (0 : BitVec 5) ++ k.setWidth 10).extractLsb' 4 11 = 0 := by
  revert k
  decide
/-- The data and address fields of a legal access. -/
theorem mf_mem {q k : Nat} {b : Bool} {f : MF} {x : Bool}
    (h : (x = true ∧ okData q k f.data = true) ∧ okAddr q b f.addr = true) :
    f.data.isImm = false ∧ f.addr.cls.getLsbD 1 = false := by
  obtain ⟨⟨-, h1⟩, h2⟩ := h
  constructor
  · cases hd : f.data <;> simp [hd, okData, Src.isImm] at h1 ⊢
  · cases ha : f.addr <;> simp [ha, okAddr, Src.cls] at h2 ⊢
theorem mf_atom {q : Nat} {b : Bool} {f : MF} {op : AOp} (h1 : okAtom q f op = true) (h2 : okAddr q b f.addr = true) :
    f.data.isImm = false ∧ f.addr.cls.getLsbD 1 = false := by
  constructor
  · cases hd : f.data <;> simp [hd, okAtom, Src.isImm] at h1 ⊢
  · cases ha : f.addr <;> simp [ha, okAddr, Src.cls] at h2 ⊢
theorem mf_line {q : Nat} {f : MF} (h : okLine q f = true) :
    f.data.isImm = false ∧ f.addr.cls.getLsbD 1 = false := by
  simp only [okLine, Bool.and_eq_true, beq_iff_eq] at h
  obtain ⟨⟨⟨⟨⟨⟨hd, -⟩, -⟩, -⟩, -⟩, -⟩, h2⟩ := h
  constructor
  · simp [hd, Src.isImm]
  · cases ha : f.addr <;> simp [ha, okAddr, Src.cls] at h2 ⊢

end Sys2Proof
end

