-- ==== Sys2Proof/Laws/Table.lean ====
section
/-! SUPPORT. Laws of sparse tables and of byte memories: reading after writing, and that every operation keeps the canonical
form. -/

namespace Sys2Proof

/-! ## Tables -/

@[simp] theorem AMap.find_nil {α : Type} (k : Nat) : AMap.find ([] : AMap α) k = none := rfl
theorem AMap.find_cons {α : Type} (j : Nat) (a : α) (m : AMap α) (k : Nat) :
    AMap.find ((j, a) :: m) k = if j = k then some a else AMap.find m k := rfl
theorem AMap.find_put {α : Type} (m : AMap α) (k : Nat) (a : α) (k' : Nat) :
    AMap.find (AMap.put m k a) k' = if k = k' then some a else AMap.find m k' := by
  induction m with
  | nil => rfl
  | cons e m ih =>
    obtain ⟨j, b⟩ := e
    simp only [AMap.put]
    split
    · rfl
    · split
      · subst j; simp only [AMap.find_cons]; split <;> rfl
      · simp only [AMap.find_cons, ih]
        split <;> rename_i h1 h2 h3
        · subst h3; simp [h2]
        · rfl
@[simp] theorem AMap.find_put_same {α : Type} (m : AMap α) (k : Nat) (a : α) : AMap.find (AMap.put m k a) k = some a := by
  simp [AMap.find_put]
theorem AMap.find_put_ne {α : Type} (m : AMap α) {k k' : Nat} (a : α) (h : k ≠ k') :
    AMap.find (AMap.put m k a) k' = AMap.find m k' := by simp [AMap.find_put, h]
theorem AMap.find_del {α : Type} (m : AMap α) (k k' : Nat) :
    AMap.find (AMap.del m k) k' = if k = k' then none else AMap.find m k' := by
  induction m with
  | nil => simp [AMap.del]
  | cons e m ih =>
    obtain ⟨j, b⟩ := e
    simp only [AMap.del, List.filter] at ih ⊢
    by_cases hj : j = k
    · subst hj
      simp only [bne_self_eq_false, ih, AMap.find_cons]
      split <;> rfl
    · simp only [(bne_iff_ne).mpr hj, AMap.find_cons, ih]
      split
      · rename_i h; subst h; simp [Ne.symm hj]
      · rfl
theorem AMap.find_upd {α : Type} (m : AMap α) (k : Nat) (f : α → α) (k' : Nat) :
    AMap.find (AMap.upd m k f) k' = if k = k' then (AMap.find m k').map f else AMap.find m k' := by
  unfold AMap.upd
  split
  · rename_i a h
    rw [AMap.find_put]
    split
    · rename_i e; subst e; simp [h]
    · rfl
  · rename_i h
    split
    · rename_i e; subst e; simp [h]
    · rfl
@[simp] theorem AMap.find_upd_same {α : Type} (m : AMap α) (k : Nat) (f : α → α) :
    AMap.find (AMap.upd m k f) k = (AMap.find m k).map f := by simp [AMap.find_upd]
theorem AMap.find_upd_ne {α : Type} (m : AMap α) {k k' : Nat} (f : α → α) (h : k ≠ k') :
    AMap.find (AMap.upd m k f) k' = AMap.find m k' := by simp [AMap.find_upd, h]

/-- Keys ascend, as a relation between neighbours. -/
theorem AMap.sorted_iff {α : Type} (m : AMap α) : AMap.sorted m = true ↔ m.Pairwise (fun a b => a.1 < b.1) := by
  induction m with
  | nil => simp [AMap.sorted]
  | cons e m ih =>
    cases m with
    | nil => simp [AMap.sorted]
    | cons f m =>
      simp only [AMap.sorted, Bool.and_eq_true, decide_eq_true_eq, ih]
      constructor
      · rintro ⟨h, hp⟩
        refine List.pairwise_cons.mpr ⟨?_, hp⟩
        intro x hx
        rcases List.mem_cons.mp hx with rfl | hx
        · exact h
        · exact Nat.lt_trans h ((List.pairwise_cons.mp hp).1 x hx)
      · intro hp
        have := List.pairwise_cons.mp hp
        exact ⟨this.1 f (List.mem_cons_self), this.2⟩
theorem AMap.mem_put {α : Type} {m : AMap α} {k : Nat} {a : α} {e : Nat × α} (h : e ∈ AMap.put m k a) :
    e = (k, a) ∨ e ∈ m := by
  induction m with
  | nil => simpa [AMap.put] using h
  | cons f m ih =>
    obtain ⟨j, b⟩ := f
    simp only [AMap.put] at h
    split at h
    · simpa using h
    · split at h
      · rcases List.mem_cons.mp h with h | h
        · exact .inl h
        · exact .inr (List.mem_cons_of_mem _ h)
      · rcases List.mem_cons.mp h with h | h
        · exact .inr (h ▸ List.mem_cons_self)
        · rcases ih h with h | h
          · exact .inl h
          · exact .inr (List.mem_cons_of_mem _ h)
theorem AMap.sorted_put {α : Type} {m : AMap α} (k : Nat) (a : α) (h : AMap.sorted m = true) :
    AMap.sorted (AMap.put m k a) = true := by
  rw [AMap.sorted_iff] at h ⊢
  induction m with
  | nil => simp [AMap.put]
  | cons e m ih =>
    obtain ⟨j, b⟩ := e
    obtain ⟨h1, h2⟩ := List.pairwise_cons.mp h
    simp only [AMap.put]
    split
    · rename_i hk
      refine List.pairwise_cons.mpr ⟨?_, h⟩
      intro x hx
      rcases List.mem_cons.mp hx with rfl | hx
      · exact hk
      · exact Nat.lt_trans hk (h1 x hx)
    · split
      · rename_i hk; subst hk
        exact List.pairwise_cons.mpr ⟨h1, h2⟩
      · rename_i hk hk'
        refine List.pairwise_cons.mpr ⟨?_, ih h2⟩
        intro x hx
        rcases AMap.mem_put hx with rfl | hx
        · show j < k; omega
        · exact h1 x hx
theorem AMap.sorted_filter {α : Type} {m : AMap α} (p : Nat × α → Bool) (h : AMap.sorted m = true) :
    AMap.sorted (m.filter p) = true := by
  rw [AMap.sorted_iff] at h ⊢
  exact List.Pairwise.filter p h
theorem AMap.sorted_upd {α : Type} {m : AMap α} (k : Nat) (f : α → α) (h : AMap.sorted m = true) :
    AMap.sorted (AMap.upd m k f) = true := by
  unfold AMap.upd
  split
  · exact AMap.sorted_put _ _ h
  · exact h

/-! ## Byte memories -/

theorem Cells.wf_iff (m : Cells) :
    m.wf = true ↔ AMap.sorted m = true ∧ ∀ e ∈ m, e.2 ≠ Config.unwritten := by
  simp [Cells.wf]
theorem Cells.wf_nil : Cells.wf [] = true := rfl
/-- A byte just written is read back. -/
@[simp] theorem Cells.read_write_same (m : Cells) (a : Nat) (b : BitVec 8) : (m.write a b).read a = b := by
  unfold Cells.write Cells.read AMap.getD
  split
  · rename_i h; rw [AMap.find_del]; simp [h]
  · simp
/-- A write leaves every other byte alone. -/
theorem Cells.read_write_ne (m : Cells) {a a' : Nat} (b : BitVec 8) (h : a ≠ a') : (m.write a b).read a' = m.read a' := by
  unfold Cells.write Cells.read AMap.getD
  split
  · rw [AMap.find_del]; simp [h]
  · rw [AMap.find_put_ne _ _ h]
theorem Cells.wf_write {m : Cells} (a : Nat) (b : BitVec 8) (h : m.wf = true) : (m.write a b).wf = true := by
  rw [Cells.wf_iff] at h ⊢
  unfold Cells.write
  split
  · exact ⟨AMap.sorted_filter _ h.1, fun e he => h.2 e (List.mem_filter.mp he).1⟩
  · rename_i hb
    refine ⟨AMap.sorted_put _ _ h.1, fun e he => ?_⟩
    rcases AMap.mem_put he with rfl | he
    · exact hb
    · exact h.2 e he
theorem Cells.wf_writeN {m : Cells} (a : Nat) (bs : List (BitVec 8)) (h : m.wf = true) : (m.writeN a bs).wf = true := by
  induction bs generalizing m a with
  | nil => exact h
  | cons b bs ih => exact ih _ (Cells.wf_write a b h)
theorem Cells.wf_filter {m : Cells} (p : Host.Cell → Bool) (h : m.wf = true) : Cells.wf (m.filter p) = true := by
  rw [Cells.wf_iff] at h ⊢
  exact ⟨AMap.sorted_filter p h.1, fun e he => h.2 e (List.mem_filter.mp he).1⟩
theorem Cells.wf_foldl {m : Cells} (l : List (Nat × BitVec 8)) (h : m.wf = true) :
    Cells.wf (l.foldl (fun m e => Cells.write m e.1 e.2) m) = true := by
  induction l generalizing m with
  | nil => exact h
  | cons e l ih => exact ih (Cells.wf_write _ _ h)
/-- Bytes outside a stored range read as before. -/
theorem Cells.read_writeN_out (m : Cells) (a : Nat) (bs : List (BitVec 8)) (x : Nat) (h : x < a ∨ a + bs.length ≤ x) :
    (m.writeN a bs).read x = m.read x := by
  induction bs generalizing m a with
  | nil => rfl
  | cons b bs ih =>
    simp only [List.length_cons] at h
    rw [Cells.writeN, ih _ _ (by omega), Cells.read_write_ne _ _ (by omega)]
/-- The stored bytes are read back. -/
theorem Cells.readN_eq (m : Cells) (a n : Nat) : m.readN a n = (List.range n).map (fun i => m.read (a + i)) := by
  induction n generalizing a with
  | zero => rfl
  | succ n ih =>
    rw [List.range_succ_eq_map, List.map_cons, List.map_map]
    show m.read a :: m.readN (a + 1) n = _
    rw [ih]
    refine congrArg₂ List.cons rfl (List.map_congr_left (fun i _ => ?_))
    show m.read (a + 1 + i) = m.read (a + (i + 1))
    congr 1; omega
theorem Cells.readN_writeN (m : Cells) (a : Nat) (bs : List (BitVec 8)) : (m.writeN a bs).readN a bs.length = bs := by
  induction bs generalizing m a with
  | nil => rfl
  | cons b bs ih =>
    simp only [List.length_cons, Cells.readN, Cells.writeN, ih]
    rw [Cells.read_writeN_out _ _ _ _ (by omega), Cells.read_write_same]
/-- Two memories in canonical form that read alike are equal. -/
theorem AMap.find_none_of_lt {α : Type} {m : AMap α} {k : Nat} (h : ∀ e ∈ m, k < e.1) : AMap.find m k = none := by
  induction m with
  | nil => rfl
  | cons e m ih =>
    obtain ⟨j, b⟩ := e
    have := h (j, b) List.mem_cons_self
    simp only [AMap.find_cons]
    rw [if_neg (by simp at this; omega)]
    exact ih (fun e he => h e (List.mem_cons_of_mem _ he))

/-! ## Lists -/

@[simp] theorem setAt_length {α : Type} (l : List α) (i : Nat) (a : α) : (setAt l i a).length = l.length := by
  induction l generalizing i with
  | nil => rfl
  | cons b l ih => cases i <;> simp [setAt, ih]
theorem setAt_getD {α : Type} (l : List α) (i : Nat) (a : α) (j : Nat) (d : α) :
    (setAt l i a).getD j d = if i = j ∧ j < l.length then a else l.getD j d := by
  induction l generalizing i j with
  | nil => simp [setAt]
  | cons b l ih =>
    cases i with
    | zero => cases j <;> simp [setAt]
    | succ i =>
      cases j with
      | zero => simp [setAt]
      | succ j =>
        simp only [setAt, List.getD_cons_succ, ih, List.length_cons]
        by_cases h : i = j
        · subst h; simp
        · simp [h]

end Sys2Proof
end

