-- ==== Sys2Proof/Laws/State.lean ====
section
/-! SUPPORT. What each update of one part of the state leaves: one equation per update and field, so that no later proof
unfolds a record update; then the lookups after an update. -/

namespace Sys2Proof.Machine

set_option Elab.async false

/-! ## `updItem` -/

section
variable (s : State) (ik : Nat) (f : Item → Item)
@[simp] theorem State.updItem_clock : (s.updItem ik f).clock = s.clock := rfl
@[simp] theorem State.updItem_tick : (s.updItem ik f).tick = s.tick := rfl
@[simp] theorem State.updItem_fresh : (s.updItem ik f).fresh = s.fresh := rfl
@[simp] theorem State.updItem_free : (s.updItem ik f).free = s.free := rfl
@[simp] theorem State.updItem_agenda : (s.updItem ik f).agenda = s.agenda := rfl
@[simp] theorem State.updItem_raised : (s.updItem ik f).raised = s.raised := rfl
@[simp] theorem State.updItem_yielded : (s.updItem ik f).yielded = s.yielded := rfl
@[simp] theorem State.updItem_cur : (s.updItem ik f).cur = s.cur := rfl
@[simp] theorem State.updItem_moved : (s.updItem ik f).moved = s.moved := rfl
@[simp] theorem State.updItem_trapped : (s.updItem ik f).trapped = s.trapped := rfl
@[simp] theorem State.updItem_devId : (s.updItem ik f).devId = s.devId := rfl
@[simp] theorem State.updItem_groups : (s.updItem ik f).groups = s.groups := rfl
@[simp] theorem State.updItem_teams : (s.updItem ik f).teams = s.teams := rfl
@[simp] theorem State.updItem_spans : (s.updItem ik f).spans = s.spans := rfl
@[simp] theorem State.updItem_cores : (s.updItem ik f).cores = s.cores := rfl
@[simp] theorem State.updItem_ops : (s.updItem ik f).ops = s.ops := rfl
@[simp] theorem State.updItem_flagsLeft : (s.updItem ik f).flagsLeft = s.flagsLeft := rfl
@[simp] theorem State.updItem_phaseCores : (s.updItem ik f).phaseCores = s.phaseCores := rfl
@[simp] theorem State.updItem_cbars : (s.updItem ik f).cbars = s.cbars := rfl
@[simp] theorem State.updItem_mmacs : (s.updItem ik f).mmacs = s.mmacs := rfl
@[simp] theorem State.updItem_bops : (s.updItem ik f).bops = s.bops := rfl
@[simp] theorem State.updItem_tlb2 : (s.updItem ik f).tlb2 = s.tlb2 := rfl
@[simp] theorem State.updItem_mem : (s.updItem ik f).mem = s.mem := rfl
@[simp] theorem State.updItem_memErr : (s.updItem ik f).memErr = s.memErr := rfl
@[simp] theorem State.updItem_ptes : (s.updItem ik f).ptes = s.ptes := rfl
@[simp] theorem State.updItem_fat : (s.updItem ik f).fat = s.fat := rfl
@[simp] theorem State.updItem_used : (s.updItem ik f).used = s.used := rfl
@[simp] theorem State.updItem_lower : (s.updItem ik f).lower = s.lower := rfl
@[simp] theorem State.updItem_lowerBad : (s.updItem ik f).lowerBad = s.lowerBad := rfl
@[simp] theorem State.updItem_lowerErr : (s.updItem ik f).lowerErr = s.lowerErr := rfl
@[simp] theorem State.updItem_stalled : (s.updItem ik f).stalled = s.stalled := rfl
@[simp] theorem State.updItem_dir : (s.updItem ik f).dir = s.dir := rfl
@[simp] theorem State.updItem_coh : (s.updItem ik f).coh = s.coh := rfl
@[simp] theorem State.updItem_gathers : (s.updItem ik f).gathers = s.gathers := rfl
@[simp] theorem State.updItem_wbufs : (s.updItem ik f).wbufs = s.wbufs := rfl
@[simp] theorem State.updItem_rdc : (s.updItem ik f).rdc = s.rdc := rfl
@[simp] theorem State.updItem_l2 : (s.updItem ik f).l2 = s.l2 := rfl
@[simp] theorem State.updItem_errs : (s.updItem ik f).errs = s.errs := rfl
@[simp] theorem State.updItem_heap : (s.updItem ik f).heap = s.heap := rfl
@[simp] theorem State.updItem_heapFreed : (s.updItem ik f).heapFreed = s.heapFreed := rfl
@[simp] theorem State.updItem_lateFree : (s.updItem ik f).lateFree = s.lateFree := rfl
@[simp] theorem State.updItem_poolMiB : (s.updItem ik f).poolMiB = s.poolMiB := rfl
@[simp] theorem State.updItem_vers : (s.updItem ik f).vers = s.vers := rfl
@[simp] theorem State.updItem_jobs : (s.updItem ik f).jobs = s.jobs := rfl
@[simp] theorem State.updItem_launches : (s.updItem ik f).launches = s.launches := rfl
@[simp] theorem State.updItem_mgmt : (s.updItem ik f).mgmt = s.mgmt := rfl
@[simp] theorem State.updItem_host : (s.updItem ik f).host = s.host := rfl
@[simp] theorem State.updItem_hostHoles : (s.updItem ik f).hostHoles = s.hostHoles := rfl
@[simp] theorem State.updItem_linksDown : (s.updItem ik f).linksDown = s.linksDown := rfl
@[simp] theorem State.updItem_unreach : (s.updItem ik f).unreach = s.unreach := rfl
@[simp] theorem State.updItem_fabOut : (s.updItem ik f).fabOut = s.fabOut := rfl
@[simp] theorem State.updItem_fabAns : (s.updItem ik f).fabAns = s.fabAns := rfl
end

/-! ## `updGroup` -/

section
variable (s : State) (gk : Nat) (f : Group → Group)
@[simp] theorem State.updGroup_clock : (s.updGroup gk f).clock = s.clock := rfl
@[simp] theorem State.updGroup_tick : (s.updGroup gk f).tick = s.tick := rfl
@[simp] theorem State.updGroup_fresh : (s.updGroup gk f).fresh = s.fresh := rfl
@[simp] theorem State.updGroup_free : (s.updGroup gk f).free = s.free := rfl
@[simp] theorem State.updGroup_agenda : (s.updGroup gk f).agenda = s.agenda := rfl
@[simp] theorem State.updGroup_raised : (s.updGroup gk f).raised = s.raised := rfl
@[simp] theorem State.updGroup_yielded : (s.updGroup gk f).yielded = s.yielded := rfl
@[simp] theorem State.updGroup_cur : (s.updGroup gk f).cur = s.cur := rfl
@[simp] theorem State.updGroup_moved : (s.updGroup gk f).moved = s.moved := rfl
@[simp] theorem State.updGroup_trapped : (s.updGroup gk f).trapped = s.trapped := rfl
@[simp] theorem State.updGroup_devId : (s.updGroup gk f).devId = s.devId := rfl
@[simp] theorem State.updGroup_items : (s.updGroup gk f).items = s.items := rfl
@[simp] theorem State.updGroup_teams : (s.updGroup gk f).teams = s.teams := rfl
@[simp] theorem State.updGroup_spans : (s.updGroup gk f).spans = s.spans := rfl
@[simp] theorem State.updGroup_cores : (s.updGroup gk f).cores = s.cores := rfl
@[simp] theorem State.updGroup_ops : (s.updGroup gk f).ops = s.ops := rfl
@[simp] theorem State.updGroup_flagsLeft : (s.updGroup gk f).flagsLeft = s.flagsLeft := rfl
@[simp] theorem State.updGroup_phaseCores : (s.updGroup gk f).phaseCores = s.phaseCores := rfl
@[simp] theorem State.updGroup_cbars : (s.updGroup gk f).cbars = s.cbars := rfl
@[simp] theorem State.updGroup_mmacs : (s.updGroup gk f).mmacs = s.mmacs := rfl
@[simp] theorem State.updGroup_bops : (s.updGroup gk f).bops = s.bops := rfl
@[simp] theorem State.updGroup_tlb2 : (s.updGroup gk f).tlb2 = s.tlb2 := rfl
@[simp] theorem State.updGroup_mem : (s.updGroup gk f).mem = s.mem := rfl
@[simp] theorem State.updGroup_memErr : (s.updGroup gk f).memErr = s.memErr := rfl
@[simp] theorem State.updGroup_ptes : (s.updGroup gk f).ptes = s.ptes := rfl
@[simp] theorem State.updGroup_fat : (s.updGroup gk f).fat = s.fat := rfl
@[simp] theorem State.updGroup_used : (s.updGroup gk f).used = s.used := rfl
@[simp] theorem State.updGroup_lower : (s.updGroup gk f).lower = s.lower := rfl
@[simp] theorem State.updGroup_lowerBad : (s.updGroup gk f).lowerBad = s.lowerBad := rfl
@[simp] theorem State.updGroup_lowerErr : (s.updGroup gk f).lowerErr = s.lowerErr := rfl
@[simp] theorem State.updGroup_stalled : (s.updGroup gk f).stalled = s.stalled := rfl
@[simp] theorem State.updGroup_dir : (s.updGroup gk f).dir = s.dir := rfl
@[simp] theorem State.updGroup_coh : (s.updGroup gk f).coh = s.coh := rfl
@[simp] theorem State.updGroup_gathers : (s.updGroup gk f).gathers = s.gathers := rfl
@[simp] theorem State.updGroup_wbufs : (s.updGroup gk f).wbufs = s.wbufs := rfl
@[simp] theorem State.updGroup_rdc : (s.updGroup gk f).rdc = s.rdc := rfl
@[simp] theorem State.updGroup_l2 : (s.updGroup gk f).l2 = s.l2 := rfl
@[simp] theorem State.updGroup_errs : (s.updGroup gk f).errs = s.errs := rfl
@[simp] theorem State.updGroup_heap : (s.updGroup gk f).heap = s.heap := rfl
@[simp] theorem State.updGroup_heapFreed : (s.updGroup gk f).heapFreed = s.heapFreed := rfl
@[simp] theorem State.updGroup_lateFree : (s.updGroup gk f).lateFree = s.lateFree := rfl
@[simp] theorem State.updGroup_poolMiB : (s.updGroup gk f).poolMiB = s.poolMiB := rfl
@[simp] theorem State.updGroup_vers : (s.updGroup gk f).vers = s.vers := rfl
@[simp] theorem State.updGroup_jobs : (s.updGroup gk f).jobs = s.jobs := rfl
@[simp] theorem State.updGroup_launches : (s.updGroup gk f).launches = s.launches := rfl
@[simp] theorem State.updGroup_mgmt : (s.updGroup gk f).mgmt = s.mgmt := rfl
@[simp] theorem State.updGroup_host : (s.updGroup gk f).host = s.host := rfl
@[simp] theorem State.updGroup_hostHoles : (s.updGroup gk f).hostHoles = s.hostHoles := rfl
@[simp] theorem State.updGroup_linksDown : (s.updGroup gk f).linksDown = s.linksDown := rfl
@[simp] theorem State.updGroup_unreach : (s.updGroup gk f).unreach = s.unreach := rfl
@[simp] theorem State.updGroup_fabOut : (s.updGroup gk f).fabOut = s.fabOut := rfl
@[simp] theorem State.updGroup_fabAns : (s.updGroup gk f).fabAns = s.fabAns := rfl
end

/-! ## `updTeam` -/

section
variable (s : State) (tk : Nat) (f : Team → Team)
@[simp] theorem State.updTeam_clock : (s.updTeam tk f).clock = s.clock := rfl
@[simp] theorem State.updTeam_tick : (s.updTeam tk f).tick = s.tick := rfl
@[simp] theorem State.updTeam_fresh : (s.updTeam tk f).fresh = s.fresh := rfl
@[simp] theorem State.updTeam_free : (s.updTeam tk f).free = s.free := rfl
@[simp] theorem State.updTeam_agenda : (s.updTeam tk f).agenda = s.agenda := rfl
@[simp] theorem State.updTeam_raised : (s.updTeam tk f).raised = s.raised := rfl
@[simp] theorem State.updTeam_yielded : (s.updTeam tk f).yielded = s.yielded := rfl
@[simp] theorem State.updTeam_cur : (s.updTeam tk f).cur = s.cur := rfl
@[simp] theorem State.updTeam_moved : (s.updTeam tk f).moved = s.moved := rfl
@[simp] theorem State.updTeam_trapped : (s.updTeam tk f).trapped = s.trapped := rfl
@[simp] theorem State.updTeam_devId : (s.updTeam tk f).devId = s.devId := rfl
@[simp] theorem State.updTeam_items : (s.updTeam tk f).items = s.items := rfl
@[simp] theorem State.updTeam_groups : (s.updTeam tk f).groups = s.groups := rfl
@[simp] theorem State.updTeam_spans : (s.updTeam tk f).spans = s.spans := rfl
@[simp] theorem State.updTeam_cores : (s.updTeam tk f).cores = s.cores := rfl
@[simp] theorem State.updTeam_ops : (s.updTeam tk f).ops = s.ops := rfl
@[simp] theorem State.updTeam_flagsLeft : (s.updTeam tk f).flagsLeft = s.flagsLeft := rfl
@[simp] theorem State.updTeam_phaseCores : (s.updTeam tk f).phaseCores = s.phaseCores := rfl
@[simp] theorem State.updTeam_cbars : (s.updTeam tk f).cbars = s.cbars := rfl
@[simp] theorem State.updTeam_mmacs : (s.updTeam tk f).mmacs = s.mmacs := rfl
@[simp] theorem State.updTeam_bops : (s.updTeam tk f).bops = s.bops := rfl
@[simp] theorem State.updTeam_tlb2 : (s.updTeam tk f).tlb2 = s.tlb2 := rfl
@[simp] theorem State.updTeam_mem : (s.updTeam tk f).mem = s.mem := rfl
@[simp] theorem State.updTeam_memErr : (s.updTeam tk f).memErr = s.memErr := rfl
@[simp] theorem State.updTeam_ptes : (s.updTeam tk f).ptes = s.ptes := rfl
@[simp] theorem State.updTeam_fat : (s.updTeam tk f).fat = s.fat := rfl
@[simp] theorem State.updTeam_used : (s.updTeam tk f).used = s.used := rfl
@[simp] theorem State.updTeam_lower : (s.updTeam tk f).lower = s.lower := rfl
@[simp] theorem State.updTeam_lowerBad : (s.updTeam tk f).lowerBad = s.lowerBad := rfl
@[simp] theorem State.updTeam_lowerErr : (s.updTeam tk f).lowerErr = s.lowerErr := rfl
@[simp] theorem State.updTeam_stalled : (s.updTeam tk f).stalled = s.stalled := rfl
@[simp] theorem State.updTeam_dir : (s.updTeam tk f).dir = s.dir := rfl
@[simp] theorem State.updTeam_coh : (s.updTeam tk f).coh = s.coh := rfl
@[simp] theorem State.updTeam_gathers : (s.updTeam tk f).gathers = s.gathers := rfl
@[simp] theorem State.updTeam_wbufs : (s.updTeam tk f).wbufs = s.wbufs := rfl
@[simp] theorem State.updTeam_rdc : (s.updTeam tk f).rdc = s.rdc := rfl
@[simp] theorem State.updTeam_l2 : (s.updTeam tk f).l2 = s.l2 := rfl
@[simp] theorem State.updTeam_errs : (s.updTeam tk f).errs = s.errs := rfl
@[simp] theorem State.updTeam_heap : (s.updTeam tk f).heap = s.heap := rfl
@[simp] theorem State.updTeam_heapFreed : (s.updTeam tk f).heapFreed = s.heapFreed := rfl
@[simp] theorem State.updTeam_lateFree : (s.updTeam tk f).lateFree = s.lateFree := rfl
@[simp] theorem State.updTeam_poolMiB : (s.updTeam tk f).poolMiB = s.poolMiB := rfl
@[simp] theorem State.updTeam_vers : (s.updTeam tk f).vers = s.vers := rfl
@[simp] theorem State.updTeam_jobs : (s.updTeam tk f).jobs = s.jobs := rfl
@[simp] theorem State.updTeam_launches : (s.updTeam tk f).launches = s.launches := rfl
@[simp] theorem State.updTeam_mgmt : (s.updTeam tk f).mgmt = s.mgmt := rfl
@[simp] theorem State.updTeam_host : (s.updTeam tk f).host = s.host := rfl
@[simp] theorem State.updTeam_hostHoles : (s.updTeam tk f).hostHoles = s.hostHoles := rfl
@[simp] theorem State.updTeam_linksDown : (s.updTeam tk f).linksDown = s.linksDown := rfl
@[simp] theorem State.updTeam_unreach : (s.updTeam tk f).unreach = s.unreach := rfl
@[simp] theorem State.updTeam_fabOut : (s.updTeam tk f).fabOut = s.fabOut := rfl
@[simp] theorem State.updTeam_fabAns : (s.updTeam tk f).fabAns = s.fabAns := rfl
end

/-! ## `updCore` -/

section
variable (s : State) (c : Nat) (f : Core → Core)
@[simp] theorem State.updCore_clock : (s.updCore c f).clock = s.clock := rfl
@[simp] theorem State.updCore_tick : (s.updCore c f).tick = s.tick := rfl
@[simp] theorem State.updCore_fresh : (s.updCore c f).fresh = s.fresh := rfl
@[simp] theorem State.updCore_free : (s.updCore c f).free = s.free := rfl
@[simp] theorem State.updCore_agenda : (s.updCore c f).agenda = s.agenda := rfl
@[simp] theorem State.updCore_raised : (s.updCore c f).raised = s.raised := rfl
@[simp] theorem State.updCore_yielded : (s.updCore c f).yielded = s.yielded := rfl
@[simp] theorem State.updCore_cur : (s.updCore c f).cur = s.cur := rfl
@[simp] theorem State.updCore_moved : (s.updCore c f).moved = s.moved := rfl
@[simp] theorem State.updCore_trapped : (s.updCore c f).trapped = s.trapped := rfl
@[simp] theorem State.updCore_devId : (s.updCore c f).devId = s.devId := rfl
@[simp] theorem State.updCore_items : (s.updCore c f).items = s.items := rfl
@[simp] theorem State.updCore_groups : (s.updCore c f).groups = s.groups := rfl
@[simp] theorem State.updCore_teams : (s.updCore c f).teams = s.teams := rfl
@[simp] theorem State.updCore_spans : (s.updCore c f).spans = s.spans := rfl
@[simp] theorem State.updCore_ops : (s.updCore c f).ops = s.ops := rfl
@[simp] theorem State.updCore_flagsLeft : (s.updCore c f).flagsLeft = s.flagsLeft := rfl
@[simp] theorem State.updCore_phaseCores : (s.updCore c f).phaseCores = s.phaseCores := rfl
@[simp] theorem State.updCore_cbars : (s.updCore c f).cbars = s.cbars := rfl
@[simp] theorem State.updCore_mmacs : (s.updCore c f).mmacs = s.mmacs := rfl
@[simp] theorem State.updCore_bops : (s.updCore c f).bops = s.bops := rfl
@[simp] theorem State.updCore_tlb2 : (s.updCore c f).tlb2 = s.tlb2 := rfl
@[simp] theorem State.updCore_mem : (s.updCore c f).mem = s.mem := rfl
@[simp] theorem State.updCore_memErr : (s.updCore c f).memErr = s.memErr := rfl
@[simp] theorem State.updCore_ptes : (s.updCore c f).ptes = s.ptes := rfl
@[simp] theorem State.updCore_fat : (s.updCore c f).fat = s.fat := rfl
@[simp] theorem State.updCore_used : (s.updCore c f).used = s.used := rfl
@[simp] theorem State.updCore_lower : (s.updCore c f).lower = s.lower := rfl
@[simp] theorem State.updCore_lowerBad : (s.updCore c f).lowerBad = s.lowerBad := rfl
@[simp] theorem State.updCore_lowerErr : (s.updCore c f).lowerErr = s.lowerErr := rfl
@[simp] theorem State.updCore_stalled : (s.updCore c f).stalled = s.stalled := rfl
@[simp] theorem State.updCore_dir : (s.updCore c f).dir = s.dir := rfl
@[simp] theorem State.updCore_coh : (s.updCore c f).coh = s.coh := rfl
@[simp] theorem State.updCore_gathers : (s.updCore c f).gathers = s.gathers := rfl
@[simp] theorem State.updCore_wbufs : (s.updCore c f).wbufs = s.wbufs := rfl
@[simp] theorem State.updCore_rdc : (s.updCore c f).rdc = s.rdc := rfl
@[simp] theorem State.updCore_l2 : (s.updCore c f).l2 = s.l2 := rfl
@[simp] theorem State.updCore_errs : (s.updCore c f).errs = s.errs := rfl
@[simp] theorem State.updCore_heap : (s.updCore c f).heap = s.heap := rfl
@[simp] theorem State.updCore_heapFreed : (s.updCore c f).heapFreed = s.heapFreed := rfl
@[simp] theorem State.updCore_lateFree : (s.updCore c f).lateFree = s.lateFree := rfl
@[simp] theorem State.updCore_poolMiB : (s.updCore c f).poolMiB = s.poolMiB := rfl
@[simp] theorem State.updCore_vers : (s.updCore c f).vers = s.vers := rfl
@[simp] theorem State.updCore_jobs : (s.updCore c f).jobs = s.jobs := rfl
@[simp] theorem State.updCore_launches : (s.updCore c f).launches = s.launches := rfl
@[simp] theorem State.updCore_mgmt : (s.updCore c f).mgmt = s.mgmt := rfl
@[simp] theorem State.updCore_host : (s.updCore c f).host = s.host := rfl
@[simp] theorem State.updCore_hostHoles : (s.updCore c f).hostHoles = s.hostHoles := rfl
@[simp] theorem State.updCore_linksDown : (s.updCore c f).linksDown = s.linksDown := rfl
@[simp] theorem State.updCore_unreach : (s.updCore c f).unreach = s.unreach := rfl
@[simp] theorem State.updCore_fabOut : (s.updCore c f).fabOut = s.fabOut := rfl
@[simp] theorem State.updCore_fabAns : (s.updCore c f).fabAns = s.fabAns := rfl
end

/-! ## `updJob` -/

section
variable (s : State) (j : Nat) (f : Job → Job)
@[simp] theorem State.updJob_clock : (s.updJob j f).clock = s.clock := rfl
@[simp] theorem State.updJob_tick : (s.updJob j f).tick = s.tick := rfl
@[simp] theorem State.updJob_fresh : (s.updJob j f).fresh = s.fresh := rfl
@[simp] theorem State.updJob_free : (s.updJob j f).free = s.free := rfl
@[simp] theorem State.updJob_agenda : (s.updJob j f).agenda = s.agenda := rfl
@[simp] theorem State.updJob_raised : (s.updJob j f).raised = s.raised := rfl
@[simp] theorem State.updJob_yielded : (s.updJob j f).yielded = s.yielded := rfl
@[simp] theorem State.updJob_cur : (s.updJob j f).cur = s.cur := rfl
@[simp] theorem State.updJob_moved : (s.updJob j f).moved = s.moved := rfl
@[simp] theorem State.updJob_trapped : (s.updJob j f).trapped = s.trapped := rfl
@[simp] theorem State.updJob_devId : (s.updJob j f).devId = s.devId := rfl
@[simp] theorem State.updJob_items : (s.updJob j f).items = s.items := rfl
@[simp] theorem State.updJob_groups : (s.updJob j f).groups = s.groups := rfl
@[simp] theorem State.updJob_teams : (s.updJob j f).teams = s.teams := rfl
@[simp] theorem State.updJob_spans : (s.updJob j f).spans = s.spans := rfl
@[simp] theorem State.updJob_cores : (s.updJob j f).cores = s.cores := rfl
@[simp] theorem State.updJob_ops : (s.updJob j f).ops = s.ops := rfl
@[simp] theorem State.updJob_flagsLeft : (s.updJob j f).flagsLeft = s.flagsLeft := rfl
@[simp] theorem State.updJob_phaseCores : (s.updJob j f).phaseCores = s.phaseCores := rfl
@[simp] theorem State.updJob_cbars : (s.updJob j f).cbars = s.cbars := rfl
@[simp] theorem State.updJob_mmacs : (s.updJob j f).mmacs = s.mmacs := rfl
@[simp] theorem State.updJob_bops : (s.updJob j f).bops = s.bops := rfl
@[simp] theorem State.updJob_tlb2 : (s.updJob j f).tlb2 = s.tlb2 := rfl
@[simp] theorem State.updJob_mem : (s.updJob j f).mem = s.mem := rfl
@[simp] theorem State.updJob_memErr : (s.updJob j f).memErr = s.memErr := rfl
@[simp] theorem State.updJob_ptes : (s.updJob j f).ptes = s.ptes := rfl
@[simp] theorem State.updJob_fat : (s.updJob j f).fat = s.fat := rfl
@[simp] theorem State.updJob_used : (s.updJob j f).used = s.used := rfl
@[simp] theorem State.updJob_lower : (s.updJob j f).lower = s.lower := rfl
@[simp] theorem State.updJob_lowerBad : (s.updJob j f).lowerBad = s.lowerBad := rfl
@[simp] theorem State.updJob_lowerErr : (s.updJob j f).lowerErr = s.lowerErr := rfl
@[simp] theorem State.updJob_stalled : (s.updJob j f).stalled = s.stalled := rfl
@[simp] theorem State.updJob_dir : (s.updJob j f).dir = s.dir := rfl
@[simp] theorem State.updJob_coh : (s.updJob j f).coh = s.coh := rfl
@[simp] theorem State.updJob_gathers : (s.updJob j f).gathers = s.gathers := rfl
@[simp] theorem State.updJob_wbufs : (s.updJob j f).wbufs = s.wbufs := rfl
@[simp] theorem State.updJob_rdc : (s.updJob j f).rdc = s.rdc := rfl
@[simp] theorem State.updJob_l2 : (s.updJob j f).l2 = s.l2 := rfl
@[simp] theorem State.updJob_errs : (s.updJob j f).errs = s.errs := rfl
@[simp] theorem State.updJob_heap : (s.updJob j f).heap = s.heap := rfl
@[simp] theorem State.updJob_heapFreed : (s.updJob j f).heapFreed = s.heapFreed := rfl
@[simp] theorem State.updJob_lateFree : (s.updJob j f).lateFree = s.lateFree := rfl
@[simp] theorem State.updJob_poolMiB : (s.updJob j f).poolMiB = s.poolMiB := rfl
@[simp] theorem State.updJob_vers : (s.updJob j f).vers = s.vers := rfl
@[simp] theorem State.updJob_launches : (s.updJob j f).launches = s.launches := rfl
@[simp] theorem State.updJob_mgmt : (s.updJob j f).mgmt = s.mgmt := rfl
@[simp] theorem State.updJob_host : (s.updJob j f).host = s.host := rfl
@[simp] theorem State.updJob_hostHoles : (s.updJob j f).hostHoles = s.hostHoles := rfl
@[simp] theorem State.updJob_linksDown : (s.updJob j f).linksDown = s.linksDown := rfl
@[simp] theorem State.updJob_unreach : (s.updJob j f).unreach = s.unreach := rfl
@[simp] theorem State.updJob_fabOut : (s.updJob j f).fabOut = s.fabOut := rfl
@[simp] theorem State.updJob_fabAns : (s.updJob j f).fabAns = s.fabAns := rfl
end

/-! ## `updLaunch` -/

section
variable (s : State) (lk : Nat) (f : Launch → Launch)
@[simp] theorem State.updLaunch_clock : (s.updLaunch lk f).clock = s.clock := rfl
@[simp] theorem State.updLaunch_tick : (s.updLaunch lk f).tick = s.tick := rfl
@[simp] theorem State.updLaunch_fresh : (s.updLaunch lk f).fresh = s.fresh := rfl
@[simp] theorem State.updLaunch_free : (s.updLaunch lk f).free = s.free := rfl
@[simp] theorem State.updLaunch_agenda : (s.updLaunch lk f).agenda = s.agenda := rfl
@[simp] theorem State.updLaunch_raised : (s.updLaunch lk f).raised = s.raised := rfl
@[simp] theorem State.updLaunch_yielded : (s.updLaunch lk f).yielded = s.yielded := rfl
@[simp] theorem State.updLaunch_cur : (s.updLaunch lk f).cur = s.cur := rfl
@[simp] theorem State.updLaunch_moved : (s.updLaunch lk f).moved = s.moved := rfl
@[simp] theorem State.updLaunch_trapped : (s.updLaunch lk f).trapped = s.trapped := rfl
@[simp] theorem State.updLaunch_devId : (s.updLaunch lk f).devId = s.devId := rfl
@[simp] theorem State.updLaunch_items : (s.updLaunch lk f).items = s.items := rfl
@[simp] theorem State.updLaunch_groups : (s.updLaunch lk f).groups = s.groups := rfl
@[simp] theorem State.updLaunch_teams : (s.updLaunch lk f).teams = s.teams := rfl
@[simp] theorem State.updLaunch_spans : (s.updLaunch lk f).spans = s.spans := rfl
@[simp] theorem State.updLaunch_cores : (s.updLaunch lk f).cores = s.cores := rfl
@[simp] theorem State.updLaunch_ops : (s.updLaunch lk f).ops = s.ops := rfl
@[simp] theorem State.updLaunch_flagsLeft : (s.updLaunch lk f).flagsLeft = s.flagsLeft := rfl
@[simp] theorem State.updLaunch_phaseCores : (s.updLaunch lk f).phaseCores = s.phaseCores := rfl
@[simp] theorem State.updLaunch_cbars : (s.updLaunch lk f).cbars = s.cbars := rfl
@[simp] theorem State.updLaunch_mmacs : (s.updLaunch lk f).mmacs = s.mmacs := rfl
@[simp] theorem State.updLaunch_bops : (s.updLaunch lk f).bops = s.bops := rfl
@[simp] theorem State.updLaunch_tlb2 : (s.updLaunch lk f).tlb2 = s.tlb2 := rfl
@[simp] theorem State.updLaunch_mem : (s.updLaunch lk f).mem = s.mem := rfl
@[simp] theorem State.updLaunch_memErr : (s.updLaunch lk f).memErr = s.memErr := rfl
@[simp] theorem State.updLaunch_ptes : (s.updLaunch lk f).ptes = s.ptes := rfl
@[simp] theorem State.updLaunch_fat : (s.updLaunch lk f).fat = s.fat := rfl
@[simp] theorem State.updLaunch_used : (s.updLaunch lk f).used = s.used := rfl
@[simp] theorem State.updLaunch_lower : (s.updLaunch lk f).lower = s.lower := rfl
@[simp] theorem State.updLaunch_lowerBad : (s.updLaunch lk f).lowerBad = s.lowerBad := rfl
@[simp] theorem State.updLaunch_lowerErr : (s.updLaunch lk f).lowerErr = s.lowerErr := rfl
@[simp] theorem State.updLaunch_stalled : (s.updLaunch lk f).stalled = s.stalled := rfl
@[simp] theorem State.updLaunch_dir : (s.updLaunch lk f).dir = s.dir := rfl
@[simp] theorem State.updLaunch_coh : (s.updLaunch lk f).coh = s.coh := rfl
@[simp] theorem State.updLaunch_gathers : (s.updLaunch lk f).gathers = s.gathers := rfl
@[simp] theorem State.updLaunch_wbufs : (s.updLaunch lk f).wbufs = s.wbufs := rfl
@[simp] theorem State.updLaunch_rdc : (s.updLaunch lk f).rdc = s.rdc := rfl
@[simp] theorem State.updLaunch_l2 : (s.updLaunch lk f).l2 = s.l2 := rfl
@[simp] theorem State.updLaunch_errs : (s.updLaunch lk f).errs = s.errs := rfl
@[simp] theorem State.updLaunch_heap : (s.updLaunch lk f).heap = s.heap := rfl
@[simp] theorem State.updLaunch_heapFreed : (s.updLaunch lk f).heapFreed = s.heapFreed := rfl
@[simp] theorem State.updLaunch_lateFree : (s.updLaunch lk f).lateFree = s.lateFree := rfl
@[simp] theorem State.updLaunch_poolMiB : (s.updLaunch lk f).poolMiB = s.poolMiB := rfl
@[simp] theorem State.updLaunch_vers : (s.updLaunch lk f).vers = s.vers := rfl
@[simp] theorem State.updLaunch_jobs : (s.updLaunch lk f).jobs = s.jobs := rfl
@[simp] theorem State.updLaunch_mgmt : (s.updLaunch lk f).mgmt = s.mgmt := rfl
@[simp] theorem State.updLaunch_host : (s.updLaunch lk f).host = s.host := rfl
@[simp] theorem State.updLaunch_hostHoles : (s.updLaunch lk f).hostHoles = s.hostHoles := rfl
@[simp] theorem State.updLaunch_linksDown : (s.updLaunch lk f).linksDown = s.linksDown := rfl
@[simp] theorem State.updLaunch_unreach : (s.updLaunch lk f).unreach = s.unreach := rfl
@[simp] theorem State.updLaunch_fabOut : (s.updLaunch lk f).fabOut = s.fabOut := rfl
@[simp] theorem State.updLaunch_fabAns : (s.updLaunch lk f).fabAns = s.fabAns := rfl
end

/-! ## `leave` -/

section
variable (s : State) (ik : Nat)
@[simp] theorem State.leave_clock : (s.leave ik).clock = s.clock := rfl
@[simp] theorem State.leave_tick : (s.leave ik).tick = s.tick := rfl
@[simp] theorem State.leave_fresh : (s.leave ik).fresh = s.fresh := rfl
@[simp] theorem State.leave_free : (s.leave ik).free = s.free := rfl
@[simp] theorem State.leave_agenda : (s.leave ik).agenda = s.agenda := rfl
@[simp] theorem State.leave_raised : (s.leave ik).raised = s.raised := rfl
@[simp] theorem State.leave_yielded : (s.leave ik).yielded = s.yielded := rfl
@[simp] theorem State.leave_moved : (s.leave ik).moved = s.moved := rfl
@[simp] theorem State.leave_trapped : (s.leave ik).trapped = s.trapped := rfl
@[simp] theorem State.leave_devId : (s.leave ik).devId = s.devId := rfl
@[simp] theorem State.leave_items : (s.leave ik).items = s.items := rfl
@[simp] theorem State.leave_groups : (s.leave ik).groups = s.groups := rfl
@[simp] theorem State.leave_teams : (s.leave ik).teams = s.teams := rfl
@[simp] theorem State.leave_spans : (s.leave ik).spans = s.spans := rfl
@[simp] theorem State.leave_cores : (s.leave ik).cores = s.cores := rfl
@[simp] theorem State.leave_ops : (s.leave ik).ops = s.ops := rfl
@[simp] theorem State.leave_flagsLeft : (s.leave ik).flagsLeft = s.flagsLeft := rfl
@[simp] theorem State.leave_phaseCores : (s.leave ik).phaseCores = s.phaseCores := rfl
@[simp] theorem State.leave_cbars : (s.leave ik).cbars = s.cbars := rfl
@[simp] theorem State.leave_mmacs : (s.leave ik).mmacs = s.mmacs := rfl
@[simp] theorem State.leave_bops : (s.leave ik).bops = s.bops := rfl
@[simp] theorem State.leave_tlb2 : (s.leave ik).tlb2 = s.tlb2 := rfl
@[simp] theorem State.leave_mem : (s.leave ik).mem = s.mem := rfl
@[simp] theorem State.leave_memErr : (s.leave ik).memErr = s.memErr := rfl
@[simp] theorem State.leave_ptes : (s.leave ik).ptes = s.ptes := rfl
@[simp] theorem State.leave_fat : (s.leave ik).fat = s.fat := rfl
@[simp] theorem State.leave_used : (s.leave ik).used = s.used := rfl
@[simp] theorem State.leave_lower : (s.leave ik).lower = s.lower := rfl
@[simp] theorem State.leave_lowerBad : (s.leave ik).lowerBad = s.lowerBad := rfl
@[simp] theorem State.leave_lowerErr : (s.leave ik).lowerErr = s.lowerErr := rfl
@[simp] theorem State.leave_stalled : (s.leave ik).stalled = s.stalled := rfl
@[simp] theorem State.leave_dir : (s.leave ik).dir = s.dir := rfl
@[simp] theorem State.leave_coh : (s.leave ik).coh = s.coh := rfl
@[simp] theorem State.leave_gathers : (s.leave ik).gathers = s.gathers := rfl
@[simp] theorem State.leave_wbufs : (s.leave ik).wbufs = s.wbufs := rfl
@[simp] theorem State.leave_rdc : (s.leave ik).rdc = s.rdc := rfl
@[simp] theorem State.leave_l2 : (s.leave ik).l2 = s.l2 := rfl
@[simp] theorem State.leave_errs : (s.leave ik).errs = s.errs := rfl
@[simp] theorem State.leave_heap : (s.leave ik).heap = s.heap := rfl
@[simp] theorem State.leave_heapFreed : (s.leave ik).heapFreed = s.heapFreed := rfl
@[simp] theorem State.leave_lateFree : (s.leave ik).lateFree = s.lateFree := rfl
@[simp] theorem State.leave_poolMiB : (s.leave ik).poolMiB = s.poolMiB := rfl
@[simp] theorem State.leave_vers : (s.leave ik).vers = s.vers := rfl
@[simp] theorem State.leave_jobs : (s.leave ik).jobs = s.jobs := rfl
@[simp] theorem State.leave_launches : (s.leave ik).launches = s.launches := rfl
@[simp] theorem State.leave_mgmt : (s.leave ik).mgmt = s.mgmt := rfl
@[simp] theorem State.leave_host : (s.leave ik).host = s.host := rfl
@[simp] theorem State.leave_hostHoles : (s.leave ik).hostHoles = s.hostHoles := rfl
@[simp] theorem State.leave_linksDown : (s.leave ik).linksDown = s.linksDown := rfl
@[simp] theorem State.leave_unreach : (s.leave ik).unreach = s.unreach := rfl
@[simp] theorem State.leave_fabOut : (s.leave ik).fabOut = s.fabOut := rfl
@[simp] theorem State.leave_fabAns : (s.leave ik).fabAns = s.fabAns := rfl
end

/-! ## `advance` -/

section
variable (s : State) (ik len : Nat)
@[simp] theorem State.advance_clock : (s.advance ik len).clock = s.clock := rfl
@[simp] theorem State.advance_tick : (s.advance ik len).tick = s.tick := rfl
@[simp] theorem State.advance_fresh : (s.advance ik len).fresh = s.fresh := rfl
@[simp] theorem State.advance_free : (s.advance ik len).free = s.free := rfl
@[simp] theorem State.advance_agenda : (s.advance ik len).agenda = s.agenda := rfl
@[simp] theorem State.advance_raised : (s.advance ik len).raised = s.raised := rfl
@[simp] theorem State.advance_yielded : (s.advance ik len).yielded = s.yielded := rfl
@[simp] theorem State.advance_cur : (s.advance ik len).cur = s.cur := rfl
@[simp] theorem State.advance_trapped : (s.advance ik len).trapped = s.trapped := rfl
@[simp] theorem State.advance_devId : (s.advance ik len).devId = s.devId := rfl
@[simp] theorem State.advance_groups : (s.advance ik len).groups = s.groups := rfl
@[simp] theorem State.advance_teams : (s.advance ik len).teams = s.teams := rfl
@[simp] theorem State.advance_spans : (s.advance ik len).spans = s.spans := rfl
@[simp] theorem State.advance_cores : (s.advance ik len).cores = s.cores := rfl
@[simp] theorem State.advance_ops : (s.advance ik len).ops = s.ops := rfl
@[simp] theorem State.advance_flagsLeft : (s.advance ik len).flagsLeft = s.flagsLeft := rfl
@[simp] theorem State.advance_phaseCores : (s.advance ik len).phaseCores = s.phaseCores := rfl
@[simp] theorem State.advance_cbars : (s.advance ik len).cbars = s.cbars := rfl
@[simp] theorem State.advance_mmacs : (s.advance ik len).mmacs = s.mmacs := rfl
@[simp] theorem State.advance_bops : (s.advance ik len).bops = s.bops := rfl
@[simp] theorem State.advance_tlb2 : (s.advance ik len).tlb2 = s.tlb2 := rfl
@[simp] theorem State.advance_mem : (s.advance ik len).mem = s.mem := rfl
@[simp] theorem State.advance_memErr : (s.advance ik len).memErr = s.memErr := rfl
@[simp] theorem State.advance_ptes : (s.advance ik len).ptes = s.ptes := rfl
@[simp] theorem State.advance_fat : (s.advance ik len).fat = s.fat := rfl
@[simp] theorem State.advance_used : (s.advance ik len).used = s.used := rfl
@[simp] theorem State.advance_lower : (s.advance ik len).lower = s.lower := rfl
@[simp] theorem State.advance_lowerBad : (s.advance ik len).lowerBad = s.lowerBad := rfl
@[simp] theorem State.advance_lowerErr : (s.advance ik len).lowerErr = s.lowerErr := rfl
@[simp] theorem State.advance_stalled : (s.advance ik len).stalled = s.stalled := rfl
@[simp] theorem State.advance_dir : (s.advance ik len).dir = s.dir := rfl
@[simp] theorem State.advance_coh : (s.advance ik len).coh = s.coh := rfl
@[simp] theorem State.advance_gathers : (s.advance ik len).gathers = s.gathers := rfl
@[simp] theorem State.advance_wbufs : (s.advance ik len).wbufs = s.wbufs := rfl
@[simp] theorem State.advance_rdc : (s.advance ik len).rdc = s.rdc := rfl
@[simp] theorem State.advance_l2 : (s.advance ik len).l2 = s.l2 := rfl
@[simp] theorem State.advance_errs : (s.advance ik len).errs = s.errs := rfl
@[simp] theorem State.advance_heap : (s.advance ik len).heap = s.heap := rfl
@[simp] theorem State.advance_heapFreed : (s.advance ik len).heapFreed = s.heapFreed := rfl
@[simp] theorem State.advance_lateFree : (s.advance ik len).lateFree = s.lateFree := rfl
@[simp] theorem State.advance_poolMiB : (s.advance ik len).poolMiB = s.poolMiB := rfl
@[simp] theorem State.advance_vers : (s.advance ik len).vers = s.vers := rfl
@[simp] theorem State.advance_jobs : (s.advance ik len).jobs = s.jobs := rfl
@[simp] theorem State.advance_launches : (s.advance ik len).launches = s.launches := rfl
@[simp] theorem State.advance_mgmt : (s.advance ik len).mgmt = s.mgmt := rfl
@[simp] theorem State.advance_host : (s.advance ik len).host = s.host := rfl
@[simp] theorem State.advance_hostHoles : (s.advance ik len).hostHoles = s.hostHoles := rfl
@[simp] theorem State.advance_linksDown : (s.advance ik len).linksDown = s.linksDown := rfl
@[simp] theorem State.advance_unreach : (s.advance ik len).unreach = s.unreach := rfl
@[simp] theorem State.advance_fabOut : (s.advance ik len).fabOut = s.fabOut := rfl
@[simp] theorem State.advance_fabAns : (s.advance ik len).fabAns = s.fabAns := rfl
end

/-! ## Lookups -/

theorem State.item?_updItem (s : State) (ik : Nat) (f : Item → Item) (k : Nat) :
    (s.updItem ik f).item? k = if ik = k then (s.item? k).map f else s.item? k := AMap.find_upd ..
@[simp] theorem State.item?_updItem_same (s : State) (ik : Nat) (f : Item → Item) :
    (s.updItem ik f).item? ik = (s.item? ik).map f := by simp [State.item?_updItem]
@[simp] theorem State.item?_updGroup (s : State) (gk : Nat) (f : Group → Group) (k : Nat) :
    (s.updGroup gk f).item? k = s.item? k := rfl
@[simp] theorem State.item?_updCore (s : State) (c : Nat) (f : Core → Core) (k : Nat) :
    (s.updCore c f).item? k = s.item? k := rfl
@[simp] theorem State.item?_updTeam (s : State) (tk : Nat) (f : Team → Team) (k : Nat) :
    (s.updTeam tk f).item? k = s.item? k := rfl
@[simp] theorem State.item?_updLaunch (s : State) (lk : Nat) (f : Launch → Launch) (k : Nat) :
    (s.updLaunch lk f).item? k = s.item? k := rfl
@[simp] theorem State.groupD_updItem (s : State) (ik : Nat) (f : Item → Item) (k : Nat) :
    (s.updItem ik f).groupD k = s.groupD k := rfl
theorem State.groupD_updGroup (s : State) (gk : Nat) (f : Group → Group) (k : Nat) (g : Group)
    (h : AMap.find s.groups gk = some g) : (s.updGroup gk f).groupD k = if gk = k then f g else s.groupD k := by
  unfold State.groupD State.updGroup AMap.getD
  simp only [AMap.find_upd]
  split
  · rename_i e; subst e; simp [h]
  · rfl
theorem State.core_updCore (s : State) (c : Nat) (f : Core → Core) (k : Nat) :
    (s.updCore c f).core k = if c = k then f (s.core c) else s.core k := by
  unfold State.core State.updCore AMap.getD
  simp only [AMap.find_put]
  split <;> rfl
@[simp] theorem State.core_updItem (s : State) (ik : Nat) (f : Item → Item) (k : Nat) :
    (s.updItem ik f).core k = s.core k := rfl
@[simp] theorem State.core_updGroup (s : State) (gk : Nat) (f : Group → Group) (k : Nat) :
    (s.updGroup gk f).core k = s.core k := rfl
@[simp] theorem State.item?_leave (s : State) (ik k : Nat) : (s.leave ik).item? k = s.item? k := rfl
theorem State.item?_advance (s : State) (ik len k : Nat) :
    (s.advance ik len).item? k =
      if ik = k then (s.item? k).map (fun it => { it with pc := it.pc + BitVec.ofNat 64 len, skip := false })
      else s.item? k := AMap.find_upd ..

end Sys2Proof.Machine
end

