-- ==== Sys2Proof/Laws/Frames.lean ====
section
/-! SUPPORT. What the shared operations on one item leave unchanged: register and predicate writes, flags, passing a word, and
taking a trap (R10, R48, R50, R108, R222). -/

namespace Sys2Proof.Machine

set_option linter.unusedSimpArgs false
set_option Elab.async false

theorem OnlyItem.refl (s : State) (ik : Nat) : OnlyItem s s ik := ⟨rfl, fun _ _ => rfl, fun _ _ => rfl, fun _ => rfl⟩
theorem OnlyItem.trans {s t u : State} {ik : Nat} (h : OnlyItem s t ik) (k : OnlyItem t u ik) : OnlyItem s u ik where
  rest := by rw [k.rest, h.rest]
  items := fun i e => (k.items i e).trans (h.items i e)
  groups := fun i e => (k.groups i e).trans (h.groups i e)
  cores := fun c => by rw [k.cores c, h.cores c]
theorem OnlyItem.updItem (s : State) (ik : Nat) (f : Item → Item) : OnlyItem s (s.updItem ik f) ik :=
  ⟨rfl, fun k e => by simp [State.item?_updItem, Ne.symm e], fun _ _ => rfl, fun _ => rfl⟩
theorem OnlyItem.updGroup (s : State) (ik : Nat) (f : Group → Group) : OnlyItem s (s.updGroup (groupOf ik) f) ik :=
  ⟨rfl, fun _ _ => rfl, fun k e => by simp [State.updGroup, AMap.find_upd, Ne.symm e], fun _ => rfl⟩
theorem OnlyItem.advance (s : State) (ik len : Nat) : OnlyItem s (s.advance ik len) ik :=
  ⟨rfl, fun k e => by simp [State.item?_advance, Ne.symm e], fun _ _ => rfl, fun _ => rfl⟩
theorem OnlyItem.leave (s : State) (ik : Nat) : OnlyItem s (s.leave ik) ik :=
  ⟨rfl, fun _ _ => rfl, fun _ _ => rfl, fun _ => rfl⟩
theorem OnlyItem.addFlags (s : State) (ik : Nat) (fl : Flg) : OnlyItem s (s.addFlags ik fl) ik := by
  unfold State.addFlags
  split
  · exact .refl ..
  · exact .updGroup ..
theorem OnlyItem.setReg (s : State) (ik : Nat) (r : RegRef) (x : Reg) : OnlyItem s (s.setReg ik r x) ik := by
  cases r
  · exact .updItem ..
  · exact .updGroup ..
theorem OnlyItem.setRegs (ik : Nat) (xs : List W32) : ∀ (s : State) (r : RegRef), OnlyItem s (s.setRegs ik r xs) ik := by
  induction xs with
  | nil => exact fun s _ => .refl s ik
  | cons x xs ih => exact fun s r => (OnlyItem.setReg s ik r _).trans (ih _ _)
theorem OnlyItem.dest (s : State) (ik : Nat) (r : RegRef) (n v : Nat) : OnlyItem s (s.dest ik r n v) ik := by
  unfold State.dest
  cases r
  · exact .setRegs ..
  · dsimp only
    split
    · exact .setRegs ..
    · exact .refl ..
theorem OnlyItem.foldl {α : Type} (ik : Nat) (f : State → α → State) (hf : ∀ s a, OnlyItem s (f s a) ik) (l : List α) :
    ∀ s : State, OnlyItem s (l.foldl f s) ik := by
  induction l with
  | nil => exact fun s => .refl s ik
  | cons a l ih => exact fun s => (hf s a).trans (ih _)
theorem OnlyItem.destPoison (s : State) (ik : Nat) (r : RegRef) (n : Nat) (p : W32) : OnlyItem s (s.destPoison ik r n p) ik := by
  unfold State.destPoison
  have h := OnlyItem.foldl ik (fun t i => t.setReg ik (r.plus i) ⟨p &&& 0x3F, .poison, none⟩) (fun s i => OnlyItem.setReg ..)
    (List.range n) s
  cases r
  · exact h
  · dsimp only
    split
    · exact h
    · exact .refl ..
theorem OnlyItem.takeTrap (s : State) (ik : Nat) (t : Trap) (pc : W64) : OnlyItem s (s.takeTrap ik t pc) ik := by
  unfold State.takeTrap
  split
  · exact .refl ..
  · dsimp only
    have h0 : OnlyItem s { s with moved := true, trapped := ik :: s.trapped } ik := ⟨rfl, fun _ _ => rfl, fun _ _ => rfl, fun _ => rfl⟩
    split
    · exact h0.trans (.updItem ..)
    · exact h0.trans (.updItem ..)
    · refine h0.trans ⟨rfl, fun _ _ => rfl, ?_, ?_⟩
      · intro k e
        simp [State.haltGroup, State.postEvent, State.updCore, State.updGroup, AMap.find_upd, Ne.symm e]
      · intro c
        simp only [State.postEvent, State.core_updCore, State.haltGroup, State.core_updGroup]
        split
        · rename_i e; subst e; rfl
        · rfl
theorem OnlyItem.wrote (s : State) (ik : Nat) (r : RegRef) (n v : Nat) (fl : Flg) (len : Nat) :
    OnlyItem s (s.wrote ik r n v fl len) ik := ((OnlyItem.addFlags ..).trans (.dest ..)).trans (.advance ..)
theorem OnlyItem.wroteP (s : State) (ik : Nat) (n : BitVec 3) (b : Bool) (fl : Flg) :
    OnlyItem s (s.wroteP ik n b fl) ik := ((OnlyItem.addFlags ..).trans (.updItem ..)).trans (.advance ..)

end Sys2Proof.Machine
end

