-- ==== Sys2Proof/Laws/Issue.lean ====
section
/-! SUPPORT. What one issue of a word does, for a bundle of one item (R39, R135): it completes, waits or traps as its body
says; a false guard only passes the word. -/

namespace Sys2Proof.Machine

theorem Solo.active {s : State} {ik : Nat} {it : Item} {g : Group} (h : Solo s ik it g) (gd : Guard) :
    s.active gd = if guardHolds gd it then [ik] else [] := by
  simp only [State.active, h.cur, List.filter, h.item]
  split <;> simp_all
theorem Solo.inactive {s : State} {ik : Nat} {it : Item} {g : Group} (h : Solo s ik it g) (gd : Guard) :
    s.inactive gd = if guardHolds gd it then [] else [ik] := by
  simp only [State.inactive, h.cur, List.filter, h.item]
  split <;> simp_all
theorem Solo.groupD {s : State} {ik : Nat} {it : Item} {g : Group} (h : Solo s ik it g) : s.groupD (groupOf ik) = g := by
  simp [State.groupD, AMap.getD, h.grp]
theorem Solo.getItem {s : State} {ik : Nat} {it : Item} {g : Group} (h : Solo s ik it g) :
    Sys2Proof.Machine.getItem s ik = .ok (it, g) := by
  simp [Sys2Proof.Machine.getItem, h.item, h.groupD]

section
variable {s : State} {ik : Nat} {it : Item} {g : Group} (h : Solo s ik it g) {gd : Guard} {len : Nat}
  {f : State → State → Nat → Ev State}
include h
/-- The body completes. -/
theorem issueRaw_ok (hg : guardHolds gd it = true) {u : State} (hu : f s s ik = .ok u) :
    issueRaw gd len f s = { u with moved := true } := by
  simp [issueRaw, h.active, h.inactive, hg, runItem, h.cur, hu]
theorem issue_ok (hg : guardHolds gd it = true) {u : State} (hu : f s s ik = .ok u) :
    issue gd len f s = u.advance ik len := by
  unfold issue
  rw [issueRaw_ok h hg (u := u.advance ik len) (by simp [hu, bind, Except.bind])]
  rfl
/-- The body waits: the item leaves the bundle, and nothing else changes. -/
theorem issueRaw_wait (hg : guardHolds gd it = true) (hu : f s s ik = .error .wait) :
    issueRaw gd len f s = s.leave ik := by
  simp [issueRaw, h.active, h.inactive, hg, runItem, h.cur, hu]
theorem issue_wait (hg : guardHolds gd it = true) (hu : f s s ik = .error .wait) :
    issue gd len f s = s.leave ik := by
  unfold issue
  exact issueRaw_wait h hg (by simp [hu, bind, Except.bind])
/-- The body traps. -/
theorem issueRaw_trap (hg : guardHolds gd it = true) {t : Trap} (hu : f s s ik = .error (.trap t)) :
    issueRaw gd len f s = s.takeTrap ik t s.cur.pc := by
  simp [issueRaw, h.active, h.inactive, hg, runItem, h.cur, hu]
theorem issue_trap (hg : guardHolds gd it = true) {t : Trap} (hu : f s s ik = .error (.trap t)) :
    issue gd len f s = s.takeTrap ik t s.cur.pc := by
  unfold issue
  exact issueRaw_trap h hg (by simp [hu, bind, Except.bind])
/-- The guard is false: the word is passed. -/
theorem issueRaw_guard (hg : guardHolds gd it = false) : issueRaw gd len f s = s.advance ik len := by
  simp [issueRaw, h.active, h.inactive, hg]
theorem issue_guard (hg : guardHolds gd it = false) : issue gd len f s = s.advance ik len := by
  unfold issue
  exact issueRaw_guard h hg
end

/-! ## Formats V and I -/

section
variable {s : State} {ik : Nat} {it : Item} {g : Group} (h : Solo s ik it g)
include h
/-- A format-V word whose sources are ready writes its result. -/
theorem execV_ok {f : VF} {dw aw bw cw : Nat} {F : W64 → W64 → W64 → Nat × Flg} {r : RegRef} {a b c : W64}
    (hg : guardHolds f.g it = true) (hd : Writes s ik it g f.d dw r) (ha : Reads s ik it g f.a aw f.wa a)
    (hb : Reads s ik it g f.b bw f.wb b) (hc : Reads s ik it g f.c cw f.wc c) :
    execV f dw aw bw cw F s = .next (s.wrote ik r dw (F a b c).1 (F a b c).2 8) := by
  obtain ⟨hd1, hd2⟩ := hd
  unfold Reads State.quotaOfItem at *
  unfold execV
  congr 1
  rw [issue_ok h hg (u := (s.addFlags ik (F a b c).2).dest ik r dw (F a b c).1)]
  · rfl
  · simp [vBody, h.getItem, dstBusy, hd1, hd2, readV3, ha, hb, hc, orWait, firstOf3, bind, Except.bind]
theorem execVI_ok {f : VF} {dw aw bw cw : Nat} {F : W64 → W64 → W64 → Nat} {r : RegRef} {a b c : W64}
    (hg : guardHolds f.g it = true) (hd : Writes s ik it g f.d dw r) (ha : Reads s ik it g f.a aw f.wa a)
    (hb : Reads s ik it g f.b bw f.wb b) (hc : Reads s ik it g f.c cw f.wc c) :
    execVI f dw aw bw cw F s = .next (s.wrote ik r dw (F a b c) fNone 8) := execV_ok h hg hd ha hb hc
/-- A format-V compare whose sources are ready writes its predicate. -/
theorem execCmpV_ok {f : VF} {w : Nat} {F : W64 → W64 → Bool × Flg} {a b c : W64}
    (hg : guardHolds f.g it = true) (ha : Reads s ik it g f.a w f.wa a) (hb : Reads s ik it g f.b w f.wb b)
    (hc : Reads s ik it g f.c 0 f.wc c) :
    execCmpV f w F s =
      .next (((s.addFlags ik (F a b).2).updItem ik (fun it => it.setPred (dstPred f.d) (F a b).1)).advance ik 8) := by
  unfold Reads State.quotaOfItem at *
  unfold execCmpV
  congr 1
  rw [issue_ok h hg]
  simp [cmpBody, h.getItem, readV3, ha, hb, hc, noPoison, firstOf3, bind, Except.bind]
/-- A format-I word whose source is ready writes its result. -/
theorem execI_ok {f : IF} {uses : Bool} {F : W32 → W32} {a : W64}
    (hg : guardHolds f.g it = true) (hd : refBusy it g (s.leads ik) (iRef f.u f.d) 1 = false)
    (ha : uses = true → readRef it g (iRef f.u f.a) 1 false = .ok (a, none)) (h0 : uses = false → a = 0) :
    execI f uses F s = .next (s.wrote ik (iRef f.u f.d) 1 (F (lo32 a)).toNat fNone 8) := by
  unfold execI
  congr 1
  rw [issue_ok h hg (u := s.dest ik (iRef f.u f.d) 1 (F (lo32 a)).toNat)]
  · rfl
  · cases uses with
    | true => simp [iBody, h.getItem, hd, ha rfl, orWait, bind, Except.bind]
    | false => simp [iBody, h.getItem, hd, h0 rfl, orWait, bind, Except.bind]
end

end Sys2Proof.Machine
end

