-- ==== Sys2Proof/Laws/Memory.lean ====
section
/-! SUPPORT. What an access leaves of memory and of the rest of the machine (R149 to R153, R160, R297 to R303, R321):
translation registers, caches and the directory protocol never change the items, and a core on which nothing is under way
writes no other bytes than its own. -/

namespace Sys2Proof.Machine

set_option Elab.async false

/-! ## The memory side -/

theorem MemSide.refl (s : State) : MemSide s s := ⟨rfl, fun _ => rfl⟩
theorem MemSide.trans {s t u : State} (a : MemSide s t) (b : MemSide t u) : MemSide s u := by
  refine ⟨?_, fun k => (b.teams k).trans (a.teams k)⟩
  have := b.rest
  rw [this, a.rest]
theorem MemSide.updCore (s : State) (c : Nat) (f : Core → Core) : MemSide s (s.updCore c f) := ⟨rfl, fun _ => rfl⟩
theorem MemSide.updJob (s : State) (j : Nat) (f : Job → Job) : MemSide s (s.updJob j f) := ⟨rfl, fun _ => rfl⟩
theorem MemSide.foldl {α : Type} (f : State → α → State) (hf : ∀ t a, MemSide t (f t a)) (l : List α) (s : State) :
    MemSide s (l.foldl f s) := by
  induction l generalizing s with
  | nil => exact .refl s
  | cons a l ih => exact (hf s a).trans (ih _)
theorem MemSide.ite {s t u : State} (p : Prop) [Decidable p] (a : MemSide s t) (b : MemSide s u) :
    MemSide s (if p then t else u) := by
  split
  · exact a
  · exact b
theorem MemSide.recordXlat (s : State) (c slot j : Nat) (x : Xlat) : MemSide s (s.recordXlat c slot j x) := by
  unfold State.recordXlat
  dsimp only
  split
  · exact .refl s
  · split
    · exact .updCore ..
    · exact ⟨rfl, fun _ => rfl⟩
theorem MemSide.usedXlat (s : State) (ik : Nat) (x : Xlat) : MemSide s (s.usedXlat ik x) := by
  unfold State.usedXlat
  split
  · split
    · exact .recordXlat ..
    · exact .refl s
  · exact .refl s
theorem MemSide.cow (s : State) (j va pa : Nat) : MemSide s (s.cow j va pa) := by
  unfold State.cow State.copyBlock
  split
  · exact .refl s
  · exact ⟨rfl, fun _ => rfl⟩
theorem MemSide.dropReplicas (s : State) (j va n : Nat) : MemSide s (s.dropReplicas j va n) := by
  unfold State.dropReplicas
  split
  · exact .refl s
  · dsimp only; split
    · exact .updJob ..
    · exact .refl s
theorem MemSide.writeHome (s : State) (j va pa : Nat) (bs : List (BitVec 8)) : MemSide s (s.writeHome j va pa bs) :=
  ((MemSide.dropReplicas s j va bs.length).trans (.cow ..)).trans ⟨rfl, fun _ => rfl⟩
theorem AMap.find_image {α : Type} (m : AMap α) (f : α → α) (k : Nat) :
    AMap.find (m.map (fun e => (e.1, f e.2))) k = (AMap.find m k).map f := by
  induction m with
  | nil => rfl
  | cons e m ih =>
    obtain ⟨j, a⟩ := e
    simp only [List.map, AMap.find_cons]
    split
    · rfl
    · exact ih
theorem Learned.refl (s : State) : Learned s s := ⟨rfl, fun _ => rfl⟩
theorem Learned.trans {s t u : State} (a : Learned s t) (b : Learned t u) : Learned s u := by
  refine ⟨?_, fun k => (b.teams k).trans (a.teams k)⟩
  conv_lhs => rw [b.rest, a.rest]
theorem Learned.sync (s : State) (a b : List Nat) : Learned s (s.sync a b) := by
  unfold State.sync
  split
  · exact .refl s
  · refine ⟨rfl, fun k => ?_⟩
    refine (congrArg _ (AMap.find_image s.teams (fun x => { x with unpublished := x.unpublished.map (fun w =>
      { w with known := learn w.known a b s.fresh, pubs := learn w.pubs a b s.fresh }) }) k)).trans ?_
    cases AMap.find s.teams k <;> rfl
theorem Learned.ite {s t u : State} (p : Prop) [Decidable p] (a : Learned s t) (b : Learned s u) :
    Learned s (if p then t else u) := by
  split
  · exact a
  · exact b
theorem Learned.side {s t : State} (h : Learned s t) : MemSide s t := by
  obtain ⟨hr, ht⟩ := h
  generalize t.teams = m at hr
  subst hr
  exact ⟨rfl, ht⟩
/-- A change of one team that looks at no knowledge keeps the difference one of knowledge. -/
theorem Learned.updTeam {s t : State} (h : Learned s t) (k : Nat) (f : Team → Team)
    (hf : ∀ x u, f { x with unpublished := u } = { f x with unpublished := u }) : Learned (s.updTeam k f) (t.updTeam k f) := by
  refine ⟨?_, fun q => ?_⟩
  · obtain ⟨hr, -⟩ := h
    generalize hm : t.teams = m at hr
    subst hr
    rfl
  · show (AMap.find (AMap.upd t.teams k f) q).map _ = (AMap.find (AMap.upd s.teams k f) q).map _
    have := h.teams q
    rw [AMap.find_upd, AMap.find_upd]
    split
    · cases h1 : AMap.find t.teams q <;> cases h2 : AMap.find s.teams q <;> rw [h1, h2] at this
      · cases this
      · cases this
      · rename_i a b
        injection this with e
        refine congrArg some ?_
        exact (hf a []).symm.trans ((congrArg f e).trans (hf b []))
    · exact this
/-- What is known of the order commutes with passing a word. -/
theorem Learned.advance {s t : State} (h : Learned s t) (ik n : Nat) : Learned (s.advance ik n) (t.advance ik n) := by
  refine ⟨?_, h.teams⟩
  conv_lhs => rw [h.rest]
  rfl
theorem MemSide.sync (s : State) (a b : List Nat) : MemSide s (s.sync a b) := (Learned.sync s a b).side

/-! ## The caches of one core

What a core's access does to the caches while no transaction of another is under way. -/

/-- No private copy of core `c` is dirty. -/
def Clean (c : Nat) (s : State) : Prop := ∀ y ∈ (s.core c).l1, y.dirty = []
/-- Memory and its errors. -/
def State.bytes (s : State) : Cells × List Nat := (s.mem, s.memErr)
/-- A message of a transaction of core `c`, or one that brings nothing into a cache; no far atomic. -/
def CohMsg.of (c : Nat) : CohMsg → Prop
  | .gets _ _ w _ | .getm _ _ w _ | .fwd _ _ _ w _ _ _ | .data _ _ w _ _ _ _ _ => w = c
  | .far _ _ => False
  | _ => True
/-- A gathering of core `c`; no far atomic. -/
def Gather.of (c : Nat) (g : Gather) : Prop := g.far = none ∧ ∀ st, g.data = some st → g.who = c
/-- Whatever is under way is of core `c`. -/
def Own (c : Nat) (s : State) : Prop := (∀ m ∈ s.coh, m.of c) ∧ ∀ g ∈ s.gathers, g.of c
/-- From `s` to `t` the caches have worked for core `c`: the memory side alone has changed, no collector has, and where the
core's copies were clean, memory has not. -/
structure Cached (c : Nat) (s t : State) : Prop where
  side : MemSide s t
  slots : ∀ d, (t.core d).slots = (s.core d).slots
  clean : Clean c s → t.bytes = s.bytes ∧ Clean c t
  own : Own c s → Own c t

theorem Cached.refl (c : Nat) (s : State) : Cached c s s := ⟨.refl s, fun _ => rfl, fun h => ⟨rfl, h⟩, id⟩
theorem Cached.trans {c : Nat} {s t u : State} (a : Cached c s t) (b : Cached c t u) : Cached c s u :=
  ⟨a.side.trans b.side, fun d => (b.slots d).trans (a.slots d),
    fun h => ⟨(b.clean (a.clean h).2).1.trans (a.clean h).1, (b.clean (a.clean h).2).2⟩, b.own ∘ a.own⟩
theorem Cached.foldl {c : Nat} {α : Type} (f : State → α → State) (hf : ∀ t a, Cached c t (f t a)) (l : List α) (s : State) :
    Cached c s (l.foldl f s) := by
  induction l generalizing s with
  | nil => exact .refl c s
  | cons a l ih => exact (hf s a).trans (ih _)
theorem Cached.ite {c : Nat} {s t u : State} (p : Prop) [Decidable p] (a : Cached c s t) (b : Cached c s u) :
    Cached c s (if p then t else u) := by
  split
  · exact a
  · exact b
/-- A change of one core that keeps its collector and makes no copy dirty. -/
theorem Cached.updCore (c : Nat) (s : State) (d : Nat) (f : Core → Core) (h : (f (s.core d)).slots = (s.core d).slots)
    (hd : ∀ y ∈ (f (s.core d)).l1, y.dirty = [] ∨ ∃ z ∈ (s.core d).l1, y.dirty = z.dirty) : Cached c s (s.updCore d f) := by
  refine ⟨.updCore .., fun e => ?_, fun hc => ⟨rfl, ?_⟩, id⟩
  · rw [State.core_updCore]; split
    · rename_i e; subst e; exact h
    · rfl
  · unfold Clean
    rw [State.core_updCore]; split
    · rename_i e; subst e
      intro y hy
      rcases hd y hy with h | ⟨z, hz, h⟩
      · exact h
      · exact h.trans (hc z hz)
    · exact hc
/-- A change of what no claim about one core's caches looks at. -/
theorem Cached.of {c : Nat} {s t : State} (a : MemSide s t) (h : t.cores = s.cores) (hb : t.bytes = s.bytes)
    (ho : Own c s → Own c t) : Cached c s t := by
  have : ∀ d, t.core d = s.core d := fun d => by unfold State.core; rw [h]
  exact ⟨a, fun d => by rw [this], fun hc => ⟨hb, by unfold Clean; rw [this]; exact hc⟩, ho⟩
/-- Messages sent. -/
theorem Own.push {c : Nat} {s t : State} (hm : ∀ m ∈ t.coh, m ∈ s.coh ∨ m.of c) (hg : ∀ g ∈ t.gathers, g ∈ s.gathers ∨ g.of c)
    (h : Own c s) : Own c t :=
  ⟨fun m k => (hm m k).elim (h.1 m) id, fun g k => (hg g k).elim (h.2 g) id⟩

theorem Core.lose_slots (k : Core) (l : Nat) : (k.lose l).slots = k.slots := by unfold Core.lose; split <;> rfl
theorem Core.lose_l1 (k : Core) (l : Nat) : (k.lose l).l1 = k.l1 := by unfold Core.lose; split <;> rfl
theorem Core.yieldLine_slots (k : Core) (l : Nat) (st : Option Moesi) : (k.yieldLine l st).slots = k.slots := by
  unfold Core.yieldLine
  split
  · rfl
  · dsimp only
    cases st <;> dsimp only [Core.l1Drop] <;> split <;> first | rfl | exact Core.lose_slots ..
theorem Core.yieldLine_l1 (k : Core) (l : Nat) (st : Option Moesi) :
    ∀ y ∈ (k.yieldLine l st).l1, y.dirty = [] ∨ ∃ z ∈ k.l1, y.dirty = z.dirty := by
  unfold Core.yieldLine
  split
  · exact fun y hy => .inr ⟨y, hy, rfl⟩
  · rename_i z hz
    dsimp only
    generalize hk : (if Moesi.owns z.st && !(match st with | some m => Moesi.owns m | none => false) then k.lose l else k) = q
    have hb : ∀ b : Bool, (if b then k.lose l else k).l1 = k.l1 := by
      intro b; cases b
      · rfl
      · exact Core.lose_l1 ..
    have hq : q.l1 = k.l1 := hk ▸ hb _
    cases st with
    | none =>
      intro y hy
      refine .inr ⟨y, ?_, rfl⟩
      have := (List.mem_filter.1 hy).1
      rwa [hq] at this
    | some m =>
      intro y hy
      obtain ⟨w, hw, rfl⟩ := List.mem_map.1 hy
      rw [hq] at hw
      refine .inr ⟨w, hw, ?_⟩
      split <;> rfl
theorem Cached.yieldLine (c : Nat) (s : State) (d l : Nat) (st : Option Moesi) : Cached c s (s.updCore d (·.yieldLine l st)) :=
  .updCore _ _ _ _ (Core.yieldLine_slots ..) (Core.yieldLine_l1 _ _ _)
theorem Cached.yieldL1s (c : Nat) (s : State) (l p : Nat) (st : Option Moesi) : Cached c s (s.yieldL1s l p st) :=
  .foldl _ (fun t d => .ite _ (.yieldLine ..) (.refl ..)) _ _
theorem Cached.rdcSet1 (c : Nat) (s : State) (die : Nat) (x : Line) : Cached c s (s.rdcSet1 die x) :=
  .of ⟨rfl, fun _ => rfl⟩ rfl rfl id
theorem Cached.rdcDrop (c : Nat) (s : State) (die l : Nat) : Cached c s (s.rdcDrop die l) :=
  .of ⟨rfl, fun _ => rfl⟩ rfl rfl id
theorem Cached.dropParty (c : Nat) (s : State) (l p : Nat) : Cached c s (s.dropParty l p) := by
  unfold State.dropParty
  exact .ite _ (.yieldL1s ..) ((Cached.yieldL1s ..).trans (.rdcDrop ..))
theorem Cached.sharePartyAs (c : Nat) (s : State) (l p : Nat) (st : Moesi) : Cached c s (s.sharePartyAs l p st) := by
  unfold State.sharePartyAs
  refine .ite _ (.yieldL1s ..) ((Cached.yieldL1s c s l p (some .s)).trans ?_)
  generalize s.yieldL1s l p (some .s) = u
  dsimp only
  split
  · exact .rdcSet1 ..
  · exact .refl ..
theorem Cached.giveBack (c : Nat) (s : State) (l p : Nat) (st : Moesi) : Cached c s (s.giveBack l p st) := by
  unfold State.giveBack
  refine .ite _ (.of ⟨rfl, fun _ => rfl⟩ rfl rfl (Own.push (fun m h => ?_) (fun g h => .inl h))) (.refl ..)
  rcases List.mem_append.1 h with h | h
  · exact .inl h
  · rw [List.mem_singleton.1 h]; exact .inr trivial
theorem Cached.takePend (c : Nat) (s : State) (d l : Nat) : Cached c s (s.takePend d l) := by
  unfold State.takePend
  exact .ite _ (.refl ..) (.updCore _ _ _ _ rfl (fun y hy => .inr ⟨y, hy, rfl⟩))
theorem Cached.l1Drop (c : Nat) (s : State) (d l : Nat) : Cached c s (s.updCore d (·.l1Drop l)) :=
  .updCore _ _ _ _ rfl (fun y hy => .inr ⟨y, (List.mem_filter.1 hy).1, rfl⟩)
theorem Cached.l1Set (c : Nat) (s : State) (d : Nat) (x : Line) (h : x.dirty = [] ∨ ∃ z ∈ (s.core d).l1, x.dirty = z.dirty) :
    Cached c s (s.updCore d (·.l1Set x)) := by
  refine .updCore _ _ _ _ rfl (fun y hy => ?_)
  rcases List.mem_cons.1 hy with rfl | hy
  · exact h
  · exact .inr ⟨y, (List.mem_filter.1 hy).1, rfl⟩
theorem MemSide.cleanPriv (s : State) (x : Line) : MemSide s (s.cleanPriv x) := .foldl _ (fun _ _ => .writeHome ..) _ _
theorem cow_bytes (s : State) (j va pa : Nat) : (s.cow j va pa).bytes = s.bytes := by
  unfold State.cow State.copyBlock; split <;> rfl
theorem cow_cores (s : State) (j va pa : Nat) : (s.cow j va pa).cores = s.cores := by
  unfold State.cow State.copyBlock; split <;> rfl
theorem cow_under (s : State) (j va pa : Nat) : (s.cow j va pa).coh = s.coh ∧ (s.cow j va pa).gathers = s.gathers := by
  unfold State.cow State.copyBlock; split <;> exact ⟨rfl, rfl⟩
theorem Cached.cow (c : Nat) (s : State) (j va pa : Nat) : Cached c s (s.cow j va pa) :=
  .of (.cow ..) (cow_cores ..) (cow_bytes ..) (fun h => by unfold Own; rw [(cow_under s j va pa).1, (cow_under s j va pa).2]; exact h)
theorem dropReplicas_rest (s : State) (j va n : Nat) : s.dropReplicas j va n = { s with jobs := (s.dropReplicas j va n).jobs } := by
  unfold State.dropReplicas
  split
  · rfl
  · dsimp only; split <;> rfl
theorem writeHome_mem (s : State) (j va pa : Nat) (bs : List (BitVec 8)) : (s.writeHome j va pa bs).mem = s.mem.writeN pa bs := by
  unfold State.writeHome
  dsimp only
  rw [show ((s.dropReplicas j va bs.length).cow j va pa).mem = (s.dropReplicas j va bs.length).mem from congrArg Prod.fst (cow_bytes ..),
    dropReplicas_rest]
theorem writeHome_cores (s : State) (j va pa : Nat) (bs : List (BitVec 8)) : (s.writeHome j va pa bs).cores = s.cores := by
  unfold State.writeHome
  dsimp only
  rw [cow_cores, dropReplicas_rest]
theorem writeHome_core (s : State) (j va pa : Nat) (bs : List (BitVec 8)) (c : Nat) : (s.writeHome j va pa bs).core c = s.core c := by
  unfold State.core; rw [writeHome_cores]
theorem writeHome_own (s : State) (j va pa : Nat) (bs : List (BitVec 8)) (c : Nat) (h : Own c s) : Own c (s.writeHome j va pa bs) := by
  have e := cow_under (s.dropReplicas j va bs.length) j va pa
  unfold Own State.writeHome
  dsimp only
  rw [e.1, e.2, dropReplicas_rest]
  exact h
/-- A copy leaves the L1; one of core `c` itself is clean where the core's copies are. -/
theorem Cached.evict (c : Nat) (s : State) (x : Line) (h : x ∈ (s.core c).l1) : Cached c s (s.evict c x) := by
  unfold State.evict
  dsimp only
  have a := Cached.l1Drop c s c x.line
  split
  · refine ⟨a.side.trans (.cleanPriv ..), fun d => ?_, fun hc => ?_, fun ho => ?_⟩
    · refine Eq.trans ?_ (a.slots d)
      unfold State.cleanPriv
      generalize s.updCore c (·.l1Drop x.line) = u
      clear a
      have : ∀ (l : List Nat) (u : State), ((l.foldl (fun t pa => t.writeHome x.job (x.va + (pa - x.line * 128)) pa [AMap.getD x.data pa 0]) u).core d) = u.core d := by
        intro l
        induction l with
        | nil => exact fun _ => rfl
        | cons p l ih => exact fun u => (ih _).trans (writeHome_core ..)
      rw [this]
    · unfold State.cleanPriv
      rw [hc x h]
      exact a.clean hc
    · unfold State.cleanPriv
      have ho := a.own ho
      revert ho
      generalize s.updCore c (·.l1Drop x.line) = u
      clear a
      have : ∀ (l : List Nat) (u : State), Own c u → Own c (l.foldl (fun t pa => t.writeHome x.job (x.va + (pa - x.line * 128)) pa [AMap.getD x.data pa 0]) u) := by
        intro l
        induction l with
        | nil => exact fun _ h => h
        | cons p l ih => exact fun u h => ih _ (writeHome_own _ _ _ _ _ _ h)
      exact this _ u
  · refine a.trans ?_
    generalize s.updCore c (·.l1Drop x.line) = u
    exact .ite _ (.ite _ (.takePend ..) (.refl ..)) (.ite _ (.giveBack ..) (.refl ..))
theorem mem_insertBy {α : Type} {b : α → α → Bool} {a v : α} {l : List α} (h : v ∈ insertBy b a l) : v = a ∨ v ∈ l := by
  induction l with
  | nil => simpa [insertBy] using h
  | cons c l ih =>
    unfold insertBy at h
    split at h
    · rcases List.mem_cons.1 h with rfl | h
      · exact .inr List.mem_cons_self
      · exact (ih h).imp id (List.mem_cons_of_mem _)
    · exact List.mem_cons.1 h
theorem mem_sortBy {α : Type} {b : α → α → Bool} {v : α} {l : List α} (h : v ∈ sortBy b l) : v ∈ l := by
  induction l with
  | nil => cases h
  | cons a l ih =>
    rcases mem_insertBy h with rfl | h
    · exact List.mem_cons_self
    · exact List.mem_cons_of_mem _ (ih h)
theorem Cached.l1Fill (c : Nat) (s : State) (x : Line) (h : x.dirty = []) : Cached c s (s.l1Fill c x) := by
  unfold State.l1Fill
  dsimp only
  split
  · exact .l1Set _ _ _ _ (.inl h)
  · split
    · rename_i v l e
      have hv : v ∈ (s.core c).l1 := by
        have := mem_sortBy (e ▸ List.mem_cons_self : v ∈ sortBy victimBefore _)
        exact (List.mem_filter.1 (List.mem_filter.1 this).1).1
      exact (Cached.evict c s v hv).trans (.l1Set _ _ _ _ (.inl h))
    · exact .refl ..
theorem Cached.rdcEvict (c : Nat) (s : State) (die : Nat) (x : Line) : Cached c s (s.rdcEvict die x) := by
  unfold State.rdcEvict
  exact (Cached.dropParty c s x.line (48 + die)).trans (.ite _ (.refl ..) (.giveBack ..))
theorem Cached.rdcFill {c : Nat} {s t : State} {die : Nat} {x : Line} (h : s.rdcFill die x = some t) : Cached c s t := by
  unfold State.rdcFill at h
  split at h
  · cases h
  · dsimp only at h
    split at h
    · injection h with h; subst h; exact .rdcSet1 ..
    · split at h
      · injection h with h; subst h; exact (Cached.rdcEvict ..).trans (.rdcSet1 ..)
      · cases h
theorem Cached.l2Touch (c : Nat) (s : State) (l : Nat) (p : BitVec 3) : Cached c s (s.l2Touch l p) := by
  unfold State.l2Touch
  dsimp only
  split
  · exact .refl ..
  · split
    · exact .of ⟨rfl, fun _ => rfl⟩ rfl rfl id
    · split
      · exact .refl ..
      · exact (Cached.foldl (fun (t : State) (q : Nat) => t.dropParty _ q) (fun t q => .dropParty ..) _ s).trans (.of ⟨rfl, fun _ => rfl⟩ rfl rfl id)
theorem Cached.touch (c : Nat) (s : State) (d l : Nat) : Cached c s (s.updCore d (·.touch l)) :=
  .updCore _ _ _ _ rfl (fun y hy => .inr ⟨y, hy, rfl⟩)
theorem Cached.serve {c : Nat} {s t : State} {j : Nat} {x : Xlat} {w : Bool} {p : BitVec 3} (h : s.serve c j x w p = some t) :
    Cached c s t := by
  unfold State.serve at h
  dsimp only at h
  split at h
  · rename_i y hy
    injection h with h; subst h
    have hm : y ∈ (s.core c).l1 := by
      split at hy
      · rename_i z hz
        split at hy
        · injection hy with hy; subst hy; exact List.mem_of_find?_eq_some hz
        · cases hy
      · cases hy
    refine .updCore _ _ _ _ rfl (fun z hz => ?_)
    rcases List.mem_cons.1 hz with rfl | hz
    · exact .inr ⟨y, hm, rfl⟩
    · exact .inr ⟨z, (List.mem_filter.1 hz).1, rfl⟩
  · split at h
    · cases h
    · rename_i y hy
      split at h
      · cases h
      · injection h with h; subst h
        refine Cached.trans (((Cached.touch c s c (lineOf x.pa)).trans (.yieldL1s ..)).trans (.rdcSet1 ..)) (.ite _ (.refl ..) (.l1Fill _ _ _ rfl))
theorem Cached.ask (c : Nat) (s : State) (l : Nat) (w : Bool) (p : BitVec 3) : Cached c s (s.ask c l w p) := by
  unfold State.ask
  refine (Cached.touch c s c l).trans ?_
  generalize s.updCore c (·.touch l) = u
  refine .ite _ (.refl ..) (.of ⟨rfl, fun _ => rfl⟩ rfl rfl (Own.push (fun m h => ?_) (fun g h => .inl h)))
  rcases List.mem_append.1 h with h | h
  · exact .inl h
  · rw [List.mem_singleton.1 h]; cases w <;> exact .inr rfl
theorem Cached.tracked (c : Nat) (s : State) (j : Nat) (x : Xlat) (w : Bool) (p : BitVec 3) : Cached c s (s.tracked c j x w p) := by
  unfold State.tracked
  cases h : s.serve c j x w p with
  | none => exact .ask ..
  | some t => exact .serve h
theorem Cached.missAt (c : Nat) (s : State) (j : Nat) (x : Xlat) (p : BitVec 3) : Cached c s (s.missAt c j x p) := by
  unfold State.missAt
  dsimp only
  split
  · exact .rdcSet1 ..
  · have a : Cached c s (if s.l2Ready (lineOf x.pa) p then s.l2Touch (lineOf x.pa) p else s) := .ite _ (.l2Touch ..) (.refl ..)
    revert a
    generalize (if s.l2Ready (lineOf x.pa) p then s.l2Touch (lineOf x.pa) p else s) = u
    intro a
    refine a.trans (.ite _ ?_ (.refl ..))
    cases h : u.rdcFill (dieOf c) { freshLine u x j .s p with prio := 4 } with
    | none => exact .refl ..
    | some t => exact .rdcFill h
theorem Cached.fillUntracked (c : Nat) (s : State) (j : Nat) (x : Xlat) (p : BitVec 3) : Cached c s (s.fillUntracked c j x p) := by
  unfold State.fillUntracked
  split
  · rename_i y hy
    exact .l1Set _ _ _ _ (.inr ⟨y, List.mem_of_find?_eq_some hy, rfl⟩)
  · exact (Cached.missAt ..).trans (.ite _ (.refl ..) (.ite _ (.l1Fill _ _ _ rfl) (.l1Fill _ _ _ rfl)))
theorem Cached.noteRead (c : Nat) (s : State) (j : Nat) (x : Xlat) (p : BitVec 3) : Cached c s (s.noteRead c j x p) := by
  unfold State.noteRead
  exact .ite _ (.refl ..) (.ite _ (.tracked ..) (.fillUntracked ..))
theorem Cached.holdPhase (c : Nat) (s : State) (j : Nat) (x : Xlat) (p : BitVec 3) : Cached c s (s.holdPhase c j x p) := by
  unfold State.holdPhase
  exact .ite _ (.fillUntracked ..) ((Cached.fillUntracked ..).trans (.takePend ..))
theorem Cached.preCow (c : Nat) (s : State) (j va pa : Nat) (code : BitVec 2) : Cached c s (s.preCow j va pa code) :=
  .ite _ (.refl ..) (.cow ..)
theorem Cached.tlb2 (c : Nat) (s : State) (m : AMap (List Trans)) : Cached c s { s with tlb2 := m } :=
  .of ⟨rfl, fun _ => rfl⟩ rfl rfl id
theorem Cached.recordXlat (c : Nat) (s : State) (d slot j : Nat) (x : Xlat) : Cached c s (s.recordXlat d slot j x) := by
  unfold State.recordXlat
  refine .ite _ (.refl ..) ?_
  have a : ∀ f : Core → Core, (∀ k, (f k).slots = k.slots) → (∀ k, (f k).l1 = k.l1) → Cached c s (s.updCore d f) := fun f h1 h2 =>
    .updCore _ _ _ _ (h1 _) (fun y hy => .inr ⟨y, h2 _ ▸ hy, rfl⟩)
  have b := a (fun k => { k with
    lastPage := AMap.put k.lastPage slot ⟨j, x.va, x.pte⟩
    tlb := ((⟨j, x.va, x.pte⟩ : Trans) :: k.tlb.filter (fun u => u != ⟨j, x.va, x.pte⟩)).take 256 }) (fun _ => rfl) (fun _ => rfl)
  exact .ite _ b (b.trans (.tlb2 ..))
theorem Cached.usedXlat (c : Nat) (s : State) (ik : Nat) (x : Xlat) : Cached c s (s.usedXlat ik x) := by
  unfold State.usedXlat
  split
  · split
    · exact .recordXlat ..
    · exact .refl ..
  · exact .refl ..
theorem Cached.sync (c : Nat) (s : State) (a b : List Nat) : Cached c s (s.sync a b) := by
  refine .of (.sync ..) ?_ ?_ (fun h => ?_)
  · unfold State.sync; split <;> rfl
  · unfold State.sync; split <;> rfl
  · unfold State.sync; split <;> exact h
theorem Cached.syncLoad (c : Nat) (s : State) (ik : Nat) (acq : Bool) (l : List Nat) : Cached c s (s.syncLoad ik acq l) := .sync ..
theorem Cached.syncStore (c : Nat) (s : State) (ik : Nat) (rel : Bool) (l : List Nat) : Cached c s (s.syncStore ik rel l) := .sync ..

/-! ## A transaction carried through -/

theorem Cached.send (c : Nat) (s : State) (ms : List CohMsg) (h : ∀ m ∈ ms, m.of c) : Cached c s (s.send ms) := by
  refine .of ⟨rfl, fun _ => rfl⟩ rfl rfl (Own.push (fun m hm => ?_) (fun g hg => .inl hg))
  unfold State.send at hm
  dsimp only at hm
  rcases List.mem_append.1 hm with hm | hm
  · obtain ⟨m0, h0, e⟩ := List.mem_map.1 hm
    cases m0 <;> dsimp only at e <;> subst e <;> first | exact .inl h0 | exact .inr trivial
  · exact .inr (h m hm)
theorem Cached.setDir (c : Nat) (s : State) (l : Nat) (d : DirEnt) : Cached c s (s.setDir l d) :=
  .of ⟨rfl, fun _ => rfl⟩ rfl rfl id
theorem takeMsg_some {f : CohMsg → Bool} {l : List CohMsg} {m : CohMsg} {rest : List CohMsg} (h : takeMsg f l = some (m, rest)) :
    m ∈ l ∧ f m = true ∧ ∀ x ∈ rest, x ∈ l := by
  induction l generalizing rest with
  | nil => cases h
  | cons a l ih =>
    unfold takeMsg at h
    split at h
    · injection h with h; injection h with h1 h2; subst h1; subst h2
      exact ⟨List.mem_cons_self, ‹_›, fun x hx => List.mem_cons_of_mem _ hx⟩
    · cases e : takeMsg f l with
      | none => rw [e] at h; cases h
      | some r =>
        obtain ⟨m', r'⟩ := r
        rw [e] at h
        injection h with h; injection h with h1 h2; dsimp only at h1 h2; subst h1; subst h2
        have := ih e
        refine ⟨List.mem_cons_of_mem _ this.1, this.2.1, fun x hx => ?_⟩
        rcases List.mem_cons.1 hx with rfl | hx
        · exact List.mem_cons_self
        · exact List.mem_cons_of_mem _ (this.2.2 x hx)
/-- Messages taken away. -/
theorem Cached.take (c : Nat) (s : State) (rest : List CohMsg) (b : Bool) (h : ∀ x ∈ rest, x ∈ s.coh) :
    Cached c s { s with coh := rest, moved := b } :=
  .of ⟨rfl, fun _ => rfl⟩ rfl rfl (Own.push (fun m hm => .inl (h m hm)) (fun g hg => .inl hg))
theorem Cached.gathers (c : Nat) (s : State) (gs : List Gather) (h : ∀ g ∈ gs, g ∈ s.gathers ∨ g.of c) :
    Cached c s { s with gathers := gs } :=
  .of ⟨rfl, fun _ => rfl⟩ rfl rfl (Own.push (fun m hm => .inl hm) h)
theorem Cached.doGets (c : Nat) (s : State) (l p : Nat) (prio : BitVec 3) : Cached c s (s.doGets l p c prio) := by
  have key : ∀ (u : State) (d : DirEnt) (m : CohMsg), m.of c → Cached c u ((u.setDir l d).send [m]) := fun u d m hm =>
    (Cached.setDir ..).trans (.send _ _ _ (fun x hx => List.mem_singleton.1 hx ▸ hm))
  unfold State.doGets
  dsimp only
  refine (Cached.l2Touch c s l prio).trans ?_
  generalize s.l2Touch l prio = u
  split
  · exact key _ _ _ rfl
  · exact key _ _ _ rfl
  · split
    · split
      · exact key _ _ _ rfl
      · exact key _ _ _ rfl
    · exact key _ _ _ rfl
theorem Cached.doGetm (c : Nat) (s : State) (l p : Nat) (prio : BitVec 3) : Cached c s (s.doGetm l p c prio) := by
  unfold State.doGetm
  dsimp only
  refine (Cached.l2Touch c s l prio).trans ?_
  generalize s.l2Touch l prio = u
  refine (Cached.setDir c u l ⟨.m, some p, [], some p⟩).trans ?_
  have hi : ∀ (m : CohMsg), m.of c → ∀ x ∈ ((u.dirOf l).others p).map (fun q => CohMsg.inv l q p) ++ [m], x.of c := by
    intro m hm x hx
    rcases List.mem_append.1 hx with hx | hx
    · obtain ⟨q, _, rfl⟩ := List.mem_map.1 hx; trivial
    · exact List.mem_singleton.1 hx ▸ hm
  split
  · exact .send _ _ _ (hi _ rfl)
  · exact .send _ _ _ (hi _ rfl)
  · exact .send _ _ _ (hi _ rfl)
  · split
    · exact .send _ _ _ (hi _ rfl)
    · exact .send _ _ _ (hi _ rfl)
theorem Cached.doWb (c : Nat) (s : State) (l p : Nat) (stale : Bool) : Cached c s (s.doWb l p stale) := by
  unfold State.doWb
  dsimp only
  have hs : ∀ u : State, Cached c s u → Cached c s (u.send [.wbAck l p]) := fun u hu =>
    hu.trans (.send _ _ _ (fun x hx => by rw [List.mem_singleton.1 hx]; trivial))
  refine hs _ (.ite _ ?_ (.refl ..))
  split
  · exact .setDir ..
  · exact .setDir ..
theorem Cached.homeStep {c : Nat} {s : State} (h : Own c s) (l : Nat) (want : CohMsg → Bool) : Cached c s (s.homeStep l want) := by
  unfold State.homeStep
  refine .ite _ (.refl ..) ?_
  split
  · rename_i m rest e
    obtain ⟨hm, _, hr⟩ := takeMsg_some e
    have ho := h.1 m hm
    have a := Cached.take c s rest true hr
    dsimp only
    refine .ite _ (.refl ..) ?_
    split
    · have : _ = c := ho; subst this
      exact .ite _ (a.trans (.doGets ..)) (.refl ..)
    · have : _ = c := ho; subst this
      exact .ite _ (a.trans (.doGetm ..)) (.refl ..)
    · exact ho.elim
    · exact a.trans (.doWb ..)
    · exact .refl ..
  · exact .refl ..
theorem Cached.takeForward {c : Nat} {s : State} (h : Own c s) (l p : Nat) : Cached c s (s.takeForward l p) := by
  unfold State.takeForward
  split
  · rename_i l2 y req who acks prio own rest e
    obtain ⟨hm, _, hr⟩ := takeMsg_some e
    have ho : who = c := h.1 _ hm
    subst ho
    have a := Cached.take who s rest true hr
    dsimp only
    have hs : ∀ (u : State) (m : CohMsg), m.of who → Cached who u (u.send [m]) := fun u m hm =>
      .send _ _ _ (fun x hx => List.mem_singleton.1 hx ▸ hm)
    split
    · exact (a.trans (.dropParty ..)).trans (hs _ _ rfl)
    · exact (a.trans (.sharePartyAs ..)).trans (hs _ _ rfl)
  · exact .refl ..
theorem Cached.takeInvalidation {c : Nat} {s : State} (h : Own c s) (l p : Nat) : Cached c s (s.takeInvalidation l p) := by
  unfold State.takeInvalidation
  split
  · rename_i l2 q req rest e
    obtain ⟨hm, _, hr⟩ := takeMsg_some e
    dsimp only
    refine Cached.trans ?_ (Cached.dropParty ..)
    refine .of ⟨rfl, fun _ => rfl⟩ rfl rfl (fun _ => ?_)
    refine ⟨fun m hm => ?_, ?_⟩
    · rcases List.mem_append.1 hm with hm | hm
      · exact h.1 m (hr m hm)
      · rw [List.mem_singleton.1 hm]; trivial
    · dsimp only
      have hg : ∀ g ∈ s.gathers.map (fun g => if g.line = l2 ∧ g.party = q then { g with once := true } else g), g.of c := by
        intro g hg
        obtain ⟨g0, h0, rfl⟩ := List.mem_map.1 hg
        have := h.2 g0 h0
        split
        · exact this
        · exact this
      split
      · intro g h1
        rcases List.mem_append.1 h1 with h1 | h1
        · exact hg g h1
        · rw [List.mem_singleton.1 h1]; exact ⟨rfl, fun _ h => by cases h⟩
      · exact hg
  · exact .refl ..
theorem gatherOf_own {c : Nat} {s : State} (h : Own c s) (l p : Nat) : (s.gatherOf l p).of c := by
  unfold State.gatherOf
  cases e : s.gathers.find? (fun g => g.line == l && g.party == p) with
  | none => exact ⟨rfl, fun _ h => by cases h⟩
  | some g => exact h.2 g (List.mem_of_find?_eq_some e)
theorem Cached.grant (c : Nat) (s : State) (l p : Nat) (st : Moesi) (prio : BitVec 3) (once : Bool) :
    Cached c s (s.grant l p c st prio once) := by
  unfold State.grant
  dsimp only
  refine .ite _ (.giveBack ..) (.ite _ ?_ ?_)
  · exact .ite _ (.l1Fill _ _ _ rfl) ((Cached.l1Fill _ _ _ rfl).trans (.giveBack ..))
  · split
    · rename_i t e
      exact (Cached.rdcFill e).trans (.l1Fill _ _ _ rfl)
    · exact .giveBack ..
theorem Cached.putGather {c : Nat} {s : State} {g : Gather} (hg : g.of c) : Cached c s (s.putGather g) := by
  unfold State.putGather
  rw [hg.1]
  have hr : ∀ x ∈ s.gathers.filter (fun h => !(h.line == g.line && h.party == g.party)), x ∈ s.gathers ∨ x.of c :=
    fun x hx => .inl (List.mem_filter.1 hx).1
  have keep : Cached c s { s with gathers := s.gathers.filter (fun h => !(h.line == g.line && h.party == g.party)) ++ [g] } :=
    .gathers _ _ _ (fun x hx => by
      rcases List.mem_append.1 hx with hx | hx
      · exact hr x hx
      · rw [List.mem_singleton.1 hx]; exact .inr hg)
  cases e : g.data with
  | none => exact keep
  | some st =>
    dsimp only
    have hw := hg.2 st e
    refine .ite _ (Cached.trans ?_ (.send _ _ _ (fun x hx => by rw [List.mem_singleton.1 hx]; trivial))) keep
    rw [hw]
    exact (Cached.gathers c s _ hr).trans (.grant ..)
theorem Cached.takeAck {c : Nat} {s : State} (h : Own c s) (l p : Nat) : Cached c s (s.takeAck l p) := by
  unfold State.takeAck
  split
  · rename_i m rest e
    obtain ⟨_, _, hr⟩ := takeMsg_some e
    have a := Cached.take c s rest true hr
    exact a.trans (.putGather (gatherOf_own (a.own h) l p))
  · exact .refl ..
theorem Cached.takeData {c : Nat} {s : State} (h : Own c s) (l p : Nat) : Cached c s (s.takeData l p) := by
  unfold State.takeData
  split
  · rename_i l2 q who acks prio st home full rest e
    obtain ⟨hm, _, hr⟩ := takeMsg_some e
    have ho : who = c := h.1 _ hm
    have a := Cached.take c s rest true hr
    dsimp only
    refine .ite _ (.refl ..) (a.trans (.putGather ?_))
    exact ⟨(gatherOf_own (a.own h) l p).1, fun _ _ => ho⟩
  · exact .refl ..
theorem Cached.takeComplete (c : Nat) (s : State) (l p : Nat) : Cached c s (s.takeComplete l p) := by
  unfold State.takeComplete
  split
  · rename_i m rest e
    obtain ⟨_, _, hr⟩ := takeMsg_some e
    exact (Cached.take c s rest true hr).trans (.ite _ (.setDir ..) (.refl ..))
  · exact .refl ..
theorem Cached.takeWbAck (c : Nat) (s : State) (l p : Nat) : Cached c s (s.takeWbAck l p) := by
  unfold State.takeWbAck
  split
  · rename_i l2 q rest e
    obtain ⟨_, _, hr⟩ := takeMsg_some e
    exact (Cached.take c s rest true hr).trans (.of ⟨rfl, fun _ => rfl⟩ rfl rfl id)
  · exact .refl ..
theorem Cached.cohStep {c : Nat} {s : State} (h : Own c s) (m : CohMsg) : Cached c s (s.cohStep m) := by
  cases m with
  | gets => exact .homeStep h ..
  | getm => exact .homeStep h ..
  | far => exact .homeStep h ..
  | wb => exact .homeStep h ..
  | wbAck => exact .takeWbAck ..
  | fwd => exact .takeForward h ..
  | inv => exact .takeInvalidation h ..
  | ack => exact .takeAck h ..
  | data => exact .takeData h ..
  | complete => exact .takeComplete ..
theorem Cached.marked (c : Nat) (s : State) (b : Bool) : Cached c s { s with moved := b } := .of ⟨rfl, fun _ => rfl⟩ rfl rfl id
theorem Cached.settleN {c : Nat} {s : State} (h : Own c s) (l n : Nat) : Cached c s (s.settleN l n) := by
  induction n generalizing s with
  | zero => exact .refl ..
  | succ n ih =>
    unfold State.settleN
    refine .ite _ (.refl ..) ?_
    split
    · rename_i t e
      obtain ⟨m, _, hm⟩ := List.exists_of_findSome?_eq_some e
      dsimp only at hm
      have a := (Cached.marked c s false).trans (.cohStep ((Cached.marked c s false).own h) m)
      split at hm
      · injection hm with hm; subst hm
        exact a.trans (ih (a.own h))
      · cases hm
    · exact .refl ..
theorem Cached.settle {c : Nat} {s : State} (h : Own c s) (l : Nat) : Cached c s (s.settle l) :=
  (Cached.settleN h ..).trans (.marked ..)
/-- With no far atomic under way there is none to wait for. -/
theorem settleFar_own {c : Nat} {s : State} (h : Own c s) (f : FarReq → Bool) : s.settleFar f = s := by
  have key : ∀ l1 l2 : List Nat, l1 = [] → l2 = [] → (l1 ++ l2).foldl (fun t l => t.settle l) s = s := by
    rintro _ _ rfl rfl; rfl
  unfold State.settleFar
  refine key _ _ (List.filterMap_eq_nil_iff.2 (fun m hm => ?_)) (List.filterMap_eq_nil_iff.2 (fun g hg => ?_))
  · have := h.1 m hm
    cases m <;> first | rfl | exact this.elim
  · rw [(h.2 g hg).1]
theorem flushItem_own {c : Nat} {s : State} {ik : Nat} (ho : Own c s) (h : (s.core (s.coreOf ik)).slots = []) : s.flushItem ik = s := by
  unfold State.flushItem
  dsimp only
  rw [h]
  exact settleFar_own ho _
theorem Cached.takeLine {c : Nat} {s : State} (h : Own c s) (j : Nat) (x : Xlat) (p : BitVec 3) : Cached c s (s.takeLine c j x p) := by
  unfold State.takeLine
  split
  · rename_i t e; exact .serve e
  · dsimp only
    have a := Cached.settle h (lineOf x.pa)
    split
    · rename_i t e; exact a.trans (.serve e)
    · have b := a.trans (Cached.ask c (s.settle (lineOf x.pa)) (lineOf x.pa) true p)
      have d := b.trans (.settle (b.own h) (lineOf x.pa))
      refine d.trans ?_
      generalize ((s.settle (lineOf x.pa)).ask c (lineOf x.pa) true p).settle (lineOf x.pa) = u
      cases e : u.serve c j x true p with
      | none => exact .refl ..
      | some t => exact .serve e
theorem Cached.leaveLine {c : Nat} {s : State} (h : Own c s) (l : Nat) : Cached c s (s.leaveLine c l) := by
  unfold State.leaveLine
  dsimp only
  have a : Cached c s (if s.asking l (partyOf c l) false then s.settle l else s) := .ite _ (.settle h l) (.refl ..)
  revert a
  generalize (if s.asking l (partyOf c l) false then s.settle l else s) = u
  intro a
  split
  · rename_i y e
    exact a.trans (.evict c u y (List.mem_of_find?_eq_some e))
  · exact a
theorem Cached.nearAtomic {c : Nat} {s : State} (h : Own c s) (j : Nat) (x : Xlat) (p : BitVec 3) :
    Cached c s (s.nearAtomic c j x p) := by
  have hd : Cached c s (s.updCore c (·.predDown (lineOf x.pa))) := .updCore _ _ _ _ rfl (fun y hy => .inr ⟨y, hy, rfl⟩)
  unfold State.nearAtomic
  dsimp only
  refine .ite _ (hd.trans (.takeLine (hd.own h) ..)) ?_
  have a := Cached.takeLine h j x p
  refine .ite _ (a.trans (.updCore _ _ _ _ rfl (fun y hy => .inr ⟨y, hy, rfl⟩))) a

/-! ## Reads and writes -/

/-- A read of a SEQ or REL page depends on memory and its errors only. -/
theorem readAt_home (s : State) (c j : Nat) (x : Xlat) (n : Nat) (hg : x.gv = false) (ha : x.attr = aSEQ ∨ x.attr = aREL) :
    s.readAt c j none x n = (s.mem.readN x.pa n, (List.range n).any (fun i => s.memErr.contains (x.pa + i))) := by
  have hb : ∀ va pa, s.readByte c j none false x.attr va pa = (s.mem.read pa, s.memErr.contains pa) := by
    intro va pa
    have h1 : ¬ x.attr = aPHASE := by rcases ha with e | e <;> rw [e] <;> decide
    have h2 : ¬ x.attr = aPRIV := by rcases ha with e | e <;> rw [e] <;> decide
    simp [State.readByte, h1, h2]
  unfold State.readAt
  simp only [hg, hb, List.map_map, List.any_map]
  exact Prod.ext (Cells.readN_eq _ _ _).symm rfl
/-- What a write of core `c` leaves, where whatever is under way is of the core: its collector and every byte outside the
write, and on a SEQ or REL page the bytes are published. -/
structure Written (c pa : Nat) (code : BitVec 2) (bs : List (BitVec 8)) (s t : State) : Prop where
  side : MemSide s t
  slots : ∀ d, (t.core d).slots = (s.core d).slots
  own : Own c s → Own c t
  out : Clean c s → ∀ a, a < pa ∨ pa + bs.length ≤ a → t.mem.read a = s.mem.read a
  home : Clean c s → code ≠ aPHASE → code ≠ aPRIV → t.mem = s.mem.writeN pa bs
theorem Cached.mem {c : Nat} {s t : State} (h : Cached c s t) (hc : Clean c s) : t.mem = s.mem := congrArg Prod.fst (h.clean hc).1
theorem writeAt_written {c : Nat} {s : State} (h : Own c s) (j va pa : Nat) (code : BitVec 2) (p : BitVec 3) (bs : List (BitVec 8)) :
    Written c pa code bs s (s.writeAt c j va pa code p bs) := by
  have home : ∀ u : State, Cached c s u → Written c pa code bs s (u.writeHome j va pa bs) := fun u hu =>
    ⟨hu.side.trans (.writeHome ..), fun d => by rw [writeHome_core]; exact hu.slots d, fun ho => writeHome_own _ _ _ _ _ _ (hu.own ho),
      fun hc a ha => by rw [writeHome_mem, hu.mem hc, Cells.read_writeN_out _ _ _ _ ha], fun hc _ _ => by rw [writeHome_mem, hu.mem hc]⟩
  have ap := Cached.preCow c s j va pa code
  unfold State.writeAt
  dsimp only
  split
  · rename_i h1
    have b := ap.trans (.holdPhase c _ j (xlatAt va pa code) p)
    have e := b.trans (.updCore c _ c (fun k => { k with pend := putBytes k.pend pa bs }) rfl (fun y hy => .inr ⟨y, hy, rfl⟩))
    exact ⟨e.side, e.slots, e.own, fun hc a _ => by rw [e.mem hc], fun _ h => (h h1).elim⟩
  · split
    · rename_i h2
      have b := ap.trans (.fillUntracked c _ j (xlatAt va pa code) p)
      split
      · rename_i y hy
        refine ⟨b.side.trans (.updCore ..), fun d => ?_, b.own, fun hc a _ => ?_, fun _ _ h => (h h2).elim⟩
        · rw [State.core_updCore]; split
          · rename_i e; subst e; exact b.slots c
          · exact b.slots d
        · exact congrArg (Cells.read · a) (b.mem hc)
      · exact home _ b
    · exact home _ (ap.trans (.takeLine (ap.own h) ..))
/-- A request that opens a slot of an empty collector is all the collector holds, and it changes no memory. -/
theorem joinSlot_empty {s : State} {c : Nat} (line ik : Nat) (r : Option LaneReq) (h : (s.core c).slots = []) :
    s.joinSlot c line ik r = s.updCore c (fun q => { q with
      slots := [(0, match r with
        | some q => ⟨line, (s.core c).window, [], [q], false⟩
        | none => ⟨line, (s.core c).window, [ik], [], false⟩)] }) := by
  have e : ∀ b : BrSlot, s.updCore c (fun q => { q with slots := AMap.put q.slots 0 b }) = s.updCore c (fun q => { q with slots := [(0, b)] }) := by
    intro b
    unfold State.updCore
    dsimp only
    rw [h]
    rfl
  cases r <;> (unfold State.joinSlot; simp only [h]; exact e _)

/-! ## A load or an atomic on its way -/

theorem setEmpty_rest (s : State) (ik : Nat) (r : RegRef) (n : Nat) :
    s.setEmpty ik r n = { s with items := (s.setEmpty ik r n).items, groups := (s.setEmpty ik r n).groups } := by
  induction n generalizing s r with
  | zero => rfl
  | succ n ih =>
    unfold State.setEmpty
    dsimp only
    refine (ih _ _).trans ?_
    cases r <;> rfl
theorem MemSide.setEmpty {s u : State} (h : MemSide s u) (ik : Nat) (r : RegRef) (n : Nat) :
    MemSide (s.setEmpty ik r n) (u.setEmpty ik r n) := by
  induction n generalizing s u r with
  | zero => exact h
  | succ n ih =>
    refine ih ?_ (r := r.plus 1)
    have ht := h.teams
    rw [h.rest] at ht ⊢
    cases r <;> exact ⟨rfl, ht⟩
theorem coreOf_side {s u : State} (h : MemSide s u) (ik : Nat) : u.coreOf ik = s.coreOf ik := by
  have hk := h.teams (s.teamOf ik)
  have ht : u.teamOf ik = s.teamOf ik := by rw [h.rest]; rfl
  have hc : u.cur = s.cur := by rw [h.rest]
  unfold State.coreOf
  rw [ht, hc]
  cases hu : AMap.find u.teams (s.teamOf ik) <;> cases hs : AMap.find s.teams (s.teamOf ik) <;> rw [hu, hs] at hk
  · cases hk
  · cases hk
  · injection hk with hk
    injection hk with _ _ _ _ _ hcore
    dsimp only
    rw [hcore]
theorem coreOf_setEmpty (s : State) (ik : Nat) (r : RegRef) (n : Nat) : (s.setEmpty ik r n).coreOf ik = s.coreOf ik := by
  rw [setEmpty_rest]; rfl
theorem MemSide.passed {s u : State} (h : MemSide s u) (ik n : Nat) (o : AMap Op) :
    MemSide { s.advance ik 8 with ops := o, fresh := n } { u.advance ik 8 with ops := o, fresh := n } := by
  refine ⟨?_, h.teams⟩
  conv_lhs => rw [h.rest]
  rfl
theorem MemSide.advance {s u : State} (h : MemSide s u) (ik n : Nat) : MemSide (s.advance ik n) (u.advance ik n) := by
  refine ⟨?_, h.teams⟩
  conv_lhs => rw [h.rest]
  rfl
/-- A load that starts in `u`, which differs from `s` on the memory side only, is on its way. -/
theorem sent_startLoad {s u : State} (h : MemSide s u) {ik : Nat} {f : MF} {mk : MF → Instr} {r : RegRef} {ea : W64} {acq : Bool}
    {bs : List (BitVec 8)} {fail want : Option Nat} : ∃ w, (u.startLoad ik f mk r ea acq bs fail want).mem = u.mem ∧
      s.sent (u.startLoad ik f mk r ea acq bs fail want) ik f.width.regs .load
        ⟨⟨r, f.width.regs⟩, f.width.bytes, f.var, BitVec.ofNat 128 (leNat bs), fail, ea, acq, w, [], want, false⟩ := by
  have hs := h.setEmpty ik r f.width.regs
  have h1 : (u.setEmpty ik r f.width.regs).fresh = s.fresh := by rw [setEmpty_rest, h.rest]
  refine ⟨loadWord mk f r, ?_, ?_, ?_, ?_⟩
  · exact (congrArg State.mem (setEmpty_rest u ik r f.width.regs)).trans rfl
  · have h2 : u.coreOf ik = s.coreOf ik := coreOf_side h ik
    show AMap.find (AMap.put _ (u.setEmpty ik r f.width.regs).fresh _) s.fresh = _
    have h3 : u.cur = s.cur := by rw [h.rest]
    rw [h1, AMap.find_put_same, h2, h3]
  · show (u.setEmpty ik r f.width.regs).fresh + 1 = _
    rw [h1]
  · have e : u.startLoad ik f mk r ea acq bs fail want = { (u.setEmpty ik r f.width.regs).advance ik 8 with
        ops := (u.startLoad ik f mk r ea acq bs fail want).ops, fresh := s.fresh + 1 } := by rw [← h1]; rfl
    exact (congrArg (MemSide _) e).mpr (hs.passed ..)
theorem startAtomic_moved (u : State) (ik : Nat) (f : MF) (mk : MF → Instr) (red : Bool) (ea : W64) (acq : Bool) (old : Nat)
    (fail : Option Nat) (args : List W64) (b : Bool) :
    { u.startAtomic ik f mk red ea acq old fail args b with moved := true } = u.startAtomic ik f mk red ea acq old fail args b := by
  unfold State.startAtomic
  split <;> rfl
theorem sent_startAtomic {s u : State} (h : MemSide s u) {ik : Nat} {f : MF} {mk : MF → Instr} {n : BitVec 8} {ea : W64} {acq : Bool}
    {old : Nat} {fail : Option Nat} {args : List W64} {b : Bool} (hd : f.data = .v n) :
    ∃ w, (u.startAtomic ik f mk false ea acq old fail args b).mem = u.mem ∧
      s.sent (u.startAtomic ik f mk false ea acq old fail args b) ik f.width.regs .atomic
        ⟨⟨.v n.toNat, f.width.regs⟩, f.width.bytes, false, BitVec.ofNat 128 old, fail, ea, acq, w, args, none, b⟩ := by
  have hs := h.setEmpty ik (.v n.toNat) f.width.regs
  have h1 : (u.setEmpty ik (.v n.toNat) f.width.regs).fresh = s.fresh := by rw [setEmpty_rest, h.rest]
  have e : u.startAtomic ik f mk false ea acq old fail args b =
      ((u.setEmpty ik (.v n.toNat) f.width.regs).addOp ⟨u.coreOf ik, launchOf ik, indexOf ik,
        indexOf ik + 1, u.cur.pc, .atomic ⟨⟨.v n.toNat, f.width.regs⟩, f.width.bytes, false, BitVec.ofNat 128 old, fail, ea, acq,
          loadWord mk f (.v n.toNat), args, none, b⟩⟩).2.advance ik 8 := by
    simp only [State.startAtomic, atomDst, hd, Bool.false_eq_true, if_false]
  rw [e]
  refine ⟨loadWord mk f (.v n.toNat), ?_, ?_, ?_, ?_⟩
  · exact (congrArg State.mem (setEmpty_rest u ik (.v n.toNat) f.width.regs)).trans rfl
  · have h2 : u.coreOf ik = s.coreOf ik := coreOf_side h ik
    show AMap.find (AMap.put _ (u.setEmpty ik (.v n.toNat) f.width.regs).fresh _) s.fresh = _
    have h3 : u.cur = s.cur := by rw [h.rest]
    rw [h1, AMap.find_put_same, h2, h3]
  · show (u.setEmpty ik (.v n.toNat) f.width.regs).fresh + 1 = _
    rw [h1]
  · have e2 : ∀ o : Op, ((u.setEmpty ik (.v n.toNat) f.width.regs).addOp o).2.advance ik 8 =
        { (u.setEmpty ik (.v n.toNat) f.width.regs).advance ik 8 with
          ops := (((u.setEmpty ik (.v n.toNat) f.width.regs).addOp o).2.advance ik 8).ops, fresh := s.fresh + 1 } := by
      intro o; rw [← h1]; rfl
    exact (congrArg (MemSide _) (e2 _)).mpr (hs.passed ..)

end Sys2Proof.Machine
end

