-- ==== Sys2Proof/Laws/PerInstr.lean ====
section
/-! SUPPORT. Decoding what the encoder wrote gives the instruction back, one lemma per constructor (R22 to R37). A step
that is no instruction word has no encoding, and its lemma says nothing more. -/

namespace Sys2Proof.Laws.RoundTrip
open Sys2Proof

/-- Every word the encoder gives for an instruction that is legal for some quota and address decodes to it. -/
def Statement (i : Instr) : Prop :=
  ∀ (q : Nat) (pc w : W64) (ws : List W64), wf q pc i = true → encode i = w :: ws → decode w (ws.headD 0) = .ok i

set_option Elab.async false
set_option linter.unusedSimpArgs false

theorem nop g : Statement (.nop g) := by
  intro q pc w ws _ he
  obtain ⟨rfl, rfl⟩ := List.cons.inj he
  simp [decode, decSys]
theorem svc g imm : Statement (.svc g imm) := by
  intro q pc w ws _ he
  obtain ⟨rfl, rfl⟩ := List.cons.inj he
  simp (disch := decide) [-Nat.reduceAdd, -BitVec.getLsbD_eq_getElem, -BitVec.extractLsb'_toNat, decode, decSys, tileOnly, ex_encW, ex_hi, ex_lo, ex_all, fldOf, immOf]
theorem eret g : Statement (.eret g) := by
  intro q pc w ws _ he
  obtain ⟨rfl, rfl⟩ := List.cons.inj he
  simp (disch := decide) [-Nat.reduceAdd, -BitVec.getLsbD_eq_getElem, -BitVec.extractLsb'_toNat, decode, decSys, tileOnly, ex_encW, ex_hi, ex_lo, ex_all, fldOf, immOf]
theorem srd g d r : Statement (.srd g d r) := by
  intro q pc w ws _ he
  obtain ⟨rfl, rfl⟩ := List.cons.inj he
  simp (disch := decide) [-Nat.reduceAdd, -BitVec.getLsbD_eq_getElem, -BitVec.extractLsb'_toNat, decode, decSys, tileOnly, ex_encW, ex_hi, ex_lo, ex_all, fldOf, immOf]
theorem swr g a r : Statement (.swr g a r) := by
  intro q pc w ws _ he
  obtain ⟨rfl, rfl⟩ := List.cons.inj he
  simp (disch := decide) [-Nat.reduceAdd, -BitVec.getLsbD_eq_getElem, -BitVec.extractLsb'_toNat, decode, decSys, tileOnly, ex_encW, ex_hi, ex_lo, ex_all, fldOf, immOf]
theorem dbgm f n ring : Statement (.dbgm f n ring) := by
  intro q pc w ws _ he
  obtain ⟨rfl, rfl⟩ := List.cons.inj he
  simp (disch := decide) [-Nat.reduceAdd, -BitVec.getLsbD_eq_getElem, -BitVec.extractLsb'_toNat, decode, decSys, ctl0, ex_encE, gl_encE, ex_hi, ex_lo, ex_all, gl_hi, gl_lo, encCopy, encDrC, encMmaC, encOrdC, drOf]
theorem bkpt g imm : Statement (.bkpt g imm) := by
  intro q pc w ws _ he
  obtain ⟨rfl, rfl⟩ := List.cons.inj he
  simp (disch := decide) [-Nat.reduceAdd, -BitVec.getLsbD_eq_getElem, -BitVec.extractLsb'_toNat, decode, decSys, tileOnly, ex_encW, ex_hi, ex_lo, ex_all, fldOf, immOf]
theorem trap g imm : Statement (.trap g imm) := by
  intro q pc w ws _ he
  obtain ⟨rfl, rfl⟩ := List.cons.inj he
  simp (disch := decide) [-Nat.reduceAdd, -BitVec.getLsbD_eq_getElem, -BitVec.extractLsb'_toNat, decode, decSys, tileOnly, ex_encW, ex_hi, ex_lo, ex_all, fldOf, immOf]
theorem ifence g : Statement (.ifence g) := by
  intro q pc w ws _ he
  obtain ⟨rfl, rfl⟩ := List.cons.inj he
  simp (disch := decide) [-Nat.reduceAdd, -BitVec.getLsbD_eq_getElem, -BitVec.extractLsb'_toNat, decode, decSys, tileOnly, ex_encW, ex_hi, ex_lo, ex_all, fldOf, immOf]
theorem add f t : Statement (.add f t) := by
  intro q pc w ws _ he
  obtain ⟨rfl, rfl⟩ := List.cons.inj he
  simp [decode, vInt, vZ]
theorem sub f t : Statement (.sub f t) := by
  intro q pc w ws _ he
  obtain ⟨rfl, rfl⟩ := List.cons.inj he
  simp [decode, vInt, vZ]
theorem sadd f t : Statement (.sadd f t) := by
  intro q pc w ws _ he
  obtain ⟨rfl, rfl⟩ := List.cons.inj he
  simp [decode, vInt, vZ]
theorem ssub f t : Statement (.ssub f t) := by
  intro q pc w ws _ he
  obtain ⟨rfl, rfl⟩ := List.cons.inj he
  simp [decode, vInt, vZ]
theorem mul f t : Statement (.mul f t) := by
  intro q pc w ws _ he
  obtain ⟨rfl, rfl⟩ := List.cons.inj he
  simp [decode, decMul, vInt]
theorem mulh f t : Statement (.mulh f t) := by
  intro q pc w ws _ he
  obtain ⟨rfl, rfl⟩ := List.cons.inj he
  simp [decode, decMul, vInt]
theorem mad f t : Statement (.mad f t) := by
  intro q pc w ws _ he
  obtain ⟨rfl, rfl⟩ := List.cons.inj he
  simp [decode, decMul, vInt]
theorem mulw f signed : Statement (.mulw f signed) := by
  intro q pc w ws _ he
  obtain ⟨rfl, rfl⟩ := List.cons.inj he
  cases signed <;> simp [decode, decMul]
theorem dot4 f sa sb sat : Statement (.dot4 f sa sb sat) := by
  intro q pc w ws _ he
  obtain ⟨rfl, rfl⟩ := List.cons.inj he
  cases sa <;> cases sb <;> cases sat <;> simp [-BitVec.getLsbD_eq_getElem, decode, decMul, b1] <;> rfl
theorem divq f t : Statement (.divq f t) := by
  intro q pc w ws _ he
  obtain ⟨rfl, rfl⟩ := List.cons.inj he
  simp [decode, vInt, vZ]
theorem rem f t : Statement (.rem f t) := by
  intro q pc w ws _ he
  obtain ⟨rfl, rfl⟩ := List.cons.inj he
  simp [decode, vInt, vZ]
theorem and f wide : Statement (.and f wide) := by
  intro q pc w ws _ he
  obtain ⟨rfl, rfl⟩ := List.cons.inj he
  simp [decode, vInt, vZ]
theorem or f wide : Statement (.or f wide) := by
  intro q pc w ws _ he
  obtain ⟨rfl, rfl⟩ := List.cons.inj he
  simp [decode, vInt, vZ]
theorem xor f wide : Statement (.xor f wide) := by
  intro q pc w ws _ he
  obtain ⟨rfl, rfl⟩ := List.cons.inj he
  simp [decode, vInt, vZ]
theorem andn f wide : Statement (.andn f wide) := by
  intro q pc w ws _ he
  obtain ⟨rfl, rfl⟩ := List.cons.inj he
  simp [decode, vInt, vZ]
theorem shl f wide : Statement (.shl f wide) := by
  intro q pc w ws _ he
  obtain ⟨rfl, rfl⟩ := List.cons.inj he
  simp [decode, vInt, vZ]
theorem shr f wide : Statement (.shr f wide) := by
  intro q pc w ws _ he
  obtain ⟨rfl, rfl⟩ := List.cons.inj he
  simp [decode, vInt, vZ]
theorem sha f wide : Statement (.sha f wide) := by
  intro q pc w ws _ he
  obtain ⟨rfl, rfl⟩ := List.cons.inj he
  simp [decode, vInt, vZ]
theorem rol f wide : Statement (.rol f wide) := by
  intro q pc w ws _ he
  obtain ⟨rfl, rfl⟩ := List.cons.inj he
  simp [decode, vInt, vZ]
theorem popc f wide : Statement (.popc f wide) := by
  intro q pc w ws _ he
  obtain ⟨rfl, rfl⟩ := List.cons.inj he
  simp [decode, decBits, vZ, vPlain]
theorem clz f wide : Statement (.clz f wide) := by
  intro q pc w ws _ he
  obtain ⟨rfl, rfl⟩ := List.cons.inj he
  simp [decode, decBits, vZ, vPlain]
theorem ctz f wide : Statement (.ctz f wide) := by
  intro q pc w ws _ he
  obtain ⟨rfl, rfl⟩ := List.cons.inj he
  simp [decode, decBits, vZ, vPlain]
theorem brev f wide : Statement (.brev f wide) := by
  intro q pc w ws _ he
  obtain ⟨rfl, rfl⟩ := List.cons.inj he
  simp [decode, decBits, vZ, vPlain]
theorem bext f wide : Statement (.bext f wide) := by
  intro q pc w ws _ he
  obtain ⟨rfl, rfl⟩ := List.cons.inj he
  simp [decode, decBits, vZ, vPlain]
theorem bins f wide : Statement (.bins f wide) := by
  intro q pc w ws _ he
  obtain ⟨rfl, rfl⟩ := List.cons.inj he
  simp [decode, decBits, vZ, vPlain]
theorem permb f : Statement (.permb f) := by
  intro q pc w ws _ he
  obtain ⟨rfl, rfl⟩ := List.cons.inj he
  simp [decode, decBits, vZ, vPlain]
theorem min f t : Statement (.min f t) := by
  intro q pc w ws _ he
  obtain ⟨rfl, rfl⟩ := List.cons.inj he
  simp [decode, vInt, vZ]
theorem max f t : Statement (.max f t) := by
  intro q pc w ws _ he
  obtain ⟨rfl, rfl⟩ := List.cons.inj he
  simp [decode, vInt, vZ]
theorem abs f wide : Statement (.abs f wide) := by
  intro q pc w ws _ he
  obtain ⟨rfl, rfl⟩ := List.cons.inj he
  simp [decode, vS]
theorem neg f wide : Statement (.neg f wide) := by
  intro q pc w ws _ he
  obtain ⟨rfl, rfl⟩ := List.cons.inj he
  simp [decode, vS]
theorem cmp f c t : Statement (.cmp f c t) := by
  intro q pc w ws _ he
  obtain ⟨rfl, rfl⟩ := List.cons.inj he
  cases c <;> simp [decode, decCmp, vInt, Cond.code]
theorem pand g d a b : Statement (.pand g d a b) := by
  intro q pc w ws _ he
  obtain ⟨rfl, rfl⟩ := List.cons.inj he
  simp [decode, decCmp, decPred, wait0_encV, Src.cls, Dst.cls, Src.fld, Dst.fld]
  rw [cls0_encV _ _ _ _ _ rfl rfl rfl]
  rfl
theorem por g d a b : Statement (.por g d a b) := by
  intro q pc w ws _ he
  obtain ⟨rfl, rfl⟩ := List.cons.inj he
  simp [decode, decCmp, decPred, wait0_encV, Src.cls, Dst.cls, Src.fld, Dst.fld]
  rw [cls0_encV _ _ _ _ _ rfl rfl rfl]
  rfl
theorem pxor g d a b : Statement (.pxor g d a b) := by
  intro q pc w ws _ he
  obtain ⟨rfl, rfl⟩ := List.cons.inj he
  simp [decode, decCmp, decPred, wait0_encV, Src.cls, Dst.cls, Src.fld, Dst.fld]
  rw [cls0_encV _ _ _ _ _ rfl rfl rfl]
  rfl
theorem pnot g d a : Statement (.pnot g d a) := by
  intro q pc w ws _ he
  obtain ⟨rfl, rfl⟩ := List.cons.inj he
  simp [decode, decCmp, decPred, wait0_encV, Src.cls, Dst.cls, Src.fld, Dst.fld]
  rw [cls0_encV _ _ _ _ _ rfl rfl rfl]
  rfl
theorem sel f wide p : Statement (.sel f wide p) := by
  intro q pc w ws hw he
  obtain ⟨rfl, rfl⟩ := List.cons.inj he
  obtain ⟨h1, h2⟩ := okV_c hw
  simp [decode, decMove, rawC_enc _ _ _ _ _ _ h1 h2]
theorem mov f wide : Statement (.mov f wide) := by
  intro q pc w ws _ he
  obtain ⟨rfl, rfl⟩ := List.cons.inj he
  simp [decode, decMove, vZ, vPlain, rawA, rawC]
theorem movg f : Statement (.movg f) := by
  intro q pc w ws _ he
  obtain ⟨rfl, rfl⟩ := List.cons.inj he
  simp [decode, decMove, vZ, vPlain, rawA, rawC]
theorem movs f sv : Statement (.movs f sv) := by
  intro q pc w ws hw he
  obtain ⟨rfl, rfl⟩ := List.cons.inj he
  obtain ⟨h1, h2⟩ := okV_a (Bool.and_eq_true_iff.mp hw).1
  simp [decode, decMove, rawA_enc _ _ _ _ _ _ h1 h2]
theorem addi f : Statement (.addi f) := by
  intro q pc w ws _ he
  obtain ⟨rfl, rfl⟩ := List.cons.inj he
  simp [decode, decImm]
theorem andi f : Statement (.andi f) := by
  intro q pc w ws _ he
  obtain ⟨rfl, rfl⟩ := List.cons.inj he
  simp [decode, decImm]
theorem ori f : Statement (.ori f) := by
  intro q pc w ws _ he
  obtain ⟨rfl, rfl⟩ := List.cons.inj he
  simp [decode, decImm]
theorem xori f : Statement (.xori f) := by
  intro q pc w ws _ he
  obtain ⟨rfl, rfl⟩ := List.cons.inj he
  simp [decode, decImm]
theorem shli f : Statement (.shli f) := by
  intro q pc w ws _ he
  obtain ⟨rfl, rfl⟩ := List.cons.inj he
  simp [decode, decImm]
theorem shri f : Statement (.shri f) := by
  intro q pc w ws _ he
  obtain ⟨rfl, rfl⟩ := List.cons.inj he
  simp [decode, decImm]
theorem movi f : Statement (.movi f) := by
  intro q pc w ws _ he
  obtain ⟨rfl, rfl⟩ := List.cons.inj he
  simp [decode, decImm]
theorem cmpi f c : Statement (.cmpi f c) := by
  intro q pc w ws _ he
  obtain ⟨rfl, rfl⟩ := List.cons.inj he
  cases c <;> simp [decode, decImm, CondI.code]
theorem xset f k : Statement (.xset f k) := by
  intro q pc w ws hw he
  obtain ⟨rfl, rfl⟩ := List.cons.inj he
  have h1 := okV_d hw
  simp [decode, decIndex, rawD_enc _ _ _ _ _ _ h1]
theorem xadd f k : Statement (.xadd f k) := by
  intro q pc w ws hw he
  obtain ⟨rfl, rfl⟩ := List.cons.inj he
  have h1 := okV_d hw
  simp [decode, decIndex, rawD_enc _ _ _ _ _ _ h1]
theorem xget f k : Statement (.xget f k) := by
  intro q pc w ws hw he
  obtain ⟨rfl, rfl⟩ := List.cons.inj he
  obtain ⟨h1, h2⟩ := okV_a hw
  simp [decode, decIndex, rawA_enc _ _ _ _ _ _ h1 h2]
theorem lea f sh : Statement (.lea f sh) := by
  intro q pc w ws hw he
  obtain ⟨rfl, rfl⟩ := List.cons.inj he
  obtain ⟨h1, h2⟩ := okV_c hw
  rcases f with ⟨g, d, a, b, c, wa, wb, wc⟩
  subst h1 h2
  simp [decode, decIndex, vPlain]
theorem fadd f m : Statement (.fadd f m) := by
  intro q pc w ws _ he
  obtain ⟨rfl, rfl⟩ := List.cons.inj he
  simp [decode, decFArith, vRound, vPlain]
theorem fsub f m : Statement (.fsub f m) := by
  intro q pc w ws _ he
  obtain ⟨rfl, rfl⟩ := List.cons.inj he
  simp [decode, decFArith, vRound, vPlain]
theorem fmul f m : Statement (.fmul f m) := by
  intro q pc w ws _ he
  obtain ⟨rfl, rfl⟩ := List.cons.inj he
  simp [decode, decFArith, vRound, vPlain]
theorem ffma f m : Statement (.ffma f m) := by
  intro q pc w ws _ he
  obtain ⟨rfl, rfl⟩ := List.cons.inj he
  simp [decode, decFArith, vRound, vPlain]
theorem fmin f : Statement (.fmin f) := by
  intro q pc w ws _ he
  obtain ⟨rfl, rfl⟩ := List.cons.inj he
  simp [decode, decFArith, vRound, vPlain]
theorem fmax f : Statement (.fmax f) := by
  intro q pc w ws _ he
  obtain ⟨rfl, rfl⟩ := List.cons.inj he
  simp [decode, decFArith, vRound, vPlain]
theorem fcmp f c : Statement (.fcmp f c) := by
  intro q pc w ws _ he
  obtain ⟨rfl, rfl⟩ := List.cons.inj he
  cases c <;> simp [decode, decFCmp, vPlain, FCond.code, fcondOf]
theorem fclass f : Statement (.fclass f) := by
  intro q pc w ws _ he
  obtain ⟨rfl, rfl⟩ := List.cons.inj he
  simp [decode, decFCmp, vPlain]
theorem frcp f : Statement (.frcp f) := by
  intro q pc w ws _ he
  obtain ⟨rfl, rfl⟩ := List.cons.inj he
  simp [decode, decFSpecial, vRound, vPlain]
theorem frsq f : Statement (.frsq f) := by
  intro q pc w ws _ he
  obtain ⟨rfl, rfl⟩ := List.cons.inj he
  simp [decode, decFSpecial, vRound, vPlain]
theorem fsqrt f m : Statement (.fsqrt f m) := by
  intro q pc w ws _ he
  obtain ⟨rfl, rfl⟩ := List.cons.inj he
  simp [decode, decFSpecial, vRound, vPlain]
theorem fdiv f m : Statement (.fdiv f m) := by
  intro q pc w ws _ he
  obtain ⟨rfl, rfl⟩ := List.cons.inj he
  simp [decode, decFSpecial, vRound, vPlain]
theorem fexp2 f : Statement (.fexp2 f) := by
  intro q pc w ws _ he
  obtain ⟨rfl, rfl⟩ := List.cons.inj he
  simp [decode, decFSpecial, vRound, vPlain]
theorem flog2 f : Statement (.flog2 f) := by
  intro q pc w ws _ he
  obtain ⟨rfl, rfl⟩ := List.cons.inj he
  simp [decode, decFSpecial, vRound, vPlain]
theorem ftanh f : Statement (.ftanh f) := by
  intro q pc w ws _ he
  obtain ⟨rfl, rfl⟩ := List.cons.inj he
  simp [decode, decFSpecial, vRound, vPlain]
theorem pfadd f bf m : Statement (.pfadd f bf m) := by
  intro q pc w ws _ he
  obtain ⟨rfl, rfl⟩ := List.cons.inj he
  cases bf <;> simp [decode, decPacked, packedOf]
theorem pfmul f bf m : Statement (.pfmul f bf m) := by
  intro q pc w ws _ he
  obtain ⟨rfl, rfl⟩ := List.cons.inj he
  cases bf <;> simp [decode, decPacked, packedOf]
theorem pfma f bf m : Statement (.pfma f bf m) := by
  intro q pc w ws _ he
  obtain ⟨rfl, rfl⟩ := List.cons.inj he
  cases bf <;> simp [decode, decPacked, packedOf]
theorem pfmin f bf : Statement (.pfmin f bf) := by
  intro q pc w ws _ he
  obtain ⟨rfl, rfl⟩ := List.cons.inj he
  cases bf <;> simp [decode, decPacked, packedOf]
theorem pfmax f bf : Statement (.pfmax f bf) := by
  intro q pc w ws _ he
  obtain ⟨rfl, rfl⟩ := List.cons.inj he
  cases bf <;> simp [decode, decPacked, packedOf]
theorem dadd f m : Statement (.dadd f m) := by
  intro q pc w ws _ he
  obtain ⟨rfl, rfl⟩ := List.cons.inj he
  simp [decode, decDouble, vRound, vPlain]
theorem dmul f m : Statement (.dmul f m) := by
  intro q pc w ws _ he
  obtain ⟨rfl, rfl⟩ := List.cons.inj he
  simp [decode, decDouble, vRound, vPlain]
theorem dfma f m : Statement (.dfma f m) := by
  intro q pc w ws _ he
  obtain ⟨rfl, rfl⟩ := List.cons.inj he
  simp [decode, decDouble, vRound, vPlain]
theorem dmin f : Statement (.dmin f) := by
  intro q pc w ws _ he
  obtain ⟨rfl, rfl⟩ := List.cons.inj he
  simp [decode, decDouble, vRound, vPlain]
theorem dmax f : Statement (.dmax f) := by
  intro q pc w ws _ he
  obtain ⟨rfl, rfl⟩ := List.cons.inj he
  simp [decode, decDouble, vRound, vPlain]
theorem dcmp f c : Statement (.dcmp f c) := by
  intro q pc w ws _ he
  obtain ⟨rfl, rfl⟩ := List.cons.inj he
  cases c <;> simp [decode, decDouble, vPlain, FCond.code, fcondOf]
theorem cvt f dt st m : Statement (.cvt f dt st m) := by
  intro q pc w ws hw he
  obtain ⟨rfl, rfl⟩ := List.cons.inj he
  have h := Bool.and_eq_true_iff.mp (Bool.and_eq_true_iff.mp hw).1
  obtain ⟨h1, h2⟩ := okV_c h.1
  simp (disch := decide) [-Nat.reduceAdd, -BitVec.getLsbD_eq_getElem, -BitVec.extractLsb'_toNat, decode, decConv, rawC_enc _ _ _ _ _ _ h1 h2, ex_hi, ex_lo, ex_all]
theorem pack f t : Statement (.pack f t) := by
  intro q pc w ws hw he
  obtain ⟨rfl, rfl⟩ := List.cons.inj he
  obtain ⟨h1, h2⟩ := okV_c (Bool.and_eq_true_iff.mp hw).1
  cases t <;> simp [decode, decConv, rawC_enc _ _ _ _ _ _ h1 h2, FullTy.code, fullOf]
theorem unpk f t h : Statement (.unpk f t h) := by
  intro q pc w ws hw he
  obtain ⟨rfl, rfl⟩ := List.cons.inj he
  obtain ⟨h1, h2⟩ := okV_c (Bool.and_eq_true_iff.mp hw).1
  obtain ⟨h3, h4⟩ := okV_b (Bool.and_eq_true_iff.mp hw).1
  rcases f with ⟨g, d, a, b, c, wa, wb, wc⟩
  subst h1 h2 h3 h4
  have e := rawC_enc 17#6 2#6 ⟨g, d, a, .imm ((b1 h).setWidth 8), .v 0, wa, false, false⟩ (t.code.setWidth 8) 0#3 0#2 rfl rfl
  simp only [List.headD_nil]
  cases t <;> cases h <;> simp [decode, decConv, FullTy.code, fullOf, b1] at e ⊢ <;> simp [e]
theorem scac f m : Statement (.scac f m) := by
  intro q pc w ws _ he
  obtain ⟨rfl, rfl⟩ := List.cons.inj he
  simp [decode, decScale, vRound]
theorem qnt f t m : Statement (.qnt f t m) := by
  intro q pc w ws _ he
  obtain ⟨rfl, rfl⟩ := List.cons.inj he
  simp [decode, decScale, vRound]
theorem dqnt f t : Statement (.dqnt f t) := by
  intro q pc w ws _ he
  obtain ⟨rfl, rfl⟩ := List.cons.inj he
  simp [decode, decScale, vRound]
theorem bra g off : Statement (.bra g off) := by
  intro q pc w ws _ he
  obtain ⟨rfl, rfl⟩ := List.cons.inj he
  simp [decode, decBranch]
theorem brx g t : Statement (.brx g t) := by
  intro q pc w ws _ he
  obtain ⟨rfl, rfl⟩ := List.cons.inj he
  simp [decode, decBranch]
theorem call g link off : Statement (.call g link off) := by
  intro q pc w ws _ he
  obtain ⟨rfl, rfl⟩ := List.cons.inj he
  simp [decode, decBranch]
theorem ret g t : Statement (.ret g t) := by
  intro q pc w ws _ he
  obtain ⟨rfl, rfl⟩ := List.cons.inj he
  simp [decode, decBranch]
theorem exit g : Statement (.exit g) := by
  intro q pc w ws _ he
  obtain ⟨rfl, rfl⟩ := List.cons.inj he
  simp (disch := decide) [-Nat.reduceAdd, -BitVec.getLsbD_eq_getElem, -BitVec.extractLsb'_toNat, decode, decWait, tileOnly, ex_encW, ex_hi, ex_lo, ex_all, fldOf, immOf]
theorem itemEnd item : Statement (.itemEnd item) := by
  intro q pc w ws _ he
  exact absurd he (by simp [encode])
theorem yield g : Statement (.yield g) := by
  intro q pc w ws _ he
  obtain ⟨rfl, rfl⟩ := List.cons.inj he
  simp (disch := decide) [-Nat.reduceAdd, -BitVec.getLsbD_eq_getElem, -BitVec.extractLsb'_toNat, decode, decWait, tileOnly, ex_encW, ex_hi, ex_lo, ex_all, fldOf, immOf]
theorem waitf f n : Statement (.waitf f n) := by
  intro q pc w ws hw he
  obtain ⟨rfl, rfl⟩ := List.cons.inj he
  have h1 : f.d = .v 0 := by
    simp only [wf, Bool.and_eq_true, beq_iff_eq] at hw
    exact hw.1.1.1.1.1.1
  simp [decode, decWait, rawD_enc _ _ _ _ _ _ h1]
theorem tstp f : Statement (.tstp f) := by
  intro q pc w ws _ he
  obtain ⟨rfl, rfl⟩ := List.cons.inj he
  simp [decode, decPoison, vPlain]
theorem clrp f : Statement (.clrp f) := by
  intro q pc w ws _ he
  obtain ⟨rfl, rfl⟩ := List.cons.inj he
  simp [decode, decPoison, vPlain]
theorem prply g : Statement (.prply g) := by
  intro q pc w ws _ he
  obtain ⟨rfl, rfl⟩ := List.cons.inj he
  simp (disch := decide) [-Nat.reduceAdd, -BitVec.getLsbD_eq_getElem, -BitVec.extractLsb'_toNat, decode, decPoison, tileOnly, ex_encW, ex_hi, ex_lo, ex_all, fldOf, immOf]
theorem sjoin g : Statement (.sjoin g) := by
  intro q pc w ws _ he
  obtain ⟨rfl, rfl⟩ := List.cons.inj he
  simp (disch := decide) [-Nat.reduceAdd, -BitVec.getLsbD_eq_getElem, -BitVec.extractLsb'_toNat, decode, decSpan, tileOnly, ex_encW, ex_hi, ex_lo, ex_all, fldOf, immOf]
theorem matz g : Statement (.matz g) := by
  intro q pc w ws _ he
  obtain ⟨rfl, rfl⟩ := List.cons.inj he
  simp (disch := decide) [-Nat.reduceAdd, -BitVec.getLsbD_eq_getElem, -BitVec.extractLsb'_toNat, decode, decSpan, tileOnly, ex_encW, ex_hi, ex_lo, ex_all, fldOf, immOf]
theorem regrp g : Statement (.regrp g) := by
  intro q pc w ws _ he
  obtain ⟨rfl, rfl⟩ := List.cons.inj he
  simp (disch := decide) [-Nat.reduceAdd, -BitVec.getLsbD_eq_getElem, -BitVec.extractLsb'_toNat, decode, decSpan, tileOnly, ex_encW, ex_hi, ex_lo, ex_all, fldOf, immOf]
theorem kdep f : Statement (.kdep f) := by
  intro q pc w ws _ he
  obtain ⟨rfl, rfl⟩ := List.cons.inj he
  simp [decode, decSpan, vPlain]
theorem spanq f : Statement (.spanq f) := by
  intro q pc w ws _ he
  obtain ⟨rfl, rfl⟩ := List.cons.inj he
  simp [decode, decSpan, vPlain]
theorem ld f : Statement (.ld f) := by
  intro q pc w ws hw he
  obtain ⟨rfl, rfl⟩ := List.cons.inj he
  obtain ⟨h1, h2⟩ := mf_mem (by simpa [wf] using hw)
  simp [decode, decMem, mfOf_encM _ _ _ h1 h2]
theorem lds f : Statement (.lds f) := by
  intro q pc w ws hw he
  obtain ⟨rfl, rfl⟩ := List.cons.inj he
  obtain ⟨h1, h2⟩ := mf_mem (by simpa [wf] using hw)
  simp [decode, decMem, mfOf_encM _ _ _ h1 h2]
theorem st f : Statement (.st f) := by
  intro q pc w ws hw he
  obtain ⟨rfl, rfl⟩ := List.cons.inj he
  obtain ⟨h1, h2⟩ := mf_mem (by simpa [wf] using hw)
  simp [decode, decMem, mfOf_encM _ _ _ h1 h2]
theorem sts f : Statement (.sts f) := by
  intro q pc w ws hw he
  obtain ⟨rfl, rfl⟩ := List.cons.inj he
  obtain ⟨h1, h2⟩ := mf_mem (by simpa [wf] using hw)
  simp [decode, decMem, mfOf_encM _ _ _ h1 h2]
theorem atom f op : Statement (.atom f op) := by
  intro q pc w ws hw he
  obtain ⟨rfl, rfl⟩ := List.cons.inj he
  simp only [wf, Bool.and_eq_true] at hw
  obtain ⟨h1, h2⟩ := mf_atom hw.1 hw.2
  cases op <;> simp [decode, decMem, mfOf_encM _ _ _ h1 h2, AOp.code, aopOf]
theorem red f op : Statement (.red f op) := by
  intro q pc w ws hw he
  obtain ⟨rfl, rfl⟩ := List.cons.inj he
  simp only [wf, Bool.and_eq_true] at hw
  obtain ⟨h1, h2⟩ := mf_atom hw.1.1.1 hw.1.1.2
  cases op <;> simp at hw <;> simp [decode, decMem, mfOf_encM _ _ _ h1 h2, AOp.code, aopOf] <;> rfl
theorem atoms f op : Statement (.atoms f op) := by
  intro q pc w ws hw he
  obtain ⟨rfl, rfl⟩ := List.cons.inj he
  simp only [wf, Bool.and_eq_true] at hw
  obtain ⟨h1, h2⟩ := mf_atom hw.1.1 hw.1.2
  cases op <;> simp [decode, decMem, mfOf_encM _ _ _ h1 h2, AOp.code, aopOf]
theorem fence g ord scope : Statement (.fence g ord scope) := by
  intro q pc w ws _ he
  obtain ⟨rfl, rfl⟩ := List.cons.inj he
  simp (disch := decide) [-Nat.reduceAdd, -BitVec.getLsbD_eq_getElem, -BitVec.extractLsb'_toNat, decode, decMem, tileOnly, ex_encW, ex_hi, ex_lo, ex_all, fldOf, immOf]
theorem cflush f : Statement (.cflush f) := by
  intro q pc w ws hw he
  obtain ⟨rfl, rfl⟩ := List.cons.inj he
  obtain ⟨h1, h2⟩ := mf_line hw
  simp [decode, decMem, mfOf_encM _ _ _ h1 h2]
theorem cinv f : Statement (.cinv f) := by
  intro q pc w ws hw he
  obtain ⟨rfl, rfl⟩ := List.cons.inj he
  obtain ⟨h1, h2⟩ := mf_line hw
  simp [decode, decMem, mfOf_encM _ _ _ h1 h2]
theorem pref f : Statement (.pref f) := by
  intro q pc w ws hw he
  obtain ⟨rfl, rfl⟩ := List.cons.inj he
  obtain ⟨h1, h2⟩ := mf_line hw
  simp [decode, decMem, mfOf_encM _ _ _ h1 h2]
theorem cpy f dsp ssp ev : Statement (.cpy f dsp ssp ev) := by
  intro q pc w ws _ he
  obtain ⟨rfl, rfl⟩ := List.cons.inj he
  simp (disch := decide) [-Nat.reduceAdd, -BitVec.getLsbD_eq_getElem, -BitVec.extractLsb'_toNat, decode, decCopy, ctl0, ex_encE, gl_encE, ex_hi, ex_lo, ex_all, gl_hi, gl_lo, encCopy, encDrC, encMmaC, encOrdC, drOf]
theorem cpyw f dsp ssp ev : Statement (.cpyw f dsp ssp ev) := by
  intro q pc w ws _ he
  obtain ⟨rfl, rfl⟩ := List.cons.inj he
  simp (disch := decide) [-Nat.reduceAdd, -BitVec.getLsbD_eq_getElem, -BitVec.extractLsb'_toNat, decode, decCopy, ctl0, ex_encE, gl_encE, ex_hi, ex_lo, ex_all, gl_hi, gl_lo, encCopy, encDrC, encMmaC, encOrdC, drOf]
theorem cprpl f : Statement (.cprpl f) := by
  intro q pc w ws _ he
  obtain ⟨rfl, rfl⟩ := List.cons.inj he
  simp (disch := decide) [-Nat.reduceAdd, -BitVec.getLsbD_eq_getElem, -BitVec.extractLsb'_toNat, decode, decCopy, ctl0, ex_encE, gl_encE, ex_hi, ex_lo, ex_all, gl_hi, gl_lo, encCopy, encDrC, encMmaC, encOrdC, drOf]
theorem bufa f : Statement (.bufa f) := by
  intro q pc w ws _ he
  obtain ⟨rfl, rfl⟩ := List.cons.inj he
  simp (disch := decide) [-Nat.reduceAdd, -BitVec.getLsbD_eq_getElem, -BitVec.extractLsb'_toNat, decode, decBuf, ctl0, ex_encE, gl_encE, ex_hi, ex_lo, ex_all, gl_hi, gl_lo, encCopy, encDrC, encMmaC, encOrdC, drOf]
theorem bufw f : Statement (.bufw f) := by
  intro q pc w ws _ he
  obtain ⟨rfl, rfl⟩ := List.cons.inj he
  simp (disch := decide) [-Nat.reduceAdd, -BitVec.getLsbD_eq_getElem, -BitVec.extractLsb'_toNat, decode, decBuf, ctl0, ex_encE, gl_encE, ex_hi, ex_lo, ex_all, gl_hi, gl_lo, encCopy, encDrC, encMmaC, encOrdC, drOf]
theorem bufq f tgt : Statement (.bufq f tgt) := by
  intro q pc w ws _ he
  obtain ⟨rfl, rfl⟩ := List.cons.inj he
  cases tgt <;> simp (disch := decide) [-Nat.reduceAdd, -BitVec.getLsbD_eq_getElem, -BitVec.extractLsb'_toNat, decode, decBuf, ex_encE, gl_encE, b1] <;> rfl
theorem buff f : Statement (.buff f) := by
  intro q pc w ws _ he
  obtain ⟨rfl, rfl⟩ := List.cons.inj he
  simp (disch := decide) [-Nat.reduceAdd, -BitVec.getLsbD_eq_getElem, -BitVec.extractLsb'_toNat, decode, decBuf, ctl0, ex_encE, gl_encE, ex_hi, ex_lo, ex_all, gl_hi, gl_lo, encCopy, encDrC, encMmaC, encOrdC, drOf]
theorem buffRearm f newT : Statement (.buffRearm f newT) := by
  intro q pc w ws _ he
  obtain ⟨rfl, rfl⟩ := List.cons.inj he
  simp (disch := decide) [-Nat.reduceAdd, -BitVec.getLsbD_eq_getElem, -BitVec.extractLsb'_toNat, decode, decBuf, ctl0, ex_encE, gl_encE, ex_hi, ex_lo, ex_all, gl_hi, gl_lo, encCopy, encDrC, encMmaC, encOrdC, drOf]
theorem barInit f n : Statement (.barInit f n) := by
  intro q pc w ws _ he
  obtain ⟨rfl, rfl⟩ := List.cons.inj he
  cases n <;> simp (disch := decide) [-Nat.reduceAdd, -BitVec.getLsbD_eq_getElem, -BitVec.extractLsb'_toNat, decode, decBar, barNoOf, encBarNo, ex_encE, gl_encE, ex_hi, ex_lo, ex_all, gl_hi, gl_lo]
theorem barArv f n : Statement (.barArv f n) := by
  intro q pc w ws _ he
  obtain ⟨rfl, rfl⟩ := List.cons.inj he
  cases n <;> simp (disch := decide) [-Nat.reduceAdd, -BitVec.getLsbD_eq_getElem, -BitVec.extractLsb'_toNat, decode, decBar, barNoOf, encBarNo, ex_encE, gl_encE, ex_hi, ex_lo, ex_all, gl_hi, gl_lo]
theorem barWait f n : Statement (.barWait f n) := by
  intro q pc w ws _ he
  obtain ⟨rfl, rfl⟩ := List.cons.inj he
  cases n <;> simp (disch := decide) [-Nat.reduceAdd, -BitVec.getLsbD_eq_getElem, -BitVec.extractLsb'_toNat, decode, decBar, barNoOf, encBarNo, ex_encE, gl_encE, ex_hi, ex_lo, ex_all, gl_hi, gl_lo]
theorem barSync f n : Statement (.barSync f n) := by
  intro q pc w ws _ he
  obtain ⟨rfl, rfl⟩ := List.cons.inj he
  cases n <;> simp (disch := decide) [-Nat.reduceAdd, -BitVec.getLsbD_eq_getElem, -BitVec.extractLsb'_toNat, decode, decBar, barNoOf, encBarNo, ex_encE, gl_encE, ex_hi, ex_lo, ex_all, gl_hi, gl_lo]
theorem cbar f n : Statement (.cbar f n) := by
  intro q pc w ws _ he
  obtain ⟨rfl, rfl⟩ := List.cons.inj he
  cases n with
  | none => simp (disch := decide) [-Nat.reduceAdd, -BitVec.getLsbD_eq_getElem, decode, decBar, barNoOf, encBarNo, ex_encE, gl_encE]
  | some k =>
    have e0 := cbar_ex0 k
    have e1 := cbar_ex k
    have e2 : ((1 : BitVec 1) ++ (0 : BitVec 5) ++ k.setWidth 10).getLsbD 15 = true := by
      simp (disch := decide) only [gl_hi, Nat.reduceSub]
      rfl
    simp (disch := decide) only [decode, decBar, barNoOf, encBarNo, ex_encE, gl_encE, Option.map_some, List.headD_nil,
      maj_encE, min_encE, efOf_encE]
    rw [e0, e1, e2]
    rfl
theorem shfl f m : Statement (.shfl f m) := by
  intro q pc w ws _ he
  obtain ⟨rfl, rfl⟩ := List.cons.inj he
  cases m <;> simp [decode, decExch, vPlain, ShflMode.code]
theorem vote f m p : Statement (.vote f m p) := by
  intro q pc w ws hw he
  obtain ⟨rfl, rfl⟩ := List.cons.inj he
  obtain ⟨h1, h2⟩ := okV_a hw
  cases m <;> simp [decode, decExch, vPlain, VoteMode.code, rawA_enc _ _ _ _ _ _ h1 h2]
theorem elect f : Statement (.elect f) := by
  intro q pc w ws _ he
  obtain ⟨rfl, rfl⟩ := List.cons.inj he
  simp [decode, decExch, vPlain, vZ, rawA]
theorem matchg f wide : Statement (.matchg f wide) := by
  intro q pc w ws _ he
  obtain ⟨rfl, rfl⟩ := List.cons.inj he
  simp [decode, decExch, vPlain, vZ, rawA]
theorem redg f op : Statement (.redg f op) := by
  intro q pc w ws _ he
  obtain ⟨rfl, rfl⟩ := List.cons.inj he
  rcases op with t | t | t | t | t | t | m | _ | _ <;>
    simp [decode, decRed, redOpOf, RedOp.code, RedOp.ty, RedOp.rm]
theorem scang f op : Statement (.scang f op) := by
  intro q pc w ws _ he
  obtain ⟨rfl, rfl⟩ := List.cons.inj he
  rcases op with t | t | t | t | t | t | m | _ | _ <;>
    simp [decode, decRed, redOpOf, RedOp.code, RedOp.ty, RedOp.rm]
theorem tclm f n : Statement (.tclm f n) := by
  intro q pc w ws _ he
  obtain ⟨rfl, rfl⟩ := List.cons.inj he
  cases n <;> simp (disch := decide) [-Nat.reduceAdd, -BitVec.getLsbD_eq_getElem, -BitVec.extractLsb'_toNat, decode, decTile, ex_encE, gl_encE, ex_hi, ex_lo, ex_all, gl_hi, gl_lo]
theorem trel f n : Statement (.trel f n) := by
  intro q pc w ws _ he
  obtain ⟨rfl, rfl⟩ := List.cons.inj he
  rcases n with _ | ⟨a, b⟩ <;> simp (disch := decide) [-Nat.reduceAdd, -BitVec.getLsbD_eq_getElem, -BitVec.extractLsb'_toNat, decode, decTile, ex_encE, gl_encE, ex_hi, ex_lo, ex_all, gl_hi, gl_lo]
theorem tld f ssp ev : Statement (.tld f ssp ev) := by
  intro q pc w ws _ he
  obtain ⟨rfl, rfl⟩ := List.cons.inj he
  simp (disch := decide) [-Nat.reduceAdd, -BitVec.getLsbD_eq_getElem, -BitVec.extractLsb'_toNat, decode, decTile, ctl0, ex_encE, gl_encE, ex_hi, ex_lo, ex_all, gl_hi, gl_lo, encCopy, encDrC, encMmaC, encOrdC, drOf]
theorem tmov f n : Statement (.tmov f n) := by
  intro q pc w ws _ he
  obtain ⟨rfl, rfl⟩ := List.cons.inj he
  simp (disch := decide) [-Nat.reduceAdd, -BitVec.getLsbD_eq_getElem, -BitVec.extractLsb'_toNat, decode, decTile, ex_encE, three_w16, three_w160]
theorem oprf g : Statement (.oprf g) := by
  intro q pc w ws _ he
  obtain ⟨rfl, rfl⟩ := List.cons.inj he
  simp (disch := decide) [-Nat.reduceAdd, -BitVec.getLsbD_eq_getElem, -BitVec.extractLsb'_toNat, decode, decTile, tileOnly, ex_encW, ex_hi, ex_lo, ex_all, fldOf, immOf]
theorem cbld f k : Statement (.cbld f k) := by
  intro q pc w ws _ he
  obtain ⟨rfl, rfl⟩ := List.cons.inj he
  simp (disch := decide) [-Nat.reduceAdd, -BitVec.getLsbD_eq_getElem, -BitVec.extractLsb'_toNat, decode, decTile, ex_encE, two_w16, two_w160]
theorem mma f c : Statement (.mma f c) := by
  intro q pc w ws _ he
  obtain ⟨rfl, rfl⟩ := List.cons.inj he
  simp (disch := decide) [-Nat.reduceAdd, -BitVec.getLsbD_eq_getElem, -BitVec.extractLsb'_toNat, decode, decMma, ctl0, ex_encE, gl_encE, ex_hi, ex_lo, ex_all, gl_hi, gl_lo, encCopy, encDrC, encMmaC, encOrdC, drOf]
theorem mmac f c : Statement (.mmac f c) := by
  intro q pc w ws _ he
  obtain ⟨rfl, rfl⟩ := List.cons.inj he
  simp (disch := decide) [-Nat.reduceAdd, -BitVec.getLsbD_eq_getElem, -BitVec.extractLsb'_toNat, decode, decMma, ctl0, ex_encE, gl_encE, ex_hi, ex_lo, ex_all, gl_hi, gl_lo, encCopy, encDrC, encMmaC, encOrdC, drOf]
theorem aalc f k rows cols t : Statement (.aalc f k rows cols t) := by
  intro q pc w ws _ he
  obtain ⟨rfl, rfl⟩ := List.cons.inj he
  simp (disch := decide) [-Nat.reduceAdd, -BitVec.getLsbD_eq_getElem, -BitVec.extractLsb'_toNat, decode, decAcc, ctl0, ex_encE, gl_encE, ex_hi, ex_lo, ex_all, gl_hi, gl_lo, encCopy, encDrC, encMmaC, encOrdC, drOf]
theorem afree g k : Statement (.afree g k) := by
  intro q pc w ws _ he
  obtain ⟨rfl, rfl⟩ := List.cons.inj he
  simp (disch := decide) [-Nat.reduceAdd, -BitVec.getLsbD_eq_getElem, -BitVec.extractLsb'_toNat, decode, decAcc, tileOnly, ex_encW, tile_ex, tile_ex0]
theorem azero g k : Statement (.azero g k) := by
  intro q pc w ws _ he
  obtain ⟨rfl, rfl⟩ := List.cons.inj he
  simp (disch := decide) [-Nat.reduceAdd, -BitVec.getLsbD_eq_getElem, -BitVec.extractLsb'_toNat, decode, decAcc, tileOnly, ex_encW, tile_ex, tile_ex0]
theorem adrn f c : Statement (.adrn f c) := by
  intro q pc w ws _ he
  obtain ⟨rfl, rfl⟩ := List.cons.inj he
  simp (disch := decide) [-Nat.reduceAdd, -BitVec.getLsbD_eq_getElem, -BitVec.extractLsb'_toNat, decode, decAcc, ctl0, ex_encE, gl_encE, ex_hi, ex_lo, ex_all, gl_hi, gl_lo, encCopy, encDrC, encMmaC, encOrdC, drOf]
theorem adrs f c : Statement (.adrs f c) := by
  intro q pc w ws _ he
  obtain ⟨rfl, rfl⟩ := List.cons.inj he
  simp (disch := decide) [-Nat.reduceAdd, -BitVec.getLsbD_eq_getElem, -BitVec.extractLsb'_toNat, decode, decAcc, ctl0, ex_encE, gl_encE, ex_hi, ex_lo, ex_all, gl_hi, gl_lo, encCopy, encDrC, encMmaC, encOrdC, drOf]
theorem ascac f c p : Statement (.ascac f c p) := by
  intro q pc w ws _ he
  obtain ⟨rfl, rfl⟩ := List.cons.inj he
  simp (disch := decide) [-Nat.reduceAdd, -BitVec.getLsbD_eq_getElem, -BitVec.extractLsb'_toNat, decode, decAcc, ctl0, ex_encE, gl_encE, ex_hi, ex_lo, ex_all, gl_hi, gl_lo, encCopy, encDrC, encMmaC, encOrdC, drOf]
theorem await g k : Statement (.await g k) := by
  intro q pc w ws _ he
  obtain ⟨rfl, rfl⟩ := List.cons.inj he
  simp (disch := decide) [-Nat.reduceAdd, -BitVec.getLsbD_eq_getElem, -BitVec.extractLsb'_toNat, decode, decAcc, tileOnly, ex_encW, tile_ex, tile_ex0]
theorem snew f : Statement (.snew f) := by
  intro q pc w ws _ he
  obtain ⟨rfl, rfl⟩ := List.cons.inj he
  simp (disch := decide) [-Nat.reduceAdd, -BitVec.getLsbD_eq_getElem, -BitVec.extractLsb'_toNat, decode, decSetLife, ctl0, ex_encE, gl_encE, ex_hi, ex_lo, ex_all, gl_hi, gl_lo, encCopy, encDrC, encMmaC, encOrdC, drOf]
theorem sfree f : Statement (.sfree f) := by
  intro q pc w ws _ he
  obtain ⟨rfl, rfl⟩ := List.cons.inj he
  simp (disch := decide) [-Nat.reduceAdd, -BitVec.getLsbD_eq_getElem, -BitVec.extractLsb'_toNat, decode, decSetLife, ctl0, ex_encE, gl_encE, ex_hi, ex_lo, ex_all, gl_hi, gl_lo, encCopy, encDrC, encMmaC, encOrdC, drOf]
theorem sbld f ssp ev : Statement (.sbld f ssp ev) := by
  intro q pc w ws _ he
  obtain ⟨rfl, rfl⟩ := List.cons.inj he
  simp (disch := decide) [-Nat.reduceAdd, -BitVec.getLsbD_eq_getElem, -BitVec.extractLsb'_toNat, decode, decSetLife, ctl0, ex_encE, gl_encE, ex_hi, ex_lo, ex_all, gl_hi, gl_lo, encCopy, encDrC, encMmaC, encOrdC, drOf]
theorem senum f dsp ev : Statement (.senum f dsp ev) := by
  intro q pc w ws _ he
  obtain ⟨rfl, rfl⟩ := List.cons.inj he
  simp (disch := decide) [-Nat.reduceAdd, -BitVec.getLsbD_eq_getElem, -BitVec.extractLsb'_toNat, decode, decSetLife, ctl0, ex_encE, gl_encE, ex_hi, ex_lo, ex_all, gl_hi, gl_lo, encCopy, encDrC, encMmaC, encOrdC, drOf]
theorem sins f : Statement (.sins f) := by
  intro q pc w ws _ he
  obtain ⟨rfl, rfl⟩ := List.cons.inj he
  simp (disch := decide) [-Nat.reduceAdd, -BitVec.getLsbD_eq_getElem, -BitVec.extractLsb'_toNat, decode, decSetKey, ctl0, ex_encE, gl_encE, ex_hi, ex_lo, ex_all, gl_hi, gl_lo, encCopy, encDrC, encMmaC, encOrdC, drOf]
theorem sdel f : Statement (.sdel f) := by
  intro q pc w ws _ he
  obtain ⟨rfl, rfl⟩ := List.cons.inj he
  simp (disch := decide) [-Nat.reduceAdd, -BitVec.getLsbD_eq_getElem, -BitVec.extractLsb'_toNat, decode, decSetKey, ctl0, ex_encE, gl_encE, ex_hi, ex_lo, ex_all, gl_hi, gl_lo, encCopy, encDrC, encMmaC, encOrdC, drOf]
theorem shas f : Statement (.shas f) := by
  intro q pc w ws _ he
  obtain ⟨rfl, rfl⟩ := List.cons.inj he
  simp (disch := decide) [-Nat.reduceAdd, -BitVec.getLsbD_eq_getElem, -BitVec.extractLsb'_toNat, decode, decSetKey, ctl0, ex_encE, gl_encE, ex_hi, ex_lo, ex_all, gl_hi, gl_lo, encCopy, encDrC, encMmaC, encOrdC, drOf]
theorem scard f : Statement (.scard f) := by
  intro q pc w ws _ he
  obtain ⟨rfl, rfl⟩ := List.cons.inj he
  simp (disch := decide) [-Nat.reduceAdd, -BitVec.getLsbD_eq_getElem, -BitVec.extractLsb'_toNat, decode, decSetKey, ctl0, ex_encE, gl_encE, ex_hi, ex_lo, ex_all, gl_hi, gl_lo, encCopy, encDrC, encMmaC, encOrdC, drOf]
theorem srep f : Statement (.srep f) := by
  intro q pc w ws _ he
  obtain ⟨rfl, rfl⟩ := List.cons.inj he
  simp (disch := decide) [-Nat.reduceAdd, -BitVec.getLsbD_eq_getElem, -BitVec.extractLsb'_toNat, decode, decSetKey, ctl0, ex_encE, gl_encE, ex_hi, ex_lo, ex_all, gl_hi, gl_lo, encCopy, encDrC, encMmaC, encOrdC, drOf]
theorem scost f op : Statement (.scost f op) := by
  intro q pc w ws _ he
  obtain ⟨rfl, rfl⟩ := List.cons.inj he
  cases op <;> simp (disch := decide) [-Nat.reduceAdd, -BitVec.getLsbD_eq_getElem, -BitVec.extractLsb'_toNat, decode, decSetKey, ex_encE, CostOp.code] <;> rfl
theorem suni f : Statement (.suni f) := by
  intro q pc w ws _ he
  obtain ⟨rfl, rfl⟩ := List.cons.inj he
  simp (disch := decide) [-Nat.reduceAdd, -BitVec.getLsbD_eq_getElem, -BitVec.extractLsb'_toNat, decode, decSetAlg, ctl0, ex_encE, gl_encE, ex_hi, ex_lo, ex_all, gl_hi, gl_lo, encCopy, encDrC, encMmaC, encOrdC, drOf]
theorem sint f : Statement (.sint f) := by
  intro q pc w ws _ he
  obtain ⟨rfl, rfl⟩ := List.cons.inj he
  simp (disch := decide) [-Nat.reduceAdd, -BitVec.getLsbD_eq_getElem, -BitVec.extractLsb'_toNat, decode, decSetAlg, ctl0, ex_encE, gl_encE, ex_hi, ex_lo, ex_all, gl_hi, gl_lo, encCopy, encDrC, encMmaC, encOrdC, drOf]
theorem sdif f : Statement (.sdif f) := by
  intro q pc w ws _ he
  obtain ⟨rfl, rfl⟩ := List.cons.inj he
  simp (disch := decide) [-Nat.reduceAdd, -BitVec.getLsbD_eq_getElem, -BitVec.extractLsb'_toNat, decode, decSetAlg, ctl0, ex_encE, gl_encE, ex_hi, ex_lo, ex_all, gl_hi, gl_lo, encCopy, encDrC, encMmaC, encOrdC, drOf]
theorem sintc f : Statement (.sintc f) := by
  intro q pc w ws _ he
  obtain ⟨rfl, rfl⟩ := List.cons.inj he
  simp (disch := decide) [-Nat.reduceAdd, -BitVec.getLsbD_eq_getElem, -BitVec.extractLsb'_toNat, decode, decSetAlg, ctl0, ex_encE, gl_encE, ex_hi, ex_lo, ex_all, gl_hi, gl_lo, encCopy, encDrC, encMmaC, encOrdC, drOf]
theorem swait g : Statement (.swait g) := by
  intro q pc w ws _ he
  obtain ⟨rfl, rfl⟩ := List.cons.inj he
  simp (disch := decide) [-Nat.reduceAdd, -BitVec.getLsbD_eq_getElem, -BitVec.extractLsb'_toNat, decode, decSetAlg, tileOnly, ex_encW, ex_hi, ex_lo, ex_all, fldOf, immOf]
theorem sortk f c : Statement (.sortk f c) := by
  intro q pc w ws _ he
  obtain ⟨rfl, rfl⟩ := List.cons.inj he
  simp (disch := decide) [-Nat.reduceAdd, -BitVec.getLsbD_eq_getElem, -BitVec.extractLsb'_toNat, decode, decOrder, ctl0, ex_encE, gl_encE, ex_hi, ex_lo, ex_all, gl_hi, gl_lo, encCopy, encDrC, encMmaC, encOrdC, drOf]
theorem topk f c : Statement (.topk f c) := by
  intro q pc w ws _ he
  obtain ⟨rfl, rfl⟩ := List.cons.inj he
  simp (disch := decide) [-Nat.reduceAdd, -BitVec.getLsbD_eq_getElem, -BitVec.extractLsb'_toNat, decode, decOrder, ctl0, ex_encE, gl_encE, ex_hi, ex_lo, ex_all, gl_hi, gl_lo, encCopy, encDrC, encMmaC, encOrdC, drOf]
theorem selb f c : Statement (.selb f c) := by
  intro q pc w ws _ he
  obtain ⟨rfl, rfl⟩ := List.cons.inj he
  simp (disch := decide) [-Nat.reduceAdd, -BitVec.getLsbD_eq_getElem, -BitVec.extractLsb'_toNat, decode, decOrder, ctl0, ex_encE, gl_encE, ex_hi, ex_lo, ex_all, gl_hi, gl_lo, encCopy, encDrC, encMmaC, encOrdC, drOf]
theorem srch f c : Statement (.srch f c) := by
  intro q pc w ws _ he
  obtain ⟨rfl, rfl⟩ := List.cons.inj he
  simp (disch := decide) [-Nat.reduceAdd, -BitVec.getLsbD_eq_getElem, -BitVec.extractLsb'_toNat, decode, decOrder, ctl0, ex_encE, gl_encE, ex_hi, ex_lo, ex_all, gl_hi, gl_lo, encCopy, encDrC, encMmaC, encOrdC, drOf]
theorem mrgk f c : Statement (.mrgk f c) := by
  intro q pc w ws _ he
  obtain ⟨rfl, rfl⟩ := List.cons.inj he
  simp (disch := decide) [-Nat.reduceAdd, -BitVec.getLsbD_eq_getElem, -BitVec.extractLsb'_toNat, decode, decOrder, ctl0, ex_encE, gl_encE, ex_hi, ex_lo, ex_all, gl_hi, gl_lo, encCopy, encDrC, encMmaC, encOrdC, drOf]
theorem card f cnt cont : Statement (.card f cnt cont) := by
  intro q pc w ws _ he
  obtain ⟨rfl, rfl⟩ := List.cons.inj he
  simp (disch := decide) [-Nat.reduceAdd, -BitVec.getLsbD_eq_getElem, -BitVec.extractLsb'_toNat, decode, decSched, ctl0, ex_encE, gl_encE, ex_hi, ex_lo, ex_all, gl_hi, gl_lo, encCopy, encDrC, encMmaC, encOrdC, drOf]
theorem post f lvl : Statement (.post f lvl) := by
  intro q pc w ws _ he
  obtain ⟨rfl, rfl⟩ := List.cons.inj he
  cases lvl <;> simp (disch := decide) [-Nat.reduceAdd, -BitVec.getLsbD_eq_getElem, -BitVec.extractLsb'_toNat, decode, decSched, ex_encE, PostLvl.code] <;> rfl
theorem cntw f : Statement (.cntw f) := by
  intro q pc w ws _ he
  obtain ⟨rfl, rfl⟩ := List.cons.inj he
  simp (disch := decide) [-Nat.reduceAdd, -BitVec.getLsbD_eq_getElem, -BitVec.extractLsb'_toNat, decode, decSched, ctl0, ex_encE, gl_encE, ex_hi, ex_lo, ex_all, gl_hi, gl_lo, encCopy, encDrC, encMmaC, encOrdC, drOf]
theorem cntq f st : Statement (.cntq f st) := by
  intro q pc w ws _ he
  obtain ⟨rfl, rfl⟩ := List.cons.inj he
  cases st <;> simp (disch := decide) [-Nat.reduceAdd, -BitVec.getLsbD_eq_getElem, -BitVec.extractLsb'_toNat, decode, decSched, ex_encE, gl_encE, b1] <;> rfl
theorem cancel f : Statement (.cancel f) := by
  intro q pc w ws _ he
  obtain ⟨rfl, rfl⟩ := List.cons.inj he
  simp (disch := decide) [-Nat.reduceAdd, -BitVec.getLsbD_eq_getElem, -BitVec.extractLsb'_toNat, decode, decSched, ctl0, ex_encE, gl_encE, ex_hi, ex_lo, ex_all, gl_hi, gl_lo, encCopy, encDrC, encMmaC, encOrdC, drOf]
theorem lbar g : Statement (.lbar g) := by
  intro q pc w ws _ he
  obtain ⟨rfl, rfl⟩ := List.cons.inj he
  simp (disch := decide) [-Nat.reduceAdd, -BitVec.getLsbD_eq_getElem, -BitVec.extractLsb'_toNat, decode, decSched, tileOnly, ex_encW, ex_hi, ex_lo, ex_all, fldOf, immOf]
theorem phbnd g : Statement (.phbnd g) := by
  intro q pc w ws _ he
  obtain ⟨rfl, rfl⟩ := List.cons.inj he
  simp (disch := decide) [-Nat.reduceAdd, -BitVec.getLsbD_eq_getElem, -BitVec.extractLsb'_toNat, decode, decSched, tileOnly, ex_encW, ex_hi, ex_lo, ex_all, fldOf, immOf]
theorem snap f : Statement (.snap f) := by
  intro q pc w ws _ he
  obtain ⟨rfl, rfl⟩ := List.cons.inj he
  simp (disch := decide) [-Nat.reduceAdd, -BitVec.getLsbD_eq_getElem, -BitVec.extractLsb'_toNat, decode, decVersion, ctl0, ex_encE, gl_encE, ex_hi, ex_lo, ex_all, gl_hi, gl_lo, encCopy, encDrC, encMmaC, encOrdC, drOf]
theorem snapq f : Statement (.snapq f) := by
  intro q pc w ws _ he
  obtain ⟨rfl, rfl⟩ := List.cons.inj he
  simp (disch := decide) [-Nat.reduceAdd, -BitVec.getLsbD_eq_getElem, -BitVec.extractLsb'_toNat, decode, decVersion, ctl0, ex_encE, gl_encE, ex_hi, ex_lo, ex_all, gl_hi, gl_lo, encCopy, encDrC, encMmaC, encOrdC, drOf]
theorem gviewMap f : Statement (.gviewMap f) := by
  intro q pc w ws _ he
  obtain ⟨rfl, rfl⟩ := List.cons.inj he
  simp (disch := decide) [-Nat.reduceAdd, -BitVec.getLsbD_eq_getElem, -BitVec.extractLsb'_toNat, decode, decVersion, ctl0, ex_encE, gl_encE, ex_hi, ex_lo, ex_all, gl_hi, gl_lo, encCopy, encDrC, encMmaC, encOrdC, drOf]
theorem gviewUnmap f : Statement (.gviewUnmap f) := by
  intro q pc w ws _ he
  obtain ⟨rfl, rfl⟩ := List.cons.inj he
  simp (disch := decide) [-Nat.reduceAdd, -BitVec.getLsbD_eq_getElem, -BitVec.extractLsb'_toNat, decode, decVersion, ctl0, ex_encE, gl_encE, ex_hi, ex_lo, ex_all, gl_hi, gl_lo, encCopy, encDrC, encMmaC, encOrdC, drOf]
theorem gviewFree f : Statement (.gviewFree f) := by
  intro q pc w ws _ he
  obtain ⟨rfl, rfl⟩ := List.cons.inj he
  simp (disch := decide) [-Nat.reduceAdd, -BitVec.getLsbD_eq_getElem, -BitVec.extractLsb'_toNat, decode, decVersion, ctl0, ex_encE, gl_encE, ex_hi, ex_lo, ex_all, gl_hi, gl_lo, encCopy, encDrC, encMmaC, encOrdC, drOf]
theorem attrset f : Statement (.attrset f) := by
  intro q pc w ws _ he
  obtain ⟨rfl, rfl⟩ := List.cons.inj he
  simp (disch := decide) [-Nat.reduceAdd, -BitVec.getLsbD_eq_getElem, -BitVec.extractLsb'_toNat, decode, decVersion, ctl0, ex_encE, gl_encE, ex_hi, ex_lo, ex_all, gl_hi, gl_lo, encCopy, encDrC, encMmaC, encOrdC, drOf]
theorem rgth f dsp isp ev : Statement (.rgth f dsp isp ev) := by
  intro q pc w ws _ he
  obtain ⟨rfl, rfl⟩ := List.cons.inj he
  simp (disch := decide) [-Nat.reduceAdd, -BitVec.getLsbD_eq_getElem, -BitVec.extractLsb'_toNat, decode, decFabric, ctl0, ex_encE, gl_encE, ex_hi, ex_lo, ex_all, gl_hi, gl_lo, encCopy, encDrC, encMmaC, encOrdC, drOf]
theorem rsct f dsp isp ev flt : Statement (.rsct f dsp isp ev flt) := by
  intro q pc w ws _ he
  obtain ⟨rfl, rfl⟩ := List.cons.inj he
  simp (disch := decide) [-Nat.reduceAdd, -BitVec.getLsbD_eq_getElem, -BitVec.extractLsb'_toNat, decode, decFabric, ctl0, ex_encE, gl_encE, ex_hi, ex_lo, ex_all, gl_hi, gl_lo, encCopy, encDrC, encMmaC, encOrdC, drOf]
theorem rget f dsp ev : Statement (.rget f dsp ev) := by
  intro q pc w ws _ he
  obtain ⟨rfl, rfl⟩ := List.cons.inj he
  simp (disch := decide) [-Nat.reduceAdd, -BitVec.getLsbD_eq_getElem, -BitVec.extractLsb'_toNat, decode, decFabric, ctl0, ex_encE, gl_encE, ex_hi, ex_lo, ex_all, gl_hi, gl_lo, encCopy, encDrC, encMmaC, encOrdC, drOf]
theorem rput f ssp ev : Statement (.rput f ssp ev) := by
  intro q pc w ws _ he
  obtain ⟨rfl, rfl⟩ := List.cons.inj he
  simp (disch := decide) [-Nat.reduceAdd, -BitVec.getLsbD_eq_getElem, -BitVec.extractLsb'_toNat, decode, decFabric, ctl0, ex_encE, gl_encE, ex_hi, ex_lo, ex_all, gl_hi, gl_lo, encCopy, encDrC, encMmaC, encOrdC, drOf]
theorem route f : Statement (.route f) := by
  intro q pc w ws _ he
  obtain ⟨rfl, rfl⟩ := List.cons.inj he
  simp (disch := decide) [-Nat.reduceAdd, -BitVec.getLsbD_eq_getElem, -BitVec.extractLsb'_toNat, decode, decFabric, ctl0, ex_encE, gl_encE, ex_hi, ex_lo, ex_all, gl_hi, gl_lo, encCopy, encDrC, encMmaC, encOrdC, drOf]
theorem movi64 g u d imm : Statement (.movi64 g u d imm) := by
  intro q pc w ws _ he
  obtain ⟨rfl, rfl⟩ := List.cons.inj he
  cases u <;> simp (disch := decide) [-Nat.reduceAdd, -BitVec.getLsbD_eq_getElem, -BitVec.extractLsb'_toNat, decode, decLong, immOf, fldOf, ex_encW, ex_hi, ex_lo, ex_all]
theorem addi64 g u d a imm : Statement (.addi64 g u d a imm) := by
  intro q pc w ws _ he
  obtain ⟨rfl, rfl⟩ := List.cons.inj he
  cases u <;> simp (disch := decide) [-Nat.reduceAdd, -BitVec.getLsbD_eq_getElem, -BitVec.extractLsb'_toNat, decode, decLong, immOf, fldOf, ex_encW, ex_hi, ex_lo, ex_all]
theorem illegalWordIssue w : Statement (.illegalWordIssue w) := by
  intro q pc w ws _ he
  exact absurd he (by simp [encode])
theorem fetchFault : Statement .fetchFault := by
  intro q pc w ws _ he
  exact absurd he (by simp [encode])
theorem pendingTrapTaken : Statement .pendingTrapTaken := by
  intro q pc w ws _ he
  exact absurd he (by simp [encode])
theorem brk : Statement .brk := by
  intro q pc w ws _ he
  exact absurd he (by simp [encode])
theorem groupHalt : Statement .groupHalt := by
  intro q pc w ws _ he
  exact absurd he (by simp [encode])
theorem loadCompletion op : Statement (.loadCompletion op) := by
  intro q pc w ws _ he
  exact absurd he (by simp [encode])
theorem atomicCompletion op : Statement (.atomicCompletion op) := by
  intro q pc w ws _ he
  exact absurd he (by simp [encode])
theorem lineOpCompletion op : Statement (.lineOpCompletion op) := by
  intro q pc w ws _ he
  exact absurd he (by simp [encode])
theorem brambleWindowExpiry core slot : Statement (.brambleWindowExpiry core slot) := by
  intro q pc w ws _ he
  exact absurd he (by simp [encode])
theorem copyChunkArrival op : Statement (.copyChunkArrival op) := by
  intro q pc w ws _ he
  exact absurd he (by simp [encode])
theorem tldLineWrite op : Statement (.tldLineWrite op) := by
  intro q pc w ws _ he
  exact absurd he (by simp [encode])
theorem mmaCompletion op : Statement (.mmaCompletion op) := by
  intro q pc w ws _ he
  exact absurd he (by simp [encode])
theorem mmacCompletion op : Statement (.mmacCompletion op) := by
  intro q pc w ws _ he
  exact absurd he (by simp [encode])
theorem azeroCompletion op : Statement (.azeroCompletion op) := by
  intro q pc w ws _ he
  exact absurd he (by simp [encode])
theorem ascacCompletion op : Statement (.ascacCompletion op) := by
  intro q pc w ws _ he
  exact absurd he (by simp [encode])
theorem adrnCompletion op : Statement (.adrnCompletion op) := by
  intro q pc w ws _ he
  exact absurd he (by simp [encode])
theorem adrsCompletion op : Statement (.adrsCompletion op) := by
  intro q pc w ws _ he
  exact absurd he (by simp [encode])
theorem setCommandAcceptance op : Statement (.setCommandAcceptance op) := by
  intro q pc w ws _ he
  exact absurd he (by simp [encode])
theorem setCommandCompletion op : Statement (.setCommandCompletion op) := by
  intro q pc w ws _ he
  exact absurd he (by simp [encode])
theorem setEngineChange job idx shard engine : Statement (.setEngineChange job idx shard engine) := by
  intro q pc w ws _ he
  exact absurd he (by simp [encode])
theorem conversionStart job idx shard : Statement (.conversionStart job idx shard) := by
  intro q pc w ws _ he
  exact absurd he (by simp [encode])
theorem conversionSwitch job idx shard : Statement (.conversionSwitch job idx shard) := by
  intro q pc w ws _ he
  exact absurd he (by simp [encode])
theorem teamDispatch seq core n quad : Statement (.teamDispatch seq core n quad) := by
  intro q pc w ws _ he
  exact absurd he (by simp [encode])
theorem cardAgeEscalation seq : Statement (.cardAgeEscalation seq) := by
  intro q pc w ws _ he
  exact absurd he (by simp [encode])
theorem issueAgeEscalation u top : Statement (.issueAgeEscalation u top) := by
  intro q pc w ws _ he
  exact absurd he (by simp [encode])
theorem bundleReform core quad : Statement (.bundleReform core quad) := by
  intro q pc w ws _ he
  exact absurd he (by simp [encode])
theorem materialisationResume core entry : Statement (.materialisationResume core entry) := by
  intro q pc w ws _ he
  exact absurd he (by simp [encode])
theorem teamRelease team : Statement (.teamRelease team) := by
  intro q pc w ws _ he
  exact absurd he (by simp [encode])
theorem preemptTeam team : Statement (.preemptTeam team) := by
  intro q pc w ws _ he
  exact absurd he (by simp [encode])
theorem resumeTeam team core q0 : Statement (.resumeTeam team core q0) := by
  intro q pc w ws _ he
  exact absurd he (by simp [encode])
theorem sliceEnd jobOut jobIn : Statement (.sliceEnd jobOut jobIn) := by
  intro q pc w ws _ he
  exact absurd he (by simp [encode])
theorem launchCompletion launch : Statement (.launchCompletion launch) := by
  intro q pc w ws _ he
  exact absurd he (by simp [encode])
theorem phaseBoundaryCompletion job : Statement (.phaseBoundaryCompletion job) := by
  intro q pc w ws _ he
  exact absurd he (by simp [encode])
theorem snapCompletion op : Statement (.snapCompletion op) := by
  intro q pc w ws _ he
  exact absurd he (by simp [encode])
theorem attrsetCompletion op : Statement (.attrsetCompletion op) := by
  intro q pc w ws _ he
  exact absurd he (by simp [encode])
theorem generationDrainBlock job gen block : Statement (.generationDrainBlock job gen block) := by
  intro q pc w ws _ he
  exact absurd he (by simp [encode])
theorem pageMigration job va die frame : Statement (.pageMigration job va die frame) := by
  intro q pc w ws _ he
  exact absurd he (by simp [encode])
theorem pageEviction job va : Statement (.pageEviction job va) := by
  intro q pc w ws _ he
  exact absurd he (by simp [encode])
theorem pageRecall job va die frame ok : Statement (.pageRecall job va die frame ok) := by
  intro q pc w ws _ he
  exact absurd he (by simp [encode])
theorem homeGets line : Statement (.homeGets line) := by
  intro q pc w ws _ he
  exact absurd he (by simp [encode])
theorem homeGetm line : Statement (.homeGetm line) := by
  intro q pc w ws _ he
  exact absurd he (by simp [encode])
theorem homeFarAtomic line : Statement (.homeFarAtomic line) := by
  intro q pc w ws _ he
  exact absurd he (by simp [encode])
theorem homeWriteback line : Statement (.homeWriteback line) := by
  intro q pc w ws _ he
  exact absurd he (by simp [encode])
theorem forward line party : Statement (.forward line party) := by
  intro q pc w ws _ he
  exact absurd he (by simp [encode])
theorem invalidation line party : Statement (.invalidation line party) := by
  intro q pc w ws _ he
  exact absurd he (by simp [encode])
theorem invalidationAck line party : Statement (.invalidationAck line party) := by
  intro q pc w ws _ he
  exact absurd he (by simp [encode])
theorem dataResponse line party : Statement (.dataResponse line party) := by
  intro q pc w ws _ he
  exact absurd he (by simp [encode])
theorem transactionComplete line party : Statement (.transactionComplete line party) := by
  intro q pc w ws _ he
  exact absurd he (by simp [encode])
theorem remoteAccessRequest dev req job addr op : Statement (.remoteAccessRequest dev req job addr op) := by
  intro q pc w ws _ he
  exact absurd he (by simp [encode])
theorem remoteResponse op a : Statement (.remoteResponse op a) := by
  intro q pc w ws _ he
  exact absurd he (by simp [encode])
theorem rgthRowArrival op k : Statement (.rgthRowArrival op k) := by
  intro q pc w ws _ he
  exact absurd he (by simp [encode])
theorem rsctCompletion op : Statement (.rsctCompletion op) := by
  intro q pc w ws _ he
  exact absurd he (by simp [encode])
theorem rgetArrival op : Statement (.rgetArrival op) := by
  intro q pc w ws _ he
  exact absurd he (by simp [encode])
theorem rputCompletion op : Statement (.rputCompletion op) := by
  intro q pc w ws _ he
  exact absurd he (by simp [encode])
theorem routeWindowEnd job choice : Statement (.routeWindowEnd job choice) := by
  intro q pc w ws _ he
  exact absurd he (by simp [encode])
theorem replicaCopyComplete job expert : Statement (.replicaCopyComplete job expert) := by
  intro q pc w ws _ he
  exact absurd he (by simp [encode])
theorem flitCrcFail link : Statement (.flitCrcFail link) := by
  intro q pc w ws _ he
  exact absurd he (by simp [encode])
theorem linkFail link lost : Statement (.linkFail link lost) := by
  intro q pc w ws _ he
  exact absurd he (by simp [encode])
theorem correctedError u : Statement (.correctedError u) := by
  intro q pc w ws _ he
  exact absurd he (by simp [encode])
theorem uncorrectableError u at_ : Statement (.uncorrectableError u at_) := by
  intro q pc w ws _ he
  exact absurd he (by simp [encode])
theorem dcmdHaltGroup core : Statement (.dcmdHaltGroup core) := by
  intro q pc w ws _ he
  exact absurd he (by simp [encode])
theorem dcmdHaltTeam core : Statement (.dcmdHaltTeam core) := by
  intro q pc w ws _ he
  exact absurd he (by simp [encode])
theorem dcmdResumeGroup core : Statement (.dcmdResumeGroup core) := by
  intro q pc w ws _ he
  exact absurd he (by simp [encode])
theorem dcmdResumeTeam core : Statement (.dcmdResumeTeam core) := by
  intro q pc w ws _ he
  exact absurd he (by simp [encode])
theorem dcmdStep core : Statement (.dcmdStep core) := by
  intro q pc w ws _ he
  exact absurd he (by simp [encode])
theorem dcmdNoOp core : Statement (.dcmdNoOp core) := by
  intro q pc w ws _ he
  exact absurd he (by simp [encode])
theorem dack core : Statement (.dack core) := by
  intro q pc w ws _ he
  exact absurd he (by simp [encode])
theorem registerWrite off val : Statement (.registerWrite off val) := by
  intro q pc w ws _ he
  exact absurd he (by simp [encode])
theorem deviceStart b : Statement (.deviceStart b) := by
  intro q pc w ws _ he
  exact absurd he (by simp [encode])
theorem readyReport : Statement .readyReport := by
  intro q pc w ws _ he
  exact absurd he (by simp [encode])
theorem startTimeout : Statement .startTimeout := by
  intro q pc w ws _ he
  exact absurd he (by simp [encode])
theorem reload val image : Statement (.reload val image) := by
  intro q pc w ws _ he
  exact absurd he (by simp [encode])
theorem power val : Statement (.power val) := by
  intro q pc w ws _ he
  exact absurd he (by simp [encode])
theorem doorbell word val : Statement (.doorbell word val) := by
  intro q pc w ws _ he
  exact absurd he (by simp [encode])
theorem submit hi : Statement (.submit hi) := by
  intro q pc w ws _ he
  exact absurd he (by simp [encode])
theorem create w : Statement (.create w) := by
  intro q pc w ws _ he
  exact absurd he (by simp [encode])
theorem map w : Statement (.map w) := by
  intro q pc w ws _ he
  exact absurd he (by simp [encode])
theorem unmap w : Statement (.unmap w) := by
  intro q pc w ws _ he
  exact absurd he (by simp [encode])
theorem copyin w : Statement (.copyin w) := by
  intro q pc w ws _ he
  exact absurd he (by simp [encode])
theorem copyout w : Statement (.copyout w) := by
  intro q pc w ws _ he
  exact absurd he (by simp [encode])
theorem setw w : Statement (.setw w) := by
  intro q pc w ws _ he
  exact absurd he (by simp [encode])
theorem count w : Statement (.count w) := by
  intro q pc w ws _ he
  exact absurd he (by simp [encode])
theorem destroy w : Statement (.destroy w) := by
  intro q pc w ws _ he
  exact absurd he (by simp [encode])
theorem unknownJobCommand w : Statement (.unknownJobCommand w) := by
  intro q pc w ws _ he
  exact absurd he (by simp [encode])
theorem jobCommandFinish : Statement .jobCommandFinish := by
  intro q pc w ws _ he
  exact absurd he (by simp [encode])
theorem coolantLimit t : Statement (.coolantLimit t) := by
  intro q pc w ws _ he
  exact absurd he (by simp [encode])
theorem generationDrainStart job gen tier : Statement (.generationDrainStart job gen tier) := by
  intro q pc w ws _ he
  exact absurd he (by simp [encode])
theorem replicaRemoved job expert idx : Statement (.replicaRemoved job expert idx) := by
  intro q pc w ws _ he
  exact absurd he (by simp [encode])
theorem writebackAck line party : Statement (.writebackAck line party) := by
  intro q pc w ws _ he
  exact absurd he (by simp [encode])
theorem hostLinkNegotiation cxl rate width : Statement (.hostLinkNegotiation cxl rate width) := by
  intro q pc w ws _ he
  exact absurd he (by simp [encode])
theorem coolantBelowLimit t : Statement (.coolantBelowLimit t) := by
  intro q pc w ws _ he
  exact absurd he (by simp [encode])

end Sys2Proof.Laws.RoundTrip
end

