-- ==== Sys2Proof/Laws/Registers.lean ====
section
/-! SUPPORT. What a write of registers, predicates or flags leaves in the item and its group (R10, R48, R50, R56). -/

namespace Sys2Proof.Machine

set_option linter.unusedSimpArgs false
set_option Elab.async false

/-- The list with the values `xs`, all FULL, from place `k` on. -/
def putRegs (l : List Reg) (k : Nat) : List W32 → List Reg
  | [] => l
  | x :: xs => putRegs (setAt l k ⟨x, .full, none⟩) (k + 1) xs

@[simp] theorem putRegs_length (xs : List W32) : ∀ (l : List Reg) (k : Nat), (putRegs l k xs).length = l.length := by
  induction xs with
  | nil => exact fun _ _ => rfl
  | cons x xs ih => intro l k; simp [putRegs, ih]
theorem putRegs_getD (xs : List W32) : ∀ (l : List Reg) (k j : Nat) (d : Reg), (putRegs l k xs).getD j d =
    if k ≤ j ∧ j < k + xs.length ∧ j < l.length then ⟨xs.getD (j - k) 0, .full, none⟩ else l.getD j d := by
  induction xs with
  | nil => intro l k j d; simp [putRegs]; omega
  | cons x xs ih =>
    intro l k j d
    simp only [putRegs, ih, setAt_length, List.length_cons]
    by_cases h : k + 1 ≤ j ∧ j < k + 1 + xs.length ∧ j < l.length
    · rw [if_pos h, if_pos (by omega)]
      obtain ⟨m, rfl⟩ : ∃ m, j = k + 1 + m := ⟨j - (k + 1), by omega⟩
      simp [show k + 1 + m - k = m + 1 by omega]
    · rw [if_neg h, setAt_getD]
      by_cases e : k = j
      · subst e
        by_cases l' : k < l.length
        · simp [l']
        · simp [l']
      · rw [if_neg (by omega), if_neg (by omega)]

@[simp] theorem parts_length (n : Nat) : ∀ v, (parts v n).length = n := by
  induction n with
  | zero => exact fun _ => rfl
  | succ n ih => intro v; simp [parts, ih]
theorem parts_getD (n : Nat) : ∀ (v i : Nat), i < n → (parts v n).getD i 0 = BitVec.ofNat 32 (v / 2 ^ (32 * i)) := by
  induction n with
  | zero => intro v i h; omega
  | succ n ih =>
    intro v i h
    cases i with
    | zero => simp [parts]
    | succ i =>
      simp only [parts, List.getD_cons_succ]
      rw [ih _ _ (by omega), Nat.div_div_eq_div_mul, ← pow_add, show 32 + 32 * i = 32 * (i + 1) by ring]

section
variable {s : State} {ik : Nat} {it : Item} {g : Group}
theorem setRegs_v_item (xs : List W32) : ∀ (s : State) (it : Item) (k : Nat), s.item? ik = some it →
    (s.setRegs ik (.v k) xs).item? ik = some { it with v := putRegs it.v k xs } := by
  induction xs with
  | nil => exact fun _ _ _ h => h
  | cons x xs ih =>
    intro s it k h
    exact ih _ { it with v := setAt it.v k ⟨x, .full, none⟩ } (k + 1) (by simp [State.setReg, h, Item.setReg])
theorem setRegs_v_groups (xs : List W32) : ∀ (s : State) (k : Nat), (s.setRegs ik (.v k) xs).groups = s.groups := by
  induction xs with
  | nil => exact fun _ _ => rfl
  | cons x xs ih => exact fun s k => ih _ (k + 1)
theorem setRegs_g_items (xs : List W32) : ∀ (s : State) (k : Nat), (s.setRegs ik (.g k) xs).items = s.items := by
  induction xs with
  | nil => exact fun _ _ => rfl
  | cons x xs ih => exact fun s k => ih _ (k + 1)
theorem setRegs_g_group (xs : List W32) : ∀ (s : State) (g : Group) (k : Nat),
    AMap.find s.groups (groupOf ik) = some g →
    AMap.find (s.setRegs ik (.g k) xs).groups (groupOf ik) = some { g with g := putRegs g.g k xs } := by
  induction xs with
  | nil => exact fun _ _ _ h => h
  | cons x xs ih =>
    intro s g k h
    exact ih _ { g with g := setAt g.g k ⟨x, .full, none⟩ } (k + 1) (by simp [State.setReg, State.updGroup, h, Group.setReg])
end

/-- A flag write leaves the items, and in the group it adds the flags. -/
theorem addFlags_item (s : State) (ik : Nat) (fl : Flg) (k : Nat) : (s.addFlags ik fl).item? k = s.item? k := by
  unfold State.addFlags; split <;> rfl
theorem addFlags_group {s : State} {ik : Nat} {g : Group} (h : AMap.find s.groups (groupOf ik) = some g) (fl : Flg) :
    AMap.find (s.addFlags ik fl).groups (groupOf ik) = some { g with fstat := g.fstat ||| fl } := by
  unfold State.addFlags
  split
  · rename_i e; subst e; simp [h]
  · simp [State.updGroup, h]

theorem addFlags_leads (s : State) (ik : Nat) (fl : Flg) (k : Nat) : (s.addFlags ik fl).leads k = s.leads k := by
  unfold State.addFlags; split <;> rfl

/-- The registers a written result leaves, in the item and in its group (R10, R50). -/
theorem dest_regs {s : State} {ik : Nat} {it : Item} {g : Group} (hi : s.item? ik = some it)
    (hg : AMap.find s.groups (groupOf ik) = some g) (r : RegRef) (n v : Nat) :
    (s.dest ik r n v).item? ik = some { it with v := match r with | .v k => putRegs it.v k (parts v n) | .g _ => it.v } ∧
    AMap.find (s.dest ik r n v).groups (groupOf ik) = some { g with g := match r with
      | .v _ => g.g
      | .g k => if s.leads ik then putRegs g.g k (parts v n) else g.g } := by
  unfold State.dest
  cases r with
  | v k => exact ⟨setRegs_v_item _ _ _ _ hi, by rw [setRegs_v_groups]; exact hg⟩
  | g k =>
    dsimp only
    split
    · refine ⟨?_, setRegs_g_group _ _ _ _ hg⟩
      unfold State.item?
      rw [setRegs_g_items]; exact hi
    · exact ⟨hi, hg⟩

/-- The item and the group after a word has written its result. -/
theorem wrote_regs {s : State} {ik : Nat} {it : Item} {g : Group} (hi : s.item? ik = some it)
    (hg : AMap.find s.groups (groupOf ik) = some g) (r : RegRef) (n v : Nat) (fl : Flg) (len : Nat) :
    (s.wrote ik r n v fl len).item? ik = some { it with
      pc := it.pc + BitVec.ofNat 64 len, skip := false
      v := match r with | .v k => putRegs it.v k (parts v n) | .g _ => it.v } ∧
    AMap.find (s.wrote ik r n v fl len).groups (groupOf ik) = some { g with
      fstat := g.fstat ||| fl
      g := match r with
        | .v _ => g.g
        | .g k => if s.leads ik then putRegs g.g k (parts v n) else g.g } := by
  have h := dest_regs (s := s.addFlags ik fl) ((addFlags_item ..).trans hi) (addFlags_group hg fl) r n v
  rw [addFlags_leads] at h
  refine ⟨?_, h.2⟩
  unfold State.wrote
  rw [State.item?_advance, if_pos rfl, h.1]
  rfl

/-- The poison a destination takes. -/
def putPoison (l : List Reg) (k : Nat) (p : W32) : Nat → List Reg
  | 0 => l
  | n + 1 => setAt (putPoison l k p n) (k + n) ⟨p &&& 0x3F, .poison, none⟩
@[simp] theorem putPoison_length (l : List Reg) (k : Nat) (p : W32) (n : Nat) : (putPoison l k p n).length = l.length := by
  induction n with
  | zero => rfl
  | succ n ih => simp [putPoison, ih]
theorem putPoison_getD (l : List Reg) (k : Nat) (p : W32) (n j : Nat) (d : Reg) : (putPoison l k p n).getD j d =
    if k ≤ j ∧ j < k + n ∧ j < l.length then ⟨p &&& 0x3F, .poison, none⟩ else l.getD j d := by
  induction n with
  | zero => simp [putPoison]; omega
  | succ n ih =>
    simp only [putPoison, setAt_getD, putPoison_length, ih]
    by_cases e : k + n = j
    · subst e
      by_cases l' : k + n < l.length
      · simp [l']
      · simp [l']
    · by_cases c : k ≤ j ∧ j < k + n ∧ j < l.length
      · rw [if_neg (by omega), if_pos c, if_pos (by omega)]
      · rw [if_neg (by omega), if_neg c, if_neg (by omega)]
theorem destPoison_regs {s : State} {ik : Nat} {it : Item} {g : Group} (hi : s.item? ik = some it)
    (hg : AMap.find s.groups (groupOf ik) = some g) (r : RegRef) (n : Nat) (p : W32) :
    (s.destPoison ik r n p).item? ik = some { it with v := match r with | .v k => putPoison it.v k p n | .g _ => it.v } ∧
    AMap.find (s.destPoison ik r n p).groups (groupOf ik) = some { g with g := match r with
      | .v _ => g.g
      | .g k => if s.leads ik then putPoison g.g k p n else g.g } := by
  unfold State.destPoison
  cases r with
  | v k =>
    dsimp only
    induction n with
    | zero => exact ⟨hi, hg⟩
    | succ n ih =>
      rw [List.range_succ, List.foldl_append]
      obtain ⟨h1, h2⟩ := ih
      revert h1 h2
      generalize List.foldl _ s (List.range n) = u
      intro h1 h2
      exact ⟨(State.item?_updItem_same ..).trans (by rw [h1]; rfl), h2⟩
  | g k =>
    dsimp only
    split
    · induction n with
      | zero => exact ⟨hi, hg⟩
      | succ n ih =>
        rw [List.range_succ, List.foldl_append]
        obtain ⟨h1, h2⟩ := ih
        revert h1 h2
        generalize List.foldl _ s (List.range n) = u
        intro h1 h2
        exact ⟨h1, (AMap.find_upd_same ..).trans (by rw [h2]; rfl)⟩
    · exact ⟨hi, hg⟩

/-- A trap leaves the item's registers, predicates and index registers, and its group's registers and flags. -/
theorem takeTrap_regs {s : State} {ik : Nat} {it : Item} {g : Group} (hi : s.item? ik = some it)
    (hg : AMap.find s.groups (groupOf ik) = some g) (t : Trap) (pc : W64) :
    ∃ it' g', (s.takeTrap ik t pc).item? ik = some it' ∧ AMap.find (s.takeTrap ik t pc).groups (groupOf ik) = some g' ∧
      it' = { it with pc := it'.pc, h := it'.h, m := it'.m, skip := it'.skip } ∧
      g' = { g with halt := g'.halt, haltReq := g'.haltReq, stepping := g'.stepping } := by
  unfold State.takeTrap
  rw [hi]
  dsimp only
  split
  · exact ⟨_, g, by rw [State.item?_updItem_same]; exact congrArg _ hi, hg, rfl, rfl⟩
  · exact ⟨_, g, by rw [State.item?_updItem_same]; exact congrArg _ hi, hg, rfl, rfl⟩
  · exact ⟨it, _, hi, by simp only [State.haltGroup, State.postEvent, State.updCore, State.updGroup, AMap.find_upd_same]; exact congrArg _ hg, rfl, rfl⟩

/-- A predicate write (R48). -/
theorem setPred_pred (it : Item) (n m : BitVec 3) (b : Bool) :
    (it.setPred n b).pred m = (if m = n ∧ n ≠ 0 then b else it.pred m) := by
  unfold Item.setPred Item.pred
  by_cases h : n = 0
  · simp [h]
  by_cases hm : m = 0
  · subst hm
    have h' : ¬ (0 : BitVec 3) = n := fun e => h e.symm
    simp only [h', h, false_and, if_false]; rfl
  have hn : n.toNat < 8 := n.isLt
  have hm8 : m.toNat < 8 := m.isLt
  have hmb : (m == 0) = false := by simpa using hm
  simp only [h, hmb, if_false, Bool.false_or, ne_eq, not_false_eq_true, and_true]
  by_cases e : m = n
  · subst e
    cases b <;> simp [hm8, BitVec.getLsbD_eq_getElem]
  · have ne : m.toNat ≠ n.toNat := fun x => e (BitVec.eq_of_toNat_eq x)
    have key : (1#8 <<< n.toNat).getLsbD m.toNat = false := by
      simp only [BitVec.getLsbD_shiftLeft, BitVec.getLsbD_one]
      by_cases l : m.toNat < n.toNat
      · simp [l]
      · have : m.toNat - n.toNat ≠ 0 := by omega
        simp [this]
    cases b
    · simp [e, BitVec.getLsbD_and, BitVec.getLsbD_not, hm8, key, -BitVec.getLsbD_eq_getElem]
    · simp [e, BitVec.getLsbD_or, key, -BitVec.getLsbD_eq_getElem]

/-! Register writes leave the cores. -/

theorem addFlags_cores (s : State) (ik : Nat) (fl : Flg) : (s.addFlags ik fl).cores = s.cores := by
  unfold State.addFlags; split <;> rfl
theorem setRegs_cores (ik : Nat) (xs : List W32) : ∀ (s : State) (r : RegRef), (s.setRegs ik r xs).cores = s.cores := by
  induction xs with
  | nil => exact fun _ _ => rfl
  | cons x xs ih => intro s r; refine (ih _ _).trans ?_; cases r <;> rfl
theorem dest_cores (s : State) (ik : Nat) (r : RegRef) (n v : Nat) : (s.dest ik r n v).cores = s.cores := by
  unfold State.dest
  cases r
  · exact setRegs_cores ..
  · dsimp only; split
    · exact setRegs_cores ..
    · rfl
theorem destPoison_cores (s : State) (ik : Nat) (r : RegRef) (n : Nat) (p : W32) : (s.destPoison ik r n p).cores = s.cores := by
  have : ∀ (l : List Nat) (s : State), (l.foldl (fun t i => t.setReg ik (r.plus i) ⟨p &&& 0x3F, .poison, none⟩) s).cores = s.cores := by
    intro l
    induction l with
    | nil => exact fun _ => rfl
    | cons a l ih => intro s; refine (ih _).trans ?_; cases r <;> rfl
  unfold State.destPoison
  cases r
  · exact this ..
  · dsimp only; split
    · exact this ..
    · rfl

end Sys2Proof.Machine
end

