-- ==== Sys2Proof/Laws/Results.lean ====
section
/-! SUPPORT. Everything a word with a register result can come to, for a bundle of one item, said once (R39, R69, R90): it
passes, waits, traps, writes its result or propagates poison. -/

namespace Sys2Proof.Machine

set_option linter.unusedSimpArgs false
set_option Elab.async false

/-- What the body of a word with a result answers: nothing changed, a result, poison, a wait or a trap. -/
def BodyGives (s0 s : State) (ik : Nat) (it : Item) (f : VF) (n : Nat) : Ev State → Prop
  | .ok u => u = s ∨
      (∃ r v fl, dstRef (s0.quotaOf (launchOf ik)) it f.d n = .ok (some r) ∧ u = (s.addFlags ik fl).dest ik r n v) ∨
      (∃ r p, dstRef (s0.quotaOf (launchOf ik)) it f.d n = .ok (some r) ∧ u = s.destPoison ik r n p)
  | .error (.watch _ _ _ _ _) => False
  | .error _ => True

/-- What a word with a result leaves. -/
inductive ResultOf (s : State) (ik : Nat) (it : Item) (f : VF) (n : Nat) : State → Prop
  | passed : ResultOf s ik it f n (s.advance ik 8)
  | waits : ResultOf s ik it f n (s.leave ik)
  | traps (tr : Trap) : ResultOf s ik it f n (s.takeTrap ik tr s.cur.pc)
  | writes (r : RegRef) (v : Nat) (fl : Flg) (h : dstRef (s.quotaOfItem ik) it f.d n = .ok (some r)) :
      ResultOf s ik it f n (s.wrote ik r n v fl 8)
  | poisons (r : RegRef) (p : W32) (h : dstRef (s.quotaOfItem ik) it f.d n = .ok (some r)) :
      ResultOf s ik it f n ((s.destPoison ik r n p).advance ik 8)

theorem issue_result {s : State} {ik : Nat} {it : Item} {g : Group} (h : Solo s ik it g) {f : VF} {n : Nat}
    {b : State → State → Nat → Ev State} (hb : BodyGives s s ik it f n (b s s ik)) {t : State}
    (ht : (.next (issue f.g 8 b s) : Host.Outcome State Fault Refusal) = .next t) : ResultOf s ik it f n t := by
  injection ht with ht
  subst ht
  cases hg : guardHolds f.g it
  · rw [issue_guard h hg]; exact .passed
  · cases e : b s s ik with
    | ok u =>
      rw [issue_ok h hg e]
      rw [e] at hb
      rcases hb with rfl | ⟨r, v, fl, hr, rfl⟩ | ⟨r, p, hr, rfl⟩
      · exact .passed
      · exact .writes r v fl hr
      · exact .poisons r p hr
    | error w =>
      rw [e] at hb
      cases w with
      | wait => rw [issue_wait h hg e]; exact .waits
      | trap tr => rw [issue_trap h hg e]; exact .traps tr
      | watch _ _ _ _ _ => exact hb.elim

theorem Ev.bind_ok {α β : Type} (a : α) (k : α → Ev β) : (Except.ok a >>= k) = k a := rfl
theorem Ev.bind_error {α β : Type} (e : Stop) (k : α → Ev β) : ((Except.error e : Ev α) >>= k) = .error e := rfl

/-- An answer that never is a watchpoint. -/
def NoWatch {α : Type} : Ev α → Prop
  | .error (.watch _ _ _ _ _) => False
  | _ => True
theorem NoWatch.orWait (c : Bool) : NoWatch (orWait c) := by cases c <;> trivial
theorem NoWatch.orTrap (c : Bool) (t : Trap) : NoWatch (orTrap c t) := by cases c <;> trivial
theorem NoWatch.noPoison (s : State) (ik : Nat) (p : Option W32) : NoWatch (noPoison s ik p) := by cases p <;> trivial
theorem NoWatch.srcRef (q : Nat) (it : Item) (x : Src) (w : Nat) : NoWatch (srcRef q it x w) := by
  cases x <;> simp only [Machine.srcRef] <;> first | trivial | (split <;> trivial)
theorem NoWatch.dstRef (q : Nat) (it : Item) (x : Dst) (w : Nat) : NoWatch (dstRef q it x w) := by
  cases x <;> simp only [Machine.dstRef] <;> first | trivial | (split <;> trivial)
theorem NoWatch.readRef (it : Item) (g : Group) (r : RegRef) (w : Nat) (wb : Bool) : NoWatch (readRef it g r w wb) := by
  unfold Machine.readRef; dsimp only; split
  · split <;> trivial
  · trivial
theorem NoWatch.bind {α β : Type} {a : Ev α} {k : α → Ev β} (ha : NoWatch a) (hk : ∀ x, NoWatch (k x)) :
    NoWatch (a >>= k) := by
  cases a with
  | ok x => exact hk x
  | error e => cases e <;> first | trivial | exact ha.elim
theorem NoWatch.readSrc (q : Nat) (it : Item) (g : Group) (x : Src) (w : Nat) (wb : Bool) :
    NoWatch (readSrc q it g x w wb) := by
  cases x <;> first
    | trivial
    | (simp only [Machine.readSrc]
       refine NoWatch.bind (NoWatch.srcRef ..) (fun y => ?_)
       cases y
       · trivial
       · exact NoWatch.readRef ..)
theorem NoWatch.readUse (q : Nat) (it : Item) (g : Group) (x : Src) (w : Nat) (wb : Bool) :
    NoWatch (readUse q it g x w wb) := by
  unfold Machine.readUse; split
  · trivial
  · exact NoWatch.readSrc ..
theorem NoWatch.readV3 (q : Nat) (it : Item) (g : Group) (f : VF) (a b c : Nat) : NoWatch (readV3 q it g f a b c) :=
  NoWatch.bind (NoWatch.readUse ..) fun _ => NoWatch.bind (NoWatch.readUse ..) fun _ =>
    NoWatch.bind (NoWatch.readUse ..) fun _ => trivial

/-- A body goes on from an answer without a watchpoint. -/
theorem BodyGives.bind {s0 s : State} {ik : Nat} {it : Item} {f : VF} {n : Nat} {α : Type} {a : Ev α} {k : α → Ev State}
    (ha : NoWatch a) (hk : ∀ x, a = .ok x → BodyGives s0 s ik it f n (k x)) : BodyGives s0 s ik it f n (a >>= k) := by
  cases a with
  | ok x => exact hk x rfl
  | error e => cases e <;> first | trivial | exact ha.elim

theorem addFlags_none (s : State) (ik : Nat) : s.addFlags ik 0 = s := by simp [State.addFlags]

section
variable {s : State} {ik : Nat} {it : Item} {g : Group} (h : Solo s ik it g)
include h
theorem vBody_gives (f : VF) (dw aw bw cw : Nat) (F : W64 → W64 → W64 → Nat × Flg) :
    BodyGives s s ik it f dw (vBody f dw aw bw cw F s s ik) := by
  unfold vBody
  rw [h.getItem, Ev.bind_ok]
  refine BodyGives.bind (NoWatch.orWait _) (fun _ _ => BodyGives.bind (NoWatch.readV3 ..) (fun x _ =>
    BodyGives.bind (NoWatch.dstRef ..) (fun y hy => ?_)))
  cases y with
  | none => exact .inl rfl
  | some r =>
    dsimp only
    split
    · exact .inr (.inr ⟨r, _, hy, rfl⟩)
    · exact .inr (.inl ⟨r, _, _, hy, rfl⟩)

/-- The words whose body is the frame of format V. -/
theorem execV_result {i : Instr} {f : VF} {n aw bw cw : Nat} {F : W64 → W64 → W64 → Nat × Flg}
    (hi : exec i s = execV f n aw bw cw F s) {t : State} (ht : exec i s = .next t) : ResultOf s ik it f n t :=
  issue_result h (vBody_gives h f n aw bw cw F) (hi.symm.trans ht)

theorem sel_result {f : VF} {w : Bool} {p : BitVec 3} {t : State} (ht : exec (.sel f w p) s = .next t) : ResultOf s ik it f (wideRegs w) t := by
  refine issue_result h ?_ ht
  dsimp only
  rw [h.getItem, Ev.bind_ok]
  dsimp only
  refine BodyGives.bind (NoWatch.orWait _) (fun _ _ => ?_)
  refine BodyGives.bind (NoWatch.readV3 ..) (fun x _ => BodyGives.bind (NoWatch.dstRef ..) (fun y hy => ?_))
  cases y with
  | none => exact .inl rfl
  | some r =>
    dsimp only
    split
    · exact .inr (.inr ⟨r, _, hy, rfl⟩)
    · exact .inr (.inl ⟨r, _, 0, hy, by rw [addFlags_none]⟩)
theorem movg_result {f : VF}  {t : State} (ht : exec (.movg f) s = .next t) : ResultOf s ik it f (1) t := by
  refine issue_result h ?_ ht
  dsimp only
  rw [h.getItem, Ev.bind_ok]
  dsimp only
  refine BodyGives.bind (NoWatch.orWait _) (fun _ _ => ?_)
  refine BodyGives.bind (NoWatch.readSrc ..) (fun x _ => BodyGives.bind (NoWatch.noPoison ..) (fun _ _ =>
    BodyGives.bind (NoWatch.orTrap ..) (fun _ _ => BodyGives.bind (NoWatch.readRef ..) (fun _ _ =>
    BodyGives.bind (NoWatch.dstRef ..) (fun y hy => ?_)))))
  cases y with
  | none => exact .inl rfl
  | some r =>
    dsimp only
    split
    · exact .inr (.inr ⟨r, _, hy, rfl⟩)
    · exact .inr (.inl ⟨r, _, 0, hy, by rw [addFlags_none]⟩)
theorem movs_result {f : VF} {sv : Special} {t : State} (ht : exec (.movs f sv) s = .next t) : ResultOf s ik it f (Special.regs sv) t := by
  refine issue_result h ?_ ht
  dsimp only
  rw [h.getItem, Ev.bind_ok]
  dsimp only
  refine BodyGives.bind (NoWatch.orWait _) (fun _ _ => ?_)
  refine BodyGives.bind (NoWatch.dstRef ..) (fun y hy => ?_)
  cases y with
  | none => exact .inl rfl
  | some r => exact .inr (.inl ⟨r, _, 0, hy, by rw [addFlags_none]⟩)
theorem xget_result {f : VF} {k : BitVec 2} {t : State} (ht : exec (.xget f k) s = .next t) : ResultOf s ik it f (1) t := by
  refine issue_result h ?_ ht
  dsimp only
  rw [h.getItem, Ev.bind_ok]
  dsimp only
  refine BodyGives.bind (NoWatch.orWait _) (fun _ _ => ?_)
  refine BodyGives.bind (NoWatch.dstRef ..) (fun y hy => ?_)
  cases y with
  | none => exact .inl rfl
  | some r => exact .inr (.inl ⟨r, _, 0, hy, by rw [addFlags_none]⟩)
theorem tstp_result {f : VF}  {t : State} (ht : exec (.tstp f) s = .next t) : ResultOf s ik it f (1) t := by
  refine issue_result h ?_ ht
  dsimp only
  rw [h.getItem, Ev.bind_ok]
  dsimp only
  refine BodyGives.bind (NoWatch.orWait _) (fun _ _ => ?_)
  refine BodyGives.bind (NoWatch.readUse ..) (fun x _ => BodyGives.bind (NoWatch.dstRef ..) (fun y hy => ?_))
  cases y with
  | none => exact .inl rfl
  | some r => exact .inr (.inl ⟨r, _, 0, hy, by rw [addFlags_none]⟩)
theorem clrp_result {f : VF}  {t : State} (ht : exec (.clrp f) s = .next t) : ResultOf s ik it f (1) t := by
  refine issue_result h ?_ ht
  dsimp only
  rw [h.getItem, Ev.bind_ok]
  dsimp only
  refine BodyGives.bind (NoWatch.orWait _) (fun _ _ => ?_)
  refine BodyGives.bind (NoWatch.dstRef ..) (fun y hy => ?_)
  cases y with
  | none => exact .inl rfl
  | some r =>
    dsimp only
    split
    · exact .inr (.inl ⟨r, _, 0, hy, by rw [addFlags_none]⟩)
    · exact .inl rfl
theorem spanq_result {f : VF}  {t : State} (ht : exec (.spanq f) s = .next t) : ResultOf s ik it f (1) t := by
  refine issue_result h ?_ ht
  dsimp only
  rw [h.getItem, Ev.bind_ok]
  dsimp only
  refine BodyGives.bind (NoWatch.orWait _) (fun _ _ => ?_)
  refine BodyGives.bind (NoWatch.dstRef ..) (fun y hy => ?_)
  cases y with
  | none => exact .inl rfl
  | some r => exact .inr (.inl ⟨r, _, 0, hy, by rw [addFlags_none]⟩)
theorem qnt_result {f : VF} {q : QTy} {m : RMode} {t : State} (ht : exec (.qnt f q m) s = .next t) :
    ResultOf s ik it f 1 t := by
  change execQnt f q m s = _ at ht
  unfold execQnt at ht
  refine issue_result h ?_ ht
  unfold fltBody
  exact vBody_gives h ..
theorem dqnt_result {f : VF} {q : QTy} {t : State} (ht : exec (.dqnt f q) s = .next t) : ResultOf s ik it f 1 t := by
  change execDqnt f q s = _ at ht
  unfold execDqnt at ht
  refine issue_result h ?_ ht
  unfold fltBody
  exact vBody_gives h ..

/-- The words whose body is the frame of floating point. -/
theorem execFlt_result {i : Instr} {f : VF} {n aw bw cw : Nat} {ka kb kc : ImmK} {F : Nat → Nat → Nat → Nat × Flg}
    (hi : exec i s = execFlt f n aw bw cw ka kb kc F s) {t : State} (ht : exec i s = .next t) : ResultOf s ik it f n t :=
  issue_result h (vBody_gives h f n aw bw cw (fun a b c => F (immBits ka f.a a) (immBits kb f.b b) (immBits kc f.c c)))
    (hi.symm.trans ht)

/-- A word with a register result passes, waits, traps, writes its result, or propagates poison. -/
theorem result_cases {i : Instr} {f : VF} {n : Nat} (hi : Instr.result i = some (f, n)) {t : State}
    (ht : exec i s = .next t) : ResultOf s ik it f n t := by
  cases i <;> simp only [Instr.result, Option.some.injEq, Prod.mk.injEq, reduceCtorEq] at hi <;> obtain ⟨rfl, rfl⟩ := hi
  case sel => exact sel_result h ht
  case movg => exact movg_result h ht
  case movs => exact movs_result h ht
  case xget => exact xget_result h ht
  case tstp => exact tstp_result h ht
  case clrp => exact clrp_result h ht
  case spanq => exact spanq_result h ht
  case qnt => exact qnt_result h ht
  case dqnt => exact dqnt_result h ht
  case fadd | fsub | fmul | ffma | fmin | fmax | fclass | frcp | frsq | fsqrt | fdiv | fexp2 | flog2 | ftanh =>
    exact execFlt_result h rfl ht
  case pfadd | pfmul | pfma | pfmin | pfmax | dadd | dmul | dfma | dmin | dmax | cvt | pack | unpk | scac =>
    exact execFlt_result h rfl ht
  all_goals exact execV_result h rfl ht
end

/-! ## Any other word -/

/-- What an issue of a word of `len` bytes leaves: the item passes, waits, traps, or completes with a state of which `P`
holds. -/
inductive IssueOf (s : State) (ik len : Nat) (P : State → Prop) : State → Prop
  | passed : IssueOf s ik len P (s.advance ik len)
  | waits : IssueOf s ik len P (s.leave ik)
  | traps (tr : Trap) : IssueOf s ik len P (s.takeTrap ik tr s.cur.pc)
  | completes (u : State) (h : P u) : IssueOf s ik len P (u.advance ik len)

/-- An answer without a watchpoint, of which `P` holds where it is a state. -/
def Gives (P : State → Prop) : Ev State → Prop
  | .ok u => P u
  | .error (.watch _ _ _ _ _) => False
  | .error _ => True
theorem Gives.bind {α : Type} {P : State → Prop} {a : Ev α} {k : α → Ev State} (ha : NoWatch a)
    (hk : ∀ x, a = .ok x → Gives P (k x)) : Gives P (a >>= k) := by
  cases a with
  | ok x => exact hk x rfl
  | error e => cases e <;> first | trivial | exact ha.elim

theorem issue_cases {s : State} {ik : Nat} {it : Item} {g : Group} (h : Solo s ik it g) {gd : Guard} {len : Nat}
    {b : State → State → Nat → Ev State} {P : State → Prop} (hb : Gives P (b s s ik)) {t : State}
    (ht : (.next (issue gd len b s) : Host.Outcome State Fault Refusal) = .next t) : IssueOf s ik len P t := by
  injection ht with ht
  subst ht
  cases hg : guardHolds gd it
  · rw [issue_guard h hg]; exact .passed
  · cases e : b s s ik with
    | ok u => rw [issue_ok h hg e]; rw [e] at hb; exact .completes u hb
    | error w =>
      rw [e] at hb
      cases w with
      | wait => rw [issue_wait h hg e]; exact .waits
      | trap tr => rw [issue_trap h hg e]; exact .traps tr
      | watch _ _ _ _ _ => exact hb.elim

theorem NoWatch.mapM {α β : Type} (f : α → Ev β) (hf : ∀ x, NoWatch (f x)) : ∀ l : List α, NoWatch (l.mapM f) := by
  intro l
  induction l with
  | nil => trivial
  | cons a l ih =>
    rw [List.mapM_cons]
    exact NoWatch.bind (hf a) (fun _ => NoWatch.bind ih (fun _ => trivial))

/-- One write of a word with at most one register, predicate or index register result. -/
inductive OneWrite (s : State) (ik : Nat) (i : Instr) : State → Prop
  | none : OneWrite s ik i s
  | reg (r n v) (h : Instr.resultI i = some (r, n)) : OneWrite s ik i (s.dest ik r n v)
  | poi (r n p) (h : Instr.resultI i = some (r, n)) : OneWrite s ik i (s.destPoison ik r n p)
  | pred (d b fl) (h : Instr.predicate i = some d) : OneWrite s ik i ((s.addFlags ik fl).updItem ik (fun it => it.setPred d b))
  | idx (k x) (h : Instr.index i = some k) : OneWrite s ik i (s.updItem ik (fun it => it.setX k.toNat x))

theorem one_cases {s : State} {ik : Nat} {it : Item} {g : Group} (h : Solo s ik it g) {i : Instr} {t : State}
    (hi : (Instr.resultI i).isSome ∨ (Instr.predicate i).isSome ∨ (Instr.index i).isSome ∨ Instr.idle i = true) (ht : exec i s = .next t) :
    ∃ len, IssueOf s ik len (OneWrite s ik i) t := by
  have I : ∀ (f : IF) uses F, (Instr.resultI i = some (iRef f.u f.d, 1)) → exec i s = execI f uses F s →
      IssueOf s ik 8 (OneWrite s ik i) t := by
    intro f uses F hr he
    refine issue_cases h ?_ (he.symm.trans ht)
    unfold iBody
    rw [h.getItem, Ev.bind_ok]
    refine Gives.bind (NoWatch.orWait _) (fun _ _ => ?_)
    cases uses with
    | false => exact OneWrite.reg _ _ _ hr
    | true =>
      refine Gives.bind (NoWatch.readRef ..) (fun x _ => ?_)
      rcases x with ⟨a, p⟩
      cases p with
      | none => exact OneWrite.reg _ _ _ hr
      | some q => exact OneWrite.poi _ _ _ hr
  have C : ∀ (f : VF) w F, (Instr.predicate i = some (dstPred f.d)) → exec i s = execCmpV f w F s →
      IssueOf s ik 8 (OneWrite s ik i) t := by
    intro f w F hr he
    refine issue_cases h ?_ (he.symm.trans ht)
    unfold cmpBody
    rw [h.getItem, Ev.bind_ok]
    refine Gives.bind (NoWatch.readV3 ..) (fun _ _ => Gives.bind (NoWatch.noPoison ..) (fun _ _ => OneWrite.pred _ _ _ hr))
  have L : ∀ (gd d a b F), Instr.predicate i = some d → exec i s = execPLogic gd d a b F s →
      IssueOf s ik 8 (OneWrite s ik i) t := by
    intro gd d a b F hr he
    refine issue_cases h ?_ (he.symm.trans ht)
    dsimp only
    rw [h.getItem, Ev.bind_ok]
    have := OneWrite.pred (s := s) (ik := ik) (i := i) d (F (it.pred a) (it.pred b)) 0 hr
    rw [addFlags_none] at this
    exact this
  cases i <;> simp only [Instr.resultI, Instr.predicate, Instr.index, Instr.idle, Option.isSome_some, Option.isSome_none, Bool.false_eq_true, or_false, false_or, or_self] at hi
  case addi | andi | ori | xori | shli | shri | movi => exact ⟨8, I _ _ _ rfl rfl⟩
  case cmp | fcmp | dcmp => exact ⟨8, C _ _ _ rfl rfl⟩
  case pand | por | pxor => exact ⟨8, L _ _ _ _ _ rfl rfl⟩
  case pnot g' d a => exact ⟨8, L g' d a a (fun x _ => !x) rfl rfl⟩
  case movi64 g' u d imm =>
    refine ⟨16, issue_cases h ?_ ht⟩
    dsimp only
    rw [h.getItem, Ev.bind_ok]
    exact Gives.bind (NoWatch.orWait _) (fun _ _ => OneWrite.reg _ _ _ rfl)
  case addi64 g' u d a imm =>
    refine ⟨16, issue_cases h ?_ ht⟩
    dsimp only
    rw [h.getItem, Ev.bind_ok]
    refine Gives.bind (NoWatch.orWait _) (fun _ _ => Gives.bind (NoWatch.readRef ..) (fun x _ => ?_))
    rcases x with ⟨a, p⟩
    cases p with
    | none => exact OneWrite.reg _ _ _ rfl
    | some q => exact OneWrite.poi _ _ _ rfl
  case srd gd d r =>
    refine ⟨8, issue_cases h ?_ ht⟩
    dsimp only
    rw [h.getItem, Ev.bind_ok]
    exact Gives.bind (NoWatch.orTrap ..) (fun _ _ => Gives.bind (NoWatch.orWait _) (fun _ _ => OneWrite.reg _ _ _ rfl))
  case cmpi f c =>
    refine ⟨8, issue_cases h ?_ ht⟩
    dsimp only
    rw [h.getItem, Ev.bind_ok]
    refine Gives.bind (NoWatch.readRef ..) (fun x _ => Gives.bind (NoWatch.noPoison ..) (fun _ _ => ?_))
    have := OneWrite.pred (s := s) (ik := ik) (i := .cmpi f c) (f.d.extractLsb' 0 3) (CondI.holds c (lo32 x.1) f.imm) 0 rfl
    rw [addFlags_none] at this
    exact this
  case xset f k =>
    refine ⟨8, issue_cases h ?_ ht⟩
    dsimp only
    rw [h.getItem, Ev.bind_ok]
    exact Gives.bind (NoWatch.readV3 ..) (fun x _ => Gives.bind (NoWatch.noPoison ..) (fun _ _ => Gives.bind (NoWatch.orTrap ..) (fun _ _ => OneWrite.idx _ _ rfl)))
  case xadd f k =>
    refine ⟨8, issue_cases h ?_ ht⟩
    dsimp only
    rw [h.getItem, Ev.bind_ok]
    exact Gives.bind (NoWatch.readSrc ..) (fun x _ => Gives.bind (NoWatch.noPoison ..) (fun _ _ => Gives.bind (NoWatch.orTrap ..) (fun _ _ => OneWrite.idx _ _ rfl)))
  case nop | yield | matz =>
    refine ⟨8, issue_cases h ?_ ht⟩
    rw [h.getItem, Ev.bind_ok]
    exact OneWrite.none
  case waitf f n =>
    refine ⟨8, issue_cases h ?_ ht⟩
    dsimp only
    rw [h.getItem, Ev.bind_ok]
    dsimp only
    split
    · exact Gives.bind (NoWatch.orWait _) (fun _ _ => OneWrite.none)
    · refine Gives.bind ?_ (fun _ _ => Gives.bind (NoWatch.orWait _) (fun _ _ => OneWrite.none))
      exact NoWatch.mapM _ (fun _ => NoWatch.srcRef ..) _

end Sys2Proof.Machine
end

