-- ==== Sys2Proof/Laws/Sync.lean ====
section
/-! SUPPORT. What the issue of a barrier's word does for a bundle of one item (R177 to R183): only an item that waits goes on
with a later arrival. -/

namespace Sys2Proof.Machine

theorem passWaits_none {s t : State} (h : ∀ k ∈ s.cur.items, s.waitEnded t k = false)
    (hi : s.cur.items.filter (fun k => t.cur.items.contains k) = t.cur.items) : passWaits s t = t := by
  have e : s.cur.items.filter (s.waitEnded t) = [] := List.filter_eq_nil_iff.2 (fun k hk => by rw [h k hk]; exact Bool.false_ne_true)
  unfold passWaits
  simp only [e, List.foldl, List.contains_nil, Bool.or_false, hi]
/-- An item that has completed or trapped passes no wait. -/
theorem passWaits_done {s t : State} {ik : Nat} (hs : s.cur.items = [ik]) (ht : t.cur.items = [ik]) : passWaits s t = t := by
  refine passWaits_none (fun k hk => ?_) (by simp [hs, ht])
  have : k = ik := by simpa [hs] using hk
  subst this
  unfold State.waitEnded
  cases t.item? k <;> simp [ht]
/-- An item that has left the issue to wait, and whose wait nothing has ended, goes on waiting. -/
theorem passWaits_left {s t : State} {ik : Nat} (hs : s.cur.items = [ik]) (ht : t.cur.items = []) (hw : t.waitOver ik = false) :
    passWaits s t = t := by
  refine passWaits_none (fun k hk => ?_) (by simp [ht])
  have : k = ik := by simpa [hs] using hk
  subst this
  unfold State.waitEnded
  cases t.item? k <;> simp [hw]

theorem takeTrap_cur (s : State) (ik : Nat) (t : Trap) (pc : W64) : (s.takeTrap ik t pc).cur = s.cur := by
  unfold State.takeTrap
  split
  · rfl
  · dsimp only
    split <;> rfl
theorem cbarTeam_cur (s : State) (k tk : Nat) : (s.cbarTeam k tk).cur = s.cur := by
  unfold State.cbarTeam
  dsimp only
  split
  · rfl
  · split <;> rfl
theorem lbarCheck_cur (s : State) (lk : Nat) : (s.lbarCheck lk).cur = s.cur := by
  unfold State.lbarCheck
  split
  · rfl
  · dsimp only
    split <;> split <;> rfl
theorem sync_cur (s : State) (a b : List Nat) : (s.sync a b).cur = s.cur := by unfold State.sync; split <;> rfl
/-- The knowledge after a synchronisation, as a change of the teams alone. -/
theorem sync_eq (s : State) (a b : List Nat) : s.sync a b = { s with
    teams := if s.teams.all (fun e => e.2.unpublished.isEmpty) then s.teams
      else s.teams.map (fun e => (e.1, { e.2 with unpublished := e.2.unpublished.map (fun w =>
        { w with known := learn w.known a b s.fresh, pubs := learn w.pubs a b s.fresh }) })) } := by
  unfold State.sync
  by_cases h : s.teams.all (fun e => e.2.unpublished.isEmpty) = true
  · rw [if_pos h, if_pos h]
  · rw [if_neg h, if_neg h]
/-- What is known of the order and an item's wait do not meet. -/
theorem sync_setWait (s : State) (ik : Nat) (w : Wait) (a b : List Nat) : (s.setWait ik w).sync a b = (s.sync a b).setWait ik w := by
  rw [sync_eq, sync_eq]
  rfl

end Sys2Proof.Machine
end

