-- ==== Sys2Proof/Tests/Slice0.lean ====
section
/-! SUPPORT. Tests: words that the spec writes out decode to what they stand for; the legality check refuses an ill-formed
term for each of its checks; and for each statement a state and operands that meet its hypotheses. -/

open Sys2Proof Sys2Proof.Machine

namespace Sys2Proof.Tests

set_option maxRecDepth 100000

/-! ## Words written out in the spec -/

/-- No guard. -/
def noGuard : Guard := ⟨0, false⟩
/-- A word of format V without wait bits. -/
def vWord (d : Dst) (a b c : Src) : VF := ⟨noGuard, d, a, b, c, false, false, false⟩
/-- A word of format E. -/
def eWord (r a b c : Fld) : EF := ⟨noGuard, r, a, b, c⟩

-- spec/02: `add.z64 v2:v3, v2:v3, v4:v5`, `svc 1`
theorem test_word_add : decode 0x040002020400000C 0 = .ok (.add (vWord (.v 2) (.v 2) (.v 4) (.v 0)) .z64) := rfl
theorem test_word_svc : decode 0x0020000000000001 0 = .ok (.svc noGuard 1) := rfl
-- spec/04: `mov.z32 v20, v15`, `cmpi.eq p4, v0, 0`, `xset x1, 10, 15`
theorem test_word_mov : decode 0x2410140F00000004 0 = .ok (.mov (vWord (.v 20) (.v 15) (.v 0) (.v 0)) false) := rfl
theorem test_word_cmpi : decode 0x2880040000000000 0 = .ok (.cmpi ⟨noGuard, false, 4, 0, 0⟩ .eq) := rfl
theorem test_word_xset : decode 0x2C00010A0F00F000 0 = .ok (.xset (vWord (.v 0) (.imm 10) (.imm 15) (.v 0)) 1) := rfl
-- spec/05: `fcmp.gt p2, v15, v7`, `fdiv.rtz v6, v4, v5`, `dfma v4:v5, v0:v1, v2:v3, v6:v7`
theorem test_word_fcmp : decode 0x3440020F07000300 0 = .ok (.fcmp (vWord (.p 2) (.v 15) (.v 7) (.v 0)) .gt) := rfl
theorem test_word_fdiv : decode 0x3830060405000001 0 = .ok (.fdiv (vWord (.v 6) (.v 4) (.v 5) (.v 0)) .rtz) := rfl
theorem test_word_dfma : decode 0x402004000206000C 0 = .ok (.dfma (vWord (.v 4) (.v 0) (.v 2) (.v 6)) .rne) := rfl
-- spec/06: `tstp v9, v6`, `prply`, `srd v3, hcause`
theorem test_word_tstp : decode 0x6C00090600000000 0 = .ok (.tstp (vWord (.v 9) (.v 6) (.v 0) (.v 0))) := rfl
theorem test_word_prply : decode 0x6C20000000000000 0 = .ok (.prply noGuard) := rfl
theorem test_word_srd : decode 0x0040030000000000 0 = .ok (.srd noGuard 3 0) := rfl
-- spec/11: `swr dcmd, v4`
theorem test_word_swr : decode 0x0050000400000182 0 = .ok (.swr noGuard 4 0x182) := rfl
-- spec/08: `fence.ar.die`
theorem test_word_fence : decode 0x90000000000E8000 0 = .ok (.fence noGuard .ar .die) := rfl
-- spec/09: `vote.mask v7, p2`, `redg.fadd v9, v8`
theorem test_word_vote :
    decode 0xA440070200FF0C04 0 = .ok (.vote (vWord (.v 7) (.v 0) (.v 0) (.imm 0xFF)) .mask 2) := rfl
theorem test_word_redg : decode 0xA860090800FF0C00 0 = .ok (.redg (vWord (.v 9) (.v 8) (.v 0) (.imm 0xFF)) (.fadd .rne)) := rfl
-- spec/10: `tclm v2, 5`, `oprf`
theorem test_word_tclm : decode 0xB000020000008005 0 = .ok (.tclm (eWord 2 0 0 0) (some 5)) := rfl
theorem test_word_oprf : decode 0xB040000000000000 0 = .ok (.oprf noGuard) := rfl
-- spec/16: `swait`; spec/21: `lbar`
theorem test_word_swait : decode 0xC840000000000000 0 = .ok (.swait noGuard) := rfl
theorem test_word_lbar : decode 0xD050000000000000 0 = .ok (.lbar noGuard) := rfl
-- illegal words of spec/02, 04, 05, 21: reserved major, odd pair, unused field, LEA shift, odd destination
theorem test_illegal_words : ∀ w ∈ ([0x4C00000000000000, 0x040003020400000C, 0x1C20010203000000, 0x2C30020204130C0C,
    0x3840060405000000, 0x400003000206000C, 0xD050010000000000] : List W64), legalWord 256 0 w 0 = none := by
  intro w hw
  simp only [List.mem_cons, List.not_mem_nil, or_false] at hw
  rcases hw with rfl | rfl | rfl | rfl | rfl | rfl | rfl <;> rfl
-- the host's view: the word of a row, and both words of MOVI64
theorem test_table_word : decodeTableWord 64 0x0020000000000001 = some (.svc noGuard 1) := rfl

/-! ## The legality check refuses -/

/-- An instruction is refused at quota 8 and address 4096. -/
def refused (l : List Instr) : Bool := l.all (fun i => wf 8 4096 i == false)
/-- A word of format M: data `d`, address `a`, width `w`. -/
def mWord (d a : Src) (w : Width) : MF := ⟨noGuard, d, a, 0, .plain, .item, 4, false, false, w, false⟩

-- format V (R25): a register at the quota, an odd pair, an odd uniform pair, a used field with a predicate destination, a
-- wait bit on an immediate, an unused field, a wait bit on an unused field, a destination field that is not used
theorem test_wf_fields : refused [.add (vWord (.v 8) (.v 0) (.v 0) (.v 0)) .s32, .add (vWord (.v 0) (.v 8) (.v 0) (.v 0)) .s32,
    .add (vWord (.v 1) (.v 0) (.v 0) (.v 0)) .s64, .add (vWord (.v 0) (.v 3) (.v 0) (.v 0)) .z64,
    .add (vWord (.g 1) (.v 0) (.v 0) (.v 0)) .s64, .add (vWord (.v 0) (.g 3) (.v 0) (.v 0)) .s64,
    .add (vWord (.p 1) (.v 0) (.v 0) (.v 0)) .s32, .add ⟨noGuard, .v 0, .imm 1, .v 0, .v 0, true, false, false⟩ .s32,
    .add (vWord (.v 0) (.v 0) (.v 0) (.v 1)) .s32, .add ⟨noGuard, .v 0, .v 0, .v 0, .v 0, false, false, true⟩ .s32,
    .xset (vWord (.v 1) (.v 0) (.v 0) (.v 0)) 0] = true := by decide
-- predicate destinations (R79, R93), CVT (R96), PACK and UNPK (R98), MOVS (R37), LEA, KDEP, SPANQ, WAITF, TSTP
theorem test_wf_entries : refused [.cmp (vWord (.v 0) (.v 0) (.v 0) (.v 0)) .eq .s32,
    .fcmp (vWord (.p 1) (.v 0) (.v 0) (.v 1)) .gt, .dcmp (vWord (.p 1) (.v 1) (.v 0) (.v 0)) .gt,
    .cvt (vWord (.v 0) (.v 0) (.v 0) (.v 0)) .c4 .f32 .rne, .cvt (vWord (.v 0) (.v 0) (.v 0) (.v 0)) .s32 .s32 .rne,
    .cvt (vWord (.v 0) (.imm 1) (.v 0) (.v 0)) .f32 .f16 .rne, .pack (vWord (.v 0) (.v 0) (.v 0) (.v 0)) .f32,
    .unpk (vWord (.v 0) (.v 0) (.v 0) (.v 0)) .s32 false, .movs (vWord (.x 0 0) (.v 0) (.v 0) (.v 0)) .grp,
    .movs (vWord (.v 1) (.v 0) (.v 0) (.v 0)) .clock, .lea (vWord (.v 0) (.v 1) (.v 0) (.v 0)) 0,
    .kdep (vWord (.v 0) (.v 0) (.imm 1) (.v 0)), .spanq (vWord (.v 0) (.g 0) (.v 0) (.v 0)),
    .spanq ⟨noGuard, .v 0, .v 0, .v 0, .v 0, true, false, false⟩, .waitf (vWord (.v 1) (.v 0) (.v 0) (.v 0)) 1,
    .waitf (vWord (.v 0) (.v 1) (.v 0) (.v 0)) 0, .waitf (vWord (.v 0) (.imm 1) (.v 0) (.v 0)) 1,
    .tstp (vWord (.v 0) (.imm 1) (.v 0) (.v 0))] = true := by decide
-- formats I, B, L and system registers (R29, R32, R35, R84, R111, R226)
theorem test_wf_immediates : refused [.addi ⟨noGuard, true, 64, 0, 0⟩, .addi ⟨noGuard, false, 8, 0, 0⟩,
    .addi ⟨noGuard, false, 0, 8, 0⟩, .shli ⟨noGuard, false, 0, 0, 32⟩, .movi ⟨noGuard, false, 0, 1, 0⟩,
    .cmpi ⟨noGuard, false, 8, 0, 0⟩ .eq, .brx noGuard 1, .call noGuard 8 0, .ret noGuard 7, .movi64 noGuard false 1 0,
    .movi64 noGuard true 64 0, .addi64 noGuard true 2 3 0, .addi64 noGuard false 2 8 0, .srd noGuard 8 0,
    .srd noGuard 0 9, .srd noGuard 0 0x107, .swr noGuard 0 0, .swr noGuard 0 0x151, .swr noGuard 8 1] = true ∧
    wf 8 4104 (.movi64 noGuard false 2 0) = false := by decide
-- format M (R30, R31, R161, R164)
theorem test_wf_memory : refused [.ld (mWord (.v 8) (.v 0) .b32), .ld (mWord (.v 1) (.v 0) .b64), .ld (mWord (.v 2) (.v 0) .b128),
    .ld (mWord (.imm 0) (.v 0) .b32), .ld (mWord (.g 1) (.v 0) .b64), .ld (mWord (.v 0) (.v 1) .b32), .ld (mWord (.v 0) (.g 1) .b32),
    .ld (mWord (.v 0) (.x 0 0) .b32), .ld (mWord (.v 0) (.imm 0) .b32), .ld { mWord (.v 0) (.v 0) .b32 with ord := .rel },
    .ld { mWord (.v 0) (.v 0) .b32 with scope := .die }, .ld { mWord (.v 0) (.v 0) .b32 with var := true },
    .ld { mWord (.v 0) (.v 0) .b32 with wd := true }, .lds { mWord (.v 0) (.v 0) .b32 with ord := .acq, scope := .die },
    .st { mWord (.v 0) (.v 0) .b32 with ord := .acq }, .st { mWord (.v 0) (.v 0) .b8 with var := true },
    .sts { mWord (.v 0) (.v 0) .b32 with ord := .rel, scope := .die }, .atom (mWord (.v 0) (.v 0) .b16) .add,
    .atom { mWord (.v 0) (.v 0) .b32 with var := true } .add, .atom (mWord (.g 0) (.v 0) .b32) .add,
    .atom (mWord (.v 2) (.v 0) .b64) .cas, .red (mWord (.v 0) (.v 0) .b32) .exch, .red (mWord (.v 0) (.v 0) .b32) .cas,
    .atoms { mWord (.v 0) (.v 0) .b32 with scope := .die } .add, .fence noGuard .plain .item, .cflush (mWord (.v 1) (.v 0) .b8),
    .cinv (mWord (.v 0) (.v 0) .b32), .pref { mWord (.v 0) (.v 0) .b8 with wd := true }] = true := by decide
-- format E, engines (R33, R166, R172, R182, R195 to R217, R237)
theorem test_wf_engines : refused [.dbgm (eWord 1 0 0 0) 0 false, .dbgm (eWord 0 0 0 0) 5 false, .dbgm (eWord 0 2 0 0) 2 false,
    .cpy (eWord 0 1 0 0) false true 4, .cpy (eWord 0 0 1 0) true false 4, .cpyw (eWord 0 0 0 2) true true 4, .cprpl (eWord 1 0 0 0),
    .bufa (eWord 0 0 1 0), .bufw (eWord 0 8 0 0), .bufq (eWord 1 0 0 0) false, .buff (eWord 1 0 0 0), .buffRearm (eWord 0 0 1 0) false,
    .barInit (eWord 0 1 0 0) (some 2), .barArv (eWord 0 0 1 0) none, .barWait (eWord 1 0 0 0) (some 2), .barSync (eWord 0 0 1 0) none,
    .cbar (eWord 1 0 0 0) (some 2), .shfl (vWord (.v 0) (.v 0) (.v 1) (.v 0)) .bcast, .vote (vWord (.v 0) (.v 1) (.v 0) (.v 0)) .cnt 1,
    .elect (vWord (.v 0) (.v 0) (.v 1) (.v 0)), .matchg (vWord (.v 0) (.v 1) (.v 0) (.v 0)) true,
    .redg (vWord (.v 1) (.v 0) (.v 0) (.v 0)) (.add .s64), .tclm (eWord 0 0 0 0) (some 0), .tclm (eWord 0 0 0 0) (some 33),
    .trel (eWord 0 0 0 0) (some (31, 2)), .trel (eWord 0 0 8 0) none, .tld (eWord 0 0 0 1) true 4, .tmov (eWord 0 0 0 0) 5,
    .tmov (eWord 0 0 0 2) 2, .cbld (eWord 0 4 0 0) 0, .mma (eWord 0 0 0 1) ⟨false, false, false, .int8, 0⟩,
    .mma (eWord 0 0 0 0) ⟨true, false, false, .fp8, 0⟩, .mma (eWord 0 0 0 0) ⟨false, true, false, .c4, 0⟩,
    .mmac (eWord 0 0 0 1) ⟨false, false, false, .int8, 0⟩, .aalc (eWord 0 0 0 0) 0 3 0 .f32, .aalc (eWord 0 0 0 0) 0 0 40 .f32,
    .aalc (eWord 0 0 0 0) 0 2 39 .part, .adrn (eWord 0 0 0 0) ⟨1, .bf16, 0, 0, 0⟩, .adrn (eWord 0 0 0 0) ⟨0, .b32, 5, 0, 0⟩,
    .adrn (eWord 0 0 0 0) ⟨0, .b32, 0, 3, 0⟩, .adrn (eWord 7 0 0 0) ⟨0, .b32, 1, 0, 0⟩, .adrn (eWord 0 0 1 0) ⟨0, .b32, 0, 0, 0⟩,
    .adrs (eWord 1 0 0 0) ⟨0, .b32, 0, 0, 0⟩, .ascac (eWord 0 0 1 0) 0 1] = true := by decide
-- sets, order, scheduling, versions, fabric (R276 to R290, R355 to R361, R331 to R335, R384)
theorem test_wf_commands : refused [.snew (eWord 2 0 0 0), .sfree (eWord 0 1 0 0), .sbld (eWord 0 0 1 0) false 4,
    .senum (eWord 0 0 0 1) true 4, .sins (eWord 0 0 8 0), .sdel (eWord 0 0 0 1), .shas (eWord 2 0 0 0), .scard (eWord 0 0 1 0),
    .srep (eWord 0 1 0 0), .scost (eWord 0 0 1 0) .scard, .scost (eWord 0 0 1 0) .suni, .suni (eWord 0 0 0 1), .sint (eWord 0 0 1 0),
    .sdif (eWord 1 0 0 0), .sintc (eWord 0 0 0 2), .sortk (eWord 0 0 0 0) ⟨true, false, false, .f32⟩,
    .sortk (eWord 0 0 0 0) ⟨false, false, true, .z32⟩, .topk (eWord 0 2 0 0) ⟨false, false, false, .z32⟩,
    .topk (eWord 0 0 0 4) ⟨false, false, false, .z32⟩, .selb (eWord 0 0 0 4) ⟨false, false, false, .z32⟩,
    .srch (eWord 8 0 0 0) ⟨false, false, false, .z32⟩, .mrgk (eWord 0 0 1 0) ⟨false, false, false, .z32⟩,
    .card (eWord 0 0 0 4) false false, .card (eWord 0 0 0 2) true false, .post (eWord 0 0 1 0) .dev, .post (eWord 1 0 0 0) .to,
    .cntw (eWord 0 0 1 0), .cntq (eWord 1 0 0 0) false, .cancel (eWord 1 0 0 0), .snap (eWord 0 1 0 0), .snapq (eWord 0 0 1 0),
    .gviewMap (eWord 0 0 2 0), .gviewUnmap (eWord 0 1 0 0), .gviewFree (eWord 0 0 1 0), .attrset (eWord 0 1 0 0),
    .rgth (eWord 0 0 2 0) true true 4, .rsct (eWord 0 1 0 0) false true 4 false, .rget (eWord 0 0 1 0) true 4,
    .rput (eWord 0 1 0 0) true 4, .route (eWord 2 0 0 0)] = true := by decide

/-! ## States that meet the hypotheses of the statements -/

/-- Full registers that hold the values `l`. -/
def regs (l : List W32) : List Reg := l.map (fun v => ⟨v, .full, none⟩)
/-- An item at address 4096 whose registers hold `l`. -/
def anItem (l : List W32) : Item := { Item.start 8 4096 with v := regs l }
/-- The card of the placed launch, with a launch handler. -/
def handled : CardC := { placeCard with handler := 8192 }
/-- The placed launch, with card `c`. -/
def aLaunch (c : CardC) : Launch :=
  { card := c, lvl := .core 0, seq := 0, phase := 0, st := .running, next := 1, ended := 0, canc := false, cfail := false,
    raised := none, holds := false, deposits := [], cont := none, lbar := [], lbarN := 0, phb := [], phbN := 0, rver := none }
/-- The key of the item and of its group. -/
def ik0 : Nat := placeItem
def gk0 : Nat := groupOf placeItem
/-- Item `it` of group `g` of a launch with card `c` issues the word at 4096 alone. -/
def onCard (c : CardC) (it : Item) (g : Group) : State :=
  { State.reset.placed 0 with
    items := [(ik0, it)], groups := [(gk0, g)], launches := [(1, aLaunch c)], agenda := [],
    cur := ⟨0, 0, [ik0], none, 4096⟩ }
def alone (it : Item) : State := onCard placeCard it Group.start
theorem solo (c : CardC) (it : Item) (g : Group) : Solo (onCard c it g) ik0 it g := ⟨rfl, rfl, rfl⟩

/-- The item that most statements are tried on. -/
def it0 : Item := anItem [0, 1, 0x80000000, 0xFFFFFFFF, 4096, 255, 256, 64]
/-- One item can run a word of one or two registers: guard, sources and destination. -/
def Ready : Prop :=
  Solo (alone it0) ik0 it0 Group.start ∧ guardHolds noGuard it0 = true ∧
  Writes (alone it0) ik0 it0 Group.start (.v 2) 1 (.v 2) ∧ Writes (alone it0) ik0 it0 Group.start (.v 2) 2 (.v 2) ∧
  Writes (alone it0) ik0 it0 Group.start (.g 63) 1 (.g 63) ∧
  Reads (alone it0) ik0 it0 Group.start (.v 3) 1 false 0xFFFFFFFF ∧
  Reads (alone it0) ik0 it0 Group.start (.v 2) 1 false 0x80000000 ∧
  Reads (alone it0) ik0 it0 Group.start (.v 2) 2 false 0xFFFFFFFF80000000 ∧
  Reads (alone it0) ik0 it0 Group.start (.g 63) 1 false 0 ∧
  Reads (alone it0) ik0 it0 Group.start (.v 0) 0 false 0
theorem ready : Ready :=
  ⟨solo _ _ _, rfl, ⟨rfl, rfl⟩, ⟨rfl, rfl⟩, ⟨rfl, rfl⟩, rfl, rfl, rfl, rfl, rfl⟩

theorem witness_IntegerInstructions : Ready := ready
theorem witness_ComparesAndPredicates :
    Ready ∧ readRef it0 Group.start (iRef false 3) 1 false = .ok (0xFFFFFFFF, none) := ⟨ready, rfl⟩
-- MOVG at both sides of 63, immediates, pairs
theorem witness_MovesAndImmediates : Ready ∧
    readSrc 256 it0 Group.start (.v 7) 1 false = .ok (64, none) ∧ readSrc 256 it0 Group.start (.imm 63) 1 false = .ok (63, none) ∧
    readRef it0 Group.start (.g 63) 1 false = .ok (0, none) ∧ refBusy it0 Group.start true (iRef false 2) 2 = false ∧
    readRef it0 Group.start (iRef false 2) 2 false = .ok (0xFFFFFFFF80000000, none) := ⟨ready, rfl, rfl, rfl, rfl, rfl⟩
-- 255 and 256 for XSET
theorem witness_IndexRegisters : Ready ∧ it0.x[(0 : BitVec 2).toNat]? = some ⟨0, 0, 7⟩ ∧
    Reads (alone it0) ik0 it0 Group.start (.v 5) 1 false 255 ∧
    Reads (alone it0) ik0 it0 Group.start (.v 6) 1 false 256 ∧ resolveIdx 256 it0 0 7 1 = some 7 ∧
    resolveIdx 256 it0 0 8 1 = none := ⟨ready, rfl, rfl, rfl, rfl, rfl⟩
theorem witness_FloatArithmetic : Ready := ready
theorem witness_PackedAndDouble : Ready := ready
theorem witness_ConversionsAndScales : Ready := ready
-- the least and the greatest finite values of single precision
theorem witness_RoundingIsExact : Fmt.val .f32 1 = .fin false 1 (-149) ∧ (1 : Nat) < 2 ^ Fmt.bits .f32 ∧
    Fmt.val .f32 0x7F7FFFFF = .fin false 0xFFFFFF 104 ∧ Fmt.val .f32 0x7F7FFFFE = .fin false 0xFFFFFE 104 ∧
    0x7F7FFFFE < Fmt.maxMag .f32 := ⟨rfl, by decide, rfl, rfl, by decide⟩
theorem witness_FalseGuardPasses : Solo (alone it0) ik0 it0 Group.start ∧ guardHolds ⟨1, false⟩ it0 = false ∧
    Instr.guard? (.bra ⟨1, false⟩ 4) = some ⟨1, false⟩ ∧ Instr.guard? (.nop ⟨1, false⟩) = some ⟨1, false⟩ ∧
    Instr.guard? (.elect ⟨⟨1, false⟩, .v 0, .v 0, .v 0, .v 0, false, false, false⟩) = some ⟨1, false⟩ :=
  ⟨solo _ _ _, rfl, rfl, rfl, rfl⟩
theorem witness_RegisterWrites : Solo (alone it0) ik0 it0 Group.start := solo _ _ _
theorem witness_InstructionFrames : Solo (alone it0) ik0 it0 Group.start ∧
    (∃ t, exec (.add (vWord (.v 2) (.v 0) (.v 1) (.v 0)) .s32) (alone it0) = .next t) ∧
    Instr.result (.add (vWord (.v 2) (.v 0) (.v 1) (.v 0)) .s32) = some (vWord (.v 2) (.v 0) (.v 1) (.v 0), 1) ∧
    (∃ t, exec (.movi ⟨noGuard, false, 2, 0, 5⟩) (alone it0) = .next t) ∧
    Instr.resultI (.movi ⟨noGuard, false, 2, 0, 5⟩) = some (.v 2, 1) := ⟨solo _ _ _, ⟨_, rfl⟩, rfl, ⟨_, rfl⟩, rfl⟩
/-- An item with an EMPTY and a POISON register. -/
def itTags : Item := { it0 with v := [⟨0, .empty, none⟩, ⟨5, .poison, none⟩, ⟨0, .full, none⟩, ⟨0, .full, none⟩] }
theorem witness_OperandTags : Solo (alone itTags) ik0 itTags Group.start ∧ guardHolds noGuard itTags = true ∧
    Instr.result (.add (vWord (.v 0) (.v 0) (.v 1) (.v 0)) .s32) = some (vWord (.v 0) (.v 0) (.v 1) (.v 0), 1) ∧
    dstBusy 256 itTags Group.start true (.v 0) 1 = true ∧ dstBusy 256 itTags Group.start true (.v 2) 1 = false ∧
    readSrc 256 itTags Group.start (.v 0) 1 false = .error .wait ∧
    readSrc 256 itTags Group.start (.v 0) 1 true = .error (.trap ⟨0x03, 0, 0, 0⟩) ∧
    readSrc 256 itTags Group.start (.v 1) 1 false = .ok (5, some 5) ∧ firstOf3 none (some 5) none = some (5 : W32) :=
  ⟨solo _ _ _, rfl, rfl, rfl, rfl, rfl, rfl, rfl, rfl⟩
theorem witness_Predicates : (7 : BitVec 3) ≠ 0 := by decide
/-- Two items of a group of which the second issues alone. -/
def second : State := { alone it0 with
  items := [(ik0, it0), (ik0 + 1, it0)], cur := ⟨0, 0, [ik0 + 1], none, 4096⟩ }
theorem witness_LeaderRule : second.leads (ik0 + 1) = false ∧ Solo second (ik0 + 1) it0 Group.start ∧
    second.acqPending (ik0 + 1) = false ∧
    readAddr (second.quotaOfItem (ik0 + 1)) it0 Group.start (mWord (.g 5) (.v 4) .b32) false = .ok (0xFF00001000, none) ∧
    readAddr (second.quotaOfItem (ik0 + 1)) it0 Group.start (mWord (.g 5) (.v 4) .b32) true = .ok (4096, none) :=
  ⟨rfl, ⟨rfl, rfl, rfl⟩, rfl, rfl, rfl⟩
/-- The item inside its launch handler, and in monitor code. -/
def itHandler : Item := { it0 with h := { HRegs.zero with flag := true, pc := 4104 } }
def itMonitor : Item := { it0 with m := { MRegs.zero with mon := true, pc := 4104, cause := 0x42 } }
theorem witness_TrapEntry : (onCard handled it0 Group.start).item? ik0 = some it0 ∧
    ((onCard handled it0 Group.start).cardOf (launchOf ik0)).handler = 8192 ∧ it0.m.mon = false ∧ it0.h.flag = false ∧
    (alone it0).item? ik0 = some it0 ∧ ((alone it0).cardOf (launchOf ik0)).handler = 0 ∧ itHandler.h.flag = true ∧
    itMonitor.m.mon = true ∧ AMap.find (alone itMonitor).groups (groupOf ik0) = some Group.start :=
  ⟨rfl, rfl, rfl, rfl, rfl, rfl, rfl, rfl, rfl⟩
theorem witness_TrapInstructions : Ready ∧ it0.m.mon = false ∧ it0.h.flag = false ∧ itHandler.h.flag = true ∧
    ((alone it0).cardOf (launchOf ik0)).handler = 0 ∧ ((onCard handled it0 Group.start).cardOf (launchOf ik0)).handler ≠ 0 :=
  ⟨ready, rfl, rfl, rfl, rfl, by decide⟩
theorem witness_ReturnFromTrap : Solo (alone itMonitor) ik0 itMonitor Group.start ∧ itMonitor.ending = false ∧
    itMonitor.m.mon = true ∧ Solo (alone itHandler) ik0 itHandler Group.start ∧ itHandler.ending = false ∧
    itHandler.h.flag = true ∧ itHandler.m.mon = false ∧ itHandler.cancelled = false ∧ Ready ∧ it0.ending = false :=
  ⟨solo _ _ _, rfl, rfl, solo _ _ _, rfl, rfl, rfl, rfl, ready, rfl⟩
/-- Its program counter has left all mapped pages. -/
def lost : State := { alone it0 with cur := ⟨0, 0, [ik0], none, 2 ^ 40⟩ }
/-- A pending trap, and a cancellation. -/
def itPending : Item := { it0 with pend := [⟨0x14, 4, 4096, 0⟩] }
def itCancelled : Item := { it0 with cancel := true }
theorem witness_BoundaryTraps : Solo (alone it0) ik0 it0 Group.start ∧ guardHolds (guardOf 0) it0 = true ∧
    guardHolds (guardOf 0x4C02000000000000) it0 = false ∧ posDependent 0x4C02000000000000 = false ∧
    lost.fetch (jobOf ik0) lost.cur.pc = .fail 1 ∧ Solo lost ik0 it0 Group.start ∧ Solo (alone itPending) ik0 itPending Group.start ∧
    itPending.pend = [⟨0x14, 4, 4096, 0⟩] ∧ Solo (alone itCancelled) ik0 itCancelled Group.start ∧ itCancelled.pend = [] ∧
    (alone itCancelled).cancelDue ik0 itCancelled = true :=
  ⟨solo _ _ _, rfl, rfl, rfl, rfl, ⟨rfl, rfl, rfl⟩, solo _ _ _, rfl, solo _ _ _, rfl, rfl⟩
/-- Core 0 in another state. -/
def onCore (s : State) (k : Core) : State := { s with cores := [(0, k)] }
-- the last breakpoint and watchpoint, a selected poison record
def aRec : PRec := ⟨true, 0, ik0, 0, 0x8000111C00104010, 4096, 4096, 1, ⟨.v 0, 1⟩, [], false, 0, 0⟩
theorem witness_SystemRegisters : Ready ∧ it0.m.mon = false ∧ (0x100 : BitVec 16).toNat = 0x100 ∧
    Solo (alone itMonitor) ik0 itMonitor Group.start ∧ guardHolds noGuard itMonitor = true ∧ itMonitor.m.mon = true ∧
    anyEmpty (regsAt itMonitor Group.start (.v 3) 1) = false ∧
    ((alone itMonitor).core ((alone itMonitor).coreOf ik0)).wps[3]? = some ⟨0, 0, 0⟩ ∧
    (let s := onCore (alone itMonitor) { Core.reset with poison := [(0, aRec)] }
     Solo s ik0 itMonitor Group.start ∧ AMap.find (s.core (s.coreOf ik0)).poison (s.core (s.coreOf ik0)).psel.toNat = some aRec) ∧
    readV itMonitor Group.start 3 1 = .ok (0xFFFFFFFF, none) :=
  ⟨ready, rfl, rfl, solo _ _ _, rfl, rfl, rfl, rfl, ⟨⟨rfl, rfl, rfl⟩, rfl⟩, rfl⟩
/-- Breakpoint 7 at the word, with action `act`; monitor code whose offset register holds 60 or 64. -/
def breakState (act : W64) : State :=
  onCore (alone it0) { Core.reset with bps := List.replicate 7 0 ++ [4097 + act] }
def itBox : Item := { itMonitor with v := regs [60, 64, 0, 0] }
theorem witness_MailboxAndDebugUnit : Ready ∧ (∀ r ∈ it0.v, r.tag ≠ .empty) ∧ (∀ r ∈ Group.start.g, r.tag ≠ .empty) ∧
    srcRef 256 it0 (.v 0) 1 = .ok (some (.v 0)) ∧ it0.m.mon = false ∧
    Solo (alone itBox) ik0 itBox Group.start ∧ itBox.m.mon = true ∧ readV itBox Group.start 0 1 = .ok (60, none) ∧
    readV itBox Group.start 1 1 = .ok (64, none) ∧
    readEs (alone itBox) ik0 itBox Group.start 2 (2 ^ (0 : BitVec 3).toNat) = .ok [0] ∧
    ((alone itBox).core ((alone itBox).coreOf ik0)).bell = false ∧
    (∀ act ∈ [(0 : W64), 2], Solo (breakState act) ik0 it0 Group.start ∧
      ((breakState act).core ((breakState act).coreOf ik0)).bps.getD 7 0 = 4097 + act ∧ (4097 + act).getLsbD 0 = true ∧
      (4097 + act) >>> 3 = it0.pc >>> 3 ∧
      ∀ m, m < 7 → (((breakState act).core ((breakState act).coreOf ik0)).bps.getD m 0).getLsbD 0 = false) ∧
    Solo (onCard placeCard it0 { Group.start with haltReq := true }) ik0 it0 { Group.start with haltReq := true } ∧
    (alone it0).dbgLaunch 0 = none ∧ (onCore (alone it0) { Core.reset with dlaunch := 1 }).dbgLaunch 0 = some 1 := by
  refine ⟨ready, by decide, by decide, rfl, rfl, solo _ _ _, rfl, rfl, rfl, rfl, rfl, ?_, solo _ _ _, rfl, rfl⟩
  intro act h
  simp only [List.mem_cons, List.not_mem_nil, or_false] at h
  rcases h with rfl | rfl <;>
    exact ⟨⟨rfl, rfl, rfl⟩, rfl, rfl, rfl, fun m hm => by rcases m with _ | _ | _ | _ | _ | _ | _ | m <;> first | rfl | omega⟩
/-- A branch register that is no multiple of 8. -/
def itOdd : Item := { it0 with v := regs [4, 0, 4096, 0] }
theorem witness_Branches : Ready ∧ anyEmpty (regsAt it0 Group.start (.v 2) 2) = false ∧
    anyEmpty (regsAt itTags Group.start (.v 0) 2) = true ∧ Solo (alone itOdd) ik0 itOdd Group.start ∧
    readV itOdd Group.start 0 2 = .ok (4, none) ∧ readV itOdd Group.start 2 2 = .ok (4096, none) :=
  ⟨ready, rfl, rfl, solo _ _ _, rfl, rfl⟩
/-- The placed team. -/
def tm0 : Team := newTeam placeLaunch 0 placeCard 0 0 [0] 0 0 0 0
def itEnding : Item := { it0 with waits := [(⟨4096, 0⟩, .ending)] }
theorem witness_ItemEnds : (AMap.find (alone itEnding).teams ((alone itEnding).teamOf ik0) = some tm0 ∧ tm0.core = some 0 ∧ Group.start.halt = none ∧
      Group.start.haltReq = false ∧ Group.start.stopped = false ∧ (alone itEnding).mustLeave ((alone itEnding).teamOf ik0) = false ∧
      (alone itEnding).trapDue ik0 = false ∧ (onCard placeCard itEnding { Group.start with haltReq := true }).trapDue ik0 = false ∧
      (alone it0).coh = [] ∧ (alone it0).gathers = []) ∧
    Ready ∧ (∀ r ∈ it0.v, r.tag ≠ .empty) ∧ Group.start.inflight = 0 ∧ it0.ending = false ∧
    Solo (alone itEnding) ik0 itEnding Group.start ∧ itEnding.ending = true ∧
    AMap.find (alone it0).launches (launchOf ik0) = some (aLaunch placeCard) ∧ Group.start.exch = [] ∧ (alone it0).cbars = [] ∧
    (aLaunch placeCard).lbar = [] ∧ (aLaunch placeCard).phb = [] ∧ ((alone it0).core ((alone it0).coreOf ik0)).slots = [] ∧
    (alone it0).cur.span = none ∧
    Solo (onCard placeCard it0 { Group.start with inflight := 1 }) ik0 it0 { Group.start with inflight := 1 } :=
  ⟨⟨rfl, rfl, rfl, rfl, rfl, rfl, rfl, rfl, rfl, rfl⟩, ready, by decide, rfl, rfl, solo _ _ _, rfl, rfl, rfl, rfl, rfl, rfl, rfl, rfl, solo _ _ _⟩
/-- A launch with a continuation card whose first range has `n` bytes and mode `m`. -/
def depositing (n m : Nat) : Launch := { aLaunch { placeCard with cont := 8192 } with cont := some (65536, n, m) }
def depositState (l : Launch) : State := { alone it0 with launches := [(1, l)] }
theorem witness_Deposits : Ready ∧ it0.ending = false ∧ AMap.find (alone it0).launches (launchOf ik0) = some (aLaunch placeCard) ∧
    (aLaunch placeCard).card.cont = 0 ∧
    (∀ x ∈ [(15, 2), (16, 2), (16, 1)], Solo (depositState (depositing x.1 x.2)) ik0 it0 Group.start ∧
      AMap.find (depositState (depositing x.1 x.2)).launches (launchOf ik0) = some (depositing x.1 x.2) ∧
      (depositing x.1 x.2).card.cont ≠ 0 ∧ (depositing x.1 x.2).deposits.length = 0) ∧
    Solo (depositState (aLaunch { placeCard with cont := 8192 })) ik0 it0 Group.start := by
  refine ⟨ready, rfl, rfl, rfl, ?_, ⟨rfl, rfl, rfl⟩⟩
  intro x h
  simp only [List.mem_cons, List.not_mem_nil, or_false] at h
  rcases h with rfl | rfl | rfl <;> exact ⟨⟨rfl, rfl, rfl⟩, rfl, by decide, rfl⟩
def itRegrp : Item := { it0 with waits := [(⟨4096, 0⟩, .regrp 0)] }
theorem witness_JoiningAndReforming : Ready ∧ (alone it0).cur.span = none ∧
    (alone it0).joinTest (alone it0).cur.core (launchOf ik0) (alone it0).cur.pc = alone it0 ∧ it0.wait? = none ∧
    Solo (alone itRegrp) ik0 itRegrp Group.start ∧ itRegrp.wait? = some (.regrp 0) ∧ (alone itRegrp).reformsOf ik0 = 0 ∧
    (onCore (alone itRegrp) { Core.reset with reforms := [(0, 1)] }).reformsOf ik0 = 1 :=
  ⟨ready, rfl, rfl, rfl, solo _ _ _, rfl, rfl, rfl⟩
/-- The item holds a poison record, and its register claims it or not. -/
def recState (it : Item) : State := { onCore (alone it) { Core.reset with poison := [(0, aRec)] } with fresh := 1 }
def itClaims : Item := { it0 with v := [⟨0, .poison, some 0⟩, ⟨0, .full, none⟩, ⟨0, .full, none⟩, ⟨0, .full, none⟩] }
theorem witness_PoisonReplay : Ready ∧ (alone it0).cur.span = none ∧ it0.wait? = none ∧ it0.waits = [] ∧
    (alone it0).recsOf ((alone it0).coreOf ik0) ik0 (ik0 + 1) = [] ∧
    (∀ it ∈ [it0, itClaims], Solo (recState it) ik0 it Group.start ∧
      ((recState it).recsOf ((recState it).coreOf ik0) ik0 (ik0 + 1)).filter (fun x => decide (x.2.serial < (recState it).fresh)) =
        [(0, aRec)]) ∧
    (recState it0).claims aRec = false ∧ (recState itClaims).claims aRec = true ∧ (recState itClaims).acqPending ik0 = false ∧
    (∃ u, reissue { recState itClaims with cur := { (recState itClaims).cur with pc := aRec.pc } } ik0 0 itClaims aRec = .ok u ∧
      (({ u with cur := (recState itClaims).cur } : State).standAt ik0 itClaims.pc 1).awaiting ik0 = false) := by
  refine ⟨ready, rfl, rfl, rfl, rfl, ?_, rfl, rfl, rfl, ⟨_, rfl, rfl⟩⟩
  intro it h
  simp only [List.mem_cons, List.not_mem_nil, or_false] at h
  rcases h with rfl | rfl <;> exact ⟨⟨rfl, rfl, rfl⟩, rfl⟩
/-- The item whose pair `v4:v5` addresses the mapped page. -/
def itMem : Item := anItem [0, 1, 2, 3, 4096, 0, 4097, 0]
/-- The page of the program with another entry, and attribute `attr` of its frame. -/
def paged (pte : W64) (attr : BitVec 2) : State :=
  { alone itMem with ptes := AMap.put (alone itMem).ptes (tableAt 5) pte, fat := [(0, attr)] }
def ldF (addr : Src) : MF := mWord (.v 0) addr .b32
/-- The translation of address 4096. -/
def xl (s : State) : Xlat := match s.translate 0 4096 with | .ok x => x | _ => ⟨0, 0, 0, 0⟩
theorem quiet0 : (alone itMem).quiet ((alone itMem).coreOf ik0) := ⟨rfl, fun _ h => absurd h List.not_mem_nil, rfl, rfl⟩
-- a SEQ page, a page that cannot be read or written, an aliased frame, a PHASE page, no page, a misaligned address
theorem witness_GlobalLoads :
    Solo (alone itMem) ik0 itMem Group.start ∧ guardHolds noGuard itMem = true ∧ (alone itMem).ungated ik0 ∧
    Writes (alone itMem) ik0 itMem Group.start (dataDst (ldF (.v 4)).data) 1 (.v 0) ∧
    notLeader (alone itMem) ik0 (ldF (.v 4)).data = false ∧
    readAddr 256 itMem Group.start (ldF (.v 4)) false = .ok (4096, none) ∧
    readAddr 256 itMem Group.start (ldF (.v 6)) false = .ok (4097, none) ∧
    readAddr 256 itMem Group.start (ldF (.v 2)) false = .ok (0x300000002, none) ∧
    (alone itMem).translate (jobOf ik0) 0x300000000 = .fail 1 ∧
    (alone itMem).translate (jobOf ik0) 4096 = .ok (xl (alone itMem)) ∧ (xl (alone itMem)).rd = true ∧
    (alone itMem).aliased (xl (alone itMem)) = false ∧ (xl (alone itMem)).attr = aSEQ ∧
    (alone itMem).invPending ik0 (lineOf (xl (alone itMem)).pa) = false ∧ (alone itMem).quiet ((alone itMem).coreOf ik0) ∧
    (paged (leafPte 0 false false true 0 0) 0).translate 0 4096 = .ok (xl (paged (leafPte 0 false false true 0 0) 0)) ∧
    (xl (paged (leafPte 0 false false true 0 0) 0)).rd = false ∧ (xl (paged (leafPte 0 false false true 0 0) 0)).wr = false ∧
    (paged (leafPte 0 true true true 0 0) 1).aliased (xl (paged (leafPte 0 true true true 0 0) 1)) = true ∧
    (xl (paged (leafPte 0 true true true 2 0) 2)).attr = aPHASE ∧
    (paged (leafPte 0 true true true 2 0) 2).aliased (xl (paged (leafPte 0 true true true 2 0) 2)) = false ∧
    MOrd.acquires .acq = true :=
  ⟨solo _ _ _, rfl, ⟨rfl, rfl⟩, ⟨rfl, rfl⟩, rfl, rfl, rfl, rfl, rfl, rfl, rfl, rfl, rfl, rfl,
    quiet0, rfl, rfl, rfl, rfl, rfl, rfl, rfl⟩
/-- A store that waits in slot 0 of the collector. -/
def heldStore : State :=
  onCore (alone itMem) { Core.reset with slots := [(0, ⟨32, 16, [], [⟨ik0, 4096, 4096, aREL, [1, 2, 3, 4], 4⟩], false⟩)] }
theorem witness_GlobalStores : ((heldStore.serve 0 0 (xlatAt 4096 4096 aREL) true 4).isSome = false ∧ heldStore.coh = [] ∧ heldStore.gathers = []) ∧
   
    Solo (alone itMem) ik0 itMem Group.start ∧ guardHolds noGuard itMem = true ∧ (alone itMem).ungated ik0 ∧
    readData 256 itMem Group.start (ldF (.v 4)) 1 = .ok ([0], none) ∧ notLeader (alone itMem) ik0 (ldF (.v 4)).data = false ∧
    readAddr 256 itMem Group.start (ldF (.v 4)) false = .ok (4096, none) ∧
    (xl (alone itMem)).wr = true ∧ (alone itMem).aliased (xl (alone itMem)) = false ∧ (xl (alone itMem)).attr = aSEQ ∧
    (alone itMem).writeOk ((alone itMem).coreOf ik0) (jobOf ik0) (vaOf 4096) (xl (alone itMem)).pa (xl (alone itMem)).attr 4 = true ∧ (alone itMem).linePending ik0 = false ∧
    (alone itMem).quiet ((alone itMem).coreOf ik0) ∧
    (xl (paged (leafPte 0 true true true 1 0) 1)).attr = aREL ∧
    (paged (leafPte 0 true true true 1 0) 1).aliased (xl (paged (leafPte 0 true true true 1 0) 1)) = false ∧
    AMap.find (heldStore.core 0).slots 0 = some ⟨32, 16, [], [⟨ik0, 4096, 4096, aREL, [1, 2, 3, 4], 4⟩], false⟩ ∧ (heldStore.core 0).l1 = [] :=
  ⟨⟨rfl, rfl, rfl⟩, solo _ _ _, rfl, ⟨rfl, rfl⟩, rfl, rfl, rfl, rfl, rfl, rfl, rfl, rfl,
    quiet0, rfl, rfl, rfl, rfl⟩
/-- A private line, dirty in one byte; pending bytes of the phase. -/
def privLine : Line := ⟨32, 0, 4096, aPRIV, .m, 4, 0, 15, [(4096, 7)], [4096]⟩
theorem witness_MemoryReads : (xl (alone itMem)).gv = false ∧ (xl (alone itMem)).attr = aSEQ ∧
    (heldStore.core 0).ownByte ik0 4096 = some 1 ∧ ((alone itMem).core 0).ownByte ik0 4096 = none ∧
    AMap.find ((onCore (alone itMem) { Core.reset with pend := [(4096, 9)] }).core 0).pend 4096 = some 9 ∧
    AMap.find ((alone itMem).core 0).pend 4096 = none ∧
    ((onCore (alone itMem) { Core.reset with l1 := [privLine] }).core 0).l1Line (lineOf 4096) = some privLine ∧
    AMap.find privLine.data 4096 = some 7 ∧ ((alone itMem).core 0).l1Line (lineOf 4096) = none :=
  ⟨rfl, rfl, rfl, rfl, rfl, rfl, rfl, rfl, rfl⟩
/-- A far atomic of the item on line 32. -/
def aFar : FarReq := ⟨0, ik0, none, 4096, 4096, 4, .add, false, 1, 0, .plain, 4096, 4⟩
/-- It waits at the home of its line, which the slice holds. -/
def homed : State := { State.reset with coh := [.far 32 aFar], l2 := [(State.reset.l2Key 32, [⟨32, 0, 0, aREL, .i, 4, 0, 15, [], []⟩])] }
theorem witness_Atomics : (dstBusy 256 itMem Group.start ((alone itMem).leads ik0) (dataDst (ldF (.v 4)).data) 1 = false ∧
      (alone itMem).goesNear 0 32 false = true ∧ (alone itMem).goesNear 0 32 true = true ∧
      (onCore (alone itMem) { Core.reset with pred := [(predIdx 32, 3)] }).goesNear 0 32 true = false ∧
      takeMsg (atHome 32) homed.coh = some (.far 32 aFar, []) ∧ AMap.find homed.dir 32 = none ∧ homed.l2Holds 32 = true) ∧
   
    Solo (alone itMem) ik0 itMem Group.start ∧ guardHolds noGuard itMem = true ∧ (alone itMem).ungated ik0 ∧
    readData 256 itMem Group.start (ldF (.v 4)) (atomRegs .add .b32) = .ok ([0], none) ∧
    readData 256 itMem Group.start (ldF (.v 4)) (atomRegs .cas .b32) = .ok ([0, 1], none) ∧
    readAddr 256 itMem Group.start (ldF (.v 4)) false = .ok (4096, none) ∧
    (alone itMem).translate (jobOf ik0) 4096 = .ok (xl (alone itMem)) ∧ (xl (alone itMem)).wr = true ∧
    (alone itMem).aliased (xl (alone itMem)) = false ∧ (xl (alone itMem)).attr = aSEQ ∧
    (alone itMem).invPending ik0 (lineOf (xl (alone itMem)).pa) = false ∧
    (alone itMem).writeOk ((alone itMem).coreOf ik0) (jobOf ik0) (vaOf 4096) (xl (alone itMem)).pa (xl (alone itMem)).attr 4 = true ∧ (alone itMem).linePending ik0 = false ∧
    (alone itMem).quiet ((alone itMem).coreOf ik0) ∧ (alone itMem).memErr = [] :=
  ⟨⟨rfl, rfl, rfl, rfl, rfl, rfl, by decide +kernel⟩, solo _ _ _, rfl, ⟨rfl, rfl⟩, rfl, rfl, rfl, rfl, rfl, rfl, rfl, rfl, rfl, rfl,
    quiet0, rfl⟩
/-- Scratchpad addresses at the last word, behind it, and misaligned. -/
def itScr : Item := anItem [262140, 262144, 2, 0, 0, 0, 0, 0]
theorem witness_TeamAccesses : ((alone itScr).coh = [] ∧ (alone itScr).gathers = [] ∧
      dstBusy 256 itScr Group.start ((alone itScr).leads ik0) (dataDst (ldF (.v 0)).data) 1 = false) ∧
   
    Solo (alone itScr) ik0 itScr Group.start ∧ guardHolds noGuard itScr = true ∧ (alone itScr).ungated ik0 ∧
    readAddr 256 itScr Group.start (ldF (.v 0)) true = .ok (262140, none) ∧
    readAddr 256 itScr Group.start (ldF (.v 1)) true = .ok (262144, none) ∧
    readAddr 256 itScr Group.start (ldF (.v 2)) true = .ok (2, none) ∧
    notLeader (alone itScr) ik0 (ldF (.v 0)).data = false ∧ AMap.find (alone itScr).teams ((alone itScr).teamOf ik0) = some tm0 ∧
    tm0.scrSize = 262144 ∧ (alone itScr).linePending ik0 = false ∧ ((alone itScr).core ((alone itScr).coreOf ik0)).slots = [] ∧
    Writes (alone itScr) ik0 itScr Group.start (dataDst (ldF (.v 0)).data) 1 (.v 0) ∧
    readData 256 itScr Group.start (ldF (.v 0)) 1 = .ok ([262140], none) ∧ itScr.skip = false ∧
    watchHit Core.reset 1 262140 4 true false = none ∧
    watchHit { Core.reset with wps := [⟨262143, 262144, 3⟩, ⟨0, 0, 0⟩, ⟨0, 0, 0⟩, ⟨0, 0, 0⟩] } 1 262140 4 true false =
      some (0, ⟨262143, 262144, 3⟩) ∧ (3 : W32).getLsbD 3 = false :=
  ⟨⟨rfl, rfl, rfl⟩, solo _ _ _, rfl, ⟨rfl, rfl⟩, rfl, rfl, rfl, rfl, rfl, rfl, rfl, rfl, ⟨rfl, rfl⟩, rfl, rfl, rfl, rfl, rfl⟩
/-- A load of `v0` of the item is on its way. -/
def aLoad (fail : Option Nat) : LoadOp := ⟨⟨.v 0, 1⟩, 1, true, 0x80, fail, 4096, false, 0x8000111C00104010, [], none, false⟩
def loading (k : OpKind) : State := { alone itTags with ops := [(0, ⟨0, 1, 0, 1, 4096, k⟩)], fresh := 1 }
theorem witness_LoadsArrive : ∀ fail ∈ [none, some 1],
    (loading (.load (aLoad fail))).landsAt ⟨0, 1, 0, 1, 4096, .load (aLoad fail)⟩ (.v 0) = [ik0] ∧
    (loading (.load (aLoad fail))).landsIn ⟨0, 1, 0, 1, 4096, .load (aLoad fail)⟩ (.v 0) = [] ∧
    AMap.find (loading (.load (aLoad fail))).ops 0 = some ⟨0, 1, 0, 1, 4096, .load (aLoad fail)⟩ ∧
    ((loading (.load (aLoad fail))).ops.filter (fun e => e.1 != 0 && sameG ⟨0, 1, 0, 1, 4096, .load (aLoad fail)⟩ e.2)) = [] ∧
    ((loading (.load (aLoad fail))).core ((loading (.load (aLoad fail))).coreOf ik0)).freeRec = some 0 ∧ (aLoad fail).acq = false ∧
    (aLoad fail).pend = false ∧ (aLoad fail).want = none ∧ itTags.fullFor 0 = false := by
  intro fail h
  simp only [List.mem_cons, List.not_mem_nil, or_false] at h
  rcases h with rfl | rfl <;> exact ⟨rfl, rfl, rfl, rfl, rfl, rfl, rfl, rfl, rfl⟩
/-- A line operation under way on a private line of the core. -/
def flushing : State := { onCore (alone itMem) { Core.reset with l1 := [privLine] } with
  ops := [(0, ⟨0, 1, 0, 1, 4096, .line 32 true⟩)], fresh := 1 }
theorem witness_FencesAndLines : ((alone itMem).coh = [] ∧ (alone itMem).gathers = [] ∧ ((alone itMem).core ((alone itMem).coreOf ik0)).roomOwn = true) ∧
   
    Solo (alone itMem) ik0 itMem Group.start ∧ (alone itMem).ungated ik0 ∧ guardHolds noGuard itMem = true ∧
    MOrd.releases .rel = true ∧ MOrd.releases .acq = false ∧ (alone itMem).linePending ik0 = false ∧
    flushing.linePending ik0 = true ∧ Solo flushing ik0 itMem Group.start ∧
    readAddr 256 itMem Group.start (mWord (.v 0) (.v 4) .b8) false = .ok (4096, none) ∧ (xl (alone itMem)).gv = false ∧
    (xl (alone itMem)).rd = true ∧ (alone itMem).aliased (xl (alone itMem)) = false ∧
    ((alone itMem).core ((alone itMem).coreOf ik0)).slots = [] ∧
    AMap.find flushing.ops 0 = some ⟨0, 1, 0, 1, 4096, .line 32 true⟩ ∧ (flushing.core 0).l1Line 32 = some privLine ∧
    privLine.code = aPRIV ∧ flushing.cowOk privLine.job privLine.va = true :=
  ⟨⟨rfl, rfl, rfl⟩, solo _ _ _, ⟨rfl, rfl⟩, rfl, rfl, rfl, rfl, rfl, ⟨rfl, rfl, rfl⟩, rfl, rfl, rfl, rfl, rfl, rfl, rfl, rfl, rfl⟩
/-- A handle in `v0`, entry 5 of the buffer table. -/
def aBuf (st : BufSt) : Buf := ⟨st, placeTeamKey, 128, 0, 0, false, 0, []⟩
def itBuf : Item := anItem [5, 256, 4, 0, 4096, 0, 128, 0]
def buffered (st : BufSt) : State := { onCore (alone itBuf) { Core.reset with bufs := [(5, aBuf st)] } with fresh := 1 }
theorem witness_CopyBuffers : (∀ st ∈ [BufSt.filling, .full, .draining],
      Solo (buffered st) ik0 itBuf Group.start ∧ acquireGate (buffered st) ik0 = .ok () ∧ (buffered st).acqPending ik0 = false ∧
      AMap.find ((buffered st).core ((buffered st).coreOf ik0)).bufs 5 = some (aBuf st) ∧ (aBuf st).team = (buffered st).teamOf ik0) ∧
    guardHolds noGuard itBuf = true ∧ readV itBuf Group.start 0 1 = .ok (5, none) ∧ readV itBuf Group.start 1 1 = .ok (256, none) ∧
    anyEmpty (regsAt itBuf Group.start (.v 2) 2) = false ∧ AMap.find ((buffered .full).core 0).bufs 4 = none ∧
    (∀ e ∈ ((buffered .full).core 0).bufs, e.2.made < (buffered .full).fresh) := by
  refine ⟨?_, rfl, rfl, rfl, rfl, rfl, by decide⟩
  intro st h
  simp only [List.mem_cons, List.not_mem_nil, or_false] at h
  rcases h with rfl | rfl | rfl <;> exact ⟨⟨rfl, rfl, rfl⟩, rfl, rfl, rfl, rfl⟩
/-- A copy of 128 bytes to the scratchpad is under way. -/
def aCopy (kind : CopyKind) : CopyOp := ⟨kind, 5, 0, true, .scr 0, .glob 4096, 128, 1, 0, 0, .scr 0, [], 0, 4, false⟩
def copying (kind : CopyKind) : State :=
  { buffered .filling with ops := [(0, ⟨0, 1, 0, 1, 4096, .copy (aCopy kind)⟩)], teams := [(placeTeamKey, { tm0 with claimed := 1 })] }
-- CPY of 128 bytes from `v4:v5` to offset 0 in `v3`, handle in `v0`
theorem witness_Copies : ((buffered .filling).coh = [] ∧ (buffered .filling).gathers = []) ∧
   
    Solo (buffered .filling) ik0 itBuf Group.start ∧ (buffered .filling).ungated ik0 ∧
    AMap.find (buffered .filling).teams ((buffered .filling).teamOf ik0) = some tm0 ∧
    ((buffered .filling).core ((buffered .filling).coreOf ik0)).slots = [] ∧ (buffered .filling).inflightRes (groupOf ik0) < 63 ∧
    (buffered .filling).leader (groupOf ik0) = some ik0 ∧ readV itBuf Group.start 0 1 = .ok (5, none) ∧
    AMap.find ((buffered .filling).core ((buffered .filling).coreOf ik0)).bufs 5 = some (aBuf .filling) ∧
    readV itBuf Group.start 4 2 = .ok (4096, none) ∧ readV itBuf Group.start 3 1 = .ok (0, none) ∧
    readEs (buffered .filling) ik0 itBuf Group.start 6 1 = .ok [128] ∧
    (∀ k ∈ [CopyKind.cpy, .tld 0 0], (copying k).copyOf 0 = some (⟨0, 1, 0, 1, 4096, .copy (aCopy k)⟩, aCopy k) ∧
      (copying k).opCancelled ⟨0, 1, 0, 1, 4096, .copy (aCopy k)⟩ = false ∧
      ∃ bs u, (copying k).sideRead 0 0 ik0 4 ((aCopy k).src.at 0 0 0) 128 = .ok bs u) ∧
    (let k : Core := { Core.reset with copyRecs := [(5, ⟨0, placeTeamKey, 1, 4096, 4096⟩)] }
     AMap.find ((onCore (copying .cpy) k).core ((onCore (copying .cpy) k).coreOf ik0)).copyRecs 5 =
       some ⟨0, placeTeamKey, 1, 4096, 4096⟩) := by
  refine ⟨⟨rfl, rfl⟩, ⟨rfl, rfl, rfl⟩, ⟨rfl, rfl⟩, rfl, rfl, by decide, rfl, rfl, rfl, rfl, rfl, rfl, ?_, rfl⟩
  intro k h
  simp only [List.mem_cons, List.not_mem_nil, or_false] at h
  rcases h with rfl | rfl <;> exact ⟨rfl, rfl, ⟨_, _, rfl⟩⟩
def itBar : Item := { it0 with waits := [(⟨4096, 0⟩, .bar 15 0)] }
/-- The launch without the co-resident bit. -/
def plainCard : CardC := { placeCard with config := BitVec.ofNat 64 (31 + 16 * 2 ^ 22 + 32 * 2 ^ 33) }
theorem witness_Barriers :
    Solo (alone it0) ik0 it0 Group.start ∧ acquireGate (alone it0) ik0 = .ok () ∧
    AMap.find (alone it0).teams ((alone it0).teamOf ik0) = some tm0 ∧ ((alone it0).core ((alone it0).coreOf ik0)).slots = [] ∧
    guardHolds noGuard it0 = true ∧ it0.wait? = none ∧ tm0.bars[15]? = some ⟨1, 0, 0⟩ ∧ tm0.bars[16]? = none ∧
    readV it0 Group.start 1 1 = .ok (1, none) ∧ readV it0 Group.start 6 1 = .ok (256, none) ∧
    anyEmpty (regsAt it0 Group.start (.v 2) 1) = false ∧ ((alone it0).cbarD 0).owner = none ∧
    cfgCores ((alone it0).cardOf (launchOf ik0)).config = true ∧
    cfgCores ((onCard plainCard it0 Group.start).cardOf (launchOf ik0)).config = false ∧
    Solo (onCard plainCard it0 Group.start) ik0 it0 Group.start ∧ itBar.wait? = some (.bar 15 0) ∧
    Solo (alone itBar) ik0 itBar Group.start ∧ ({ it0 with waits := [(⟨4096, 0⟩, .cbar 0 0)] } : Item).wait? = some (.cbar 0 0) ∧
    ({ it0 with waits := [(⟨4096, 0⟩, .lbar 0)] } : Item).wait? = some (.lbar 0) ∧
    ({ it0 with waits := [(⟨4096, 0⟩, .phbnd 0)] } : Item).wait? = some (.phbnd 0) ∧
    AMap.find (alone it0).launches (launchOf ik0) = some (aLaunch placeCard) :=
  ⟨solo _ _ _, rfl, rfl, rfl, rfl, rfl, rfl, rfl, rfl, rfl, rfl, rfl, rfl, rfl, solo _ _ _, rfl, solo _ _ _, rfl, rfl, rfl, rfl⟩
/-- An exchange of positions 0 and 15 that waits for position 0. -/
def electI : Instr := .elect (vWord (.v 2) (.v 0) (.v 0) (.v 1))
def other : Joined := ⟨ik0 + 15, 15, 0, none, 0, 1, false, false, .v 2, 0⟩
def openEx : Exch := ⟨4096, electI, 0x8001, [other], 0⟩
theorem witness_Exchanges :
    Ready ∧ it0.wait? = none ∧ (Group.start.exch.find? (fun e => e.pc == 4096)) = none ∧
    Solo (onCard placeCard it0 { Group.start with exch := [openEx] }) ik0 it0 { Group.start with exch := [openEx] } ∧
    ([openEx].find? (fun e => e.pc == (4096 : W64))) = some openEx ∧ openEx.ins = electI ∧
    readUse 256 it0 Group.start (.v 0) 0 false = .ok (0, none) ∧ Reads (alone it0) ik0 it0 Group.start (.v 1) 1 false 1 ∧
    ((1 : W64).setWidth 16 : BitVec 16).getLsbD (posOf ik0) = true ∧
    ((0x80000000 : W64).setWidth 16 : BitVec 16).getLsbD (posOf ik0) = false ∧
    ({ it0 with waits := [(⟨4096, 0⟩, .joined)] } : Item).wait? = some .joined ∧
    ({ it0 with waits := [(⟨4096, 0⟩, .done)] } : Item).wait? = some .done ∧
    (∀ k ∈ [other], k.pos < 16) ∧ ([other].map Joined.pos).Nodup :=
  ⟨ready, rfl, rfl, solo _ _ _, rfl, rfl, rfl, rfl, rfl, rfl, rfl, rfl, by decide, by decide⟩
/-- The team with slots 0 and 1 claimed and tile 0 allocated; operands for the slot words. -/
def aTile : Tile := ⟨16, 16, .s32, [], [], []⟩
def tm1 : Team := { tm0 with claimed := 3, tiles := [(0, aTile)] }
def itSlot : Item := anItem [0, 1, 31, 32, 33, 16380, 16384, 4]
def slotted : State := { alone itSlot with teams := [(placeTeamKey, tm1)] }
/-- An MMA on tile 0 under way. -/
def mmaC : MmaC := ⟨false, false, false, .int8, 0⟩
def working (m : MtxOp) : State := { slotted with ops := [(0, ⟨0, 1, 0, 16, 4096, .mtx m⟩)], fresh := 1 }
theorem witness_SlotsAndTiles : (∃ w : SlotWrite, ({ tm1 with unpublished := [w] } : Team).unpublished = [w] ∧ w.past = []) ∧
   
    Solo slotted ik0 itSlot Group.start ∧ slotted.ungated ik0 ∧ AMap.find slotted.teams (slotted.teamOf ik0) = some tm1 ∧
    guardHolds noGuard itSlot = true ∧ anyEmpty (regsAt itSlot Group.start (.v 2) 1) = false ∧ tm1.slotBase + tm1.slotCount ≤ 32 ∧
    readV itSlot Group.start 3 1 = .ok (32, none) ∧ readV itSlot Group.start 4 1 = .ok (33, none) ∧
    readV itSlot Group.start 0 1 = .ok (0, none) ∧ readV itSlot Group.start 1 1 = .ok (1, none) ∧
    tm1.claimed.getLsbD 1 = true ∧ tm1.claimed.getLsbD 31 = false ∧ readV itSlot Group.start 5 1 = .ok (16380, none) ∧
    readV itSlot Group.start 6 1 = .ok (16384, none) ∧
    readEs slotted ik0 itSlot Group.start 7 (2 ^ (0 : BitVec 3).toNat) = .ok [4] ∧
    readEs slotted ik0 itSlot Group.start 0 8 = .ok [0, 1, 31, 32, 33, 16380, 16384, 4] ∧ tm1.tile 0 = some aTile ∧
    tm1.tile 1 = none ∧ slotted.bankUsed (slotted.coreOf ik0) = 1 ∧ itSlot.wait? = none ∧
    slotted.tileOps (slotted.teamOf ik0) 0 slotted.fresh = false ∧
    (working (.azero 0 1)).tileOps ((working (.azero 0 1)).teamOf ik0) 0 (working (.azero 0 1)).fresh = true ∧
    Solo (working (.azero 0 1)) ik0 itSlot Group.start :=
  ⟨⟨⟨0, 0, 4, [1], false, [], [], []⟩, rfl, rfl⟩, ⟨rfl, rfl, rfl⟩, ⟨rfl, rfl⟩, rfl, rfl, rfl, by decide, rfl, rfl, rfl, rfl, rfl, rfl, rfl, rfl, rfl, rfl, rfl, rfl, rfl, rfl, rfl, rfl,
    ⟨rfl, rfl, rfl⟩⟩
-- the descriptor 256 names slots 0 and 1; the mask is position 0
def itMma : Item := anItem [256, 1, 0, 0, 4096, 0, 0, 0]
def products : State := { alone itMma with teams := [(placeTeamKey, tm1)] }
def tm2 : Team := { tm1 with tiles := [(0, ⟨16, 16, .f32, [], [], []⟩), (1, ⟨16, 16, .part, [], [], []⟩)] }
theorem witness_MatrixOperations : (products.quiet (products.coreOf ik0)) ∧
   
    Solo products ik0 itMma Group.start ∧ products.ungated ik0 ∧ AMap.find products.teams (products.teamOf ik0) = some tm1 ∧
    (∀ e ∈ products.ops, e.1 < products.fresh) ∧ products.inflightRes (groupOf ik0) < 63 ∧ guardHolds noGuard itMma = true ∧
    tm1.tile 0 = some aTile ∧ tm1.tile 1 = none ∧ tm2.tile 0 = some ⟨16, 16, .f32, [], [], []⟩ ∧ tm2.tile 1 = some ⟨16, 16, .part, [], [], []⟩ ∧
    readV itMma Group.start 2 1 = .ok (0, none) ∧ itMma.wait? = none ∧ itMma.pc = products.cur.pc ∧
    products.teamOf (groupOf ik0 * 16) = products.teamOf ik0 ∧ (1 : W64).getLsbD (posOf ik0) = true ∧
    (∀ q < 16, (1 : W64).getLsbD q = true → products.liveAt (groupOf ik0) q = true → q = posOf ik0) ∧
    readV itMma Group.start 0 1 = .ok (256, none) ∧ readV itMma Group.start 1 1 = .ok (1, none) ∧
    readV itMma Group.start 4 2 = .ok (4096, none) ∧ aTile.ty = .s32 ∧ tm1.claimed.getLsbD 0 = true ∧ tm1.claimed.getLsbD 1 = true ∧
    products.mmacs = [] ∧ products.merging (jobOf ik0) = false ∧
    ∃ x, products.engXlat (jobOf ik0) 4096 false = .ok x :=
  ⟨⟨rfl, fun _ h => absurd h List.not_mem_nil, rfl, rfl⟩, ⟨rfl, rfl, rfl⟩, ⟨rfl, rfl⟩, rfl, by decide, by decide, rfl, rfl, rfl, rfl, rfl, rfl, rfl, rfl, rfl, rfl, by decide, rfl, rfl, rfl, rfl, rfl,
    rfl, rfl, rfl, ⟨_, rfl⟩⟩
theorem witness_MatrixResults :
    (∀ m ∈ [MtxOp.mma mmaC 1 0 1 0 1 [], .azero 0 1],
      AMap.find (working m).ops 0 = some ⟨0, 1, 0, 16, 4096, .mtx m⟩ ∧ (working m).oldestOn 0 ⟨0, 1, 0, 16, 4096, .mtx m⟩ m = true ∧
      AMap.find (working m).teams ((working m).opTeam ⟨0, 1, 0, 16, 4096, .mtx m⟩) = some tm1) ∧
    tm1.unpublished = [] ∧ tm1.tile 0 = some aTile ∧ aTile.rows ≤ 48 ∧ aTile.cols ≤ 640 ∧
    drainBad (working (.azero 0 1)) placeTeamKey ⟨0, .b32, 0, 0, 0⟩ aTile ⟨ik0, 0, 15, 15, 0⟩ = false := by
  refine ⟨?_, rfl, rfl, by decide, by decide, rfl⟩
  intro m h
  simp only [List.mem_cons, List.not_mem_nil, or_false] at h
  rcases h with rfl | rfl <;> exact ⟨rfl, rfl, rfl⟩
/-- Operands of set and order words: results in `v0:v3`, arrays of one element at 0 and 4. -/
def itSet : Item := anItem [0, 0, 0, 0, 0, 4, 1, 0]
def setI : Instr := .sins (eWord 0 4 6 0)
def aCmd (ans : Option CmdAns) : SetOp := ⟨setI, 0, [0x1000001, 1], ⟨.v 0, 4⟩, ans, none, 0xC400000406000000⟩
/-- Set 1 of job 0, with key 7, and a command of the item. -/
def aShard (conv : Option Conv) : Shard := ⟨[7], .runs, 0, [(0, 1)], conv, 0, [], false⟩
def aSet (conv : Option Conv) : SetD := ⟨1, false, 0, 0, [aShard conv], none, false⟩
def aJob : Job := { newJob (tableAt 1) 1 true 0 with lastLaunch := 1 }
def commanding (ans : Option CmdAns) (conv : Option Conv) : State :=
  { alone { itSet with v := List.replicate 4 ⟨0, .empty, none⟩ } with
    ops := [(0, ⟨0, 1, 0, 1, 4096, .set (aCmd ans)⟩)], fresh := 1, jobs := [(0, { aJob with sets := [(1, aSet conv)] })] }
theorem witness_SetAndOrderWords : ((alone itSet).coh = [] ∧ (alone itSet).gathers = []) ∧
   
    Solo (alone itSet) ik0 itSet Group.start ∧ (alone itSet).acqPending ik0 = false ∧
    ((alone itSet).core ((alone itSet).coreOf ik0)).slots = [] ∧ acquireGate (alone itSet) ik0 = .ok () ∧
    (alone itSet).inflightRes (groupOf ik0) < 63 ∧ guardHolds noGuard itSet = true ∧
    anyEmpty (regsAt itSet Group.start (.v 0) 4) = false ∧
    ([(4, 2), (6, 1)] : List (Fld × Nat)).mapM (fun (p : Fld × Nat) => readEs (alone itSet) ik0 itSet Group.start p.1 p.2) =
      .ok [[0, 4], [1]] ∧
    ([(4, 1), (5, 1), (6, 1)] : List (Fld × Nat)).mapM (fun (p : Fld × Nat) => readEs (alone itSet) ik0 itSet Group.start p.1 p.2) =
      .ok [[0], [4], [1]] ∧
    itSet.wait? = none ∧ (alone itSet).cmdBefore (groupOf ik0) (alone itSet).fresh = false ∧
    (commanding none none).cmdBefore (groupOf ik0) (commanding none none).fresh = true ∧
    ({ itSet with waits := [(⟨4096, 0⟩, .before 1)] } : Item).wait? = some (.before 1) :=
  ⟨⟨rfl, rfl⟩, solo _ _ _, rfl, rfl, rfl, by decide, rfl, rfl, rfl, rfl, rfl, rfl, rfl, rfl⟩
def aConv (st : ConvSt) : Conv := ⟨.repr .sorted, st, 0, [(0, 1)]⟩
theorem witness_SetCommands : ((aSet none).shards.any (·.bad) = false ∧ ({ aSet none with shards := [{ aShard none with bad := true }] } : SetD).shards.any (·.bad) = true) ∧
   
    (commanding none none).setOp? 0 = some (⟨0, 1, 0, 1, 4096, .set (aCmd none)⟩, aCmd none) ∧
    (commanding none none).opCancelled ⟨0, 1, 0, 1, 4096, .set (aCmd none)⟩ = false ∧
    (commanding none none).behind 0 ⟨0, 1, 0, 1, 4096, .set (aCmd none)⟩ (aCmd none) = false ∧
    (commanding none none).phaseHeld (jobOfLaunch 1) 0 = false ∧ (commanding none none).setAt? 0 1 = some (aSet none) ∧
    (aSet none).shards[(aSet none).shardOf 1]? = some (aShard none) ∧ (aSet none).tag = 1 ∧ (aSet none).free = false ∧
    (∀ st ∈ [ConvSt.scheduled, .running], (commanding none (some (aConv st))).setAt? 0 1 = some (aSet (some (aConv st))) ∧
      (aSet (some (aConv st))).shards[0]? = some (aShard (some (aConv st))) ∧ (aSet (some (aConv st))).conv = none) := by
  refine ⟨⟨rfl, rfl⟩, rfl, rfl, rfl, rfl, rfl, rfl, rfl, rfl, ?_⟩
  intro st h
  exact ⟨rfl, rfl, rfl⟩
theorem witness_CommandCompletion : ∀ fail ∈ [none, some ((2, 4096) : Nat × W64)], ∀ a, a = some (CmdAns.mk 3 1 fail) →
    (commanding a none).setOp? 0 = some (⟨0, 1, 0, 1, 4096, .set (aCmd a)⟩, aCmd a) ∧
    (commanding a none).landsAt ⟨0, 1, 0, 1, 4096, .set (aCmd a)⟩ (.v 0) = [ik0] ∧
    (commanding a none).landsIn ⟨0, 1, 0, 1, 4096, .set (aCmd a)⟩ (.v 0) = [] ∧ (aCmd a).trap = none ∧
    AMap.find (commanding a none).teams ((commanding a none).teamOf ik0) = some tm0 ∧
    ((commanding a none).core ((commanding a none).coreOf ik0)).freeRec = some 0 ∧ itSet.fullFor 0 = false ∧
    ∃ k, (aCmd a).dst.reg = .v k := by
  intro fail h a e
  subst e
  simp only [List.mem_cons, List.not_mem_nil, or_false] at h
  rcases h with rfl | rfl
  · exact ⟨rfl, by decide +kernel, by decide +kernel, rfl, rfl, rfl, rfl, _, rfl⟩
  · exact ⟨rfl, by decide +kernel, by decide +kernel, rfl, rfl, rfl, rfl, _, rfl⟩
/-- A card and its copy's address, and a counter. -/
def itCard : Item := anItem [0, 0, 0, 0, 4096, 0, 0xC0000000, 0]
theorem witness_CardsAndCounters : ((alone itCard).coh = [] ∧ (alone itCard).gathers = [] ∧ (alone itCard).linePending ik0 = false) ∧
    (List.replicate 128 (0 : BitVec 8)).length = 128 ∧
    Solo (alone itCard) ik0 itCard Group.start ∧ (alone itCard).ungated ik0 ∧
    ((alone itCard).core ((alone itCard).coreOf ik0)).slots = [] ∧ guardHolds noGuard itCard = true ∧
    anyEmpty (regsAt itCard Group.start (.v 0) 2) = false ∧ readE (alone itCard) ik0 itCard Group.start 4 2 = .ok 4096 ∧
    readE (alone itCard) ik0 itCard Group.start 6 1 = .ok 0xC0000000 ∧
    (∃ bs tab u, (alone itCard).readCard ((alone itCard).coreOf ik0) (jobOf ik0) (some ik0) 4096 id = .ok bs tab u) ∧
    (∃ p why, (alone itCard).readCard ((alone itCard).coreOf ik0) (jobOf ik0) (some ik0) (2 ^ 40) id = .fail p why) ∧
    (alone itCard).engCheck ((alone itCard).coreOf ik0) (jobOf ik0) true 4 4096 128 = .ok ∧
    (alone itCard).touchesPhase (jobOf ik0) 4096 128 = false ∧ AMap.find (alone itCard).jobs (jobOf ik0) = some aJob ∧
    (alone itCard).queueFull (.core 0) = false ∧ (alone itCard).coreLive 383 = true ∧ (alone itCard).coreLive 384 = false :=
  ⟨⟨rfl, rfl, rfl⟩, by decide, solo _ _ _, ⟨rfl, rfl⟩, rfl, rfl, rfl, rfl, rfl, ⟨_, _, _, rfl⟩, ⟨_, _, rfl⟩, rfl, rfl, rfl, rfl, rfl, rfl⟩
theorem witness_RegisterQueries : Ready ∧ (alone it0).cur.span = none ∧
    readUse 256 itTags Group.start (.v 1) 1 false = .ok (5, some 5) ∧
    Writes (alone itTags) ik0 itTags Group.start (.v 2) 1 (.v 2) := ⟨ready, rfl, rfl, ⟨rfl, rfl⟩⟩
/-- A launch waits in its queue, on a device in normal mode. -/
def queuedState : State :=
  { alone it0 with
    items := [], groups := [], teams := [], mgmt := { Mgmt.reset with mode := .normal, pstate := 0 }
    launches := [(1, { aLaunch plainCard with st := .queued, next := 0 })] }
def queuedLaunch : Launch := { aLaunch plainCard with st := .queued, next := 0 }
/-- The placed team's item has ended; the launch is over. -/
def overState : State := { onCard plainCard it0 Group.start with items := [], launches := [(1, { aLaunch plainCard with ended := 1 })] }
/-- The phase ends; a job other than the active one waits, and none is active. -/
def mergingJob : Job := { aJob with ending := [1], merge := true }
def mergingState : State := { onCard plainCard it0 Group.start with jobs := [(0, mergingJob)] }
def idleState : State := { alone it0 with jobs := [(0, { aJob with active := false }), (1, { aJob with active := false })] }
theorem witness_SchedulerActions : ((∀ c, ∀ y ∈ (queuedState.core c).l1, y.code ≠ aPRIV) ∧ queuedState.cleanFor 1 queuedLaunch = some queuedState ∧
      queuedLaunch.raised = none ∧ overState.flushJob 0 = overState ∧
      (mergingState.flushJob 0).mergeJob 0 = some mergingState ∧ AMap.find mergingState.jobs 0 = some mergingJob ∧ mergingJob.merge = true ∧
      mergingJob.ending = [1] ∧ AMap.find mergingState.launches 1 = some (aLaunch plainCard) ∧ mergingState.errs = [] ∧
      (∃ c, AMap.find idleState.jobs 1 = some c ∧ c.active = false) ∧ (∀ b, AMap.find idleState.jobs 0 = some b → b.active = false) ∧
      queuedState.liveCores (.core 0) = [0] ∧ queuedState.savedSpans 1 0 16 = []) ∧
   
    queuedState.eligible 1 queuedLaunch = true ∧ queuedState.dispatching = true ∧ queuedState.canUse 1 0 queuedLaunch = true ∧
    queuedState.mayStart 1 0 queuedLaunch = true ∧ queuedState.cleanRanges (jobOfLaunch 1) 0 [] true = some queuedState ∧
    (queuedState.allocMany 1 0 0 1).1 = 1 ∧ cfgCores plainCard.config = false ∧ queuedLaunch.card.cont = 0 ∧
    AMap.find queuedState.launches 1 = some queuedLaunch ∧ queuedLaunch.next + (1 - 1) * queuedState.teamSize 1 < 1 ∧
    AMap.find overState.teams placeTeamKey = some tm0 ∧ overState.teamEmpty tm0 = true ∧
    overState.spansFor 0 tm0.launch tm0.base (tm0.base + tm0.size) = [] ∧ overState.groupsOfTeam tm0 = [gk0] ∧
    overState.groupQuiet gk0 = true ∧ overState.teamOfGroup gk0 = placeTeamKey ∧
    (∀ e ∈ overState.groups, launchOfGroup e.1 = 1 → e.2.inflight = 0) ∧
    overState.finishCont 1 { aLaunch plainCard with ended := 1 } = some (overState, false) ∧
    AMap.find overState.jobs (jobOfLaunch 1) = some aJob ∧ aJob.merge = false ∧ aJob.active = true ∧
    overState.toRetire (overState.diesOf 0) = [] ∧ queuedState.placedTeams (· == 0) = [] :=
  ⟨⟨fun _ y h => absurd h List.not_mem_nil, rfl, rfl, rfl, rfl, rfl, rfl, rfl, rfl, rfl, ⟨_, rfl, rfl⟩, fun b h => by cases h; rfl, rfl, rfl⟩, rfl, rfl, rfl, rfl, rfl, rfl, rfl, rfl, rfl, by decide, rfl, rfl, rfl, rfl, rfl, rfl, by decide, rfl, rfl, rfl, rfl, rfl, rfl⟩
/-- A saved team that can come back. -/
def savedState : State := { queuedState with teams := [(placeTeamKey, { tm0 with core := none })], launches := [(1, aLaunch plainCard)] }
theorem witness_resume : ∃ u, savedState.restoreTeam placeTeamKey 383 3 { tm0 with core := none } = some u := ⟨_, rfl⟩
/-- An item whose pair `v4:v5` is 65536, and a job that may take a snapshot, with generations `gens`. -/
def itGen : Item := anItem [0, 0, 1, 0, 65536, 0, 0, 0]
def snapCard : CardC := { placeCard with config := placeCard.config + BitVec.ofNat 64 (2 ^ 42) }
def aGen (st : GenSt) (views : Nat) : Gen := ⟨st, 0, [0], views⟩
def aVersion : Version := ⟨0, 0, [1], [], false, false⟩
def snapped (gens : AMap Gen) : State :=
  { onCard snapCard itGen Group.start with jobs := [(0, { aJob with gens := gens })], vers := [aVersion] }
/-- The snapshot's command. -/
def snapOp (st : W32) : Op := ⟨0, 1, 0, 1, 4096, .snap (.v 0) [ik0] 1 st⟩
def snapping (st : W32) : State := { snapped [(1, aGen .fixing 0)] with ops := [(0, snapOp st)], fresh := 1 }
/-- The page after the program's is a view page of generation 1. -/
def viewed : State := { snapped [(1, aGen .held 1)] with ptes := AMap.put (alone it0).ptes (tableAt 5 + 8) (viewPte 65536) }
theorem witness_Generations : ((snapped []).coh = [] ∧ (snapped []).gathers = []) ∧
   
    (Solo (snapped []) ik0 itGen Group.start ∧ guardHolds noGuard itGen = true ∧ (snapped []).acqPending ik0 = false ∧
      acquireGate (snapped []) ik0 = .ok () ∧ anyEmpty (regsAt itGen Group.start (.v 0) 2) = false ∧
      cfgSnap ((alone itGen).cardOf (launchOf ik0)).config = false ∧ cfgSnap ((snapped []).cardOf (launchOf ik0)).config = true ∧
      (snapped []).merging (jobOf ik0) = false ∧ (∀ d, ((snapped []).core d).slots = []) ∧
      AMap.find (snapped []).jobs (jobOf ik0) = some { aJob with gens := [] }) ∧
    (readE (snapped []) ik0 itGen Group.start 2 1 = .ok 1 ∧ readEs (snapped []) ik0 itGen Group.start 4 4 = .ok [65536, 0, 0, 0] ∧
      readE (snapped []) ik0 itGen Group.start 4 2 = .ok 65536 ∧ GenSt.held ≠ .fixing ∧
      (snapped []).vaFree 0 65536 131072 = true ∧ viewed.vaFree 0 65536 131072 = false ∧
      (∃ u, (snapped [(1, aGen .held 0)]).mapViews 0 1 [(65536, 0)] = some u) ∧
      ((viewed.leavesIn 0 65536 131072).filter (fun l => l.2.2.getLsbD 63)).length = 1) ∧
    (∀ st ∈ [(0 : W32), 1, 2], AMap.find (snapping st).ops 0 = some (snapOp st) ∧
      (∀ e ∈ (snapping st).ops, e.1 < 0 → jobOfLaunch e.2.launch = jobOfLaunch (snapOp st).launch →
        ∀ d i x y, e.2.kind ≠ .snap d i x y)) ∧
    ((snapped [(1, aGen .held 0)]).inPool 0 1 = true ∧
      (∀ e ∈ [((1, aGen .held 0) : Nat × Gen)], e.1 < 1 → (snapped [(1, aGen .held 0)]).inPool 0 e.1 = false) ∧
      (snapped []).mgmt.ltfull = false ∧ (snapped [(1, aGen .draining 0)]).versionOf 0 0 1 = some aVersion ∧ aVersion.lower = false) :=
  ⟨⟨rfl, rfl⟩, ⟨⟨rfl, rfl, rfl⟩, rfl, rfl, rfl, rfl, rfl, rfl, rfl, fun _ => rfl, rfl⟩,
    ⟨rfl, rfl, rfl, by decide, by decide +kernel, by decide +kernel, ⟨_, rfl⟩, by decide +kernel⟩,
    fun _ _ => ⟨rfl, fun _ _ h => absurd h (Nat.not_lt_zero _)⟩,
    ⟨by decide +kernel, by decide, rfl, by decide +kernel, rfl⟩⟩
/-- A monitor item that sets the attribute in `v2` of the page that `v0:v1` names. -/
def itAttr (at_ : W32) (w : List (Spot × Wait)) : Item :=
  { anItem [at_, 0, 1, 0, 0, 0, 0, 0] with m := { MRegs.zero with mon := true }, waits := w }
def attrOp : Op := ⟨0, 1, 0, 1, 4096, .attr ik0 2 (.v 3) 4096 1 0⟩
def attring : State := { alone (itAttr 4096 [(⟨4096, 2⟩, .attr 0)]) with ops := [(0, attrOp)], fresh := 1 }
/-- The page of the program, and one that stands in the lower tier. -/
def progPage : Nat × Nat × W64 := (0, tableAt 5, leafPte 0 true true true 0 0)
def lowerPage : Nat × Nat × W64 := (0, tableAt 5, leafPte 0 true true true 0 0 ||| 8)
def lowered : State := { alone it0 with ptes := AMap.put (alone it0).ptes (tableAt 5) lowerPage.2.2, lower := [(5, 7)] }
theorem witness_AttributesAndPages : ((alone (itAttr 4096 [])).attrBefore ik0 4096 = false ∧
      attring.attrBefore (ik0 + 1) 4096 = true ∧
      (alone it0).errs = [] ∧ pteAttr progPage.2.2 ≠ aPHASE) ∧
   
    ((itAttr 0 [(⟨4096, 2⟩, .attr 0)]).wait? = some (.attr 0) ∧ (itAttr 0 [(⟨4096, 2⟩, .done)]).wait? = some .done ∧
      it0.m.mon = false ∧ it0.wait? = none ∧ (itAttr 4096 []).wait? = none ∧ (itAttr 4096 []).m.mon = true ∧
      Solo (alone (itAttr 4096 [])) ik0 (itAttr 4096 []) Group.start ∧ guardHolds noGuard (itAttr 4096 []) = true ∧
      (alone (itAttr 4096 [])).acqPending ik0 = false ∧ anyEmpty (regsAt (itAttr 4096 []) Group.start (.v 3) 1) = false ∧
      acquireGate (alone (itAttr 4096 [])) ik0 = .ok () ∧
      readE (alone (itAttr 4096 [])) ik0 (itAttr 4096 []) Group.start 0 2 = .ok 4096 ∧
      readE (alone (itAttr 4096 [])) ik0 (itAttr 4096 []) Group.start 2 1 = .ok 1 ∧
      readE (alone (itAttr 4096 [])) ik0 (itAttr 4096 []) Group.start 4 1 = .ok 0) ∧
    ((∃ r, (alone it0).translate 0 (2 ^ 40) = .fail r) ∧ (alone it0).translate 0 4096 = .ok (xl (alone it0)) ∧
      (xl (alone it0)).gv = false ∧ pteAttr (xl (alone it0)).pte = 0 ∧
      (∃ x, viewed.translate 0 65536 = .ok x ∧ x.gv = true)) ∧
    (AMap.find attring.ops 0 = some attrOp ∧ attring.leaf 0 (vaOf 4096) = some progPage.2 ∧
      (∃ t, (attring.cleanRange 0 65536).bind (fun u => u.mergeRange 0 (vaOf 4096) 0 65536) = some t)) ∧
    ((alone it0).pageAt 0 4096 = some progPage ∧ (alone it0).movable 0 progPage = true ∧ (alone it0).framesFree 1 0 1 = true ∧
      pteHome progPage.2.2 = 0 ∧ (∃ t, (alone it0).cleanRange 0 65536 = some t ∧ t.mem.wf = true) ∧
      (alone it0).evictable 0 progPage = true ∧ (∀ b ∈ (alone it0).jobs, ∀ y ∈ (alone it0).leaves b.1,
        keyLt ((alone it0).victimKey b.1 y) ((alone it0).victimKey 0 progPage) = false)) ∧
    lowered.pageAt 0 4096 = some lowerPage ∧ lowerPage.2.2.getLsbD 63 = false ∧ lowerPage.2.2.getLsbD 3 = true ∧
    lowKey 0 0 ∉ lowered.lowerBad ∧ lowered.lower.wf = true ∧ lowered.mem.wf = true :=
  ⟨⟨rfl, by decide +kernel, rfl, by decide⟩, ⟨rfl, rfl, rfl, rfl, rfl, rfl, ⟨rfl, rfl, rfl⟩, rfl, rfl, rfl, rfl, rfl, rfl, rfl⟩,
    ⟨⟨_, rfl⟩, rfl, rfl, rfl, ⟨_, rfl, by decide +kernel⟩⟩,
    ⟨rfl, by decide +kernel, ⟨_, rfl⟩⟩,
    ⟨by decide +kernel, by decide +kernel, by decide +kernel, by decide +kernel, ⟨_, rfl, by decide +kernel⟩, by decide +kernel,
      by decide +kernel⟩,
    by decide +kernel, by decide, by decide, by decide, by decide, by decide +kernel⟩
/-- Operands of fabric words: a handle, a range of 2 rows of 16 bytes at 4096, the address 8192, an offset and a length. -/
def itFab : Item := anItem [5, 20, 4096, 0, 16, 2, 8192, 0]
def fabState : State := { buffered .filling with items := [(ik0, itFab)] }
def itRoute : Item := anItem [3, 0x80000000, 4096, 0, 0, 0, 0, 0]
def anExpert (copy : Option Replica) : Expert := ⟨[⟨1, 2, 4096⟩, ⟨1, 3, 8192⟩], 64, 65536, copy⟩
def routed (copy : Option Replica) : State := { alone itRoute with jobs := [(0, { aJob with experts := [(3, anExpert copy)] })] }
theorem witness_FabricWords : (fabState.coh = [] ∧ fabState.gathers = []) ∧
   
    (Solo fabState ik0 itFab Group.start ∧ guardHolds noGuard itFab = true ∧ fabState.acqPending ik0 = false ∧
      acquireGate fabState ik0 = .ok () ∧ fabState.inflightRes (groupOf ik0) < 63 ∧ (fabState.core (fabState.coreOf ik0)).slots = []) ∧
    (readSide fabState ik0 itFab Group.start false 6 = .ok (.glob 8192) ∧ readSide fabState ik0 itFab Group.start true 1 = .ok (.scr 20) ∧
      readEs fabState ik0 itFab Group.start 2 4 = .ok [4096, 0, 16, 2] ∧ readE fabState ik0 itFab Group.start 0 1 = .ok 5 ∧
      readE fabState ik0 itFab Group.start 4 1 = .ok 16 ∧ readE fabState ik0 itFab Group.start 2 2 = .ok 4096 ∧
      anyEmpty (regsAt itFab Group.start (.v 0) 1) = false) ∧
    ((∃ t, exec (.rgth (eWord 0 6 2 6) false false 4) fabState = .next t ∧ (AMap.find t.ops fabState.fresh).isSome = true) ∧
      (∃ t, exec (.rsct (eWord 0 6 2 6) false false 4 true) fabState = .next t ∧ (AMap.find t.ops fabState.fresh).isSome = true) ∧
      (∃ t, exec (.rget (eWord 0 1 2 4) true 4) fabState = .next t ∧ (AMap.find t.ops fabState.fresh).isSome = true) ∧
      (∃ t, exec (.rput (eWord 0 2 1 4) true 4) fabState = .next t ∧ (AMap.find t.ops fabState.fresh).isSome = true)) ∧
    Solo (routed none) ik0 itRoute Group.start ∧ readE (routed none) ik0 itRoute Group.start 0 1 = .ok 3 ∧
    readE (routed none) ik0 itRoute Group.start 2 1 = .ok 4096 ∧ readE (routed none) ik0 itRoute Group.start 1 1 = .ok 0x80000000 ∧
    (∃ b, AMap.find (routed none).jobs (jobOf ik0) = some b) ∧ anyEmpty (regsAt itRoute Group.start (.v 4) 4) = false :=
  ⟨⟨rfl, rfl⟩, ⟨⟨rfl, rfl, rfl⟩, rfl, rfl, rfl, by decide, rfl⟩, ⟨rfl, rfl, rfl, rfl, rfl, rfl, rfl⟩,
    ⟨⟨_, rfl, by decide +kernel⟩, ⟨_, rfl, by decide +kernel⟩, ⟨_, rfl, by decide +kernel⟩, ⟨_, rfl, by decide +kernel⟩⟩,
    ⟨rfl, rfl, rfl⟩, rfl, rfl, rfl, ⟨_, rfl⟩, rfl⟩
/-- A gather, and a transfer with a token, under way. -/
def aFab (kind : CopyKind) : CopyOp := ⟨kind, 5, 0, true, .scr 0, .glob 4096, 16, 2, 0, 0, .scr 64, [], 0, 4, false⟩
def aTok (i : Instr) : TokOp := ⟨i, [8192, 4096, 16, 2, 4096], ⟨.v 0, 1⟩, 0, false, 0⟩
def fabOp (k : OpKind) : Op := ⟨0, 1, 0, 1, 4096, k⟩
def fabbing (k : OpKind) : State := { buffered .filling with ops := [(0, fabOp k)], teams := [(placeTeamKey, tm0)] }
def rputI : Instr := .rput (eWord 0 2 1 4) false 4
def rsctI : Instr := .rsct (eWord 0 6 2 6) false false 4 false
/-- An item waits for the answer to message 9. -/
def itRemote : Item := { it0 with waits := [(⟨4096, 0⟩, .remote 9 none)] }
def remoteState : State := { alone itRemote with fabOut := [⟨9, 3, 0, 2 ^ 40, .load 4, ik0⟩] }
theorem witness_FabricEvents :
    (∀ k ∈ [CopyKind.rgth, .rget], (fabbing (.copy (aFab k))).copyOf 0 = some (fabOp (.copy (aFab k)), aFab k)) ∧
    ((fabbing (.copy (aFab .rgth))).opCancelled (fabOp (.copy (aFab .rgth))) = false ∧
      (∃ bs u, (fabbing (.copy (aFab .rgth))).sideRead 0 0 ik0 4 ((aFab .rgth).ix.at 0 0 0) 4 = .ok bs u) ∧
      (∃ bs u, (fabbing (.copy (aFab .rgth))).sideRead 0 0 ik0 4 (.glob 4096) 16 = .ok bs u) ∧
      (∃ l t, (fabbing (.copy (aFab .rgth))).sideWrite 0 0 ik0 4 (.scr 0) (List.replicate 16 1) = .ok l t) ∧
      (∃ a r, (fabbing (.copy (aFab .rgth))).sideRead 0 0 ik0 4 (.glob (2 ^ 40)) 16 = .fail a r)) ∧
    (∀ i ∈ [rputI, rsctI], (fabbing (.tok (aTok i))).tokOf 0 = some (fabOp (.tok (aTok i)), aTok i)) ∧
    ((fabbing (.tok (aTok rsctI))).scatCheck 0 0 4 4096 16 = .ok ∧
      (∃ a r, (fabbing (.tok (aTok rsctI))).scatCheck 0 0 4 (2 ^ 40) 16 = .fail a r)) ∧
    (∀ r ∈ [none, some (⟨0, 1, 8192⟩ : Replica)], ∃ b, AMap.find (routed r).jobs 0 = some b ∧ AMap.find b.experts 3 = some (anExpert r)) ∧
    (routed none).engCheck 1 0 false 4 4096 64 = .ok ∧ (routed none).engCheck 1 0 true 4 8192 64 = .ok ∧
    (anExpert none).reps[1]? = some ⟨1, 3, 8192⟩ ∧
    ((alone it0).translate 0 4096 = .ok (xl (alone it0)) ∧ (xl (alone it0)).rd = true ∧ (xl (alone it0)).wr = true ∧
      (alone it0).aliased (xl (alone it0)) = false ∧ (xl (alone it0)).attr ≠ aPHASE ∧ (xl (alone it0)).attr ≠ aPRIV ∧
      (∀ d, ((alone it0).core d).slots = []) ∧ (alone it0).cowOk 0 4096 = true) ∧
    remoteState.fabOut.find? (fun m => m.id == 9) = some ⟨9, 3, 0, 2 ^ 40, .load 4, ik0⟩ ∧ remoteState.item? ik0 = some itRemote := by
  refine ⟨?_, ⟨rfl, ⟨_, _, rfl⟩, ⟨_, _, rfl⟩, ⟨_, _, rfl⟩, ⟨_, _, rfl⟩⟩, ?_, ⟨rfl, ⟨_, _, rfl⟩⟩, ?_, rfl, rfl, rfl,
    ⟨rfl, rfl, rfl, rfl, by decide +kernel, by decide +kernel, fun _ => rfl, rfl⟩, rfl, rfl⟩
  · intro k h
    simp only [List.mem_cons, List.not_mem_nil, or_false] at h
    rcases h with rfl | rfl <;> rfl
  · intro k h
    simp only [List.mem_cons, List.not_mem_nil, or_false] at h
    rcases h with rfl | rfl <;> rfl
  · intro k h
    simp only [List.mem_cons, List.not_mem_nil, or_false] at h
    rcases h with rfl | rfl <;> exact ⟨_, rfl, rfl⟩
/-- One message on line 32, whose entry is `d`. -/
def messaged (m : CohMsg) (d : DirEnt) : State := { State.reset with coh := [m], dir := [(32, d)] }
-- lines whose entry is I, S and owned, by the requester and by another
theorem witness_Coherence : ((∀ d, (messaged (.gets 32 1 1 4) d).l2Ready 32 4 = true) ∧ (∀ m, (messaged m ⟨.i, none, [], none⟩).gathers = []) ∧
      (State.reset.core 0).l1Others 32 = []) ∧
   
    (∀ m ∈ [CohMsg.gets 32 1 1 4, .getm 32 1 1 4, .far 32 aFar, .wb 32 1 false], ∀ d, takeMsg (atHome 32) (messaged m d).coh = some (m, [])) ∧
    (∀ m d, (messaged m d).dirOf 32 = d) ∧
    (∀ y ∈ [1, 2], (⟨.m, some y, [], none⟩ : DirEnt).owner = some y ∧ (⟨.m, some y, [], none⟩ : DirEnt).busy = none) ∧
    takeMsg (fromHome 32 2) [.fwd 32 2 1 1 0 4 true] = some (.fwd 32 2 1 1 0 4 true, []) ∧
    takeMsg (fromHome 32 2) [.inv 32 2 1] = some (.inv 32 2 1, []) ∧ takeMsg (fromHome 32 2) [.wbAck 32 2] = some (.wbAck 32 2, []) ∧
    takeMsg (ackTo 32 1) [.ack 32 1] = some (.ack 32 1, []) ∧
    takeMsg (dataTo 32 1) [.data 32 1 1 1 4 .m true true] = some (.data 32 1 1 1 4 .m true true, []) ∧
    takeMsg (completeOf 32 1) [.complete 32 1] = some (.complete 32 1, []) := by
  refine ⟨⟨fun _ => rfl, fun _ => rfl, rfl⟩, ?_, fun _ _ => rfl, ?_, rfl, rfl, rfl, rfl, rfl, rfl⟩
  · intro m h d
    simp only [List.mem_cons, List.not_mem_nil, or_false] at h
    rcases h with rfl | rfl | rfl | rfl <;> rfl
  · intro y h
    exact ⟨rfl, rfl⟩
def managed (mode : DevMode) (jobs : AMap Job) : State := { State.reset with mgmt := { Mgmt.reset with mode := mode }, jobs := jobs }
/-- A start that meets no failure. -/
def goodBoot : BootIn := ⟨true, 1, none, none, none, 4⟩
-- the functions of the image are free values: whatever they give, one of the clauses for the image applies
theorem witness_Management :
    Mgmt.reset.mode = .starting ∧ Mgmt.reset.running = false ∧ (383 < 384 ∧ (384 : Nat) ≤ 384) ∧
    (goodBoot.loaderOk = true ∧ goodBoot.sysMemBad = none ∧ goodBoot.dramBad = none ∧ goodBoot.powerBad = none ∧ 4 ≤ goodBoot.poolGiB ∧
      (∀ st, Config.imageSigned st = false ∨ (Config.imageSigned st = true ∧ Mgmt.reset.minSvn.toNat ≤ (Config.imageSvn st).toNat)) ∧
      ∀ e ∈ State.reset.errs, e.2.lasting = true ∨ e.2.due = true → e.2.retired = true ∨ (e.1 / 4096 ≠ 1 ∧ e.1 / 4096 ≠ 2)) ∧
    (∀ mode ∈ [DevMode.normal, .minimal], (managed mode []).mgmt.mode = mode ∧ (managed mode []).jobs = [] ∧
      (managed mode []).hostOk 65536 4096 = true ∧ (1 : W32).getLsbD 0 = true) ∧
    ({ State.reset with hostHoles := [(0, 65536)] } : State).hostOk 65535 1 = false ∧
    (3 : W32).setWidth 2 = (3 : BitVec 2) ∧ (managed .normal [(0, aJob)]).jobs ≠ [] := by
  refine ⟨rfl, rfl, by decide, ⟨rfl, rfl, rfl, rfl, by decide, fun st => ?_, by decide⟩, ?_, by decide +kernel, by decide, by decide⟩
  · cases h : Config.imageSigned st
    · exact .inl rfl
    · exact .inr ⟨rfl, Nat.zero_le _⟩
  intro mode h
  simp only [List.mem_cons, List.not_mem_nil, or_false] at h
  rcases h with rfl | rfl <;> exact ⟨rfl, rfl, by decide, by decide⟩
-- a read of two bytes, and one at a misaligned offset
theorem witness_DeviceStatus : ((2 : Nat) ≠ 4 ∨ (0 : Nat) % 4 ≠ 0) ∧ ((4 : Nat) ≠ 4 ∨ (2 : Nat) % 4 ≠ 0) := by decide
/-- A job command `w` with its arguments runs; job 0 is resident. -/
def jobbing (w : W32) (args : List W32) : State :=
  { alone it0 with mgmt := { Mgmt.reset with mode := .normal, busy := true, jcmd := some (w, args), subaddr := 4096 }, jobs := [(0, { aJob with gens := [] })] }
theorem witness_JobCommands : ((jobbing 4 []).mgmt.mode = .normal ∧ (jobbing 4 []).mgmt.subWait = [] ∧
      (jobbing 4 []).cowRoom [(0, 4096), (0, 4097)] = true) ∧
   
    ((managed .normal []).mgmt.mode = .normal ∧ Mgmt.reset.busy = false ∧ Mgmt.reset.jcmd = none) ∧
    ((jobbing 4 [65536, 0, 4096, 0, 2]).mgmt.jcmd = some (4, [65536, 0, 4096, 0, 2]) ∧ AMap.find (jobbing 4 []).jobs 0 ≠ none ∧
      AMap.find (managed .normal []).jobs 1 = none ∧ badCounter 0xFFFFFFFF = true ∧ badCounter 0 = false) ∧
    ((jobbing 4 []).hostOk 65536 2 = true ∧ (∀ k < 2, ∃ x, (jobbing 4 []).translate 0 (4096 + BitVec.ofNat 64 k) = .ok x ∧
        x.gv = false ∧ x.rd = true ∧ x.wr = true ∧ x.attr ≠ aPHASE ∧ x.pa = 4096 + k ∧ x.pa ∉ (jobbing 4 []).memErr ∧
        (jobbing 4 []).cowOk 0 (x.va + x.pa % x.size) = true) ∧
      (∃ r, (jobbing 4 []).translate 0 (2 ^ 40) = .fail r) ∧ ({ jobbing 4 [] with hostHoles := [(0, 65536)] } : State).hostOk 65535 2 = false) ∧
    ((0 : W32) ++ lo32 (jobbing 4 []).mgmt.subaddr = (4096 : W64) ∧ (4096 : W64).toNat % 128 = 0 ∧
      (∀ k < 128, ∃ x, (jobbing 4 []).translate 0 (4096 + BitVec.ofNat 64 k) = .ok x ∧ x.rd = true ∧ x.gv = false ∧ x.pa = 4096 + k ∧
        x.pa ∉ (jobbing 4 []).memErr) ∧ readsTable (List.replicate 128 0) = true ∧ rcountOf (List.replicate 128 0) = 0 ∧ (jobbing 4 []).queueFull .device = false) := by
  have h : ∀ k < 128, ∃ x, (jobbing 4 []).translate 0 (4096 + BitVec.ofNat 64 k) = .ok x ∧
      (x.rd = true ∧ x.wr = true ∧ x.gv = false ∧ x.attr ≠ aPHASE) ∧ x.pa = 4096 + k ∧ x.pa ∉ (jobbing 4 []).memErr ∧
      (jobbing 4 []).cowOk 0 (x.va + x.pa % x.size) = true := by
    intro k h
    have : (match (jobbing 4 []).translate 0 (4096 + BitVec.ofNat 64 k) with
        | .ok x => decide ((x.rd = true ∧ x.wr = true ∧ x.gv = false ∧ x.attr ≠ aPHASE) ∧ x.pa = 4096 + k ∧ x.pa ∉ (jobbing 4 []).memErr ∧
            (jobbing 4 []).cowOk 0 (x.va + x.pa % x.size) = true)
        | _ => false) = true := by
      revert k
      decide +kernel
    split at this
    · next x e => exact ⟨x, e, of_decide_eq_true this⟩
    · cases this
  refine ⟨⟨rfl, rfl, by decide +kernel⟩, ⟨rfl, rfl, rfl⟩, ⟨rfl, by decide, rfl, by decide, by decide⟩, ⟨by decide, ?_, ⟨_, rfl⟩, by decide⟩,
    by decide, by decide, ?_, by decide +kernel, by decide +kernel, by decide +kernel⟩
  · intro k l
    obtain ⟨x, e, ⟨a, b, c, d⟩, p, q, r⟩ := h k (by omega)
    exact ⟨x, e, c, a, b, d, p, q, r⟩
  · intro k l
    obtain ⟨x, e, ⟨a, b, c, d⟩, p, q, r⟩ := h k l
    exact ⟨x, e, a, c, p, q⟩
/-- A descriptor at host address 4096: monitor entry 8, no mappings, weight 1, no routing records. A mapping record at 8192: one
page of 64 KiB at 65536. -/
def hostMem : Cells :=
  Cells.writeN (Cells.writeN [] 4096 (leBytes (8 + 2 ^ 144) 64)) 8192 (leBytes (65536 + 2 ^ 64 * (1 + 7 * 2 ^ 26)) 32)
def creating (w : W32) (args : List W32) : State := { jobbing w args with host := hostMem }
def aRec0 : MapRec := mapRec (hostMem.readN 8192 32)
theorem witness_JobMemory : ((creating 2 []).mgmt.mode = .normal) ∧
   
    ((creating 0x101 [4096, 0]).mgmt.jcmd = some (0x101, [4096, 0]) ∧ AMap.find (creating 0x101 [4096, 0]).jobs 1 = none ∧
      (let d := hostMem.readN 4096 64
       let q := fun (k : Nat) => leNat ((d.drop (8 * k)).take 8)
       q 0 = 8 ∧ q 1 = 0 ∧ q 2 = 2 ^ 16 ∧ q 3 = 0 ∧ q 4 = 0 ∧ ∀ b ∈ d.drop 40, b = 0) ∧
      (creating 0x101 [4096, 0]).hostOk 4096 64 = true ∧ (creating 0x101 [4096, 0]).frame 1 = some 6) ∧
    ((creating 2 [8192, 0, 1]).mgmt.jcmd = some (2, [8192, 0, 1]) ∧ AMap.find (creating 2 [8192, 0, 1]).jobs 0 ≠ none ∧
      aRec0.ok 0 = true ∧ (creating 2 []).vaFree 0 65536 131072 = true ∧ aRec0.init = 0 ∧
      (∃ t, (creating 2 []).mapOne 0 aRec0 = some t ∧ t.mgmt = (creating 2 []).mgmt) ∧
      (∃ t, (creating 2 []).mapPage 0 aRec0 65536 = some t) ∧ hostMem.wf = true ∧ ({ aRec0 with owner := 1 } : MapRec).owner ≠ State.reset.devId.toNat) ∧
    ((creating 2 []).leavesIn 0 0 65536 = [progPage] ∧ leafBytes (pteSize progPage.2.2) = 65536 ∧ (creating 2 []).stalled = [] ∧
      (∃ u, (creating 2 []).cleanRange 0 65536 = some u ∧ ∀ b, AMap.find u.jobs 0 = some b → b.gens = []) ∧
      (∃ t, (creating 2 []).dropPage 0 progPage true = some t ∧ t.mgmt = (creating 2 []).mgmt)) ∧
    (let s : State := { jobbing 8 [] with launches := [(1, { aLaunch placeCard with st := .done })] }
     (∀ e ∈ s.launchesOf 0, e.2.st = .done) ∧ ∃ b t, AMap.find s.jobs 0 = some b ∧ s.freeJob 0 b = some t) :=
  ⟨rfl, ⟨rfl, rfl, by decide +kernel, by decide, by decide +kernel⟩,
    ⟨rfl, by decide, by decide +kernel, by decide +kernel, by decide +kernel, ⟨_, rfl, rfl⟩, ⟨_, rfl⟩, by decide +kernel, by decide⟩,
    ⟨by decide +kernel, by decide, rfl, ⟨_, rfl, by decide +kernel⟩, ⟨_, rfl, rfl⟩⟩,
    by decide +kernel, _, _, rfl, rfl⟩
-- a word, and a word of two units
theorem witness_EncodeThenDecode :
    wf 8 4096 (.svc noGuard 1) = true ∧ (∃ w ws, encode (.svc noGuard 1) = w :: ws) ∧
    wf 8 4096 (.movi64 noGuard false 2 0x123456789) = true ∧ (∃ w ws, encode (.movi64 noGuard false 2 0x123456789) = w :: ws) :=
  ⟨by decide, ⟨_, _, rfl⟩, by decide, ⟨_, _, rfl⟩⟩
/-- `BRA` with condition `!p2` and a positive offset, placed where the next step fetches. -/
def braState : State := State.reset.withFetchWord 64 0x6005000000000005
theorem witness_StepRunsDecoded :
    let s := braState
    let r : State := { s with agenda := [], cur := Cur.none, moved := false, trapped := [] }
    ∃ c w w2 i, s.agenda = [.issue (.bundle placeItem)] ∧ r.pick (.bundle placeItem) = some c ∧ c.span = none ∧
      (∀ ik ∈ c.items, (s.groupD (groupOf ik)).haltReq = false ∧ (s.groupD (groupOf ik)).stepping = false ∧
        ({ r with cur := c } : State).trapDue ik = false ∧ ({ r with cur := c } : State).breakAt ik = none) ∧
      ({ r with cur := c } : State).leaving = none ∧ ({ r with cur := c } : State).fetch (jobOfLaunch (launchOf (c.items.headD 0))) c.pc = .word w w2 ∧
      decode w w2 = .ok i ∧ wf (({ r with cur := c } : State).quotaOf (launchOf (c.items.headD 0))) c.pc i = true ∧ s.mgmt.pstate ≠ 2 :=
  ⟨⟨0, 0, [placeItem], none, 4096⟩, 0x6005000000000005, 0, .bra ⟨2, true⟩ 5, by decide +kernel, by decide +kernel, rfl, by decide +kernel,
    by decide +kernel, by decide +kernel, by decide +kernel, by decide +kernel, by decide +kernel⟩
/-- A set that is being merged into one shard; a matrix operation of every kind on a team with two tiles. -/
def reshaping : State := { alone it0 with jobs := [(0, { aJob with sets := [(1, { aSet none with conv := some ⟨.shards 0, .running, 0, [(0, 1)]⟩ })] })] }
def workingOn (m : MtxOp) : State := { working m with teams := [(placeTeamKey, tm2)], bops := [(0, ⟨1, [], []⟩)] }
theorem witness_DirectCompletions :
    (Ready ∧ it0.pc = (alone it0).cur.pc ∧ it0.wait? = none ∧ Group.start.exch = [] ∧ Reads (alone it0) ik0 it0 Group.start (.v 1) 1 false 1 ∧
      (1 : W64).getLsbD (posOf ik0) = true ∧ ∀ q < 16, q ≠ posOf ik0 → (1 : W64).getLsbD q = true → (alone it0).liveAt (groupOf ik0) q = false) ∧
    (∀ k ∈ [OpKind.load (aLoad none), .atomic (aLoad none)], AMap.find (loading k).ops 0 = some ⟨0, 1, 0, 1, 4096, k⟩ ∧
      (loading k).landsAt ⟨0, 1, 0, 1, 4096, k⟩ (.v 0) = [ik0] ∧ (loading k).landsIn ⟨0, 1, 0, 1, 4096, k⟩ (.v 0) = [] ∧
      (∀ e ∈ (loading k).ops, e.1 = 0) ∧ (aLoad none).pend = false ∧ (aLoad none).want = none) ∧
    (∀ m ∈ [MtxOp.mma mmaC 1 0 1 0 1 [], .mmac mmaC 1 0 0 0 [], .azero 0 1, .ascac 0 1 1 0, .adrs ⟨0, .b32, 0, 0, 0⟩ [⟨ik0, 0, 15, 15, 0⟩]],
      AMap.find (workingOn m).ops 0 = some ⟨0, 1, 0, 16, 4096, .mtx m⟩ ∧ (workingOn m).oldestOn 0 ⟨0, 1, 0, 16, 4096, .mtx m⟩ m = true ∧
      AMap.find (workingOn m).teams ((workingOn m).opTeam ⟨0, 1, 0, 16, 4096, .mtx m⟩) = some tm2 ∧ (workingOn m).teamOf ik0 = placeTeamKey ∧
      drainBad (workingOn m) placeTeamKey ⟨0, .b32, 0, 0, 0⟩ ⟨16, 16, .f32, [], [], []⟩ ⟨ik0, 0, 15, 15, 0⟩ = false) ∧
    tm2.unpublished = [] ∧ (∃ x y, tm2.tile 0 = some x ∧ tm2.tile 1 = some y ∧ x.rows ≤ 48 ∧ x.cols ≤ 640) ∧
    (∃ d c, reshaping.setAt? 0 1 = some d ∧ d.conv = some c ∧ c.st = .running ∧ c.goal = .shards 0) ∧
    (∀ m ∈ [CohMsg.gets 32 1 1 4, .getm 32 1 1 4, .far 32 aFar, .wb 32 1 false],
      takeMsg (atHome 32) (messaged m ⟨.i, none, [], none⟩).coh = some (m, []) ∧ ((messaged m ⟨.i, none, [], none⟩).dirOf 32).busy = none ∧
      (messaged m ⟨.i, none, [], none⟩).l2Ready 32 4 = true ∧ (messaged m ⟨.i, none, [], none⟩).gathers = []) ∧
    takeMsg (ackTo 32 1) [.ack 32 1] = some (.ack 32 1, []) ∧
    takeMsg (dataTo 32 1) [.data 32 1 1 1 4 .m false true] = some (.data 32 1 1 1 4 .m false true, []) ∧
    (onCore (alone it0) { Core.reset with dlaunch := 1 }).dbgLaunch 0 = some 1 ∧
    ((managed .normal []).mgmt.mode = .normal ∧ (managed .normal []).mgmt.busy = false) := by
  refine ⟨⟨ready, rfl, rfl, rfl, rfl, rfl, by decide⟩, ?_, ?_, rfl, ⟨_, _, rfl, rfl, by decide, by decide⟩, ⟨_, _, rfl, rfl, rfl, rfl⟩, ?_, rfl, rfl, rfl, rfl, rfl⟩
  · intro k h
    simp only [List.mem_cons, List.not_mem_nil, or_false] at h
    rcases h with rfl | rfl <;> exact ⟨rfl, rfl, rfl, by decide, rfl, rfl⟩
  · intro m h
    simp only [List.mem_cons, List.not_mem_nil, or_false] at h
    rcases h with rfl | rfl | rfl | rfl | rfl <;> exact ⟨rfl, rfl, rfl, rfl, rfl⟩
  · intro m h
    simp only [List.mem_cons, List.not_mem_nil, or_false] at h
    rcases h with rfl | rfl | rfl | rfl <;> exact ⟨rfl, rfl, by decide +kernel, rfl⟩
theorem witness_MemoryStaysCanonical : State.reset.Inv ∧ ∃ t, step State.reset = .next t := ⟨⟨rfl, rfl, rfl⟩, _, rfl⟩
end Sys2Proof.Tests
end

section
/-! The predicates of an item (R48): what a start gives them, and that `p0` is out of every write's reach. -/

namespace Sys2Proof.Machine

/-- `p0` reads true whatever the item's predicate byte holds. -/
@[simp] theorem Item.pred_zero (it : Item) : it.pred 0 = true := rfl

/-- The predicate byte of a start is `1`: its bits 1 to 7, which `p1` to `p7` read, are clear. -/
theorem Item.start_pred (q : Nat) (pc : W64) {n : BitVec 3} (hn : n ≠ 0) : (Item.start q pc).pred n = false := by
  have hbit : (1 : BitVec 8).getLsbD n.toNat = false := by
    have : n.toNat ≠ 0 := fun e => hn (BitVec.eq_of_toNat_eq e)
    simp [BitVec.getLsbD_one, this]
  exact Bool.or_eq_false_iff.2 ⟨beq_false_of_ne hn, hbit⟩

/-- A write to `p0` is discarded. -/
@[simp] theorem Item.setPred_zero (it : Item) (b : Bool) : it.setPred 0 b = it := if_pos rfl

/-- A write to one of `p1` to `p7` is read back there, and the other predicates keep their value. -/
theorem Item.setPred_pred_of_ne_zero (it : Item) {n : BitVec 3} (hn : n ≠ 0) (m : BitVec 3) (b : Bool) :
    (it.setPred n b).pred m = if m = n then b else it.pred m := by
  simp only [setPred_pred, and_iff_left hn]

/-- Settles O13: the start's byte, the two cases that set `p0` apart, and what a predicate write does to a later read. -/
theorem predicates : Obligations.Predicates :=
  ⟨fun q pc _ hn => Item.start_pred q pc hn, Item.pred_zero, Item.setPred_zero,
    fun it _ m b hn => Item.setPred_pred_of_ne_zero it hn m b⟩

end Sys2Proof.Machine
end

section
/-! The device status register of the management window (R368, R369): what its number says field by field. -/

namespace Sys2Proof.Machine

/-- Appending low bits adds: the high part stands `m` places up. -/
theorem toNat_append_eq_add {n m : Nat} (x : BitVec n) (y : BitVec m) : (x ++ y).toNat = x.toNat * 2 ^ m + y.toNat := by
  rw [BitVec.toNat_append, ← Nat.shiftLeft_add_eq_or_of_lt y.isLt, Nat.shiftLeft_eq]

theorem flagN_eq_mul (b : Bool) (n : Nat) : flagN b n = (BitVec.ofBool b).toNat * 2 ^ n := by
  cases b <;> simp [flagN]

theorem DevMode.code_lt (d : DevMode) : d.code < 2 ^ 2 := by
  cases d <;> decide

/-- The fields of `devstat` are disjoint, so the sum that the model takes of them is their concatenation (R369). -/
theorem Mgmt.ofNat_devstat (m : Mgmt) :
    BitVec.ofNat 32 m.devstat =
      BitVec.ofNat 2 m.mode.code ++ BitVec.ofBool m.ltfull ++ m.pstate ++ m.fails ++ 0#9 ++ m.svn := by
  apply BitVec.eq_of_toNat_eq
  have hlt := (BitVec.ofNat 2 m.mode.code ++ BitVec.ofBool m.ltfull ++ m.pstate ++ m.fails ++ 0#9 ++ m.svn).isLt
  simp only [toNat_append_eq_add, BitVec.toNat_ofNat, Nat.mod_eq_of_lt m.mode.code_lt, devstat, flagN_eq_mul] at hlt ⊢
  omega

/-- An access that is not an aligned one of 32 bits reads 0 (R368). -/
theorem State.windowRead_of_not_aligned_word (s : State) {off n : Nat} (h : n ≠ 4 ∨ off % 4 ≠ 0) : s.windowRead off n = 0 :=
  if_pos (by simpa using .inl h)

/-- `devstat` stands at offset 0 and is read in every mode, in minimal mode too (R368, R370). -/
theorem State.windowRead_devstat (s : State) : s.windowRead 0 4 = BitVec.ofNat 32 s.mgmt.devstat := by
  have hacts : s.mgmt.acts 0 = true := by simp [Mgmt.acts]
  simp [windowRead, hacts]

/-- Settles O52: the read of `devstat` gives its number, whose fields are those of R369. -/
theorem deviceStatus : Obligations.DeviceStatus := fun s =>
  ⟨fun _ _ h => s.windowRead_of_not_aligned_word h, s.windowRead_devstat.trans s.mgmt.ofNat_devstat⟩

end Sys2Proof.Machine
end
